-- ==== Sys2Proof/Word.lean ====
section
/-!
DEFINITION. The word types of the CB-64: 64-bit registers, bytes, and the plainest arithmetic on them (R2, R4).
-/

namespace Sys2Proof

/-- A scalar register or a word of memory: 64 bits. -/
abbrev Word := BitVec 64

/-- The smallest addressable unit. -/
abbrev Byte := BitVec 8

/-- A scalar or vector register number (x0 to x31, v0 to v31). -/
abbrev Reg := BitVec 5

/-- A predicate register number (p0 to p15), or a column register number (k0 to k15). -/
abbrev PReg := BitVec 4

/-- An owner identifier (R28). -/
abbrev Owner := BitVec 16

/-- A number `n` as an aligned address rounded down to a multiple of `k`. -/
def alignDown (n k : Nat) : Nat := n - n % k

/-- A number `n` rounded up to a multiple of `k`. -/
def alignUp (n k : Nat) : Nat := (n + k - 1) / k * k

end Sys2Proof
end

