-- ==== Sys2Proof/Machine/Crypto.lean ====
section
/-!
DEFINITION. The cryptography that the manual cites: AES-256-XTS (R31, IEEE 1619), SHAKE256 (R462) and Ed448 with Ed448ph
(R462, R464, RFC 8032), as functions on lists of bytes held as natural numbers below 256.
-/

namespace Sys2Proof.Machine

/-! ### AES-256 (FIPS 197) -/

/-- The substitution box of AES. -/
def aesSbox : List Nat :=
  [0x63, 0x7c, 0x77, 0x7b, 0xf2, 0x6b, 0x6f, 0xc5, 0x30, 0x01, 0x67, 0x2b, 0xfe, 0xd7, 0xab, 0x76] ++
  [0xca, 0x82, 0xc9, 0x7d, 0xfa, 0x59, 0x47, 0xf0, 0xad, 0xd4, 0xa2, 0xaf, 0x9c, 0xa4, 0x72, 0xc0] ++
  [0xb7, 0xfd, 0x93, 0x26, 0x36, 0x3f, 0xf7, 0xcc, 0x34, 0xa5, 0xe5, 0xf1, 0x71, 0xd8, 0x31, 0x15] ++
  [0x04, 0xc7, 0x23, 0xc3, 0x18, 0x96, 0x05, 0x9a, 0x07, 0x12, 0x80, 0xe2, 0xeb, 0x27, 0xb2, 0x75] ++
  [0x09, 0x83, 0x2c, 0x1a, 0x1b, 0x6e, 0x5a, 0xa0, 0x52, 0x3b, 0xd6, 0xb3, 0x29, 0xe3, 0x2f, 0x84] ++
  [0x53, 0xd1, 0x00, 0xed, 0x20, 0xfc, 0xb1, 0x5b, 0x6a, 0xcb, 0xbe, 0x39, 0x4a, 0x4c, 0x58, 0xcf] ++
  [0xd0, 0xef, 0xaa, 0xfb, 0x43, 0x4d, 0x33, 0x85, 0x45, 0xf9, 0x02, 0x7f, 0x50, 0x3c, 0x9f, 0xa8] ++
  [0x51, 0xa3, 0x40, 0x8f, 0x92, 0x9d, 0x38, 0xf5, 0xbc, 0xb6, 0xda, 0x21, 0x10, 0xff, 0xf3, 0xd2] ++
  [0xcd, 0x0c, 0x13, 0xec, 0x5f, 0x97, 0x44, 0x17, 0xc4, 0xa7, 0x7e, 0x3d, 0x64, 0x5d, 0x19, 0x73] ++
  [0x60, 0x81, 0x4f, 0xdc, 0x22, 0x2a, 0x90, 0x88, 0x46, 0xee, 0xb8, 0x14, 0xde, 0x5e, 0x0b, 0xdb] ++
  [0xe0, 0x32, 0x3a, 0x0a, 0x49, 0x06, 0x24, 0x5c, 0xc2, 0xd3, 0xac, 0x62, 0x91, 0x95, 0xe4, 0x79] ++
  [0xe7, 0xc8, 0x37, 0x6d, 0x8d, 0xd5, 0x4e, 0xa9, 0x6c, 0x56, 0xf4, 0xea, 0x65, 0x7a, 0xae, 0x08] ++
  [0xba, 0x78, 0x25, 0x2e, 0x1c, 0xa6, 0xb4, 0xc6, 0xe8, 0xdd, 0x74, 0x1f, 0x4b, 0xbd, 0x8b, 0x8a] ++
  [0x70, 0x3e, 0xb5, 0x66, 0x48, 0x03, 0xf6, 0x0e, 0x61, 0x35, 0x57, 0xb9, 0x86, 0xc1, 0x1d, 0x9e] ++
  [0xe1, 0xf8, 0x98, 0x11, 0x69, 0xd9, 0x8e, 0x94, 0x9b, 0x1e, 0x87, 0xe9, 0xce, 0x55, 0x28, 0xdf] ++
  [0x8c, 0xa1, 0x89, 0x0d, 0xbf, 0xe6, 0x42, 0x68, 0x41, 0x99, 0x2d, 0x0f, 0xb0, 0x54, 0xbb, 0x16]

/-- Its inverse. -/
def aesInvSbox : List Nat :=
  [0x52, 0x09, 0x6a, 0xd5, 0x30, 0x36, 0xa5, 0x38, 0xbf, 0x40, 0xa3, 0x9e, 0x81, 0xf3, 0xd7, 0xfb] ++
  [0x7c, 0xe3, 0x39, 0x82, 0x9b, 0x2f, 0xff, 0x87, 0x34, 0x8e, 0x43, 0x44, 0xc4, 0xde, 0xe9, 0xcb] ++
  [0x54, 0x7b, 0x94, 0x32, 0xa6, 0xc2, 0x23, 0x3d, 0xee, 0x4c, 0x95, 0x0b, 0x42, 0xfa, 0xc3, 0x4e] ++
  [0x08, 0x2e, 0xa1, 0x66, 0x28, 0xd9, 0x24, 0xb2, 0x76, 0x5b, 0xa2, 0x49, 0x6d, 0x8b, 0xd1, 0x25] ++
  [0x72, 0xf8, 0xf6, 0x64, 0x86, 0x68, 0x98, 0x16, 0xd4, 0xa4, 0x5c, 0xcc, 0x5d, 0x65, 0xb6, 0x92] ++
  [0x6c, 0x70, 0x48, 0x50, 0xfd, 0xed, 0xb9, 0xda, 0x5e, 0x15, 0x46, 0x57, 0xa7, 0x8d, 0x9d, 0x84] ++
  [0x90, 0xd8, 0xab, 0x00, 0x8c, 0xbc, 0xd3, 0x0a, 0xf7, 0xe4, 0x58, 0x05, 0xb8, 0xb3, 0x45, 0x06] ++
  [0xd0, 0x2c, 0x1e, 0x8f, 0xca, 0x3f, 0x0f, 0x02, 0xc1, 0xaf, 0xbd, 0x03, 0x01, 0x13, 0x8a, 0x6b] ++
  [0x3a, 0x91, 0x11, 0x41, 0x4f, 0x67, 0xdc, 0xea, 0x97, 0xf2, 0xcf, 0xce, 0xf0, 0xb4, 0xe6, 0x73] ++
  [0x96, 0xac, 0x74, 0x22, 0xe7, 0xad, 0x35, 0x85, 0xe2, 0xf9, 0x37, 0xe8, 0x1c, 0x75, 0xdf, 0x6e] ++
  [0x47, 0xf1, 0x1a, 0x71, 0x1d, 0x29, 0xc5, 0x89, 0x6f, 0xb7, 0x62, 0x0e, 0xaa, 0x18, 0xbe, 0x1b] ++
  [0xfc, 0x56, 0x3e, 0x4b, 0xc6, 0xd2, 0x79, 0x20, 0x9a, 0xdb, 0xc0, 0xfe, 0x78, 0xcd, 0x5a, 0xf4] ++
  [0x1f, 0xdd, 0xa8, 0x33, 0x88, 0x07, 0xc7, 0x31, 0xb1, 0x12, 0x10, 0x59, 0x27, 0x80, 0xec, 0x5f] ++
  [0x60, 0x51, 0x7f, 0xa9, 0x19, 0xb5, 0x4a, 0x0d, 0x2d, 0xe5, 0x7a, 0x9f, 0x93, 0xc9, 0x9c, 0xef] ++
  [0xa0, 0xe0, 0x3b, 0x4d, 0xae, 0x2a, 0xf5, 0xb0, 0xc8, 0xeb, 0xbb, 0x3c, 0x83, 0x53, 0x99, 0x61] ++
  [0x17, 0x2b, 0x04, 0x7e, 0xba, 0x77, 0xd6, 0x26, 0xe1, 0x69, 0x14, 0x63, 0x55, 0x21, 0x0c, 0x7d]

/-- A byte through a table. -/
def lookup (t : List Nat) (b : Nat) : Nat := t.getD b 0

/-- Multiplication by x in the field of AES. -/
def xtime (b : Nat) : Nat := if b < 128 then 2 * b else (2 * b - 256) ^^^ 0x1b

/-- Multiplication in the field of AES by a constant of four bits. -/
def gmul (k b : Nat) : Nat :=
  let b2 := xtime b
  let b4 := xtime b2
  let b8 := xtime b4
  (if k % 2 = 1 then b else 0) ^^^ (if k / 2 % 2 = 1 then b2 else 0) ^^^ (if k / 4 % 2 = 1 then b4 else 0)
    ^^^ (if k / 8 % 2 = 1 then b8 else 0)

/-- Exclusive OR of two byte lists. -/
def xorBytes (a b : List Nat) : List Nat := List.zipWith (· ^^^ ·) a b

/-- One column through a mixing matrix whose first row is a b c d. -/
def mixColumn (a b c d : Nat) : List Nat → List Nat
  | [w, x, y, z] =>
    [gmul a w ^^^ gmul b x ^^^ gmul c y ^^^ gmul d z, gmul d w ^^^ gmul a x ^^^ gmul b y ^^^ gmul c z,
     gmul c w ^^^ gmul d x ^^^ gmul a y ^^^ gmul b z, gmul b w ^^^ gmul c x ^^^ gmul d y ^^^ gmul a z]
  | l => l

/-- All four columns of a state. -/
def mixColumns (a b c d : Nat) (s : List Nat) : List Nat :=
  mixColumn a b c d (s.take 4) ++ mixColumn a b c d ((s.drop 4).take 4) ++ mixColumn a b c d ((s.drop 8).take 4)
    ++ mixColumn a b c d ((s.drop 12).take 4)

/-- The bytes of a state in a new order. -/
def permuteBytes (p : List Nat) (s : List Nat) : List Nat := p.map fun i => s.getD i 0

/-- ShiftRows as an order of bytes. -/
def shiftRows : List Nat := [0, 5, 10, 15, 4, 9, 14, 3, 8, 13, 2, 7, 12, 1, 6, 11]

/-- Its inverse. -/
def invShiftRows : List Nat := [0, 13, 10, 7, 4, 1, 14, 11, 8, 5, 2, 15, 12, 9, 6, 3]

/-- Key expansion: words so far newest first, `n` words still to make, word index `i`. -/
def expandKey : Nat → Nat → Nat → List (List Nat) → List (List Nat)
  | 0, _, _, ws => ws
  | n + 1, i, rcon, ws =>
    let prev := ws.getD 0 []
    let t :=
      if i % 8 = 0 then
        xorBytes ((prev.drop 1 ++ prev.take 1).map (lookup aesSbox)) [rcon, 0, 0, 0]
      else if i % 8 = 4 then prev.map (lookup aesSbox)
      else prev
    expandKey n (i + 1) (if i % 8 = 0 then xtime rcon else rcon) (xorBytes (ws.getD 7 []) t :: ws)

/-- The words of a key of 32 bytes, newest first. -/
def keyWords : List Nat → List (List Nat)
  | a :: b :: c :: d :: rest => keyWords rest ++ [[a, b, c, d]]
  | _ => []

/-- The 15 round keys of a 32-byte key, in order. -/
def roundKeys (key : List Nat) : List (List Nat) :=
  let ws := (expandKey 52 8 1 (keyWords key)).reverse
  (List.range 15).map fun r => ((ws.drop (4 * r)).take 4).flatten

/-- The rounds between the first and the last. -/
def aesRounds (ks : List (List Nat)) (s : List Nat) : List Nat :=
  ks.foldl (fun s k => xorBytes (mixColumns 2 3 1 1 (permuteBytes shiftRows (s.map (lookup aesSbox)))) k) s

/-- AES-256 encryption of a 16-byte block under round keys. -/
def aesEncrypt (ks : List (List Nat)) (b : List Nat) : List Nat :=
  let s := aesRounds ((ks.drop 1).take 13) (xorBytes b (ks.getD 0 []))
  xorBytes (permuteBytes shiftRows (s.map (lookup aesSbox))) (ks.getD 14 [])

/-- The inverse rounds, keys in falling order. -/
def aesInvRounds (ks : List (List Nat)) (s : List Nat) : List Nat :=
  ks.foldl (fun s k => mixColumns 14 11 13 9 (xorBytes ((permuteBytes invShiftRows s).map (lookup aesInvSbox)) k)) s

/-- AES-256 decryption of a 16-byte block under round keys. -/
def aesDecrypt (ks : List (List Nat)) (b : List Nat) : List Nat :=
  let s := aesInvRounds ((ks.drop 1).take 13).reverse (xorBytes b (ks.getD 14 []))
  xorBytes ((permuteBytes invShiftRows s).map (lookup aesInvSbox)) (ks.getD 0 [])

/-! ### XTS (IEEE 1619) -/

/-- The low `n` bytes of a number, least significant first. -/
def toBytes : Nat → Nat → List Nat
  | 0, _ => []
  | n + 1, v => v % 256 :: toBytes n (v / 256)

/-- The number whose bytes are given, least significant first. -/
def ofBytes : List Nat → Nat
  | [] => 0
  | b :: t => b + 256 * ofBytes t

/-- Multiplication of the tweak by the primitive element. -/
def xtsNext (t : Nat) : Nat := let d := 2 * t; if d < 2 ^ 128 then d else (d - 2 ^ 128) ^^^ 0x87

/-- Blocks of a data unit through a block cipher with the running tweak. -/
def xtsBlocks (f : List Nat → List Nat) : Nat → Nat → List Nat → List Nat
  | 0, _, _ => []
  | n + 1, t, l =>
    let tb := toBytes 16 t
    xorBytes (f (xorBytes (l.take 16) tb)) tb ++ xtsBlocks f n (xtsNext t) (l.drop 16)

/-- The two halves of a 512-bit key: data key in bits 255:0, tweak key in bits 511:256, bytes from the least
significant (R32). -/
def xtsKeys (key : BitVec 512) : List (List Nat) × List (List Nat) :=
  (roundKeys (toBytes 32 key.toNat), roundKeys (toBytes 32 (key.toNat / 2 ^ 256)))

/-- Encryption of a 64-byte data unit with the 128-bit tweak (R31). -/
def xtsEncrypt (key : BitVec 512) (tweak : Nat) (l : List Nat) : List Nat :=
  let (k1, k2) := xtsKeys key
  xtsBlocks (aesEncrypt k1) 4 (ofBytes (aesEncrypt k2 (toBytes 16 tweak))) l

/-- Decryption of a 64-byte data unit. -/
def xtsDecrypt (key : BitVec 512) (tweak : Nat) (l : List Nat) : List Nat :=
  let (k1, k2) := xtsKeys key
  xtsBlocks (aesDecrypt k1) 4 (ofBytes (aesEncrypt k2 (toBytes 16 tweak))) l

/-! ### SHAKE256 (FIPS 202) -/

/-- The round constants of Keccak-f[1600]. -/
def keccakRC : List Nat :=
  [0x0000000000000001, 0x0000000000008082, 0x800000000000808a, 0x8000000080008000, 0x000000000000808b, 0x0000000080000001] ++
  [0x8000000080008081, 0x8000000000008009, 0x000000000000008a, 0x0000000000000088, 0x0000000080008009, 0x000000008000000a] ++
  [0x000000008000808b, 0x800000000000008b, 0x8000000000008089, 0x8000000000008003, 0x8000000000008002, 0x8000000000000080] ++
  [0x000000000000800a, 0x800000008000000a, 0x8000000080008081, 0x8000000000008080, 0x0000000080000001, 0x8000000080008008]

/-- The rotation of lane x + 5 y. -/
def keccakRot : List Nat :=
  [0, 1, 62, 28, 27, 36, 44, 6, 55, 20, 3, 10, 43, 25, 39, 41, 45, 15, 21, 8, 18, 2, 61, 56, 14]

/-- A 64-bit rotation to the left. -/
def rotl64 (n v : Nat) : Nat := (v * 2 ^ n) % 2 ^ 64 ||| v / 2 ^ (64 - n)

/-- One round of Keccak-f[1600] on 25 lanes. -/
def keccakRound (a : List Nat) (rc : Nat) : List Nat :=
  let c := (List.range 5).map fun x =>
    a.getD x 0 ^^^ a.getD (x + 5) 0 ^^^ a.getD (x + 10) 0 ^^^ a.getD (x + 15) 0 ^^^ a.getD (x + 20) 0
  let d := (List.range 5).map fun x => c.getD ((x + 4) % 5) 0 ^^^ rotl64 1 (c.getD ((x + 1) % 5) 0)
  let e := (List.range 25).map fun i => rotl64 (keccakRot.getD i 0) (a.getD i 0 ^^^ d.getD (i % 5) 0)
  let b := (List.range 25).map fun i => e.getD ((i % 5 + 3 * (i / 5)) % 5 + 5 * (i % 5)) 0
  let r := (List.range 25).map fun i =>
    let y := 5 * (i / 5)
    b.getD i 0 ^^^ ((2 ^ 64 - 1 - b.getD (y + (i + 1) % 5) 0) &&& b.getD (y + (i + 2) % 5) 0)
  match r with
  | [] => []
  | h :: t => (h ^^^ rc) :: t

/-- Keccak-f[1600]. -/
def keccakF (a : List Nat) : List Nat := keccakRC.foldl keccakRound a

/-- The lanes of a 136-byte block. -/
def lanesOf : Nat → List Nat → List Nat
  | 0, _ => []
  | n + 1, l => ofBytes (l.take 8) :: lanesOf n (l.drop 8)

/-- Absorb `n` blocks of 136 bytes. -/
def absorb : Nat → List Nat → List Nat → List Nat
  | 0, st, _ => st
  | n + 1, st, l =>
    absorb n (keccakF (xorBytes st (lanesOf 17 (l.take 136) ++ List.replicate 8 0))) (l.drop 136)

/-- Squeeze `n` blocks. -/
def squeeze : Nat → List Nat → List Nat
  | 0, _ => []
  | n + 1, st => ((st.take 17).map (toBytes 8)).flatten ++ squeeze n (keccakF st)

/-- SHAKE256 of `l`, `n` bytes of output. -/
def shake256 (l : List Nat) (n : Nat) : List Nat :=
  let pad := 136 - l.length % 136
  let tail := if pad = 1 then [0x9f] else 0x1f :: List.replicate (pad - 2) 0 ++ [0x80]
  (squeeze ((n + 135) / 136) (absorb ((l.length + pad) / 136) (List.replicate 25 0) (l ++ tail))).take n

/-! ### Ed448 (RFC 8032, section 5.2) -/

/-- The field prime 2^448 - 2^224 - 1. -/
def edP : Nat := 2 ^ 448 - 2 ^ 224 - 1

/-- The group order. -/
def edL : Nat := 2 ^ 446 - 13818066809895115352007386748515426880336692474882178609894547503885

/-- The curve constant d = -39081. -/
def edD : Nat := edP - 39081

/-- b^e modulo m, over the low `n` bits of the exponent. -/
def powMod (m : Nat) : Nat → Nat → Nat → Nat → Nat
  | 0, _, _, acc => acc
  | n + 1, b, e, acc => powMod m n (b * b % m) (e / 2) (if e % 2 = 1 then acc * b % m else acc)

/-- Powers in the field. -/
def edPow (b e : Nat) : Nat := powMod edP 448 (b % edP) e 1

/-- A point in projective coordinates. -/
structure EdPoint where
  x : Nat
  y : Nat
  z : Nat
  deriving DecidableEq, Repr

/-- Addition on the curve x^2 + y^2 = 1 + d x^2 y^2 (complete). -/
def EdPoint.add (p q : EdPoint) : EdPoint :=
  let a := p.z * q.z % edP
  let b := a * a % edP
  let c := p.x * q.x % edP
  let d := p.y * q.y % edP
  let e := edD * c % edP * d % edP
  let f := (b + edP - e) % edP
  let g := (b + e) % edP
  let h := (p.x + p.y) * (q.x + q.y) % edP
  { x := a * f % edP * ((h + 2 * edP - c - d) % edP) % edP
    y := a * g % edP * ((d + edP - c) % edP) % edP
    z := f * g % edP }

/-- The neutral point. -/
def EdPoint.zero : EdPoint := ⟨0, 1, 1⟩

/-- k x p over the low `n` bits of k. -/
def EdPoint.mulBits : Nat → Nat → EdPoint → EdPoint → EdPoint
  | 0, _, _, acc => acc
  | n + 1, k, p, acc => EdPoint.mulBits n (k / 2) (p.add p) (if k % 2 = 1 then acc.add p else acc)

/-- k x p. -/
def EdPoint.mul (k : Nat) (p : EdPoint) : EdPoint := EdPoint.mulBits 448 k p .zero

/-- The base point. -/
def edBase : EdPoint :=
  { x := 224580040295924300187604334099896036246789641632564134246125461686950415467406032909029192869357953282578032075146446173674602635247710
    y := 298819210078481492676017930443930673437544040154080242095928241372331506189835876003536878655418784733982303233503462500531545062832660
    z := 1 }

/-- The encoding of a point: y in 57 bytes with the sign of x in the top bit. -/
def EdPoint.encode (p : EdPoint) : List Nat :=
  let zi := edPow p.z (edP - 2)
  let x := p.x * zi % edP
  let y := p.y * zi % edP
  toBytes 57 (y + x % 2 * 2 ^ 455)

/-- The point of an encoding, or none. -/
def EdPoint.ofBytes (l : List Nat) : Option EdPoint :=
  let v := Sys2Proof.Machine.ofBytes l
  let y := v % 2 ^ 455
  let sign := v / 2 ^ 455 % 2
  if edP ≤ y then none
  else
    let u := (y * y + edP - 1) % edP
    let w := (edD * (y * y % edP) + edP - 1) % edP
    let u3w := u * u % edP * u % edP * w % edP
    let x := u3w * edPow (u3w * u % edP * u % edP * w % edP * w % edP) ((edP - 3) / 4) % edP
    if w * (x * x % edP) % edP != u then none
    else if x = 0 && sign = 1 then none
    else some { x := if x % 2 = sign then x else edP - x, y := y, z := 1 }

/-- The domain prefix of Ed448 with a flag (1: prehash) and a context. -/
def dom4 (flag : Nat) (context : List Nat) : List Nat :=
  [0x53, 0x69, 0x67, 0x45, 0x64, 0x34, 0x34, 0x38, flag, context.length] ++ context

/-- The secret scalar and the prefix of a 57-byte seed. -/
def edExpand (seed : List Nat) : Nat × List Nat :=
  let h := shake256 seed 114
  let s := ofBytes (h.take 57)
  (s % 2 ^ 447 / 4 * 4 + 2 ^ 447, h.drop 57)

/-- The public key of a seed. -/
def edPublic (seed : List Nat) : List Nat := ((edBase).mul (edExpand seed).1).encode

/-- An Ed448 signature of `msg` (flag 0 pure, 1 prehashed). -/
def edSign (seed : List Nat) (flag : Nat) (context msg : List Nat) : List Nat :=
  let (s, pre) := edExpand seed
  let a := edPublic seed
  let r := ofBytes (shake256 (dom4 flag context ++ pre ++ msg) 114) % edL
  let rb := (edBase.mul r).encode
  let k := ofBytes (shake256 (dom4 flag context ++ rb ++ a ++ msg) 114) % edL
  rb ++ toBytes 57 ((r + k * s) % edL)

/-- Whether two points are equal. -/
def EdPoint.eqv (p q : EdPoint) : Bool := p.x * q.z % edP = q.x * p.z % edP && p.y * q.z % edP = q.y * p.z % edP

/-- Verification of an Ed448 signature (RFC 8032, 5.2.7, with the cofactor). -/
def edVerify (pub : List Nat) (flag : Nat) (context msg sig : List Nat) : Bool :=
  match EdPoint.ofBytes pub, EdPoint.ofBytes (sig.take 57) with
  | some a, some r =>
    let s := ofBytes (sig.drop 57)
    let k := ofBytes (shake256 (dom4 flag context ++ sig.take 57 ++ pub ++ msg) 114) % edL
    decide (s < edL) && (((edBase.mul s).mul 4).eqv ((r.add (a.mul k)).mul 4))
  | _, _ => false

end Sys2Proof.Machine
end

