-- ==== Sys2Proof/Syntax.lean ====
section
/-!
DEFINITION. The instructions of the CB-64 as syntax: one constructor of `Instr` for each row of the opcode table.
The first 203 constructors are the instruction forms of R181 to R201, with their operands as named fields; the other
75 are the steps of the part's other agents (control-register stores with an effect of their own, host commands,
fabric packets, scheduling and engine steps), which are no words of memory.
-/

namespace Sys2Proof

/-- A scalar floating-point type (R186). -/
inductive FTy where
  | f32 | bf16
  deriving DecidableEq, Repr

/-- An operand of FCVT (R186). -/
inductive CvtTy where
  | f32 | bf16 | i32 | u32 | i64 | u64
  deriving DecidableEq, Repr

/-- An element type of vtype (R190, codes 0x0 to 0x3). -/
inductive ElemTy where
  | i32 | i64 | f32 | bf16
  deriving DecidableEq, Repr

/-- A memory or matrix format (R190, codes 0x0 to 0xB). -/
inductive Fmt where
  | i32 | i64 | f32 | bf16 | f16 | e4m3 | e5m2 | i8 | i4 | i4x | e8m0 | e2m1
  deriving DecidableEq, Repr

/-- A condition code (R189, codes 0 to 11). -/
inductive Cond where
  | eq | ne | lt | le | gt | ge | ltu | leu | gtu | geu | uno | ord
  deriving DecidableEq, Repr

/-- A scope (R133, codes 0 to 4). -/
inductive Scope where
  | strand | cluster | die | module | system
  deriving DecidableEq, Repr

/-- The order suffix of an atomic or a fence (R186, R188). -/
inductive Order where
  | relaxed | acq | rel | ar
  deriving DecidableEq, Repr

/-- The size of a scalar access: 1, 2, 4 or 8 bytes (R186). -/
inductive MemSize where
  | b | h | w | d
  deriving DecidableEq, Repr

/-- The size of an atomic: 4, 8 or 16 bytes (R186). -/
inductive AmoSize where
  | w | d | q
  deriving DecidableEq, Repr

/-- The operation of an AMO (R186, codes 0 to 9). -/
inductive AmoOp where
  | swap | add | and | or | xor | min | max | minu | maxu | fadd
  deriving DecidableEq, Repr

/-- The operation of VRED (R193). -/
inductive RedOp where
  | sum | min | max | and | or | xor | minu | maxu
  deriving DecidableEq, Repr

/-- The operation of VSCAN (R193). -/
inductive ScanOp where
  | sum | min | max
  deriving DecidableEq, Repr

/-- The operation of KAGG (R197). -/
inductive AggOp where
  | sum | count | min | max
  deriving DecidableEq, Repr

/-- The fold of DRED (R201, R375). -/
inductive FoldOp where
  | fadd32 | add32 | add64 | fmin32 | fmax32
  deriving DecidableEq, Repr

/-- A Miller pattern (R199). -/
inductive Pattern where
  | p1x4 | p2x4 | p2x8 | p4x8
  deriving DecidableEq, Repr

/-- A cache policy (R76, codes 0 to 2). -/
inductive Pol where
  | default | stream | keep
  deriving DecidableEq, Repr

/-- What TLBINV invalidates (R188). -/
inductive InvKind where
  | page | owner | all
  deriving DecidableEq, Repr

/-- The selector of DSTAT (R385). -/
inductive DstatSel where
  | last | int | inflt | hint
  deriving DecidableEq, Repr

/-- The guard, chain and zeroing bits of a vector-format word (R191). -/
structure VCtl where
  c : Bool
  g : PReg
  n : Bool
  z : Bool
  deriving DecidableEq, Repr

/-- The guard and chain bits of a word whose Z bit is reserved (R192, R195). -/
structure GCtl where
  c : Bool
  g : PReg
  n : Bool
  deriving DecidableEq, Repr

/-- The fields of a vector memory word after its registers (R194): format, the O and S bits, the dependence counter,
the scope and the cache policy. -/
structure MCtl where
  fmt : Fmt
  o : Bool
  s : Bool
  d : BitVec 3
  scope : Scope
  pol : Pol
  deriving DecidableEq, Repr

/-- The request of SETVL: an immediate, or a scalar register other than x0 (R192). -/
inductive LenSrc where
  | imm (n : BitVec 16)
  | reg (xa : Reg)
  deriving DecidableEq, Repr

/-- The amount of VSLIDE: an immediate, or a scalar register (R192). -/
inductive SlideAmt where
  | imm (n : BitVec 14)
  | reg (xb : Reg)
  deriving DecidableEq, Repr

/-- The operands that DCOPY, DCOPY.2d share (R201): local base, handle operand, count or shape, record, counter,
user-level interrupt, direction (`put`) and the offset of the local address. -/
structure CopyArgs where
  xd : Reg
  xa : Reg
  xb : Reg
  xc : Reg
  d : BitVec 3
  u : Bool
  put : Bool
  off : BitVec 21
  deriving DecidableEq, Repr

/-- A strand of the module: 64 x die + 8 x cluster + strand index (R435). -/
abbrev Uid := BitVec 12

/-- A cluster of the module: 8 x die + cluster (R457). -/
abbrev Cid := BitVec 9

/-- A module number (R100). -/
abbrev ModNum := BitVec 19

/-- The live mask and the redraw count that a fabric packet carries (R113, R115). -/
structure PlaneView where
  mask : BitVec 4
  count : BitVec 24
  deriving DecidableEq, Repr

/-- What a remote request asks its target to do (R73, R105, R482). -/
inductive RemoteOp where
  /-- read `n` bytes. -/
  | load (n : Nat)
  /-- write the bytes whose mask entry is true (stores, copy sectors, commit lines). -/
  | store (bytes : List (Option Byte))
  /-- an AMO of R232. -/
  | amo (op : AmoOp) (size : AmoSize) (b : BitVec 128)
  /-- a CAS of R233: expected value, new value. -/
  | cas (size : AmoSize) (expected new : BitVec 128)
  /-- CLAIM: the wish m = min(x[xb], vlmax) (R482). -/
  | claim (m : Word)
  /-- a VSCADD update in the element's type (R291). -/
  | addElem (ty : ElemTy) (v : Word)
  /-- the masked write of a 4-bit store element, low or high half of its byte (R286). -/
  | nibble (high : Bool) (v : BitVec 4)
  /-- a DRED fold (R375). -/
  | fold (op : FoldOp) (v : Word)
  /-- a strip of folds from consecutive elements; none: an element that carries the mark of an error (R378, R449). -/
  | folds (op : FoldOp) (l : List (Option Word))
  /-- bytes that a copy or a commit writes, all at one instant, and the offsets of those that carry the mark of an error
  instead (R366, R421, R449). -/
  | copied (l : List (Option Byte)) (bad : List Nat)
  /-- a probe of the target's live mask (R116). -/
  | probe
  /-- an invalidation of translations (R246). -/
  | invalidate (f : InvKind) (va : Word) (owner : Owner)
  /-- the release of the fold entry of an operation (R378). -/
  | release (ident : Word)
  deriving DecidableEq, Repr

/-- Who at the requesting module makes a request, as records name it (R46). -/
structure Issuer where
  /-- the strand of the requesting module. -/
  uid : Uid
  /-- the access is made in user mode. -/
  user : Bool
  /-- access code (R46). -/
  acc : BitVec 3
  handle : BitVec 32
  ident : Word
  deriving DecidableEq, Repr

/-- A request packet that reaches this module as the target (R105, R115). `tag` is unique among the sender's
outstanding requests (R107). -/
structure Request where
  source : ModNum
  tag : Nat
  pa : BitVec 52
  /-- the virtual address to be translated here instead of `pa`: a handle with GLOBAL (R39, R91). -/
  virt : Option Word
  /-- the leaf marks the page clear (R31). -/
  clear : Bool
  owner : Owner
  issuer : Issuer
  op : RemoteOp
  view : PlaneView
  plane : BitVec 2
  replay : Bool
  deriving DecidableEq, Repr

/-- The final response of a target, or its refusal (R105, R113, R115). -/
inductive RemoteReply where
  /-- completed; the bytes read, or the old value of an atomic (little-endian). -/
  | done (data : List Byte)
  /-- CLAIM completed: next before, and the count granted (R482). -/
  | claimed (next n : Word)
  /-- an error response: the access was a violation at the target (R46). -/
  | violation
  /-- an error response: the host port at the target met a detached window (R98). -/
  | hostDetached
  /-- an error response: an uncorrectable error was consumed (R450). -/
  | poisoned
  /-- an error response: translation of a handle's BASE failed at the target (R91). -/
  | faulted
  /-- an error response: the address lies in a local hole or is not canonical, which is no violation (R45, R47). -/
  | outside
  /-- refused with REDRAWN, nothing applied (R115). -/
  | redrawn
  /-- a strip refused because no fold entry is free (R378). -/
  | noEntry
  deriving DecidableEq, Repr

/-- One strip of a remote reducing copy as it reaches its target (R378). -/
structure Strip where
  source : ModNum
  tag : Nat
  pa : BitVec 52
  /-- the virtual address to be translated here instead of `pa` (R39). -/
  virt : Option Word
  /-- the leaf marks the page clear (R31). -/
  clear : Bool
  owner : Owner
  issuer : Issuer
  ident : Word
  index : Nat
  count : Nat
  op : FoldOp
  /-- none: an element that carries the mark of an error (R449). -/
  elems : List (Option Word)
  view : PlaneView
  plane : BitVec 2
  replay : Bool
  deriving DecidableEq, Repr

/-- A unit that an error strikes or a scrub reads (R448): a local line word, or a unit of translated storage. -/
inductive MarkUnit where
  /-- 8 bytes of a TCM half. -/
  | tcm (uid : Uid) (word : BitVec 14)
  /-- 8 bytes of a scratchpad. -/
  | spad (cid : Cid) (word : BitVec 20)
  /-- 64 bytes at a physical address (module SRAM, pooled memory, host-homed memory). -/
  | phys (unit : BitVec 46)
  deriving DecidableEq, Repr

/-- One constructor for each row of the opcode table, in the table's order. -/
inductive Instr where
  /-- ADD (R224). -/
  | add (xd xa xb : Reg)
  /-- SUB (R224). -/
  | sub (xd xa xb : Reg)
  /-- MUL (R224). -/
  | mul (xd xa xb : Reg)
  /-- MULH (R224). -/
  | mulh (xd xa xb : Reg)
  /-- MULHU (R224). -/
  | mulhu (xd xa xb : Reg)
  /-- DIV (R224). -/
  | div (xd xa xb : Reg)
  /-- DIVU (R224). -/
  | divu (xd xa xb : Reg)
  /-- REM (R224). -/
  | rem (xd xa xb : Reg)
  /-- REMU (R224). -/
  | remu (xd xa xb : Reg)
  /-- AND (R224). -/
  | and (xd xa xb : Reg)
  /-- OR (R224). -/
  | or (xd xa xb : Reg)
  /-- XOR (R224). -/
  | xor (xd xa xb : Reg)
  /-- SHL (R224). -/
  | shl (xd xa xb : Reg)
  /-- SHR (R224). -/
  | shr (xd xa xb : Reg)
  /-- SRA (R224). -/
  | sra (xd xa xb : Reg)
  /-- SLT (R224). -/
  | slt (xd xa xb : Reg)
  /-- SLTU (R224). -/
  | sltu (xd xa xb : Reg)
  /-- MIN (R224). -/
  | min (xd xa xb : Reg)
  /-- MAX (R224). -/
  | max (xd xa xb : Reg)
  /-- CLZ (R224). -/
  | clz (xd xa : Reg)
  /-- POPC (R224). -/
  | popc (xd xa : Reg)
  /-- CSEL (R224). -/
  | csel (xd xa xb xc : Reg)
  /-- ADDI (R226). -/
  | addi (xd xa : Reg) (imm : BitVec 32)
  /-- ANDI (R226). -/
  | andi (xd xa : Reg) (imm : BitVec 32)
  /-- ORI (R226). -/
  | ori (xd xa : Reg) (imm : BitVec 32)
  /-- XORI (R226). -/
  | xori (xd xa : Reg) (imm : BitVec 32)
  /-- SHLI (R226). -/
  | shli (xd xa : Reg) (n : BitVec 6)
  /-- SHRI (R226). -/
  | shri (xd xa : Reg) (n : BitVec 6)
  /-- SRAI (R226). -/
  | srai (xd xa : Reg) (n : BitVec 6)
  /-- LIMM (R226). -/
  | limm (xd : Reg) (imm : BitVec 32)
  /-- ADDPC (R226). -/
  | addpc (xd : Reg) (imm : BitVec 32)
  /-- FADD (R227). -/
  | fadd (t : FTy) (xd xa xb : Reg)
  /-- FSUB (R227). -/
  | fsub (t : FTy) (xd xa xb : Reg)
  /-- FMUL (R227). -/
  | fmul (t : FTy) (xd xa xb : Reg)
  /-- FMA (R227). -/
  | fma (t : FTy) (xd xa xb xc : Reg)
  /-- FDIV (R227). -/
  | fdiv (t : FTy) (xd xa xb : Reg)
  /-- FSQRT (R227). -/
  | fsqrt (t : FTy) (xd xa : Reg)
  /-- FMIN (R227). -/
  | fmin (t : FTy) (xd xa xb : Reg)
  /-- FMAX (R227). -/
  | fmax (t : FTy) (xd xa xb : Reg)
  /-- FCMP (R228). -/
  | fcmp (t : FTy) (c : Cond) (xd xa xb : Reg)
  /-- FCVT (R229). -/
  | fcvt (dst src : CvtTy) (xd xa : Reg)
  /-- BR (R230). -/
  | br (off : BitVec 32)
  /-- BCMP (R187). -/
  | bcmp (c : Cond) (xa xb : Reg) (off : BitVec 32)
  /-- CALL (R230). -/
  | call (xd : Reg) (off : BitVec 32)
  /-- RET (R230). -/
  | ret (xa : Reg)
  /-- JMP (R230). -/
  | jmp (xa : Reg) (off : BitVec 32)
  /-- LD (R231). -/
  | ld (size : MemSize) (sgn : Bool) (xd xa : Reg) (off : BitVec 32)
  /-- LD_INDEXED (R231). -/
  | ldIndexed (size : MemSize) (sgn : Bool) (xd xa xb : Reg)
  /-- ST (R231). -/
  | st (size : MemSize) (xd xa : Reg) (off : BitVec 32)
  /-- ST_INDEXED (R231). -/
  | stIndexed (size : MemSize) (xd xa xb : Reg)
  /-- AMO (R232). -/
  | amo (op : AmoOp) (size : AmoSize) (scope : Scope) (order : Order) (xd xa xb : Reg)
  /-- CAS (R233). -/
  | cas (size : AmoSize) (scope : Scope) (order : Order) (xd xa xb : Reg)
  /-- SETVL (R256). -/
  | setvl (t : ElemTy) (xd : Reg) (src : LenSrc)
  /-- SETVT (R257). -/
  | setvt (t : ElemTy)
  /-- VFOLD (R258). -/
  | vfold (vd va : Reg) (f : BitVec 2)
  /-- VADD (R259). -/
  | vadd (k : VCtl) (u sat : Bool) (vd va vb : Reg)
  /-- VADD_X (R259). -/
  | vaddX (k : VCtl) (u sat : Bool) (vd va xb : Reg)
  /-- VADD_I (R259). -/
  | vaddI (k : VCtl) (u sat : Bool) (vd va : Reg) (imm : BitVec 16)
  /-- VSUB (R259). -/
  | vsub (k : VCtl) (u sat : Bool) (vd va vb : Reg)
  /-- VSUB_X (R259). -/
  | vsubX (k : VCtl) (u sat : Bool) (vd va xb : Reg)
  /-- VMUL (R259). -/
  | vmul (k : VCtl) (u h : Bool) (vd va vb : Reg)
  /-- VMUL_X (R259). -/
  | vmulX (k : VCtl) (u h : Bool) (vd va xb : Reg)
  /-- VFMA (R260). -/
  | vfma (k : VCtl) (vd va vb vc : Reg)
  /-- VFMA_X (R260). -/
  | vfmaX (k : VCtl) (vd va xb vc : Reg)
  /-- VFMS (R260). -/
  | vfms (k : VCtl) (vd va vb vc : Reg)
  /-- VFMS_X (R260). -/
  | vfmsX (k : VCtl) (vd va xb vc : Reg)
  /-- VDIV (R259). -/
  | vdiv (k : VCtl) (u : Bool) (vd va vb : Reg)
  /-- VSQRT (R261). -/
  | vsqrt (k : VCtl) (vd va : Reg)
  /-- VRCP (R261). -/
  | vrcp (k : VCtl) (vd va : Reg)
  /-- VRSQ (R261). -/
  | vrsq (k : VCtl) (vd va : Reg)
  /-- VEXP2 (R261). -/
  | vexp2 (k : VCtl) (vd va : Reg)
  /-- VLOG2 (R261). -/
  | vlog2 (k : VCtl) (vd va : Reg)
  /-- VMIN (R259). -/
  | vmin (k : VCtl) (u : Bool) (vd va vb : Reg)
  /-- VMIN_X (R259). -/
  | vminX (k : VCtl) (u : Bool) (vd va xb : Reg)
  /-- VMAX (R259). -/
  | vmax (k : VCtl) (u : Bool) (vd va vb : Reg)
  /-- VMAX_X (R259). -/
  | vmaxX (k : VCtl) (u : Bool) (vd va xb : Reg)
  /-- VABS (R261). -/
  | vabs (k : VCtl) (vd va : Reg)
  /-- VNEG (R261). -/
  | vneg (k : VCtl) (vd va : Reg)
  /-- VAND (R259). -/
  | vand (k : VCtl) (vd va vb : Reg)
  /-- VAND_X (R259). -/
  | vandX (k : VCtl) (vd va xb : Reg)
  /-- VAND_I (R259). -/
  | vandI (k : VCtl) (vd va : Reg) (imm : BitVec 16)
  /-- VOR (R259). -/
  | vor (k : VCtl) (vd va vb : Reg)
  /-- VOR_X (R259). -/
  | vorX (k : VCtl) (vd va xb : Reg)
  /-- VOR_I (R259). -/
  | vorI (k : VCtl) (vd va : Reg) (imm : BitVec 16)
  /-- VXOR (R259). -/
  | vxor (k : VCtl) (vd va vb : Reg)
  /-- VXOR_X (R259). -/
  | vxorX (k : VCtl) (vd va xb : Reg)
  /-- VXOR_I (R259). -/
  | vxorI (k : VCtl) (vd va : Reg) (imm : BitVec 16)
  /-- VSHL (R259). -/
  | vshl (k : VCtl) (vd va vb : Reg)
  /-- VSHL_X (R259). -/
  | vshlX (k : VCtl) (vd va xb : Reg)
  /-- VSHL_I (R259). -/
  | vshlI (k : VCtl) (vd va : Reg) (n : BitVec 6)
  /-- VSHR (R259). -/
  | vshr (k : VCtl) (vd va vb : Reg)
  /-- VSHR_X (R259). -/
  | vshrX (k : VCtl) (vd va xb : Reg)
  /-- VSHR_I (R259). -/
  | vshrI (k : VCtl) (vd va : Reg) (n : BitVec 6)
  /-- VSRA (R259). -/
  | vsra (k : VCtl) (vd va vb : Reg)
  /-- VSRA_X (R259). -/
  | vsraX (k : VCtl) (vd va xb : Reg)
  /-- VSRA_I (R259). -/
  | vsraI (k : VCtl) (vd va : Reg) (n : BitVec 6)
  /-- VCVT (R262). -/
  | vcvt (k : VCtl) (t : ElemTy) (vd va : Reg)
  /-- VCMP (R263). -/
  | vcmp (k : VCtl) (c : Cond) (pd pe : PReg) (va vb : Reg)
  /-- VSEL (R264). -/
  | vsel (k : VCtl) (vd va vb : Reg) (pe : PReg)
  /-- VMOV (R261). -/
  | vmov (k : VCtl) (vd va : Reg)
  /-- VMVX_TO_SCALAR (R265). -/
  | vmvxToScalar (k : GCtl) (xd va : Reg) (i : BitVec 14)
  /-- VMVX_TO_VECTOR (R265). -/
  | vmvxToVector (k : VCtl) (vd xa : Reg) (i : BitVec 14)
  /-- VRED (R266). -/
  | vred (k : GCtl) (op : RedOp) (tree : Bool) (xd va : Reg)
  /-- VSLIDE (R267). -/
  | vslide (k : VCtl) (down : Bool) (vd va : Reg) (amt : SlideAmt)
  /-- VPERM (R267). -/
  | vperm (k : VCtl) (vd va vb : Reg)
  /-- VIOTA (R267). -/
  | viota (k : VCtl) (vd : Reg)
  /-- PAND (R268). -/
  | pand (k : VCtl) (pd pe pf : PReg)
  /-- POR (R268). -/
  | por (k : VCtl) (pd pe pf : PReg)
  /-- PXOR (R268). -/
  | pxor (k : VCtl) (pd pe pf : PReg)
  /-- PANDN (R268). -/
  | pandn (k : VCtl) (pd pe pf : PReg)
  /-- PSET (R268). -/
  | pset (k : VCtl) (pd : PReg) (n : BitVec 16)
  /-- PCNT (R268). -/
  | pcnt (k : GCtl) (xd : Reg) (pe : PReg)
  /-- PFIRST (R268). -/
  | pfirst (k : GCtl) (xd : Reg) (pe : PReg)
  /-- PMOV (R268). -/
  | pmov (k : VCtl) (pd pe : PReg)
  /-- VLD (R286). -/
  | vld (k : VCtl) (m : MCtl) (vd xa : Reg) (off : BitVec 21)
  /-- VLD_STRIDED (R286). -/
  | vldStrided (k : VCtl) (m : MCtl) (vd xa xb : Reg) (off : BitVec 21)
  /-- VST (R286). -/
  | vst (k : GCtl) (m : MCtl) (vs xa : Reg) (off : BitVec 21)
  /-- VST_STRIDED (R286). -/
  | vstStrided (k : GCtl) (m : MCtl) (vs xa xb : Reg) (off : BitVec 21)
  /-- VLDFF (R288). -/
  | vldff (k : VCtl) (m : MCtl) (vd xa : Reg) (off : BitVec 21)
  /-- VGATH (R289). -/
  | vgath (k : VCtl) (m : MCtl) (vd xa vi : Reg) (off : BitVec 21)
  /-- VSCAT (R290). -/
  | vscat (k : GCtl) (m : MCtl) (vs xa vi : Reg) (off : BitVec 21)
  /-- VSCADD (R291). -/
  | vscadd (k : GCtl) (m : MCtl) (vs xa vi : Reg) (off : BitVec 21)
  /-- VLDB (R292). -/
  | vldb (k : VCtl) (m : MCtl) (vd xa vsc : Reg) (off : BitVec 21)
  /-- VSTB (R292). -/
  | vstb (k : GCtl) (m : MCtl) (vs xa vsc : Reg) (off : BitVec 21)
  /-- VLDZ (R295). -/
  | vldz (k : VCtl) (m : MCtl) (vd xd xa xb : Reg) (bank : Bool)
  /-- CTAB (R294). -/
  | ctab (bank : Bool) (xa : Reg) (off : BitVec 32)
  /-- VCOMPRESS (R269). -/
  | vcompress (k : VCtl) (vd va : Reg) (pe : PReg)
  /-- VEXPAND (R269). -/
  | vexpand (k : VCtl) (vd va : Reg) (pe : PReg)
  /-- VPCNT (R270). -/
  | vpcnt (k : VCtl) (vd : Reg) (pe : PReg)
  /-- VCONF (R270). -/
  | vconf (k : VCtl) (vd va : Reg)
  /-- VSCAN (R271). -/
  | vscan (k : VCtl) (op : ScanOp) (excl : Bool) (vd va : Reg) (pe : PReg)
  /-- VLUT (R272). -/
  | vlut (k : VCtl) (vd va vb : Reg)
  /-- VBFX (R273). -/
  | vbfx (k : VCtl) (vd va : Reg) (s w1 : BitVec 6)
  /-- VEXIT (R274). -/
  | vexit (k : VCtl) (pd pe : PReg)
  /-- FENCE (R297). -/
  | fence (scope : Scope) (order : Order)
  /-- LSYNC (R298). -/
  | lsync
  /-- PFENCE (R299). -/
  | pfence
  /-- BAR (R300). -/
  | bar (gang : Bool)
  /-- BARW (R300). -/
  | barw (gang : Bool)
  /-- WAITD (R301). -/
  | waitd (n : BitVec 3) (v : BitVec 16)
  /-- CLAIM (R302). -/
  | claim (scope : Scope) (xd xa xb : Reg)
  /-- SIGNAL (R303). -/
  | signal (xa xb : Reg)
  /-- KDEF (R320). -/
  | kdef (kd : PReg) (xa : Reg) (off : BitVec 26)
  /-- KLEN (R320). -/
  | klen (xd : Reg) (ka : PReg)
  /-- KLEN_SET (R320). -/
  | klenSet (kd : PReg) (xa : Reg)
  /-- KSEL (R321). -/
  | ksel (c : Cond) (kd : PReg) (xd : Reg) (ka : PReg) (xa : Reg)
  /-- KSELP (R321). -/
  | kselp (c : Cond) (kd : PReg) (xd : Reg) (ka kb : PReg)
  /-- KJOIN (R322). -/
  | kjoin (kd kc : PReg) (xd : Reg) (ka kb : PReg)
  /-- KMJOIN (R322). -/
  | kmjoin (kd kc : PReg) (xd : Reg) (ka kb : PReg)
  /-- KSEMI (R323). -/
  | ksemi (kd : PReg) (xd : Reg) (ka kb : PReg)
  /-- KSEMI_ANTI (R323). -/
  | ksemiAnti (kd : PReg) (xd : Reg) (ka kb : PReg)
  /-- KGROUP (R324). -/
  | kgroup (kd kc : PReg) (xd : Reg) (ka : PReg)
  /-- KAGG (R325). -/
  | kagg (op : AggOp) (kd : PReg) (xd : Reg) (ka kb : PReg)
  /-- KSORT (R326). -/
  | ksort (kd : PReg) (xd : Reg) (ka : PReg)
  /-- KTOPK (R327). -/
  | ktopk (least : Bool) (kd : PReg) (xd : Reg) (ka : PReg) (xa : Reg)
  /-- KGATH (R328). -/
  | kgath (kd : PReg) (xd : Reg) (ka : PReg)
  /-- KCAT (R328). -/
  | kcat (kd : PReg) (xd : Reg) (ka kb : PReg)
  /-- KBIND (R330). -/
  | kbind (n : BitVec 3) (ka : PReg)
  /-- KBIND_APPEND (R330). -/
  | kbindAppend (n : BitVec 3) (ka : PReg)
  /-- KUNBIND (R333). -/
  | kunbind (n : BitVec 3)
  /-- MATTACH (R347). -/
  | mattach (xa : Reg)
  /-- MDETACH (R348). -/
  | mdetach
  /-- MZERO (R349). -/
  | mzero
  /-- MMA (R355). -/
  | mma (fa fb : Fmt) (xa xb : Reg) (row n1 : Byte) (kk : BitVec 14)
  /-- MMAG (R358). -/
  | mmag (xa xb : Reg)
  /-- MMAS (R356). -/
  | mmas (fa fb : Fmt) (pat : Pattern) (za : Bool) (xa xb xc : Reg) (row n1 : Byte) (kk : BitVec 14)
  /-- MEXT (R359). -/
  | mext (k : VCtl) (b e m : Bool) (vd xa : Reg) (row col : Byte)
  /-- GLAUNCH (R412). -/
  | glaunch (xa xb xc : Reg)
  /-- ASSAY (R419). -/
  | assay (xa : Reg)
  /-- GEND (R420). -/
  | gend
  /-- DCFG (R382). -/
  | dcfg (xa xb : Reg)
  /-- DCOPY (R372). -/
  | dcopy (a : CopyArgs)
  /-- DCOPY_2D (R373). -/
  | dcopy2d (a : CopyArgs)
  /-- DRED (R375). -/
  | dred (op : FoldOp) (ordered : Bool) (xd xa xb xc : Reg) (d : BitVec 3) (u : Bool) (off : BitVec 21)
  /-- DPREF (R380). -/
  | dpref (xa xb xc : Reg)
  /-- DSTAT (R385). -/
  | dstat (sel : DstatSel) (xd : Reg)
  /-- DCANCEL (R386). -/
  | dcancel (xa : Reg)
  /-- LAUNCH (R393). -/
  | launch (xd xa xb : Reg)
  /-- YIELD (R410). -/
  | yield
  /-- TICKW (R405). -/
  | tickw (xd : Reg)
  /-- TQCTL_EXIT (R406). -/
  | tqctlExit (xd xa xb : Reg)
  /-- TQCTL_STAT (R406). -/
  | tqctlStat (xd xa xb : Reg)
  /-- TQCTL_STOP (R406). -/
  | tqctlStop (xd xa xb : Reg)
  /-- TQCTL_START (R406). -/
  | tqctlStart (xd xa xb : Reg)
  /-- TQCTL_KILL (R406). -/
  | tqctlKill (xd xa xb : Reg)
  /-- TQCTL_PERIOD (R406). -/
  | tqctlPeriod (xd xa xb : Reg)
  /-- TRAP (R236). -/
  | trap (n : BitVec 16)
  /-- ERET (R237). -/
  | eret
  /-- UIRET (R238). -/
  | uiret
  /-- CSRR (R239). -/
  | csrr (xd : Reg) (csr : BitVec 12)
  /-- CSRW (R239). -/
  | csrw (xd xa : Reg) (csr : BitVec 12)
  /-- CSRS (R239). -/
  | csrs (xd xa : Reg) (csr : BitVec 12)
  /-- CSRC (R239). -/
  | csrc (xd xa : Reg) (csr : BitVec 12)
  /-- FENCEI (R244). -/
  | fencei
  /-- IPREF (R245). -/
  | ipref (xa xb : Reg) (off : BitVec 32)
  /-- IPIN (R245). -/
  | ipin (xa xb : Reg) (off : BitVec 32)
  /-- IUNPIN (R245). -/
  | iunpin (xa xb : Reg) (off : BitVec 32)
  /-- TLBINV (R246). -/
  | tlbinv (scope : Scope) (f : InvKind) (xa xb : Reg)
  /-- IDLE (R247). -/
  | idle
  /-- SAVEV (R248). -/
  | savev (xa : Reg) (mask : BitVec 32)
  /-- RESTV (R248). -/
  | restv (xa : Reg) (mask : BitVec 32)
  /-- SAVEK (R250). -/
  | savek (xa : Reg) (mask : BitVec 16)
  /-- RESTK (R250). -/
  | restk (xa : Reg) (mask : BitVec 16)
  /-- CONTROL_REGISTER_WRITE (R34: strand `uid` stores `v` at control-space offset `off`). -/
  | controlRegisterWrite (uid : Uid) (off : BitVec 50) (v : Word)
  /-- KEYGO (R32). -/
  | keygo (uid : Uid) (v : Word)
  /-- POOLCSZ_WRITE (R64). -/
  | poolcszWrite (uid : Uid) (v : Word)
  /-- PCFLUSH (R65). -/
  | pcflush (uid : Uid)
  /-- PCFLUSH_OWNER (R65). -/
  | pcflushOwner (uid : Uid) (owner : Owner)
  /-- FQRESUME (R92). -/
  | fqresume (uid : Uid) (ident : Word)
  /-- FQABORT (R92). -/
  | fqabort (uid : Uid) (ident : Word)
  /-- PLCTL_GO (R121). -/
  | plctlGo (uid : Uid) (withdraw entering : BitVec 4)
  /-- GRANT_WINDOW_LIVE (R96). -/
  | grantWindowLive (uid : Uid) (w : BitVec 6)
  /-- GRANT_WINDOW_FREE (R96). -/
  | grantWindowFree (uid : Uid) (w : BitVec 6)
  /-- HEVACK (R467). -/
  | hevack (uid : Uid) (v : Word)
  /-- FENCE_CLUSTER (R458). -/
  | fenceCluster (uid : Uid) (cid : Cid)
  /-- PDONE (R442: strand `uid` writes 1 to PDONE of the context window of strand `window`). -/
  | pdone (uid window : Uid)
  /-- RESHAPE (R443). -/
  | reshape (uid window : Uid) (v : Word)
  /-- BOOT (R462). -/
  | boot
  /-- ATTEST (R464). -/
  | attest (a0 a1 a2 a3 : Word)
  /-- IDKEY (R464). -/
  | idkey
  /-- GRANT (R467). -/
  | grant (base len : Word)
  /-- WITHDRAW (R466). -/
  | withdraw (base : Word)
  /-- QUEUE (R466). -/
  | queue (base len : Word)
  /-- MAILBOX_UNKNOWN (R466). -/
  | mailboxUnknown (code : Byte)
  /-- BOOT_WINDOW_ACCESS (R461: a host read of 64 bytes (`none`), or a write of the bytes given). -/
  | bootWindowAccess (off : BitVec 28) (data : Option (List Byte))
  /-- MODULE_RESET (R6). -/
  | moduleReset
  /-- HOST_PORT_RESET (R98). -/
  | hostPortReset
  /-- HOST_LINK_UP (R467). -/
  | hostLinkUp
  /-- HOST_SNOOP (R66). -/
  | hostSnoop (line : BitVec 44)
  /-- FLIT_CRC_RETRY (R101). -/
  | flitCrcRetry (plane : BitVec 2) (link : BitVec 3)
  /-- LINK_DOWN (R109). -/
  | linkDown (plane : BitVec 2) (link : BitVec 3)
  /-- REPLAY (R107). -/
  | replay (req : Request) (fromPlane : BitVec 2) (fromLink : BitVec 3)
  /-- PLANE_LOST (R114). -/
  | planeLost (plane : BitVec 2)
  /-- REMOTE_REQUEST (R115). -/
  | remoteRequest (req : Request)
  /-- REMOTE_RESPONSE (R113). -/
  | remoteResponse (source : ModNum) (tag : Nat) (reply : RemoteReply) (view : PlaneView)
  /-- REDRAWN (R116). -/
  | redrawn (source : ModNum) (tag : Nat) (view : PlaneView)
  /-- RETURN_UNDELIVERED (R118). -/
  | returnUndelivered (tag : Nat) (doubtful : Bool) (failure : BitVec 4)
  /-- PROBE_RETRY (R116): `answer` is what the target answers at once, if it does; else the answer is a REMOTE_RESPONSE. -/
  | probeRetry (target : ModNum) (answer : Option PlaneView)
  /-- GROUP_UNREACHABLE (R112). -/
  | groupUnreachable (tag : Nat)
  /-- RESPONSE_DROP (R113). -/
  | responseDrop (dest : ModNum) (tag : Nat)
  /-- EASYALL_END (R120). -/
  | easyallEnd
  /-- FOLD_STRIP (R378). -/
  | foldStrip (strip : Strip)
  /-- FOLD_RELEASE (R378). -/
  | foldRelease (source : ModNum) (ident : Word)
  /-- FOLD_ENTRY_TIMEOUT (R378). -/
  | foldEntryTimeout (entry : BitVec 10)
  /-- FOLD_STRIP_RETRY (R378). -/
  | foldStripRetry (tag : Nat)
  /-- TICK (R403). -/
  | tick
  /-- VICTIMS_STOPPED (R399). -/
  | victimsStopped
  /-- PREEMPT (R441). -/
  | preempt (uid : Uid) (reason : BitVec 2)
  /-- STRIP_STOP_BOUND (R441). -/
  | stripStopBound (uid : Uid)
  /-- RESHAPE_EXPIRE (R443). -/
  | reshapeExpire (uid : Uid)
  /-- RESUME (R442: the oldest stopped gang of the queue is placed again). -/
  | resume (queue : BitVec 6)
  /-- PROGRESS (R440). -/
  | progress (uid : Uid)
  /-- USER_INTERRUPT (R238). -/
  | userInterrupt (uid : Uid)
  /-- HOST_EVENT (R467). -/
  | hostEvent (uid : Uid)
  /-- MACHINE_CHECK (R451). -/
  | machineCheck (uid : Uid)
  /-- EVWAIT_EXPIRE (R457). -/
  | evwaitExpire
  /-- WRITE_BUFFER_DRAIN (R69). -/
  | writeBufferDrain (uid : Uid)
  /-- DATA_CACHE_EXPIRE (R132). -/
  | dataCacheExpire (helm : BitVec 11) (line : BitVec 45)
  /-- SCRUB (R453). -/
  | scrub (unit : MarkUnit) (uncorrectable : Bool)
  /-- THERMAL (R469). -/
  | thermal (die : BitVec 6)
  /-- SHUTDOWN (R469). -/
  | shutdown
  /-- POOL_PORT_FAILURE (R456). -/
  | poolPortFailure (port : BitVec 3)
  /-- DRAYMAN_SECTOR (R366). -/
  | draymanSector (cid : Cid)
  /-- DRAYMAN_COMPLETE (R369). -/
  | draymanComplete (cid : Cid)
  /-- DCFG_STRIP_FETCH (R383). -/
  | dcfgStripFetch (uid : Uid)
  /-- HINT_LINE (R381). -/
  | hintLine (cid : Cid)
  /-- MATRIX_PASS (R351). -/
  | matrixPass (cid : Cid)
  /-- STREAM_FILL (R175). -/
  | streamFill (uid : Uid) (n : BitVec 3)
  /-- ARBITER_BIND (R172). -/
  | arbiterBind (cid : Cid)
  /-- CONVOY_RETIRE (R165). -/
  | convoyRetire (uid : Uid)
  /-- REPLY_WRITE (R169). -/
  | replyWrite (uid : Uid)
  /-- LINE_FULL_WAKE (R55). -/
  | lineFullWake (uid : Uid)
  /-- BARRIER_FIRE (R151). -/
  | barrierFire (uid : Uid)
  /-- ASSAYER_COMMIT (R421). -/
  | assayerCommit (cid : Cid)
  /-- FROZEN_RECORD_RELEASE (R107). -/
  | frozenRecordRelease (plane : BitVec 2) (link : BitVec 3)
  /-- LINK_UP (R121). -/
  | linkUp (plane : BitVec 2) (link : BitVec 3)
  /-- HOST_RESPONSE (R66: the line the host holds (`none`: as the port last knew it), or the acknowledgement of a write). -/
  | hostResponse (id : Nat) (data : Option (List Byte))
  /-- POOL_PORT_RESPONSE (R62: the data of a fill, or the completion of a write). -/
  | poolPortResponse (id : Nat)
  deriving DecidableEq, Repr

end Sys2Proof
end

