-- ==== Sys2Proof/WellFormed.lean ====
section
/-!
DEFINITION. Well-formedness of an instruction: the conditions on its fields that the types of `Instr` do not carry
(R184, R186 to R201), and which constructors are words of memory.
-/

namespace Sys2Proof

/-- A request register of SETVL is not x0, which writes the immediate form (R192). -/
def LenSrc.wf : LenSrc → Bool
  | .imm _ => true
  | .reg xa => xa != 0

/-- The formats that the fmt field of a vector memory word accepts (R190). -/
def Fmt.isMem : Fmt → Bool
  | .e2m1 => false
  | .i32 | .i64 | .f32 | .bf16 | .f16 | .e4m3 | .e5m2 | .i8 | .i4 | .i4x | .e8m0 => true

/-- The formats that are element types (R190): the only ones VSCADD accepts. -/
def Fmt.isElem : Fmt → Bool
  | .i32 | .i64 | .f32 | .bf16 => true
  | .f16 | .e4m3 | .e5m2 | .i8 | .i4 | .i4x | .e8m0 | .e2m1 => false

/-- The formats that fmtA and fmtB of matrix words accept (R190). -/
def Fmt.isMatrix : Fmt → Bool
  | .bf16 | .f16 | .e4m3 | .e5m2 | .i8 | .i4 | .i4x | .e2m1 => true
  | .i32 | .i64 | .f32 | .e8m0 => false

/-- A vector memory word names a memory format and a scope from cluster to system (R190, R194). -/
def MCtl.wf (m : MCtl) : Bool := m.fmt.isMem && m.scope != .strand

/-- The fields of an instruction hold codes that its row accepts (R184 to R201); VCMP does not take one predicate for both results (R263), nor VMVX a Z
of 1 (R265). -/
def Instr.wf : Instr → Bool
  | .add _ _ _ => true
  | .sub _ _ _ => true
  | .mul _ _ _ => true
  | .mulh _ _ _ => true
  | .mulhu _ _ _ => true
  | .div _ _ _ => true
  | .divu _ _ _ => true
  | .rem _ _ _ => true
  | .remu _ _ _ => true
  | .and _ _ _ => true
  | .or _ _ _ => true
  | .xor _ _ _ => true
  | .shl _ _ _ => true
  | .shr _ _ _ => true
  | .sra _ _ _ => true
  | .slt _ _ _ => true
  | .sltu _ _ _ => true
  | .min _ _ _ => true
  | .max _ _ _ => true
  | .clz _ _ => true
  | .popc _ _ => true
  | .csel _ _ _ _ => true
  | .addi _ _ _ => true
  | .andi _ _ _ => true
  | .ori _ _ _ => true
  | .xori _ _ _ => true
  | .shli _ _ _ => true
  | .shri _ _ _ => true
  | .srai _ _ _ => true
  | .limm _ _ => true
  | .addpc _ _ => true
  | .fadd _ _ _ _ => true
  | .fsub _ _ _ _ => true
  | .fmul _ _ _ _ => true
  | .fma _ _ _ _ _ => true
  | .fdiv _ _ _ _ => true
  | .fsqrt _ _ _ => true
  | .fmin _ _ _ _ => true
  | .fmax _ _ _ _ => true
  | .fcmp _ c _ _ _ => c != .ltu && c != .leu && c != .gtu && c != .geu
  | .fcvt dst src _ _ => dst != src
  | .br _ => true
  | .bcmp c _ _ _ => c != .uno && c != .ord
  | .call _ _ => true
  | .ret _ => true
  | .jmp _ _ => true
  | .ld size sgn _ _ _ => !(sgn && size == .d)
  | .ldIndexed size sgn _ _ _ => !(sgn && size == .d)
  | .st _ _ _ _ => true
  | .stIndexed _ _ _ _ => true
  | .amo op size _ _ xd _ xb => (size != .q || (op == .swap && xd.getLsbD 0 == false && xb.getLsbD 0 == false)) && (op != .fadd || size == .w)
  | .cas size _ _ xd _ xb => size != .q || (xd.getLsbD 0 == false && xb.getLsbD 0 == false)
  | .setvl _ _ src => src.wf
  | .setvt _ => true
  | .vfold _ _ f => f != 0
  | .vadd _ _ _ _ _ _ => true
  | .vaddX _ _ _ _ _ _ => true
  | .vaddI _ _ _ _ _ _ => true
  | .vsub _ _ _ _ _ _ => true
  | .vsubX _ _ _ _ _ _ => true
  | .vmul _ _ _ _ _ _ => true
  | .vmulX _ _ _ _ _ _ => true
  | .vfma _ _ _ _ _ => true
  | .vfmaX _ _ _ _ _ => true
  | .vfms _ _ _ _ _ => true
  | .vfmsX _ _ _ _ _ => true
  | .vdiv _ _ _ _ _ => true
  | .vsqrt _ _ _ => true
  | .vrcp _ _ _ => true
  | .vrsq _ _ _ => true
  | .vexp2 _ _ _ => true
  | .vlog2 _ _ _ => true
  | .vmin _ _ _ _ _ => true
  | .vminX _ _ _ _ _ => true
  | .vmax _ _ _ _ _ => true
  | .vmaxX _ _ _ _ _ => true
  | .vabs _ _ _ => true
  | .vneg _ _ _ => true
  | .vand _ _ _ _ => true
  | .vandX _ _ _ _ => true
  | .vandI _ _ _ _ => true
  | .vor _ _ _ _ => true
  | .vorX _ _ _ _ => true
  | .vorI _ _ _ _ => true
  | .vxor _ _ _ _ => true
  | .vxorX _ _ _ _ => true
  | .vxorI _ _ _ _ => true
  | .vshl _ _ _ _ => true
  | .vshlX _ _ _ _ => true
  | .vshlI _ _ _ _ => true
  | .vshr _ _ _ _ => true
  | .vshrX _ _ _ _ => true
  | .vshrI _ _ _ _ => true
  | .vsra _ _ _ _ => true
  | .vsraX _ _ _ _ => true
  | .vsraI _ _ _ _ => true
  | .vcvt _ _ _ _ => true
  | .vcmp _ _ pd pe _ _ => pd != pe || pd == 0
  | .vsel _ _ _ _ _ => true
  | .vmov _ _ _ => true
  | .vmvxToScalar _ _ _ _ => true
  | .vmvxToVector k _ _ _ => !k.z
  | .vred _ _ _ _ _ => true
  | .vslide _ _ _ _ _ => true
  | .vperm _ _ _ _ => true
  | .viota _ _ => true
  | .pand _ _ _ _ => true
  | .por _ _ _ _ => true
  | .pxor _ _ _ _ => true
  | .pandn _ _ _ _ => true
  | .pset _ _ _ => true
  | .pcnt _ _ _ => true
  | .pfirst _ _ _ => true
  | .pmov _ _ _ => true
  | .vld _ m _ _ _ => m.wf
  | .vldStrided _ m _ _ _ _ => m.wf
  | .vst _ m _ _ _ => m.wf
  | .vstStrided _ m _ _ _ _ => m.wf
  | .vldff _ m _ _ _ => m.wf
  | .vgath _ m _ _ _ _ => m.wf
  | .vscat _ m _ _ _ _ => m.wf
  | .vscadd _ m _ _ _ _ => m.wf && m.fmt.isElem
  | .vldb _ m _ _ _ _ => m.wf
  | .vstb _ m _ _ _ _ => m.wf
  | .vldz _ m _ _ _ _ _ => m.wf && (m.fmt == .f32 || m.fmt == .bf16) && !m.o
  | .ctab _ _ _ => true
  | .vcompress _ _ _ _ => true
  | .vexpand _ _ _ _ => true
  | .vpcnt _ _ _ => true
  | .vconf _ _ _ => true
  | .vscan _ _ _ _ _ _ => true
  | .vlut _ _ _ _ => true
  | .vbfx _ _ _ _ _ => true
  | .vexit _ _ _ => true
  | .fence _ order => order != .relaxed
  | .lsync => true
  | .pfence => true
  | .bar _ => true
  | .barw _ => true
  | .waitd n _ => n != 0
  | .claim scope _ _ _ => scope != .strand
  | .signal _ _ => true
  | .kdef _ _ _ => true
  | .klen _ _ => true
  | .klenSet _ _ => true
  | .ksel _ _ _ _ _ => true
  | .kselp _ _ _ _ _ => true
  | .kjoin _ _ _ _ _ => true
  | .kmjoin _ _ _ _ _ => true
  | .ksemi _ _ _ _ => true
  | .ksemiAnti _ _ _ _ => true
  | .kgroup _ _ _ _ => true
  | .kagg _ _ _ _ _ => true
  | .ksort _ _ _ => true
  | .ktopk _ _ _ _ _ => true
  | .kgath _ _ _ => true
  | .kcat _ _ _ _ => true
  | .kbind _ _ => true
  | .kbindAppend _ _ => true
  | .kunbind _ => true
  | .mattach _ => true
  | .mdetach => true
  | .mzero => true
  | .mma fa fb _ _ _ _ kk => fa.isMatrix && fb.isMatrix && kk != 0
  | .mmag _ _ => true
  | .mmas fa fb _ _ _ _ _ _ _ kk => fa.isMatrix && fb.isMatrix && kk != 0
  | .mext _ b e m _ xa _ _ => (!e || b) && (m || xa == 0)
  | .glaunch _ _ _ => true
  | .assay _ => true
  | .gend => true
  | .dcfg _ _ => true
  | .dcopy _ => true
  | .dcopy2d _ => true
  | .dred _ _ _ _ _ _ _ _ _ => true
  | .dpref _ _ _ => true
  | .dstat _ _ => true
  | .dcancel _ => true
  | .launch _ _ _ => true
  | .yield => true
  | .tickw _ => true
  | .tqctlExit _ _ _ => true
  | .tqctlStat _ _ _ => true
  | .tqctlStop _ _ _ => true
  | .tqctlStart _ _ _ => true
  | .tqctlKill _ _ _ => true
  | .tqctlPeriod _ _ _ => true
  | .trap _ => true
  | .eret => true
  | .uiret => true
  | .csrr _ _ => true
  | .csrw _ _ _ => true
  | .csrs _ _ _ => true
  | .csrc _ _ _ => true
  | .fencei => true
  | .ipref _ _ _ => true
  | .ipin _ _ _ => true
  | .iunpin _ _ _ => true
  | .tlbinv scope _ _ _ => scope != .strand
  | .idle => true
  | .savev _ _ => true
  | .restv _ _ => true
  | .savek _ _ => true
  | .restk _ _ => true
  | .controlRegisterWrite _ _ _ => true
  | .keygo _ _ => true
  | .poolcszWrite _ _ => true
  | .pcflush _ => true
  | .pcflushOwner _ _ => true
  | .fqresume _ _ => true
  | .fqabort _ _ => true
  | .plctlGo _ _ _ => true
  | .grantWindowLive _ _ => true
  | .grantWindowFree _ _ => true
  | .hevack _ _ => true
  | .fenceCluster _ _ => true
  | .pdone _ _ => true
  | .reshape _ _ _ => true
  | .boot => true
  | .attest _ _ _ _ => true
  | .idkey => true
  | .grant _ _ => true
  | .withdraw _ => true
  | .queue _ _ => true
  | .mailboxUnknown _ => true
  | .bootWindowAccess _ _ => true
  | .moduleReset => true
  | .hostPortReset => true
  | .hostLinkUp => true
  | .hostSnoop _ => true
  | .flitCrcRetry _ _ => true
  | .linkDown _ _ => true
  | .replay _ _ _ => true
  | .planeLost _ => true
  | .remoteRequest _ => true
  | .remoteResponse _ _ _ _ => true
  | .redrawn _ _ _ => true
  | .returnUndelivered _ _ _ => true
  | .probeRetry _ _ => true
  | .groupUnreachable _ => true
  | .responseDrop _ _ => true
  | .easyallEnd => true
  | .foldStrip _ => true
  | .foldRelease _ _ => true
  | .foldEntryTimeout _ => true
  | .foldStripRetry _ => true
  | .tick => true
  | .victimsStopped => true
  | .preempt _ _ => true
  | .stripStopBound _ => true
  | .reshapeExpire _ => true
  | .resume _ => true
  | .progress _ => true
  | .userInterrupt _ => true
  | .hostEvent _ => true
  | .machineCheck _ => true
  | .evwaitExpire => true
  | .writeBufferDrain _ => true
  | .dataCacheExpire _ _ => true
  | .scrub _ _ => true
  | .thermal _ => true
  | .shutdown => true
  | .poolPortFailure _ => true
  | .draymanSector _ => true
  | .draymanComplete _ => true
  | .dcfgStripFetch _ => true
  | .hintLine _ => true
  | .matrixPass _ => true
  | .streamFill _ _ => true
  | .arbiterBind _ => true
  | .convoyRetire _ => true
  | .replyWrite _ => true
  | .lineFullWake _ => true
  | .barrierFire _ => true
  | .assayerCommit _ => true
  | .frozenRecordRelease _ _ => true
  | .linkUp _ _ => true
  | .hostResponse _ _ => true
  | .poolPortResponse _ => true

/-- The constructor is an instruction word; the others are steps of the part's other agents. -/
def Instr.isWord : Instr → Bool
  | .add _ _ _ => true
  | .sub _ _ _ => true
  | .mul _ _ _ => true
  | .mulh _ _ _ => true
  | .mulhu _ _ _ => true
  | .div _ _ _ => true
  | .divu _ _ _ => true
  | .rem _ _ _ => true
  | .remu _ _ _ => true
  | .and _ _ _ => true
  | .or _ _ _ => true
  | .xor _ _ _ => true
  | .shl _ _ _ => true
  | .shr _ _ _ => true
  | .sra _ _ _ => true
  | .slt _ _ _ => true
  | .sltu _ _ _ => true
  | .min _ _ _ => true
  | .max _ _ _ => true
  | .clz _ _ => true
  | .popc _ _ => true
  | .csel _ _ _ _ => true
  | .addi _ _ _ => true
  | .andi _ _ _ => true
  | .ori _ _ _ => true
  | .xori _ _ _ => true
  | .shli _ _ _ => true
  | .shri _ _ _ => true
  | .srai _ _ _ => true
  | .limm _ _ => true
  | .addpc _ _ => true
  | .fadd _ _ _ _ => true
  | .fsub _ _ _ _ => true
  | .fmul _ _ _ _ => true
  | .fma _ _ _ _ _ => true
  | .fdiv _ _ _ _ => true
  | .fsqrt _ _ _ => true
  | .fmin _ _ _ _ => true
  | .fmax _ _ _ _ => true
  | .fcmp _ _ _ _ _ => true
  | .fcvt _ _ _ _ => true
  | .br _ => true
  | .bcmp _ _ _ _ => true
  | .call _ _ => true
  | .ret _ => true
  | .jmp _ _ => true
  | .ld _ _ _ _ _ => true
  | .ldIndexed _ _ _ _ _ => true
  | .st _ _ _ _ => true
  | .stIndexed _ _ _ _ => true
  | .amo _ _ _ _ _ _ _ => true
  | .cas _ _ _ _ _ _ => true
  | .setvl _ _ _ => true
  | .setvt _ => true
  | .vfold _ _ _ => true
  | .vadd _ _ _ _ _ _ => true
  | .vaddX _ _ _ _ _ _ => true
  | .vaddI _ _ _ _ _ _ => true
  | .vsub _ _ _ _ _ _ => true
  | .vsubX _ _ _ _ _ _ => true
  | .vmul _ _ _ _ _ _ => true
  | .vmulX _ _ _ _ _ _ => true
  | .vfma _ _ _ _ _ => true
  | .vfmaX _ _ _ _ _ => true
  | .vfms _ _ _ _ _ => true
  | .vfmsX _ _ _ _ _ => true
  | .vdiv _ _ _ _ _ => true
  | .vsqrt _ _ _ => true
  | .vrcp _ _ _ => true
  | .vrsq _ _ _ => true
  | .vexp2 _ _ _ => true
  | .vlog2 _ _ _ => true
  | .vmin _ _ _ _ _ => true
  | .vminX _ _ _ _ _ => true
  | .vmax _ _ _ _ _ => true
  | .vmaxX _ _ _ _ _ => true
  | .vabs _ _ _ => true
  | .vneg _ _ _ => true
  | .vand _ _ _ _ => true
  | .vandX _ _ _ _ => true
  | .vandI _ _ _ _ => true
  | .vor _ _ _ _ => true
  | .vorX _ _ _ _ => true
  | .vorI _ _ _ _ => true
  | .vxor _ _ _ _ => true
  | .vxorX _ _ _ _ => true
  | .vxorI _ _ _ _ => true
  | .vshl _ _ _ _ => true
  | .vshlX _ _ _ _ => true
  | .vshlI _ _ _ _ => true
  | .vshr _ _ _ _ => true
  | .vshrX _ _ _ _ => true
  | .vshrI _ _ _ _ => true
  | .vsra _ _ _ _ => true
  | .vsraX _ _ _ _ => true
  | .vsraI _ _ _ _ => true
  | .vcvt _ _ _ _ => true
  | .vcmp _ _ _ _ _ _ => true
  | .vsel _ _ _ _ _ => true
  | .vmov _ _ _ => true
  | .vmvxToScalar _ _ _ _ => true
  | .vmvxToVector _ _ _ _ => true
  | .vred _ _ _ _ _ => true
  | .vslide _ _ _ _ _ => true
  | .vperm _ _ _ _ => true
  | .viota _ _ => true
  | .pand _ _ _ _ => true
  | .por _ _ _ _ => true
  | .pxor _ _ _ _ => true
  | .pandn _ _ _ _ => true
  | .pset _ _ _ => true
  | .pcnt _ _ _ => true
  | .pfirst _ _ _ => true
  | .pmov _ _ _ => true
  | .vld _ _ _ _ _ => true
  | .vldStrided _ _ _ _ _ _ => true
  | .vst _ _ _ _ _ => true
  | .vstStrided _ _ _ _ _ _ => true
  | .vldff _ _ _ _ _ => true
  | .vgath _ _ _ _ _ _ => true
  | .vscat _ _ _ _ _ _ => true
  | .vscadd _ _ _ _ _ _ => true
  | .vldb _ _ _ _ _ _ => true
  | .vstb _ _ _ _ _ _ => true
  | .vldz _ _ _ _ _ _ _ => true
  | .ctab _ _ _ => true
  | .vcompress _ _ _ _ => true
  | .vexpand _ _ _ _ => true
  | .vpcnt _ _ _ => true
  | .vconf _ _ _ => true
  | .vscan _ _ _ _ _ _ => true
  | .vlut _ _ _ _ => true
  | .vbfx _ _ _ _ _ => true
  | .vexit _ _ _ => true
  | .fence _ _ => true
  | .lsync => true
  | .pfence => true
  | .bar _ => true
  | .barw _ => true
  | .waitd _ _ => true
  | .claim _ _ _ _ => true
  | .signal _ _ => true
  | .kdef _ _ _ => true
  | .klen _ _ => true
  | .klenSet _ _ => true
  | .ksel _ _ _ _ _ => true
  | .kselp _ _ _ _ _ => true
  | .kjoin _ _ _ _ _ => true
  | .kmjoin _ _ _ _ _ => true
  | .ksemi _ _ _ _ => true
  | .ksemiAnti _ _ _ _ => true
  | .kgroup _ _ _ _ => true
  | .kagg _ _ _ _ _ => true
  | .ksort _ _ _ => true
  | .ktopk _ _ _ _ _ => true
  | .kgath _ _ _ => true
  | .kcat _ _ _ _ => true
  | .kbind _ _ => true
  | .kbindAppend _ _ => true
  | .kunbind _ => true
  | .mattach _ => true
  | .mdetach => true
  | .mzero => true
  | .mma _ _ _ _ _ _ _ => true
  | .mmag _ _ => true
  | .mmas _ _ _ _ _ _ _ _ _ _ => true
  | .mext _ _ _ _ _ _ _ _ => true
  | .glaunch _ _ _ => true
  | .assay _ => true
  | .gend => true
  | .dcfg _ _ => true
  | .dcopy _ => true
  | .dcopy2d _ => true
  | .dred _ _ _ _ _ _ _ _ _ => true
  | .dpref _ _ _ => true
  | .dstat _ _ => true
  | .dcancel _ => true
  | .launch _ _ _ => true
  | .yield => true
  | .tickw _ => true
  | .tqctlExit _ _ _ => true
  | .tqctlStat _ _ _ => true
  | .tqctlStop _ _ _ => true
  | .tqctlStart _ _ _ => true
  | .tqctlKill _ _ _ => true
  | .tqctlPeriod _ _ _ => true
  | .trap _ => true
  | .eret => true
  | .uiret => true
  | .csrr _ _ => true
  | .csrw _ _ _ => true
  | .csrs _ _ _ => true
  | .csrc _ _ _ => true
  | .fencei => true
  | .ipref _ _ _ => true
  | .ipin _ _ _ => true
  | .iunpin _ _ _ => true
  | .tlbinv _ _ _ _ => true
  | .idle => true
  | .savev _ _ => true
  | .restv _ _ => true
  | .savek _ _ => true
  | .restk _ _ => true
  | .controlRegisterWrite _ _ _ => false
  | .keygo _ _ => false
  | .poolcszWrite _ _ => false
  | .pcflush _ => false
  | .pcflushOwner _ _ => false
  | .fqresume _ _ => false
  | .fqabort _ _ => false
  | .plctlGo _ _ _ => false
  | .grantWindowLive _ _ => false
  | .grantWindowFree _ _ => false
  | .hevack _ _ => false
  | .fenceCluster _ _ => false
  | .pdone _ _ => false
  | .reshape _ _ _ => false
  | .boot => false
  | .attest _ _ _ _ => false
  | .idkey => false
  | .grant _ _ => false
  | .withdraw _ => false
  | .queue _ _ => false
  | .mailboxUnknown _ => false
  | .bootWindowAccess _ _ => false
  | .moduleReset => false
  | .hostPortReset => false
  | .hostLinkUp => false
  | .hostSnoop _ => false
  | .flitCrcRetry _ _ => false
  | .linkDown _ _ => false
  | .replay _ _ _ => false
  | .planeLost _ => false
  | .remoteRequest _ => false
  | .remoteResponse _ _ _ _ => false
  | .redrawn _ _ _ => false
  | .returnUndelivered _ _ _ => false
  | .probeRetry _ _ => false
  | .groupUnreachable _ => false
  | .responseDrop _ _ => false
  | .easyallEnd => false
  | .foldStrip _ => false
  | .foldRelease _ _ => false
  | .foldEntryTimeout _ => false
  | .foldStripRetry _ => false
  | .tick => false
  | .victimsStopped => false
  | .preempt _ _ => false
  | .stripStopBound _ => false
  | .reshapeExpire _ => false
  | .resume _ => false
  | .progress _ => false
  | .userInterrupt _ => false
  | .hostEvent _ => false
  | .machineCheck _ => false
  | .evwaitExpire => false
  | .writeBufferDrain _ => false
  | .dataCacheExpire _ _ => false
  | .scrub _ _ => false
  | .thermal _ => false
  | .shutdown => false
  | .poolPortFailure _ => false
  | .draymanSector _ => false
  | .draymanComplete _ => false
  | .dcfgStripFetch _ => false
  | .hintLine _ => false
  | .matrixPass _ => false
  | .streamFill _ _ => false
  | .arbiterBind _ => false
  | .convoyRetire _ => false
  | .replyWrite _ => false
  | .lineFullWake _ => false
  | .barrierFire _ => false
  | .assayerCommit _ => false
  | .frozenRecordRelease _ _ => false
  | .linkUp _ _ => false
  | .hostResponse _ _ => false
  | .poolPortResponse _ => false

end Sys2Proof
end

