-- ==== Sys2Proof/Decode.lean ====
section
/-!
DEFINITION. The decoder and the encoder of instruction words, from the encoding tables of R178 to R201. A word decodes
when its fields name an accepted instruction, the instruction is well formed, and encoding it gives the word back: so
every reserved field of its opcode is zero (R202).
-/

namespace Sys2Proof

/-- One bit. -/
def bit (b : Bool) : BitVec 1 := if b then 1 else 0

/-- The code of a `FTy` in its field (R186 to R201). -/
def FTy.code : FTy → BitVec 2
  | .f32 => 0
  | .bf16 => 1

/-- The `FTy` that a code names, or none where the code is not accepted (R202). -/
def FTy.ofCode (b : BitVec 2) : Option FTy :=
  match b.toNat with
  | 0 => some .f32
  | 1 => some .bf16
  | _ => none

/-- The code of a `CvtTy` in its field (R186 to R201). -/
def CvtTy.code : CvtTy → BitVec 3
  | .f32 => 0
  | .bf16 => 1
  | .i32 => 2
  | .u32 => 3
  | .i64 => 4
  | .u64 => 5

/-- The `CvtTy` that a code names, or none where the code is not accepted (R202). -/
def CvtTy.ofCode (b : BitVec 3) : Option CvtTy :=
  match b.toNat with
  | 0 => some .f32
  | 1 => some .bf16
  | 2 => some .i32
  | 3 => some .u32
  | 4 => some .i64
  | 5 => some .u64
  | _ => none

/-- The code of a `ElemTy` in its field (R186 to R201). -/
def ElemTy.code : ElemTy → BitVec 4
  | .i32 => 0
  | .i64 => 1
  | .f32 => 2
  | .bf16 => 3

/-- The `ElemTy` that a code names, or none where the code is not accepted (R202). -/
def ElemTy.ofCode (b : BitVec 4) : Option ElemTy :=
  match b.toNat with
  | 0 => some .i32
  | 1 => some .i64
  | 2 => some .f32
  | 3 => some .bf16
  | _ => none

/-- The code of a `Fmt` in its field (R186 to R201). -/
def Fmt.code : Fmt → BitVec 4
  | .i32 => 0
  | .i64 => 1
  | .f32 => 2
  | .bf16 => 3
  | .f16 => 4
  | .e4m3 => 5
  | .e5m2 => 6
  | .i8 => 7
  | .i4 => 8
  | .i4x => 9
  | .e8m0 => 10
  | .e2m1 => 11

/-- The `Fmt` that a code names, or none where the code is not accepted (R202). -/
def Fmt.ofCode (b : BitVec 4) : Option Fmt :=
  match b.toNat with
  | 0 => some .i32
  | 1 => some .i64
  | 2 => some .f32
  | 3 => some .bf16
  | 4 => some .f16
  | 5 => some .e4m3
  | 6 => some .e5m2
  | 7 => some .i8
  | 8 => some .i4
  | 9 => some .i4x
  | 10 => some .e8m0
  | 11 => some .e2m1
  | _ => none

/-- The code of a `Cond` in its field (R186 to R201). -/
def Cond.code : Cond → BitVec 4
  | .eq => 0
  | .ne => 1
  | .lt => 2
  | .le => 3
  | .gt => 4
  | .ge => 5
  | .ltu => 6
  | .leu => 7
  | .gtu => 8
  | .geu => 9
  | .uno => 10
  | .ord => 11

/-- The `Cond` that a code names, or none where the code is not accepted (R202). -/
def Cond.ofCode (b : BitVec 4) : Option Cond :=
  match b.toNat with
  | 0 => some .eq
  | 1 => some .ne
  | 2 => some .lt
  | 3 => some .le
  | 4 => some .gt
  | 5 => some .ge
  | 6 => some .ltu
  | 7 => some .leu
  | 8 => some .gtu
  | 9 => some .geu
  | 10 => some .uno
  | 11 => some .ord
  | _ => none

/-- The code of a `Scope` in its field (R186 to R201). -/
def Scope.code : Scope → BitVec 3
  | .strand => 0
  | .cluster => 1
  | .die => 2
  | .module => 3
  | .system => 4

/-- The `Scope` that a code names, or none where the code is not accepted (R202). -/
def Scope.ofCode (b : BitVec 3) : Option Scope :=
  match b.toNat with
  | 0 => some .strand
  | 1 => some .cluster
  | 2 => some .die
  | 3 => some .module
  | 4 => some .system
  | _ => none

/-- The code of a `Order` in its field (R186 to R201). -/
def Order.code : Order → BitVec 2
  | .relaxed => 0
  | .acq => 1
  | .rel => 2
  | .ar => 3

/-- The `Order` that a code names; every code of the field is accepted. -/
def Order.ofCode (b : BitVec 2) : Order :=
  match b.toNat with
  | 0 => .relaxed
  | 1 => .acq
  | 2 => .rel
  | _ => .ar

/-- The code of a `MemSize` in its field (R186 to R201). -/
def MemSize.code : MemSize → BitVec 2
  | .b => 0
  | .h => 1
  | .w => 2
  | .d => 3

/-- The `MemSize` that a code names; every code of the field is accepted. -/
def MemSize.ofCode (b : BitVec 2) : MemSize :=
  match b.toNat with
  | 0 => .b
  | 1 => .h
  | 2 => .w
  | _ => .d

/-- The code of a `AmoSize` in its field (R186 to R201). -/
def AmoSize.code : AmoSize → BitVec 2
  | .w => 1
  | .d => 2
  | .q => 3

/-- The `AmoSize` that a code names, or none where the code is not accepted (R202). -/
def AmoSize.ofCode (b : BitVec 2) : Option AmoSize :=
  match b.toNat with
  | 1 => some .w
  | 2 => some .d
  | 3 => some .q
  | _ => none

/-- The code of a `AmoOp` in its field (R186 to R201). -/
def AmoOp.code : AmoOp → BitVec 4
  | .swap => 0
  | .add => 1
  | .and => 2
  | .or => 3
  | .xor => 4
  | .min => 5
  | .max => 6
  | .minu => 7
  | .maxu => 8
  | .fadd => 9

/-- The `AmoOp` that a code names, or none where the code is not accepted (R202). -/
def AmoOp.ofCode (b : BitVec 4) : Option AmoOp :=
  match b.toNat with
  | 0 => some .swap
  | 1 => some .add
  | 2 => some .and
  | 3 => some .or
  | 4 => some .xor
  | 5 => some .min
  | 6 => some .max
  | 7 => some .minu
  | 8 => some .maxu
  | 9 => some .fadd
  | _ => none

/-- The code of a `RedOp` in its field (R186 to R201). -/
def RedOp.code : RedOp → BitVec 3
  | .sum => 0
  | .min => 1
  | .max => 2
  | .and => 3
  | .or => 4
  | .xor => 5
  | .minu => 6
  | .maxu => 7

/-- The `RedOp` that a code names; every code of the field is accepted. -/
def RedOp.ofCode (b : BitVec 3) : RedOp :=
  match b.toNat with
  | 0 => .sum
  | 1 => .min
  | 2 => .max
  | 3 => .and
  | 4 => .or
  | 5 => .xor
  | 6 => .minu
  | _ => .maxu

/-- The code of a `ScanOp` in its field (R186 to R201). -/
def ScanOp.code : ScanOp → BitVec 3
  | .sum => 0
  | .min => 1
  | .max => 2

/-- The `ScanOp` that a code names, or none where the code is not accepted (R202). -/
def ScanOp.ofCode (b : BitVec 3) : Option ScanOp :=
  match b.toNat with
  | 0 => some .sum
  | 1 => some .min
  | 2 => some .max
  | _ => none

/-- The code of a `AggOp` in its field (R186 to R201). -/
def AggOp.code : AggOp → BitVec 4
  | .sum => 0
  | .count => 1
  | .min => 2
  | .max => 3

/-- The `AggOp` that a code names, or none where the code is not accepted (R202). -/
def AggOp.ofCode (b : BitVec 4) : Option AggOp :=
  match b.toNat with
  | 0 => some .sum
  | 1 => some .count
  | 2 => some .min
  | 3 => some .max
  | _ => none

/-- The code of a `FoldOp` in its field (R186 to R201). -/
def FoldOp.code : FoldOp → BitVec 4
  | .fadd32 => 0
  | .add32 => 1
  | .add64 => 2
  | .fmin32 => 3
  | .fmax32 => 4

/-- The `FoldOp` that a code names, or none where the code is not accepted (R202). -/
def FoldOp.ofCode (b : BitVec 4) : Option FoldOp :=
  match b.toNat with
  | 0 => some .fadd32
  | 1 => some .add32
  | 2 => some .add64
  | 3 => some .fmin32
  | 4 => some .fmax32
  | _ => none

/-- The code of a `Pattern` in its field (R186 to R201). -/
def Pattern.code : Pattern → BitVec 2
  | .p1x4 => 0
  | .p2x4 => 1
  | .p2x8 => 2
  | .p4x8 => 3

/-- The `Pattern` that a code names; every code of the field is accepted. -/
def Pattern.ofCode (b : BitVec 2) : Pattern :=
  match b.toNat with
  | 0 => .p1x4
  | 1 => .p2x4
  | 2 => .p2x8
  | _ => .p4x8

/-- The code of a `Pol` in its field (R186 to R201). -/
def Pol.code : Pol → BitVec 2
  | .default => 0
  | .stream => 1
  | .keep => 2

/-- The `Pol` that a code names, or none where the code is not accepted (R202). -/
def Pol.ofCode (b : BitVec 2) : Option Pol :=
  match b.toNat with
  | 0 => some .default
  | 1 => some .stream
  | 2 => some .keep
  | _ => none

/-- The code of a `InvKind` in its field (R186 to R201). -/
def InvKind.code : InvKind → BitVec 2
  | .page => 0
  | .owner => 1
  | .all => 2

/-- The `InvKind` that a code names, or none where the code is not accepted (R202). -/
def InvKind.ofCode (b : BitVec 2) : Option InvKind :=
  match b.toNat with
  | 0 => some .page
  | 1 => some .owner
  | 2 => some .all
  | _ => none

/-- The code of a `DstatSel` in its field (R186 to R201). -/
def DstatSel.code : DstatSel → BitVec 3
  | .last => 0
  | .int => 1
  | .inflt => 2
  | .hint => 3

/-- The `DstatSel` that a code names, or none where the code is not accepted (R202). -/
def DstatSel.ofCode (b : BitVec 3) : Option DstatSel :=
  match b.toNat with
  | 0 => some .last
  | 1 => some .int
  | 2 => some .inflt
  | 3 => some .hint
  | _ => none

/-- The scope a vector memory word's two-bit field names (R133): code 0 is cluster. -/
def Scope.memCode : Scope → BitVec 2
  | .strand => 0
  | .cluster => 0
  | .die => 1
  | .module => 2
  | .system => 3

/-- The scope of a vector memory word (R133). -/
def Scope.ofMemCode (b : BitVec 2) : Scope :=
  match b.toNat with
  | 0 => .cluster
  | 1 => .die
  | 2 => .module
  | _ => .system

/-- The va field that a SETVL request occupies (R192). -/
def LenSrc.regField : LenSrc → BitVec 5
  | .imm _ => 0
  | .reg xa => xa

/-- The imm16 field that a SETVL request occupies (R192). -/
def LenSrc.immField : LenSrc → BitVec 16
  | .imm n => n
  | .reg _ => 0

/-- Bit R of VSLIDE (R192). -/
def SlideAmt.isReg : SlideAmt → Bool
  | .imm _ => false
  | .reg _ => true

/-- The vb field of VSLIDE (R192). -/
def SlideAmt.regField : SlideAmt → BitVec 5
  | .imm _ => 0
  | .reg xb => xb

/-- The imm16 field of VSLIDE (R192). -/
def SlideAmt.immField : SlideAmt → BitVec 14
  | .imm n => n
  | .reg _ => 0

/-! ### Fields read from a word -/

/-- The guard, chain and Z bits of a vector-format word (R191). -/
def vctl (w : BitVec 64) : VCtl :=
  { c := w.getLsbD 55, g := w.extractLsb' 51 4, n := w.getLsbD 50, z := w.getLsbD 49 }

/-- The guard and chain bits of a word whose Z bit is reserved (R192). -/
def gctl (w : BitVec 64) : GCtl := { c := w.getLsbD 55, g := w.extractLsb' 51 4, n := w.getLsbD 50 }

/-- The request of SETVL: an immediate when va is 0 (R192). -/
def lenSrc (w : BitVec 64) : LenSrc :=
  if w.extractLsb' 39 5 = 0 then .imm (w.extractLsb' 0 16) else .reg (w.extractLsb' 39 5)

/-- The amount of VSLIDE: the register of vb when bit R is set (R192). -/
def slideAmt (w : BitVec 64) : SlideAmt :=
  if w.getLsbD 17 then .reg (w.extractLsb' 34 5) else .imm (w.extractLsb' 0 14)

/-- The format, ordering and policy fields of a vector memory word (R194). -/
def mctl (w : BitVec 64) : Option MCtl :=
  (Fmt.ofCode (w.extractLsb' 30 4)).bind fun fmt => (Pol.ofCode (w.extractLsb' 21 2)).bind fun pol =>
    some { fmt := fmt, o := w.getLsbD 29, s := w.getLsbD 28, d := w.extractLsb' 25 3,
           scope := Scope.ofMemCode (w.extractLsb' 23 2), pol := pol }

/-- The operands of DCOPY (R201). -/
def copyArgs (w : BitVec 64) : CopyArgs :=
  { xd := w.extractLsb' 51 5, xa := w.extractLsb' 46 5, xb := w.extractLsb' 41 5, xc := w.extractLsb' 36 5,
    d := w.extractLsb' 33 3, u := w.getLsbD 32, put := w.getLsbD 29, off := w.extractLsb' 0 21 }

/-- The instruction that the fields of `w` name when its opcode is `op`: the scalar, control and memory rows 0x0_ to 0x3_ of R181. -/
def candidateScalar (op : Nat) (w : BitVec 64) : Option Instr :=
  match op with
  | 0x01 => some (.add (w.extractLsb' 51 5) (w.extractLsb' 46 5) (w.extractLsb' 41 5))
  | 0x02 => some (.sub (w.extractLsb' 51 5) (w.extractLsb' 46 5) (w.extractLsb' 41 5))
  | 0x03 => some (.mul (w.extractLsb' 51 5) (w.extractLsb' 46 5) (w.extractLsb' 41 5))
  | 0x04 => some (.mulh (w.extractLsb' 51 5) (w.extractLsb' 46 5) (w.extractLsb' 41 5))
  | 0x05 => some (.mulhu (w.extractLsb' 51 5) (w.extractLsb' 46 5) (w.extractLsb' 41 5))
  | 0x06 => some (.div (w.extractLsb' 51 5) (w.extractLsb' 46 5) (w.extractLsb' 41 5))
  | 0x07 => some (.divu (w.extractLsb' 51 5) (w.extractLsb' 46 5) (w.extractLsb' 41 5))
  | 0x08 => some (.rem (w.extractLsb' 51 5) (w.extractLsb' 46 5) (w.extractLsb' 41 5))
  | 0x09 => some (.remu (w.extractLsb' 51 5) (w.extractLsb' 46 5) (w.extractLsb' 41 5))
  | 0x0a => some (.and (w.extractLsb' 51 5) (w.extractLsb' 46 5) (w.extractLsb' 41 5))
  | 0x0b => some (.or (w.extractLsb' 51 5) (w.extractLsb' 46 5) (w.extractLsb' 41 5))
  | 0x0c => some (.xor (w.extractLsb' 51 5) (w.extractLsb' 46 5) (w.extractLsb' 41 5))
  | 0x0d => some (.shl (w.extractLsb' 51 5) (w.extractLsb' 46 5) (w.extractLsb' 41 5))
  | 0x0e => some (.shr (w.extractLsb' 51 5) (w.extractLsb' 46 5) (w.extractLsb' 41 5))
  | 0x0f => some (.sra (w.extractLsb' 51 5) (w.extractLsb' 46 5) (w.extractLsb' 41 5))
  | 0x10 => some (.slt (w.extractLsb' 51 5) (w.extractLsb' 46 5) (w.extractLsb' 41 5))
  | 0x11 => some (.sltu (w.extractLsb' 51 5) (w.extractLsb' 46 5) (w.extractLsb' 41 5))
  | 0x12 => some (.min (w.extractLsb' 51 5) (w.extractLsb' 46 5) (w.extractLsb' 41 5))
  | 0x13 => some (.max (w.extractLsb' 51 5) (w.extractLsb' 46 5) (w.extractLsb' 41 5))
  | 0x14 => some (.clz (w.extractLsb' 51 5) (w.extractLsb' 46 5))
  | 0x15 => some (.popc (w.extractLsb' 51 5) (w.extractLsb' 46 5))
  | 0x16 => some (.csel (w.extractLsb' 51 5) (w.extractLsb' 46 5) (w.extractLsb' 41 5) (w.extractLsb' 32 5))
  | 0x18 => some (.addi (w.extractLsb' 51 5) (w.extractLsb' 46 5) (w.extractLsb' 0 32))
  | 0x19 => some (.andi (w.extractLsb' 51 5) (w.extractLsb' 46 5) (w.extractLsb' 0 32))
  | 0x1a => some (.ori (w.extractLsb' 51 5) (w.extractLsb' 46 5) (w.extractLsb' 0 32))
  | 0x1b => some (.xori (w.extractLsb' 51 5) (w.extractLsb' 46 5) (w.extractLsb' 0 32))
  | 0x1c => some (.shli (w.extractLsb' 51 5) (w.extractLsb' 46 5) (w.extractLsb' 0 6))
  | 0x1d => some (.shri (w.extractLsb' 51 5) (w.extractLsb' 46 5) (w.extractLsb' 0 6))
  | 0x1e => some (.srai (w.extractLsb' 51 5) (w.extractLsb' 46 5) (w.extractLsb' 0 6))
  | 0x1f => some (.limm (w.extractLsb' 51 5) (w.extractLsb' 0 32))
  | 0x20 => some (.addpc (w.extractLsb' 51 5) (w.extractLsb' 0 32))
  | 0x21 => (FTy.ofCode (w.extractLsb' 32 2)).bind fun t => some (.fadd t (w.extractLsb' 51 5) (w.extractLsb' 46 5) (w.extractLsb' 41 5))
  | 0x22 => (FTy.ofCode (w.extractLsb' 32 2)).bind fun t => some (.fsub t (w.extractLsb' 51 5) (w.extractLsb' 46 5) (w.extractLsb' 41 5))
  | 0x23 => (FTy.ofCode (w.extractLsb' 32 2)).bind fun t => some (.fmul t (w.extractLsb' 51 5) (w.extractLsb' 46 5) (w.extractLsb' 41 5))
  | 0x24 => (FTy.ofCode (w.extractLsb' 32 2)).bind fun t => some (.fma t (w.extractLsb' 51 5) (w.extractLsb' 46 5) (w.extractLsb' 41 5) (w.extractLsb' 34 5))
  | 0x25 => (FTy.ofCode (w.extractLsb' 32 2)).bind fun t => some (.fdiv t (w.extractLsb' 51 5) (w.extractLsb' 46 5) (w.extractLsb' 41 5))
  | 0x26 => (FTy.ofCode (w.extractLsb' 32 2)).bind fun t => some (.fsqrt t (w.extractLsb' 51 5) (w.extractLsb' 46 5))
  | 0x27 => (FTy.ofCode (w.extractLsb' 32 2)).bind fun t => some (.fmin t (w.extractLsb' 51 5) (w.extractLsb' 46 5) (w.extractLsb' 41 5))
  | 0x28 => (FTy.ofCode (w.extractLsb' 32 2)).bind fun t => some (.fmax t (w.extractLsb' 51 5) (w.extractLsb' 46 5) (w.extractLsb' 41 5))
  | 0x29 => (FTy.ofCode (w.extractLsb' 32 2)).bind fun t => (Cond.ofCode (w.extractLsb' 34 4)).bind fun c => some (.fcmp t c (w.extractLsb' 51 5) (w.extractLsb' 46 5) (w.extractLsb' 41 5))
  | 0x2a => (CvtTy.ofCode (w.extractLsb' 32 3)).bind fun src => (CvtTy.ofCode (w.extractLsb' 35 3)).bind fun dst => some (.fcvt dst src (w.extractLsb' 51 5) (w.extractLsb' 46 5))
  | 0x30 => some (.br (w.extractLsb' 0 32))
  | 0x31 => (Cond.ofCode (w.extractLsb' 42 4)).bind fun c => some (.bcmp c (w.extractLsb' 51 5) (w.extractLsb' 46 5) (w.extractLsb' 0 32))
  | 0x32 => some (.call (w.extractLsb' 51 5) (w.extractLsb' 0 32))
  | 0x33 => some (.ret (w.extractLsb' 46 5))
  | 0x34 => some (.jmp (w.extractLsb' 46 5) (w.extractLsb' 0 32))
  | 0x38 => some (.ld (MemSize.ofCode (w.extractLsb' 32 2)) (w.getLsbD 34) (w.extractLsb' 51 5) (w.extractLsb' 46 5) (w.extractLsb' 0 32))
  | 0x39 => some (.ldIndexed (MemSize.ofCode (w.extractLsb' 32 2)) (w.getLsbD 34) (w.extractLsb' 51 5) (w.extractLsb' 46 5) (w.extractLsb' 41 5))
  | 0x3a => some (.st (MemSize.ofCode (w.extractLsb' 32 2)) (w.extractLsb' 51 5) (w.extractLsb' 46 5) (w.extractLsb' 0 32))
  | 0x3b => some (.stIndexed (MemSize.ofCode (w.extractLsb' 32 2)) (w.extractLsb' 51 5) (w.extractLsb' 46 5) (w.extractLsb' 41 5))
  | 0x3c => (AmoSize.ofCode (w.extractLsb' 32 2)).bind fun size => (Scope.ofCode (w.extractLsb' 34 3)).bind fun scope => (AmoOp.ofCode (w.extractLsb' 0 4)).bind fun op => some (.amo op size scope (Order.ofCode (w.extractLsb' 37 2)) (w.extractLsb' 51 5) (w.extractLsb' 46 5) (w.extractLsb' 41 5))
  | 0x3d => (AmoSize.ofCode (w.extractLsb' 32 2)).bind fun size => (Scope.ofCode (w.extractLsb' 34 3)).bind fun scope => some (.cas size scope (Order.ofCode (w.extractLsb' 37 2)) (w.extractLsb' 51 5) (w.extractLsb' 46 5) (w.extractLsb' 41 5))
  | _ => none

/-- The instruction that the fields of `w` name when its opcode is `op`: the vector rows 0x4_ to 0x7_ of R181. -/
def candidateVector (op : Nat) (w : BitVec 64) : Option Instr :=
  match op with
  | 0x40 => (ElemTy.ofCode (w.extractLsb' 16 4)).bind fun t => some (.setvl t (w.extractLsb' 44 5) (lenSrc w))
  | 0x41 => (ElemTy.ofCode (w.extractLsb' 16 4)).bind fun t => some (.setvt t)
  | 0x42 => some (.vfold (w.extractLsb' 44 5) (w.extractLsb' 39 5) (w.extractLsb' 0 2))
  | 0x43 => some (.vadd (vctl w) (w.getLsbD 16) (w.getLsbD 17) (w.extractLsb' 44 5) (w.extractLsb' 39 5) (w.extractLsb' 34 5))
  | 0x44 => some (.vsub (vctl w) (w.getLsbD 16) (w.getLsbD 17) (w.extractLsb' 44 5) (w.extractLsb' 39 5) (w.extractLsb' 34 5))
  | 0x45 => some (.vmul (vctl w) (w.getLsbD 16) (w.getLsbD 18) (w.extractLsb' 44 5) (w.extractLsb' 39 5) (w.extractLsb' 34 5))
  | 0x46 => some (.vfma (vctl w) (w.extractLsb' 44 5) (w.extractLsb' 39 5) (w.extractLsb' 34 5) (w.extractLsb' 29 5))
  | 0x47 => some (.vfms (vctl w) (w.extractLsb' 44 5) (w.extractLsb' 39 5) (w.extractLsb' 34 5) (w.extractLsb' 29 5))
  | 0x48 => some (.vdiv (vctl w) (w.getLsbD 16) (w.extractLsb' 44 5) (w.extractLsb' 39 5) (w.extractLsb' 34 5))
  | 0x49 => some (.vsqrt (vctl w) (w.extractLsb' 44 5) (w.extractLsb' 39 5))
  | 0x4a => some (.vrcp (vctl w) (w.extractLsb' 44 5) (w.extractLsb' 39 5))
  | 0x4b => some (.vrsq (vctl w) (w.extractLsb' 44 5) (w.extractLsb' 39 5))
  | 0x4c => some (.vexp2 (vctl w) (w.extractLsb' 44 5) (w.extractLsb' 39 5))
  | 0x4d => some (.vlog2 (vctl w) (w.extractLsb' 44 5) (w.extractLsb' 39 5))
  | 0x4e => some (.vmin (vctl w) (w.getLsbD 16) (w.extractLsb' 44 5) (w.extractLsb' 39 5) (w.extractLsb' 34 5))
  | 0x4f => some (.vmax (vctl w) (w.getLsbD 16) (w.extractLsb' 44 5) (w.extractLsb' 39 5) (w.extractLsb' 34 5))
  | 0x50 => some (.vabs (vctl w) (w.extractLsb' 44 5) (w.extractLsb' 39 5))
  | 0x51 => some (.vneg (vctl w) (w.extractLsb' 44 5) (w.extractLsb' 39 5))
  | 0x52 => some (.vand (vctl w) (w.extractLsb' 44 5) (w.extractLsb' 39 5) (w.extractLsb' 34 5))
  | 0x53 => some (.vor (vctl w) (w.extractLsb' 44 5) (w.extractLsb' 39 5) (w.extractLsb' 34 5))
  | 0x54 => some (.vxor (vctl w) (w.extractLsb' 44 5) (w.extractLsb' 39 5) (w.extractLsb' 34 5))
  | 0x55 => some (.vshl (vctl w) (w.extractLsb' 44 5) (w.extractLsb' 39 5) (w.extractLsb' 34 5))
  | 0x56 => some (.vshr (vctl w) (w.extractLsb' 44 5) (w.extractLsb' 39 5) (w.extractLsb' 34 5))
  | 0x57 => some (.vsra (vctl w) (w.extractLsb' 44 5) (w.extractLsb' 39 5) (w.extractLsb' 34 5))
  | 0x58 => (ElemTy.ofCode (w.extractLsb' 16 4)).bind fun t => some (.vcvt (vctl w) t (w.extractLsb' 44 5) (w.extractLsb' 39 5))
  | 0x59 => (Cond.ofCode (w.extractLsb' 16 4)).bind fun c => some (.vcmp (vctl w) c (w.extractLsb' 25 4) (w.extractLsb' 21 4) (w.extractLsb' 39 5) (w.extractLsb' 34 5))
  | 0x5a => some (.vsel (vctl w) (w.extractLsb' 44 5) (w.extractLsb' 39 5) (w.extractLsb' 34 5) (w.extractLsb' 21 4))
  | 0x5b => some (.vmov (vctl w) (w.extractLsb' 44 5) (w.extractLsb' 39 5))
  | 0x5c =>
    if !(w.getLsbD 16) then some (.vmvxToScalar (gctl w) (w.extractLsb' 44 5) (w.extractLsb' 39 5) (w.extractLsb' 0 14))
    else some (.vmvxToVector (vctl w) (w.extractLsb' 44 5) (w.extractLsb' 39 5) (w.extractLsb' 0 14))
  | 0x5d => some (.vred (gctl w) (RedOp.ofCode (w.extractLsb' 16 3)) (w.getLsbD 19) (w.extractLsb' 44 5) (w.extractLsb' 39 5))
  | 0x5e => some (.vslide (vctl w) (w.getLsbD 16) (w.extractLsb' 44 5) (w.extractLsb' 39 5) (slideAmt w))
  | 0x5f => some (.vperm (vctl w) (w.extractLsb' 44 5) (w.extractLsb' 39 5) (w.extractLsb' 34 5))
  | 0x60 => some (.viota (vctl w) (w.extractLsb' 44 5))
  | 0x61 => some (.vaddX (vctl w) (w.getLsbD 16) (w.getLsbD 17) (w.extractLsb' 44 5) (w.extractLsb' 39 5) (w.extractLsb' 34 5))
  | 0x62 => some (.vsubX (vctl w) (w.getLsbD 16) (w.getLsbD 17) (w.extractLsb' 44 5) (w.extractLsb' 39 5) (w.extractLsb' 34 5))
  | 0x63 => some (.vmulX (vctl w) (w.getLsbD 16) (w.getLsbD 18) (w.extractLsb' 44 5) (w.extractLsb' 39 5) (w.extractLsb' 34 5))
  | 0x64 => some (.vfmaX (vctl w) (w.extractLsb' 44 5) (w.extractLsb' 39 5) (w.extractLsb' 34 5) (w.extractLsb' 29 5))
  | 0x65 => some (.vfmsX (vctl w) (w.extractLsb' 44 5) (w.extractLsb' 39 5) (w.extractLsb' 34 5) (w.extractLsb' 29 5))
  | 0x66 => some (.vminX (vctl w) (w.getLsbD 16) (w.extractLsb' 44 5) (w.extractLsb' 39 5) (w.extractLsb' 34 5))
  | 0x67 => some (.vmaxX (vctl w) (w.getLsbD 16) (w.extractLsb' 44 5) (w.extractLsb' 39 5) (w.extractLsb' 34 5))
  | 0x68 => some (.vandX (vctl w) (w.extractLsb' 44 5) (w.extractLsb' 39 5) (w.extractLsb' 34 5))
  | 0x69 => some (.vorX (vctl w) (w.extractLsb' 44 5) (w.extractLsb' 39 5) (w.extractLsb' 34 5))
  | 0x6a => some (.vxorX (vctl w) (w.extractLsb' 44 5) (w.extractLsb' 39 5) (w.extractLsb' 34 5))
  | 0x6b => some (.vshlX (vctl w) (w.extractLsb' 44 5) (w.extractLsb' 39 5) (w.extractLsb' 34 5))
  | 0x6c => some (.vshrX (vctl w) (w.extractLsb' 44 5) (w.extractLsb' 39 5) (w.extractLsb' 34 5))
  | 0x6d => some (.vsraX (vctl w) (w.extractLsb' 44 5) (w.extractLsb' 39 5) (w.extractLsb' 34 5))
  | 0x6e => some (.vaddI (vctl w) (w.getLsbD 16) (w.getLsbD 17) (w.extractLsb' 44 5) (w.extractLsb' 39 5) (w.extractLsb' 0 16))
  | 0x6f => some (.vandI (vctl w) (w.extractLsb' 44 5) (w.extractLsb' 39 5) (w.extractLsb' 0 16))
  | 0x70 => some (.vorI (vctl w) (w.extractLsb' 44 5) (w.extractLsb' 39 5) (w.extractLsb' 0 16))
  | 0x71 => some (.vxorI (vctl w) (w.extractLsb' 44 5) (w.extractLsb' 39 5) (w.extractLsb' 0 16))
  | 0x72 => some (.vshlI (vctl w) (w.extractLsb' 44 5) (w.extractLsb' 39 5) (w.extractLsb' 0 6))
  | 0x73 => some (.vshrI (vctl w) (w.extractLsb' 44 5) (w.extractLsb' 39 5) (w.extractLsb' 0 6))
  | 0x74 => some (.vsraI (vctl w) (w.extractLsb' 44 5) (w.extractLsb' 39 5) (w.extractLsb' 0 6))
  | 0x78 => some (.pand (vctl w) (w.extractLsb' 25 4) (w.extractLsb' 21 4) (w.extractLsb' 39 4))
  | 0x79 => some (.por (vctl w) (w.extractLsb' 25 4) (w.extractLsb' 21 4) (w.extractLsb' 39 4))
  | 0x7a => some (.pxor (vctl w) (w.extractLsb' 25 4) (w.extractLsb' 21 4) (w.extractLsb' 39 4))
  | 0x7b => some (.pandn (vctl w) (w.extractLsb' 25 4) (w.extractLsb' 21 4) (w.extractLsb' 39 4))
  | 0x7c => some (.pset (vctl w) (w.extractLsb' 25 4) (w.extractLsb' 0 16))
  | 0x7d => some (.pcnt (gctl w) (w.extractLsb' 44 5) (w.extractLsb' 21 4))
  | 0x7e => some (.pfirst (gctl w) (w.extractLsb' 44 5) (w.extractLsb' 21 4))
  | 0x7f => some (.pmov (vctl w) (w.extractLsb' 25 4) (w.extractLsb' 21 4))
  | _ => none

/-- The instruction that the fields of `w` name when its opcode is `op`: the vector memory, irregular and synchronisation rows 0x8_ and 0x9_ of R181. -/
def candidateMem (op : Nat) (w : BitVec 64) : Option Instr :=
  match op with
  | 0x80 => (mctl w).bind fun m => some (.vld (vctl w) m (w.extractLsb' 44 5) (w.extractLsb' 39 5) (w.extractLsb' 0 21))
  | 0x81 => (mctl w).bind fun m => some (.vldStrided (vctl w) m (w.extractLsb' 44 5) (w.extractLsb' 39 5) (w.extractLsb' 34 5) (w.extractLsb' 0 21))
  | 0x82 => (mctl w).bind fun m => some (.vst (gctl w) m (w.extractLsb' 44 5) (w.extractLsb' 39 5) (w.extractLsb' 0 21))
  | 0x83 => (mctl w).bind fun m => some (.vstStrided (gctl w) m (w.extractLsb' 44 5) (w.extractLsb' 39 5) (w.extractLsb' 34 5) (w.extractLsb' 0 21))
  | 0x84 => (mctl w).bind fun m => some (.vldff (vctl w) m (w.extractLsb' 44 5) (w.extractLsb' 39 5) (w.extractLsb' 0 21))
  | 0x85 => (mctl w).bind fun m => some (.vgath (vctl w) m (w.extractLsb' 44 5) (w.extractLsb' 39 5) (w.extractLsb' 34 5) (w.extractLsb' 0 21))
  | 0x86 => (mctl w).bind fun m => some (.vscat (gctl w) m (w.extractLsb' 44 5) (w.extractLsb' 39 5) (w.extractLsb' 34 5) (w.extractLsb' 0 21))
  | 0x87 => (mctl w).bind fun m => some (.vscadd (gctl w) m (w.extractLsb' 44 5) (w.extractLsb' 39 5) (w.extractLsb' 34 5) (w.extractLsb' 0 21))
  | 0x88 => (mctl w).bind fun m => some (.vldb (vctl w) m (w.extractLsb' 44 5) (w.extractLsb' 39 5) (w.extractLsb' 34 5) (w.extractLsb' 0 21))
  | 0x89 => (mctl w).bind fun m => some (.vstb (gctl w) m (w.extractLsb' 44 5) (w.extractLsb' 39 5) (w.extractLsb' 34 5) (w.extractLsb' 0 21))
  | 0x8a => (mctl w).bind fun m => some (.vldz (vctl w) m (w.extractLsb' 44 5) (w.extractLsb' 0 5) (w.extractLsb' 39 5) (w.extractLsb' 34 5) (w.getLsbD 5))
  | 0x8c => some (.vcompress (vctl w) (w.extractLsb' 44 5) (w.extractLsb' 39 5) (w.extractLsb' 21 4))
  | 0x8d => some (.vexpand (vctl w) (w.extractLsb' 44 5) (w.extractLsb' 39 5) (w.extractLsb' 21 4))
  | 0x8e => some (.vpcnt (vctl w) (w.extractLsb' 44 5) (w.extractLsb' 21 4))
  | 0x8f => some (.vconf (vctl w) (w.extractLsb' 44 5) (w.extractLsb' 39 5))
  | 0x90 => (ScanOp.ofCode (w.extractLsb' 16 3)).bind fun op => some (.vscan (vctl w) op (w.getLsbD 19) (w.extractLsb' 44 5) (w.extractLsb' 39 5) (w.extractLsb' 21 4))
  | 0x91 => some (.vlut (vctl w) (w.extractLsb' 44 5) (w.extractLsb' 39 5) (w.extractLsb' 34 5))
  | 0x92 => some (.vbfx (vctl w) (w.extractLsb' 44 5) (w.extractLsb' 39 5) (w.extractLsb' 0 6) (w.extractLsb' 6 6))
  | 0x93 => some (.vexit (vctl w) (w.extractLsb' 25 4) (w.extractLsb' 21 4))
  | 0x98 => (Scope.ofCode (w.extractLsb' 32 3)).bind fun scope => some (.fence scope (Order.ofCode (w.extractLsb' 35 2)))
  | 0x99 => some .lsync
  | 0x9a => some .pfence
  | 0x9b => some (.bar (w.getLsbD 32))
  | 0x9c => some (.barw (w.getLsbD 32))
  | 0x9d => some (.waitd (w.extractLsb' 32 3) (w.extractLsb' 0 16))
  | 0x9e => (Scope.ofCode (w.extractLsb' 32 3)).bind fun scope => some (.claim scope (w.extractLsb' 51 5) (w.extractLsb' 46 5) (w.extractLsb' 41 5))
  | 0x9f => some (.signal (w.extractLsb' 46 5) (w.extractLsb' 41 5))
  | _ => none

/-- The instruction that the fields of `w` name when its opcode is `op`: the column and matrix rows 0xA_ and 0xB_ of R181. -/
def candidateCol (op : Nat) (w : BitVec 64) : Option Instr :=
  match op with
  | 0xa0 => some (.kdef (w.extractLsb' 52 4) (w.extractLsb' 30 5) (w.extractLsb' 0 26))
  | 0xa1 =>
    if (w.extractLsb' 26 4) == 0 then some (.klen (w.extractLsb' 35 5) (w.extractLsb' 48 4))
    else some (.klenSet (w.extractLsb' 52 4) (w.extractLsb' 30 5))
  | 0xa2 => (Cond.ofCode (w.extractLsb' 26 4)).bind fun c => some (.ksel c (w.extractLsb' 52 4) (w.extractLsb' 35 5) (w.extractLsb' 48 4) (w.extractLsb' 30 5))
  | 0xa3 => (Cond.ofCode (w.extractLsb' 26 4)).bind fun c => some (.kselp c (w.extractLsb' 52 4) (w.extractLsb' 35 5) (w.extractLsb' 48 4) (w.extractLsb' 44 4))
  | 0xa4 => some (.kjoin (w.extractLsb' 52 4) (w.extractLsb' 40 4) (w.extractLsb' 35 5) (w.extractLsb' 48 4) (w.extractLsb' 44 4))
  | 0xa5 => some (.kmjoin (w.extractLsb' 52 4) (w.extractLsb' 40 4) (w.extractLsb' 35 5) (w.extractLsb' 48 4) (w.extractLsb' 44 4))
  | 0xa6 =>
    if (w.extractLsb' 26 4) == 0 then some (.ksemi (w.extractLsb' 52 4) (w.extractLsb' 35 5) (w.extractLsb' 48 4) (w.extractLsb' 44 4))
    else some (.ksemiAnti (w.extractLsb' 52 4) (w.extractLsb' 35 5) (w.extractLsb' 48 4) (w.extractLsb' 44 4))
  | 0xa7 => some (.kgroup (w.extractLsb' 52 4) (w.extractLsb' 40 4) (w.extractLsb' 35 5) (w.extractLsb' 48 4))
  | 0xa8 => (AggOp.ofCode (w.extractLsb' 26 4)).bind fun op => some (.kagg op (w.extractLsb' 52 4) (w.extractLsb' 35 5) (w.extractLsb' 48 4) (w.extractLsb' 44 4))
  | 0xa9 => some (.ksort (w.extractLsb' 52 4) (w.extractLsb' 35 5) (w.extractLsb' 48 4))
  | 0xaa => some (.ktopk (w.getLsbD 26) (w.extractLsb' 52 4) (w.extractLsb' 35 5) (w.extractLsb' 48 4) (w.extractLsb' 30 5))
  | 0xab => some (.kgath (w.extractLsb' 52 4) (w.extractLsb' 35 5) (w.extractLsb' 48 4))
  | 0xac => some (.kcat (w.extractLsb' 52 4) (w.extractLsb' 35 5) (w.extractLsb' 48 4) (w.extractLsb' 44 4))
  | 0xb0 => some (.mattach (w.extractLsb' 51 5))
  | 0xb1 => some .mdetach
  | 0xb2 => some .mzero
  | 0xb3 => (Fmt.ofCode (w.extractLsb' 37 4)).bind fun fa => (Fmt.ofCode (w.extractLsb' 33 4)).bind fun fb => some (.mma fa fb (w.extractLsb' 51 5) (w.extractLsb' 46 5) (w.extractLsb' 0 8) (w.extractLsb' 8 8) (w.extractLsb' 16 14))
  | 0xb4 => some (.mmag (w.extractLsb' 51 5) (w.extractLsb' 46 5))
  | 0xb5 => (Fmt.ofCode (w.extractLsb' 37 4)).bind fun fa => (Fmt.ofCode (w.extractLsb' 33 4)).bind fun fb => some (.mmas fa fb (Pattern.ofCode (w.extractLsb' 30 2)) (w.getLsbD 32) (w.extractLsb' 51 5) (w.extractLsb' 46 5) (w.extractLsb' 41 5) (w.extractLsb' 0 8) (w.extractLsb' 8 8) (w.extractLsb' 16 14))
  | 0xb6 => some (.mext (vctl w) (w.getLsbD 16) (w.getLsbD 17) (w.getLsbD 18) (w.extractLsb' 44 5) (w.extractLsb' 39 5) (w.extractLsb' 0 8) (w.extractLsb' 8 8))
  | 0xb8 => some (.glaunch (w.extractLsb' 51 5) (w.extractLsb' 46 5) (w.extractLsb' 41 5))
  | 0xb9 => some (.assay (w.extractLsb' 51 5))
  | 0xba => some .gend
  | _ => none

/-- The instruction that the fields of `w` name when its opcode is `op`: the Drayman, scheduling and system rows 0xC_ to 0xE_ of R181. -/
def candidateSys (op : Nat) (w : BitVec 64) : Option Instr :=
  match op with
  | 0xc0 => some (.dcfg (w.extractLsb' 46 5) (w.extractLsb' 41 5))
  | 0xc1 => some (.dcopy (copyArgs w))
  | 0xc2 => some (.dcopy2d (copyArgs w))
  | 0xc3 => (FoldOp.ofCode (w.extractLsb' 21 4)).bind fun op => some (.dred op (w.getLsbD 29) (w.extractLsb' 51 5) (w.extractLsb' 46 5) (w.extractLsb' 41 5) (w.extractLsb' 36 5) (w.extractLsb' 33 3) (w.getLsbD 32) (w.extractLsb' 0 21))
  | 0xc4 => some (.dpref (w.extractLsb' 46 5) (w.extractLsb' 41 5) (w.extractLsb' 36 5))
  | 0xc5 => (DstatSel.ofCode (w.extractLsb' 29 3)).bind fun sel => some (.dstat sel (w.extractLsb' 51 5))
  | 0xc6 => some (.dcancel (w.extractLsb' 46 5))
  | 0xc8 =>
    if !(w.getLsbD 3) then some (.kbind (w.extractLsb' 0 3) (w.extractLsb' 48 4))
    else some (.kbindAppend (w.extractLsb' 0 3) (w.extractLsb' 48 4))
  | 0xc9 => some (.kunbind (w.extractLsb' 0 3))
  | 0xca => some (.ctab (w.getLsbD 32) (w.extractLsb' 46 5) (w.extractLsb' 0 32))
  | 0xd0 => some (.launch (w.extractLsb' 51 5) (w.extractLsb' 46 5) (w.extractLsb' 41 5))
  | 0xd1 => some .yield
  | 0xd2 => some (.tickw (w.extractLsb' 51 5))
  | 0xd3 =>
    if (w.extractLsb' 32 4) == 0 then some (.tqctlExit (w.extractLsb' 51 5) (w.extractLsb' 46 5) (w.extractLsb' 41 5))
    else if (w.extractLsb' 32 4) == 1 then some (.tqctlStat (w.extractLsb' 51 5) (w.extractLsb' 46 5) (w.extractLsb' 41 5))
    else if (w.extractLsb' 32 4) == 2 then some (.tqctlStop (w.extractLsb' 51 5) (w.extractLsb' 46 5) (w.extractLsb' 41 5))
    else if (w.extractLsb' 32 4) == 3 then some (.tqctlStart (w.extractLsb' 51 5) (w.extractLsb' 46 5) (w.extractLsb' 41 5))
    else if (w.extractLsb' 32 4) == 4 then some (.tqctlKill (w.extractLsb' 51 5) (w.extractLsb' 46 5) (w.extractLsb' 41 5))
    else if (w.extractLsb' 32 4) == 5 then some (.tqctlPeriod (w.extractLsb' 51 5) (w.extractLsb' 46 5) (w.extractLsb' 41 5))
    else none
  | 0xe0 => some (.trap (w.extractLsb' 0 16))
  | 0xe1 => some .eret
  | 0xe2 => some .uiret
  | 0xe3 => some (.csrr (w.extractLsb' 51 5) (w.extractLsb' 0 12))
  | 0xe4 => some (.csrw (w.extractLsb' 51 5) (w.extractLsb' 46 5) (w.extractLsb' 0 12))
  | 0xe5 => some (.csrs (w.extractLsb' 51 5) (w.extractLsb' 46 5) (w.extractLsb' 0 12))
  | 0xe6 => some (.csrc (w.extractLsb' 51 5) (w.extractLsb' 46 5) (w.extractLsb' 0 12))
  | 0xe7 => some .fencei
  | 0xe8 =>
    if (w.extractLsb' 32 2) == 0 then some (.ipref (w.extractLsb' 46 5) (w.extractLsb' 41 5) (w.extractLsb' 0 32))
    else if (w.extractLsb' 32 2) == 1 then some (.ipin (w.extractLsb' 46 5) (w.extractLsb' 41 5) (w.extractLsb' 0 32))
    else if (w.extractLsb' 32 2) == 2 then some (.iunpin (w.extractLsb' 46 5) (w.extractLsb' 41 5) (w.extractLsb' 0 32))
    else none
  | 0xe9 => (Scope.ofCode (w.extractLsb' 32 3)).bind fun scope => (InvKind.ofCode (w.extractLsb' 35 2)).bind fun f => some (.tlbinv scope f (w.extractLsb' 46 5) (w.extractLsb' 41 5))
  | 0xea => some .idle
  | 0xeb => some (.savev (w.extractLsb' 46 5) (w.extractLsb' 0 32))
  | 0xec => some (.restv (w.extractLsb' 46 5) (w.extractLsb' 0 32))
  | 0xed => some (.savek (w.extractLsb' 46 5) (w.extractLsb' 0 16))
  | 0xee => some (.restk (w.extractLsb' 46 5) (w.extractLsb' 0 16))
  | _ => none

/-- The instruction that the fields of `w` name (R181). An unassigned opcode names none (R182). -/
def candidate (w : BitVec 64) : Option Instr :=
  let op := (w.extractLsb' 56 8).toNat
  if op < 0x40 then candidateScalar op w
  else if op < 0x80 then candidateVector op w
  else if op < 0xa0 then candidateMem op w
  else if op < 0xc0 then candidateCol op w
  else candidateSys op w

/-! ### The encoder -/

/-- A word of the scalar format (R185) from its opcode and fields. -/
def encS (opc : BitVec 8) (xd : BitVec 5) (xa : BitVec 5) (xb : BitVec 5) (f9 : BitVec 9) (imm : BitVec 32) : BitVec 64 :=
  opc ++ xd ++ xa ++ xb ++ f9 ++ imm

/-- A word of the compare-branch format (R187) from its opcode and fields. -/
def encB (opc : BitVec 8) (xa : BitVec 5) (xb : BitVec 5) (cond : BitVec 4) (rsv : BitVec 10) (imm : BitVec 32) : BitVec 64 :=
  opc ++ xa ++ xb ++ cond ++ rsv ++ imm

/-- A word of the vector format (R191) from its opcode and fields. -/
def encV (opc : BitVec 8) (c : BitVec 1) (g : BitVec 4) (n : BitVec 1) (z : BitVec 1) (vd : BitVec 5) (va : BitVec 5) (vb : BitVec 5) (vc : BitVec 5) (pd : BitVec 4) (pe : BitVec 4) (f5 : BitVec 5) (imm : BitVec 16) : BitVec 64 :=
  opc ++ c ++ g ++ n ++ z ++ vd ++ va ++ vb ++ vc ++ pd ++ pe ++ f5 ++ imm

/-- A word of the vector memory format (R194) from its opcode and fields. -/
def encM (opc : BitVec 8) (c : BitVec 1) (g : BitVec 4) (n : BitVec 1) (z : BitVec 1) (vd : BitVec 5) (xa : BitVec 5) (xb : BitVec 5) (fmt : BitVec 4) (o : BitVec 1) (s : BitVec 1) (d : BitVec 3) (scope : BitVec 2) (pol : BitVec 2) (off : BitVec 21) : BitVec 64 :=
  opc ++ c ++ g ++ n ++ z ++ vd ++ xa ++ xb ++ fmt ++ o ++ s ++ d ++ scope ++ pol ++ off

/-- A word of the column format (R196) from its opcode and fields. -/
def encK (opc : BitVec 8) (kd : BitVec 4) (ka : BitVec 4) (kb : BitVec 4) (kc : BitVec 4) (xd : BitVec 5) (xa : BitVec 5) (op : BitVec 4) (imm : BitVec 26) : BitVec 64 :=
  opc ++ kd ++ ka ++ kb ++ kc ++ xd ++ xa ++ op ++ imm

/-- A word of the matrix format (R198) from its opcode and fields. -/
def encX (opc : BitVec 8) (xa : BitVec 5) (xb : BitVec 5) (xc : BitVec 5) (fa : BitVec 4) (fb : BitVec 4) (mode : BitVec 3) (imm : BitVec 30) : BitVec 64 :=
  opc ++ xa ++ xb ++ xc ++ fa ++ fb ++ mode ++ imm

/-- A word of the Drayman format (R200) from its opcode and fields. -/
def encD (opc : BitVec 8) (xd : BitVec 5) (xa : BitVec 5) (xb : BitVec 5) (xc : BitVec 5) (d : BitVec 3) (u : BitVec 1) (f3 : BitVec 3) (rsv : BitVec 4) (op : BitVec 4) (off : BitVec 21) : BitVec 64 :=
  opc ++ xd ++ xa ++ xb ++ xc ++ d ++ u ++ f3 ++ rsv ++ op ++ off

/-- The word of an instruction (R178 to R201). The steps of other agents have no word: they encode as the
unassigned word 0 (R182). -/
def encode : Instr → BitVec 64
  | .add xd xa xb => encS 0x01 xd xa xb 0 0
  | .sub xd xa xb => encS 0x02 xd xa xb 0 0
  | .mul xd xa xb => encS 0x03 xd xa xb 0 0
  | .mulh xd xa xb => encS 0x04 xd xa xb 0 0
  | .mulhu xd xa xb => encS 0x05 xd xa xb 0 0
  | .div xd xa xb => encS 0x06 xd xa xb 0 0
  | .divu xd xa xb => encS 0x07 xd xa xb 0 0
  | .rem xd xa xb => encS 0x08 xd xa xb 0 0
  | .remu xd xa xb => encS 0x09 xd xa xb 0 0
  | .and xd xa xb => encS 0x0a xd xa xb 0 0
  | .or xd xa xb => encS 0x0b xd xa xb 0 0
  | .xor xd xa xb => encS 0x0c xd xa xb 0 0
  | .shl xd xa xb => encS 0x0d xd xa xb 0 0
  | .shr xd xa xb => encS 0x0e xd xa xb 0 0
  | .sra xd xa xb => encS 0x0f xd xa xb 0 0
  | .slt xd xa xb => encS 0x10 xd xa xb 0 0
  | .sltu xd xa xb => encS 0x11 xd xa xb 0 0
  | .min xd xa xb => encS 0x12 xd xa xb 0 0
  | .max xd xa xb => encS 0x13 xd xa xb 0 0
  | .clz xd xa => encS 0x14 xd xa 0 0 0
  | .popc xd xa => encS 0x15 xd xa 0 0 0
  | .csel xd xa xb xc => encS 0x16 xd xa xb ((0 : BitVec 4) ++ xc) 0
  | .addi xd xa imm => encS 0x18 xd xa 0 0 imm
  | .andi xd xa imm => encS 0x19 xd xa 0 0 imm
  | .ori xd xa imm => encS 0x1a xd xa 0 0 imm
  | .xori xd xa imm => encS 0x1b xd xa 0 0 imm
  | .shli xd xa n => encS 0x1c xd xa 0 0 ((0 : BitVec 26) ++ n)
  | .shri xd xa n => encS 0x1d xd xa 0 0 ((0 : BitVec 26) ++ n)
  | .srai xd xa n => encS 0x1e xd xa 0 0 ((0 : BitVec 26) ++ n)
  | .limm xd imm => encS 0x1f xd 0 0 0 imm
  | .addpc xd imm => encS 0x20 xd 0 0 0 imm
  | .fadd t xd xa xb => encS 0x21 xd xa xb ((0 : BitVec 7) ++ t.code) 0
  | .fsub t xd xa xb => encS 0x22 xd xa xb ((0 : BitVec 7) ++ t.code) 0
  | .fmul t xd xa xb => encS 0x23 xd xa xb ((0 : BitVec 7) ++ t.code) 0
  | .fma t xd xa xb xc => encS 0x24 xd xa xb ((0 : BitVec 2) ++ xc ++ t.code) 0
  | .fdiv t xd xa xb => encS 0x25 xd xa xb ((0 : BitVec 7) ++ t.code) 0
  | .fsqrt t xd xa => encS 0x26 xd xa 0 ((0 : BitVec 7) ++ t.code) 0
  | .fmin t xd xa xb => encS 0x27 xd xa xb ((0 : BitVec 7) ++ t.code) 0
  | .fmax t xd xa xb => encS 0x28 xd xa xb ((0 : BitVec 7) ++ t.code) 0
  | .fcmp t c xd xa xb => encS 0x29 xd xa xb ((0 : BitVec 3) ++ c.code ++ t.code) 0
  | .fcvt dst src xd xa => encS 0x2a xd xa 0 ((0 : BitVec 3) ++ dst.code ++ src.code) 0
  | .br off => encS 0x30 0 0 0 0 off
  | .bcmp c xa xb off => encB 0x31 xa xb c.code 0 off
  | .call xd off => encS 0x32 xd 0 0 0 off
  | .ret xa => encS 0x33 0 xa 0 0 0
  | .jmp xa off => encS 0x34 0 xa 0 0 off
  | .ld size sgn xd xa off => encS 0x38 xd xa 0 ((0 : BitVec 6) ++ bit sgn ++ size.code) off
  | .ldIndexed size sgn xd xa xb => encS 0x39 xd xa xb ((0 : BitVec 6) ++ bit sgn ++ size.code) 0
  | .st size xd xa off => encS 0x3a xd xa 0 ((0 : BitVec 7) ++ size.code) off
  | .stIndexed size xd xa xb => encS 0x3b xd xa xb ((0 : BitVec 7) ++ size.code) 0
  | .amo op size scope order xd xa xb => encS 0x3c xd xa xb ((0 : BitVec 2) ++ order.code ++ scope.code ++ size.code) ((0 : BitVec 28) ++ op.code)
  | .cas size scope order xd xa xb => encS 0x3d xd xa xb ((0 : BitVec 2) ++ order.code ++ scope.code ++ size.code) 0
  | .setvl t xd src => encV 0x40 0 0 0 0 xd src.regField 0 0 0 0 ((0 : BitVec 1) ++ t.code) src.immField
  | .setvt t => encV 0x41 0 0 0 0 0 0 0 0 0 0 ((0 : BitVec 1) ++ t.code) 0
  | .vfold vd va f => encV 0x42 0 0 0 0 vd va 0 0 0 0 0 ((0 : BitVec 14) ++ f)
  | .vadd k u sat vd va vb => encV 0x43 (bit k.c) k.g (bit k.n) (bit k.z) vd va vb 0 0 0 ((0 : BitVec 3) ++ bit sat ++ bit u) 0
  | .vaddX k u sat vd va xb => encV 0x61 (bit k.c) k.g (bit k.n) (bit k.z) vd va xb 0 0 0 ((0 : BitVec 3) ++ bit sat ++ bit u) 0
  | .vaddI k u sat vd va imm => encV 0x6e (bit k.c) k.g (bit k.n) (bit k.z) vd va 0 0 0 0 ((0 : BitVec 3) ++ bit sat ++ bit u) imm
  | .vsub k u sat vd va vb => encV 0x44 (bit k.c) k.g (bit k.n) (bit k.z) vd va vb 0 0 0 ((0 : BitVec 3) ++ bit sat ++ bit u) 0
  | .vsubX k u sat vd va xb => encV 0x62 (bit k.c) k.g (bit k.n) (bit k.z) vd va xb 0 0 0 ((0 : BitVec 3) ++ bit sat ++ bit u) 0
  | .vmul k u h vd va vb => encV 0x45 (bit k.c) k.g (bit k.n) (bit k.z) vd va vb 0 0 0 ((0 : BitVec 2) ++ bit h ++ (0 : BitVec 1) ++ bit u) 0
  | .vmulX k u h vd va xb => encV 0x63 (bit k.c) k.g (bit k.n) (bit k.z) vd va xb 0 0 0 ((0 : BitVec 2) ++ bit h ++ (0 : BitVec 1) ++ bit u) 0
  | .vfma k vd va vb vc => encV 0x46 (bit k.c) k.g (bit k.n) (bit k.z) vd va vb vc 0 0 0 0
  | .vfmaX k vd va xb vc => encV 0x64 (bit k.c) k.g (bit k.n) (bit k.z) vd va xb vc 0 0 0 0
  | .vfms k vd va vb vc => encV 0x47 (bit k.c) k.g (bit k.n) (bit k.z) vd va vb vc 0 0 0 0
  | .vfmsX k vd va xb vc => encV 0x65 (bit k.c) k.g (bit k.n) (bit k.z) vd va xb vc 0 0 0 0
  | .vdiv k u vd va vb => encV 0x48 (bit k.c) k.g (bit k.n) (bit k.z) vd va vb 0 0 0 ((0 : BitVec 4) ++ bit u) 0
  | .vsqrt k vd va => encV 0x49 (bit k.c) k.g (bit k.n) (bit k.z) vd va 0 0 0 0 0 0
  | .vrcp k vd va => encV 0x4a (bit k.c) k.g (bit k.n) (bit k.z) vd va 0 0 0 0 0 0
  | .vrsq k vd va => encV 0x4b (bit k.c) k.g (bit k.n) (bit k.z) vd va 0 0 0 0 0 0
  | .vexp2 k vd va => encV 0x4c (bit k.c) k.g (bit k.n) (bit k.z) vd va 0 0 0 0 0 0
  | .vlog2 k vd va => encV 0x4d (bit k.c) k.g (bit k.n) (bit k.z) vd va 0 0 0 0 0 0
  | .vmin k u vd va vb => encV 0x4e (bit k.c) k.g (bit k.n) (bit k.z) vd va vb 0 0 0 ((0 : BitVec 4) ++ bit u) 0
  | .vminX k u vd va xb => encV 0x66 (bit k.c) k.g (bit k.n) (bit k.z) vd va xb 0 0 0 ((0 : BitVec 4) ++ bit u) 0
  | .vmax k u vd va vb => encV 0x4f (bit k.c) k.g (bit k.n) (bit k.z) vd va vb 0 0 0 ((0 : BitVec 4) ++ bit u) 0
  | .vmaxX k u vd va xb => encV 0x67 (bit k.c) k.g (bit k.n) (bit k.z) vd va xb 0 0 0 ((0 : BitVec 4) ++ bit u) 0
  | .vabs k vd va => encV 0x50 (bit k.c) k.g (bit k.n) (bit k.z) vd va 0 0 0 0 0 0
  | .vneg k vd va => encV 0x51 (bit k.c) k.g (bit k.n) (bit k.z) vd va 0 0 0 0 0 0
  | .vand k vd va vb => encV 0x52 (bit k.c) k.g (bit k.n) (bit k.z) vd va vb 0 0 0 0 0
  | .vandX k vd va xb => encV 0x68 (bit k.c) k.g (bit k.n) (bit k.z) vd va xb 0 0 0 0 0
  | .vandI k vd va imm => encV 0x6f (bit k.c) k.g (bit k.n) (bit k.z) vd va 0 0 0 0 0 imm
  | .vor k vd va vb => encV 0x53 (bit k.c) k.g (bit k.n) (bit k.z) vd va vb 0 0 0 0 0
  | .vorX k vd va xb => encV 0x69 (bit k.c) k.g (bit k.n) (bit k.z) vd va xb 0 0 0 0 0
  | .vorI k vd va imm => encV 0x70 (bit k.c) k.g (bit k.n) (bit k.z) vd va 0 0 0 0 0 imm
  | .vxor k vd va vb => encV 0x54 (bit k.c) k.g (bit k.n) (bit k.z) vd va vb 0 0 0 0 0
  | .vxorX k vd va xb => encV 0x6a (bit k.c) k.g (bit k.n) (bit k.z) vd va xb 0 0 0 0 0
  | .vxorI k vd va imm => encV 0x71 (bit k.c) k.g (bit k.n) (bit k.z) vd va 0 0 0 0 0 imm
  | .vshl k vd va vb => encV 0x55 (bit k.c) k.g (bit k.n) (bit k.z) vd va vb 0 0 0 0 0
  | .vshlX k vd va xb => encV 0x6b (bit k.c) k.g (bit k.n) (bit k.z) vd va xb 0 0 0 0 0
  | .vshlI k vd va n => encV 0x72 (bit k.c) k.g (bit k.n) (bit k.z) vd va 0 0 0 0 0 ((0 : BitVec 10) ++ n)
  | .vshr k vd va vb => encV 0x56 (bit k.c) k.g (bit k.n) (bit k.z) vd va vb 0 0 0 0 0
  | .vshrX k vd va xb => encV 0x6c (bit k.c) k.g (bit k.n) (bit k.z) vd va xb 0 0 0 0 0
  | .vshrI k vd va n => encV 0x73 (bit k.c) k.g (bit k.n) (bit k.z) vd va 0 0 0 0 0 ((0 : BitVec 10) ++ n)
  | .vsra k vd va vb => encV 0x57 (bit k.c) k.g (bit k.n) (bit k.z) vd va vb 0 0 0 0 0
  | .vsraX k vd va xb => encV 0x6d (bit k.c) k.g (bit k.n) (bit k.z) vd va xb 0 0 0 0 0
  | .vsraI k vd va n => encV 0x74 (bit k.c) k.g (bit k.n) (bit k.z) vd va 0 0 0 0 0 ((0 : BitVec 10) ++ n)
  | .vcvt k t vd va => encV 0x58 (bit k.c) k.g (bit k.n) (bit k.z) vd va 0 0 0 0 ((0 : BitVec 1) ++ t.code) 0
  | .vcmp k c pd pe va vb => encV 0x59 (bit k.c) k.g (bit k.n) (bit k.z) 0 va vb 0 pd pe ((0 : BitVec 1) ++ c.code) 0
  | .vsel k vd va vb pe => encV 0x5a (bit k.c) k.g (bit k.n) (bit k.z) vd va vb 0 0 pe 0 0
  | .vmov k vd va => encV 0x5b (bit k.c) k.g (bit k.n) (bit k.z) vd va 0 0 0 0 0 0
  | .vmvxToScalar k xd va i => encV 0x5c (bit k.c) k.g (bit k.n) 0 xd va 0 0 0 0 0 ((0 : BitVec 2) ++ i)
  | .vmvxToVector k vd xa i => encV 0x5c (bit k.c) k.g (bit k.n) (bit k.z) vd xa 0 0 0 0 1 ((0 : BitVec 2) ++ i)
  | .vred k op tree xd va => encV 0x5d (bit k.c) k.g (bit k.n) 0 xd va 0 0 0 0 ((0 : BitVec 1) ++ bit tree ++ op.code) 0
  | .vslide k down vd va amt => encV 0x5e (bit k.c) k.g (bit k.n) (bit k.z) vd va amt.regField 0 0 0 ((0 : BitVec 3) ++ bit amt.isReg ++ bit down) ((0 : BitVec 2) ++ amt.immField)
  | .vperm k vd va vb => encV 0x5f (bit k.c) k.g (bit k.n) (bit k.z) vd va vb 0 0 0 0 0
  | .viota k vd => encV 0x60 (bit k.c) k.g (bit k.n) (bit k.z) vd 0 0 0 0 0 0 0
  | .pand k pd pe pf => encV 0x78 (bit k.c) k.g (bit k.n) (bit k.z) 0 ((0 : BitVec 1) ++ pf) 0 0 pd pe 0 0
  | .por k pd pe pf => encV 0x79 (bit k.c) k.g (bit k.n) (bit k.z) 0 ((0 : BitVec 1) ++ pf) 0 0 pd pe 0 0
  | .pxor k pd pe pf => encV 0x7a (bit k.c) k.g (bit k.n) (bit k.z) 0 ((0 : BitVec 1) ++ pf) 0 0 pd pe 0 0
  | .pandn k pd pe pf => encV 0x7b (bit k.c) k.g (bit k.n) (bit k.z) 0 ((0 : BitVec 1) ++ pf) 0 0 pd pe 0 0
  | .pset k pd n => encV 0x7c (bit k.c) k.g (bit k.n) (bit k.z) 0 0 0 0 pd 0 0 n
  | .pcnt k xd pe => encV 0x7d (bit k.c) k.g (bit k.n) 0 xd 0 0 0 0 pe 0 0
  | .pfirst k xd pe => encV 0x7e (bit k.c) k.g (bit k.n) 0 xd 0 0 0 0 pe 0 0
  | .pmov k pd pe => encV 0x7f (bit k.c) k.g (bit k.n) (bit k.z) 0 0 0 0 pd pe 0 0
  | .vld k m vd xa off => encM 0x80 (bit k.c) k.g (bit k.n) (bit k.z) vd xa 0 m.fmt.code (bit m.o) (bit m.s) m.d m.scope.memCode m.pol.code off
  | .vldStrided k m vd xa xb off => encM 0x81 (bit k.c) k.g (bit k.n) (bit k.z) vd xa xb m.fmt.code (bit m.o) (bit m.s) m.d m.scope.memCode m.pol.code off
  | .vst k m vs xa off => encM 0x82 (bit k.c) k.g (bit k.n) 0 vs xa 0 m.fmt.code (bit m.o) (bit m.s) m.d m.scope.memCode m.pol.code off
  | .vstStrided k m vs xa xb off => encM 0x83 (bit k.c) k.g (bit k.n) 0 vs xa xb m.fmt.code (bit m.o) (bit m.s) m.d m.scope.memCode m.pol.code off
  | .vldff k m vd xa off => encM 0x84 (bit k.c) k.g (bit k.n) (bit k.z) vd xa 0 m.fmt.code (bit m.o) (bit m.s) m.d m.scope.memCode m.pol.code off
  | .vgath k m vd xa vi off => encM 0x85 (bit k.c) k.g (bit k.n) (bit k.z) vd xa vi m.fmt.code (bit m.o) (bit m.s) m.d m.scope.memCode m.pol.code off
  | .vscat k m vs xa vi off => encM 0x86 (bit k.c) k.g (bit k.n) 0 vs xa vi m.fmt.code (bit m.o) (bit m.s) m.d m.scope.memCode m.pol.code off
  | .vscadd k m vs xa vi off => encM 0x87 (bit k.c) k.g (bit k.n) 0 vs xa vi m.fmt.code (bit m.o) (bit m.s) m.d m.scope.memCode m.pol.code off
  | .vldb k m vd xa vsc off => encM 0x88 (bit k.c) k.g (bit k.n) (bit k.z) vd xa vsc m.fmt.code (bit m.o) (bit m.s) m.d m.scope.memCode m.pol.code off
  | .vstb k m vs xa vsc off => encM 0x89 (bit k.c) k.g (bit k.n) 0 vs xa vsc m.fmt.code (bit m.o) (bit m.s) m.d m.scope.memCode m.pol.code off
  | .vldz k m vd xd xa xb bank => encM 0x8a (bit k.c) k.g (bit k.n) (bit k.z) vd xa xb m.fmt.code (bit m.o) (bit m.s) m.d m.scope.memCode m.pol.code ((0 : BitVec 15) ++ bit bank ++ xd)
  | .ctab bank xa off => encS 0xca 0 xa 0 ((0 : BitVec 8) ++ bit bank) off
  | .vcompress k vd va pe => encV 0x8c (bit k.c) k.g (bit k.n) (bit k.z) vd va 0 0 0 pe 0 0
  | .vexpand k vd va pe => encV 0x8d (bit k.c) k.g (bit k.n) (bit k.z) vd va 0 0 0 pe 0 0
  | .vpcnt k vd pe => encV 0x8e (bit k.c) k.g (bit k.n) (bit k.z) vd 0 0 0 0 pe 0 0
  | .vconf k vd va => encV 0x8f (bit k.c) k.g (bit k.n) (bit k.z) vd va 0 0 0 0 0 0
  | .vscan k op excl vd va pe => encV 0x90 (bit k.c) k.g (bit k.n) (bit k.z) vd va 0 0 0 pe ((0 : BitVec 1) ++ bit excl ++ op.code) 0
  | .vlut k vd va vb => encV 0x91 (bit k.c) k.g (bit k.n) (bit k.z) vd va vb 0 0 0 0 0
  | .vbfx k vd va s w1 => encV 0x92 (bit k.c) k.g (bit k.n) (bit k.z) vd va 0 0 0 0 0 ((0 : BitVec 4) ++ w1 ++ s)
  | .vexit k pd pe => encV 0x93 (bit k.c) k.g (bit k.n) (bit k.z) 0 0 0 0 pd pe 0 0
  | .fence scope order => encS 0x98 0 0 0 ((0 : BitVec 4) ++ order.code ++ scope.code) 0
  | .lsync => encS 0x99 0 0 0 0 0
  | .pfence => encS 0x9a 0 0 0 0 0
  | .bar gang => encS 0x9b 0 0 0 ((0 : BitVec 8) ++ bit gang) 0
  | .barw gang => encS 0x9c 0 0 0 ((0 : BitVec 8) ++ bit gang) 0
  | .waitd n v => encS 0x9d 0 0 0 ((0 : BitVec 6) ++ n) ((0 : BitVec 16) ++ v)
  | .claim scope xd xa xb => encS 0x9e xd xa xb ((0 : BitVec 6) ++ scope.code) 0
  | .signal xa xb => encS 0x9f 0 xa xb 0 0
  | .kdef kd xa off => encK 0xa0 kd 0 0 0 0 xa 0 off
  | .klen xd ka => encK 0xa1 0 ka 0 0 xd 0 0 0
  | .klenSet kd xa => encK 0xa1 kd 0 0 0 0 xa 1 0
  | .ksel c kd xd ka xa => encK 0xa2 kd ka 0 0 xd xa c.code 0
  | .kselp c kd xd ka kb => encK 0xa3 kd ka kb 0 xd 0 c.code 0
  | .kjoin kd kc xd ka kb => encK 0xa4 kd ka kb kc xd 0 0 0
  | .kmjoin kd kc xd ka kb => encK 0xa5 kd ka kb kc xd 0 0 0
  | .ksemi kd xd ka kb => encK 0xa6 kd ka kb 0 xd 0 0 0
  | .ksemiAnti kd xd ka kb => encK 0xa6 kd ka kb 0 xd 0 1 0
  | .kgroup kd kc xd ka => encK 0xa7 kd ka 0 kc xd 0 0 0
  | .kagg op kd xd ka kb => encK 0xa8 kd ka kb 0 xd 0 op.code 0
  | .ksort kd xd ka => encK 0xa9 kd ka 0 0 xd 0 0 0
  | .ktopk least kd xd ka xa => encK 0xaa kd ka 0 0 xd xa ((0 : BitVec 3) ++ bit least) 0
  | .kgath kd xd ka => encK 0xab kd ka 0 0 xd 0 0 0
  | .kcat kd xd ka kb => encK 0xac kd ka kb 0 xd 0 0 0
  | .kbind n ka => encK 0xc8 0 ka 0 0 0 0 0 ((0 : BitVec 23) ++ n)
  | .kbindAppend n ka => encK 0xc8 0 ka 0 0 0 0 0 ((1 : BitVec 23) ++ n)
  | .kunbind n => encK 0xc9 0 0 0 0 0 0 0 ((0 : BitVec 23) ++ n)
  | .mattach xa => encX 0xb0 xa 0 0 0 0 0 0
  | .mdetach => encX 0xb1 0 0 0 0 0 0 0
  | .mzero => encX 0xb2 0 0 0 0 0 0 0
  | .mma fa fb xa xb row n1 kk => encX 0xb3 xa xb 0 fa.code fb.code 0 (kk ++ n1 ++ row)
  | .mmag xa xb => encX 0xb4 xa xb 0 0 0 0 0
  | .mmas fa fb pat za xa xb xc row n1 kk => encX 0xb5 xa xb xc fa.code fb.code (bit za ++ pat.code) (kk ++ n1 ++ row)
  | .mext k b e m vd xa row col => encV 0xb6 (bit k.c) k.g (bit k.n) (bit k.z) vd xa 0 0 0 0 ((0 : BitVec 2) ++ bit m ++ bit e ++ bit b) (col ++ row)
  | .glaunch xa xb xc => encX 0xb8 xa xb xc 0 0 0 0
  | .assay xa => encX 0xb9 xa 0 0 0 0 0 0
  | .gend => encX 0xba 0 0 0 0 0 0 0
  | .dcfg xa xb => encD 0xc0 0 xa xb 0 0 0 0 0 0 0
  | .dcopy a => encD 0xc1 a.xd a.xa a.xb a.xc a.d (bit a.u) ((0 : BitVec 2) ++ bit a.put) 0 0 a.off
  | .dcopy2d a => encD 0xc2 a.xd a.xa a.xb a.xc a.d (bit a.u) ((0 : BitVec 2) ++ bit a.put) 0 0 a.off
  | .dred op ordered xd xa xb xc d u off => encD 0xc3 xd xa xb xc d (bit u) ((0 : BitVec 2) ++ bit ordered) 0 op.code off
  | .dpref xa xb xc => encD 0xc4 0 xa xb xc 0 0 0 0 0 0
  | .dstat sel xd => encD 0xc5 xd 0 0 0 0 0 sel.code 0 0 0
  | .dcancel xa => encD 0xc6 0 xa 0 0 0 0 0 0 0 0
  | .launch xd xa xb => encS 0xd0 xd xa xb 0 0
  | .yield => encS 0xd1 0 0 0 0 0
  | .tickw xd => encS 0xd2 xd 0 0 0 0
  | .tqctlExit xd xa xb => encS 0xd3 xd xa xb 0 0
  | .tqctlStat xd xa xb => encS 0xd3 xd xa xb 1 0
  | .tqctlStop xd xa xb => encS 0xd3 xd xa xb 2 0
  | .tqctlStart xd xa xb => encS 0xd3 xd xa xb 3 0
  | .tqctlKill xd xa xb => encS 0xd3 xd xa xb 4 0
  | .tqctlPeriod xd xa xb => encS 0xd3 xd xa xb 5 0
  | .trap n => encS 0xe0 0 0 0 0 ((0 : BitVec 16) ++ n)
  | .eret => encS 0xe1 0 0 0 0 0
  | .uiret => encS 0xe2 0 0 0 0 0
  | .csrr xd csr => encS 0xe3 xd 0 0 0 ((0 : BitVec 20) ++ csr)
  | .csrw xd xa csr => encS 0xe4 xd xa 0 0 ((0 : BitVec 20) ++ csr)
  | .csrs xd xa csr => encS 0xe5 xd xa 0 0 ((0 : BitVec 20) ++ csr)
  | .csrc xd xa csr => encS 0xe6 xd xa 0 0 ((0 : BitVec 20) ++ csr)
  | .fencei => encS 0xe7 0 0 0 0 0
  | .ipref xa xb off => encS 0xe8 0 xa xb 0 off
  | .ipin xa xb off => encS 0xe8 0 xa xb 1 off
  | .iunpin xa xb off => encS 0xe8 0 xa xb 2 off
  | .tlbinv scope f xa xb => encS 0xe9 0 xa xb ((0 : BitVec 4) ++ f.code ++ scope.code) 0
  | .idle => encS 0xea 0 0 0 0 0
  | .savev xa mask => encS 0xeb 0 xa 0 0 mask
  | .restv xa mask => encS 0xec 0 xa 0 0 mask
  | .savek xa mask => encS 0xed 0 xa 0 0 ((0 : BitVec 16) ++ mask)
  | .restk xa mask => encS 0xee 0 xa 0 0 ((0 : BitVec 16) ++ mask)
  | .controlRegisterWrite _ _ _ => 0
  | .keygo _ _ => 0
  | .poolcszWrite _ _ => 0
  | .pcflush _ => 0
  | .pcflushOwner _ _ => 0
  | .fqresume _ _ => 0
  | .fqabort _ _ => 0
  | .plctlGo _ _ _ => 0
  | .grantWindowLive _ _ => 0
  | .grantWindowFree _ _ => 0
  | .hevack _ _ => 0
  | .fenceCluster _ _ => 0
  | .pdone _ _ => 0
  | .reshape _ _ _ => 0
  | .boot => 0
  | .attest _ _ _ _ => 0
  | .idkey => 0
  | .grant _ _ => 0
  | .withdraw _ => 0
  | .queue _ _ => 0
  | .mailboxUnknown _ => 0
  | .bootWindowAccess _ _ => 0
  | .moduleReset => 0
  | .hostPortReset => 0
  | .hostLinkUp => 0
  | .hostSnoop _ => 0
  | .flitCrcRetry _ _ => 0
  | .linkDown _ _ => 0
  | .replay _ _ _ => 0
  | .planeLost _ => 0
  | .remoteRequest _ => 0
  | .remoteResponse _ _ _ _ => 0
  | .redrawn _ _ _ => 0
  | .returnUndelivered _ _ _ => 0
  | .probeRetry _ _ => 0
  | .groupUnreachable _ => 0
  | .responseDrop _ _ => 0
  | .easyallEnd => 0
  | .foldStrip _ => 0
  | .foldRelease _ _ => 0
  | .foldEntryTimeout _ => 0
  | .foldStripRetry _ => 0
  | .tick => 0
  | .victimsStopped => 0
  | .preempt _ _ => 0
  | .stripStopBound _ => 0
  | .reshapeExpire _ => 0
  | .resume _ => 0
  | .progress _ => 0
  | .userInterrupt _ => 0
  | .hostEvent _ => 0
  | .machineCheck _ => 0
  | .evwaitExpire => 0
  | .writeBufferDrain _ => 0
  | .dataCacheExpire _ _ => 0
  | .scrub _ _ => 0
  | .thermal _ => 0
  | .shutdown => 0
  | .poolPortFailure _ => 0
  | .draymanSector _ => 0
  | .draymanComplete _ => 0
  | .dcfgStripFetch _ => 0
  | .hintLine _ => 0
  | .matrixPass _ => 0
  | .streamFill _ _ => 0
  | .arbiterBind _ => 0
  | .convoyRetire _ => 0
  | .replyWrite _ => 0
  | .lineFullWake _ => 0
  | .barrierFire _ => 0
  | .assayerCommit _ => 0
  | .frozenRecordRelease _ _ => 0
  | .linkUp _ _ => 0
  | .hostResponse _ _ => 0
  | .poolPortResponse _ => 0

/-! ### The decoder -/

/-- The instruction of a word, or none where the word raises ILLEGAL by encoding (R202). -/
def decode (w : BitVec 64) : Option Instr :=
  (candidate w).bind fun i => if i.wf && encode i == w then some i else none

/-- The instruction that `bytes` begin with, with the bytes after it (R178: 8 bytes, little-endian), or none. -/
def decodeBytes : List Byte → Option (Instr × List Byte)
  | b0 :: b1 :: b2 :: b3 :: b4 :: b5 :: b6 :: b7 :: rest =>
    (decode (b7 ++ b6 ++ b5 ++ b4 ++ b3 ++ b2 ++ b1 ++ b0)).map fun i => (i, rest)
  | _ => none

/-- The bytes of a word as they lie in memory (R178: byte 0 holds bits 7:0). -/
def wordBytes (w : BitVec 64) : List Byte :=
  [w.extractLsb' 0 8, w.extractLsb' 8 8, w.extractLsb' 16 8, w.extractLsb' 24 8,
   w.extractLsb' 32 8, w.extractLsb' 40 8, w.extractLsb' 48 8, w.extractLsb' 56 8]

/-- What the decoder reads from an instruction whose bits are `w`, bit 0 the least significant bit of its one 64-bit
word; the bits from `nbits` up are zero. -/
def decodeTableWord (nbits w : Nat) : Option Instr :=
  (decodeBytes (wordBytes (BitVec.ofNat 64 (w % 2 ^ nbits)))).map (·.1)

end Sys2Proof
end

