-- ==== Sys2Proof/Config.lean ====
section
/-!
DEFINITION. What one module is built with, and the values that the manual leaves free. A constant declared `opaque`
has no body: nothing can evaluate it, so a claim about it holds whatever its value is.
-/

namespace Sys2Proof

/-- Clock cycles that pass in one step, less one (the manual gives latencies as "about", R48): free. -/
opaque Config.freeCycles : Nat → Nat

/-- A value the manual leaves undefined after an instruction that goes on (R7): free, a fresh one for each draw. -/
opaque Config.freeWord : Nat → Word

/-- The contents of a register whose transfer was stopped part-way (R249): free. -/
opaque Config.freeVec : Nat → BitVec 16384

/-- The set, among `sets`, of a cache that a line or page falls in (R61, R68, R71, R83): the manual gives no index. -/
opaque Config.cacheSet (sets n : Nat) : Nat

/-- The choice that a cache makes among the entries it may give up, a fresh one for each draw: the manual names no policy
for the helm caches, the host-line cache and the walk cache, and leaves open which pseudo-LRU the translation caches
keep (R66, R68, R83, R84; log 84). -/
opaque Config.freeVictim : Nat → Nat

/-- The four key digests fused into the module; none where a digest is revoked (R462). -/
opaque Config.keyDigest : BitVec 2 → Option (BitVec 512)

/-- The secret seed of the module's Ed448 identity key (R464), 57 bytes. -/
opaque Config.identitySeed : BitVec 456

/-- The firmware trap handler address that the boot ROM sets (R241). -/
opaque Config.romFtvec : Word

/-- The virtual address at which offset 0 of the boot image stands when the boot ROM jumps to ENTRY (R462). -/
opaque Config.bootImageBase : Word

/-- A byte that a read of the device's own finds where its address reaches no storage, or where its unit is marked: an
error response, and poison, carry none (R25, R448). -/
opaque Config.lostByte : Nat → Byte

/-- The pool mapped by the module, in bytes of pool address (R25: at most 128 TiB). -/
def Config.poolBytes : Nat := 2 ^ 47

end Sys2Proof
end

