-- ==== Sys2Proof/Machine/State.lean ====
section
/-!
DEFINITION. The state of the module as plain data: everything that the manual gives the machine (INVENTORY.md lists it
piece by piece), the reasons a step can stop, and the state right after reset.
-/

namespace Sys2Proof.Machine

/-! ### Tables -/

/-- A sparse table: key and value pairs with strictly rising keys. A key that is not listed has a default value. -/
abbrev Tab (α : Type) := List (Nat × α)

/-- The value at key `k`, or `d` where the key is not listed. -/
def Tab.get {α : Type} (d : α) : Tab α → Nat → α
  | [], _ => d
  | (j, a) :: t, k => if j = k then a else Tab.get d t k

/-- The table with `a` at key `k`. -/
def Tab.set {α : Type} : Tab α → Nat → α → Tab α
  | [], k, a => [(k, a)]
  | (j, b) :: t, k, a =>
    if j = k then (k, a) :: t
    else if k < j then (k, a) :: (j, b) :: t
    else (j, b) :: Tab.set t k a

/-- The table without key `k`. -/
def Tab.erase {α : Type} : Tab α → Nat → Tab α
  | [], _ => []
  | (j, b) :: t, k => if j = k then t else (j, b) :: Tab.erase t k

/-- Memory: address and byte pairs, addresses strictly rising, no entry equal to what an unlisted address reads as. -/
abbrev Memory := List Host.Cell

/-- What an address that is not listed reads as. DESIGN CHOICE (log 3): 0; R53 leaves it undefined. Unsafe. -/
def Memory.unlisted : Byte := 0

/-- One byte. -/
def Memory.read (m : Memory) (a : Nat) : Byte := Tab.get Memory.unlisted m a

/-- Memory with byte `b` at address `a`, in canonical form. -/
def Memory.write (m : Memory) (a : Nat) (b : Byte) : Memory :=
  if b = Memory.unlisted then Tab.erase m a else Tab.set m a b

/-- The canonical form: addresses strictly rising, no entry that an unlisted address would read as. -/
abbrev Memory.wf (m : Memory) : Prop :=
  m.Pairwise (fun c d => c.1 < d.1) ∧ ∀ c ∈ m, c.2 ≠ Memory.unlisted

/-! ### Modes, targets and the column queue -/

/-- The three modes (R223). -/
inductive Mode where
  | user | kernel | firmware
  deriving DecidableEq, Repr

/-- Where a translated access goes: a physical address of this module or of another, the owner whose key it uses, and
what the leaf says of the page (R27, R79). -/
structure Target where
  /-- none: this module. -/
  module : Option ModNum
  pa : Nat
  owner : Owner
  clear : Bool
  pol : Pol
  /-- the virtual address of the access, which reports name. -/
  va : Word
  /-- the level of the leaf, which records name (R94); 7 where no walk was made. -/
  level : Nat
  deriving DecidableEq, Repr

/-- What an access met (R87): class, violation kind, the level whose entry ended the walk (7: none), the page size code
(R94). -/
structure AFault where
  cls : Nat
  kind : Nat
  level : Nat
  psize : Nat
  deriving DecidableEq, Repr

/-- How an access to physical memory is encrypted: none for a clear page, otherwise the key and the home module number
of the tweak (R31). -/
abbrev Enc := Option (BitVec 512 × Nat)

/-- One store of an instruction among those that an entry of a write buffer or of a store queue carries, as reports and
records name it (R44, R46, R94, R98, R111). -/
structure StorePart where
  va : Word
  len : Nat
  /-- the address of the instruction. -/
  ident : Word
  /-- its serial number in the strand: an older store has a smaller one. -/
  seq : Nat
  /-- the element, where it is one of a vector instruction. -/
  elem : Option Nat
  deriving DecidableEq, Repr

/-- The lowest HOST-DETACHED element that an instruction has met so far: its record is written once all of its accesses
are over (R98). -/
structure DetachNote where
  /-- the serial number of the instruction. -/
  seq : Nat
  /-- none: an access of an instruction that has no elements. -/
  elem : Option Nat
  va : Word
  len : Nat
  level : Nat
  write : Bool
  owner : Owner
  /-- the address of the instruction. -/
  ident : Word
  deriving DecidableEq, Repr

/-- How far a column instruction that has started has come (R315, R316): the fields of its continuation record, the
source descriptors that it read at its start (R308), the entries of the key store that it has built (R312), and whether
it resumed from the pending record. -/
structure ColWork where
  phase : Nat
  cura : Nat
  curb : Nat
  curc : Nat
  outn : Nat
  outn2 : Nat
  aux : Word
  flags : BitVec 6
  srcs : List (BitVec 256)
  built : Nat
  resumed : Bool
  deriving DecidableEq, Repr

/-- A member of a column queue or of the parked queue (R165, R436). -/
structure Member where
  word : Word
  addr : Word
  opa : Word
  opb : Word
  opc : Word
  opd : Word
  /-- the progress index: elements below it are done; 0x3FFF replay (R284), 0x3FFE continuation (R317). -/
  idx : BitVec 14
  pv : Bool
  disc : Bool
  last : Bool
  mode : Mode
  rm : BitVec 2
  prot : Bool
  owner : Owner
  /-- the serial number under which its element accesses and its reply are known. -/
  iid : Nat
  /-- the member has completed and waits for its convoy to retire. -/
  done : Bool
  /-- it stands inside an element group, or inside a lane-crossing instruction, where no event stops it (R254). -/
  mid : Bool
  /-- its record of a consumed error (R450) has been written. -/
  consumed : Bool
  /-- a column instruction that has started and not stopped. -/
  work : Option ColWork
  /-- element groups that it has processed ahead of its index (R128, R167). -/
  ahead : List Nat
  /-- no stop between groups finds it below this element: groups below it that are not to be repeated have gone ahead
  (R254). -/
  reach : Nat
  deriving DecidableEq, Repr

/-- A slot of the reply queue (R168): the register, the member that replies, and the value once it is known. The register
awaits the reply but where it was unparked with its bit of RPEND clear (R437). `ui` says
which set x24 to x31 named at issue: the shadow set, where uictl.UIA was 1 (R238). -/
structure Reply where
  reg : Reg
  ui : Bool
  iid : Nat
  value : Option Word
  disc : Bool
  awaited : Bool
  deriving DecidableEq, Repr

/-- A pushed vector memory instruction whose element accesses are not all performed (R282), or that holds younger
scalar accesses back (the S bit, R139). -/
structure OpenInstr where
  iid : Nat
  d : BitVec 3
  s : Bool
  /-- the member has executed; only its accesses are outstanding. -/
  executed : Bool
  deriving DecidableEq, Repr

/-- The binding of v24 + i (R330, R333, R435), with the stream buffer in front of a reader (R175). -/
structure Stream where
  col : PReg
  bound : Bool
  append : Bool
  delivered : BitVec 32
  /-- elements filled and not yet taken, with the mark of a consumed error. -/
  buffer : List (Word × Bool)
  /-- elements that the stream-load unit has fetched in all. -/
  filled : Nat
  /-- the mode of the KBIND, in which the fills are made. -/
  mode : Mode
  /-- the next fill met a fault: address and class (log 26). -/
  stuck : Option (Word × Nat)
  /-- its record of a HOST-DETACHED element (R98), and of a consumed error (R450), has been written. -/
  detached : Bool
  consumed : Bool
  deriving DecidableEq, Repr

/-- An entry of a strand's write buffer (R69): the merged stores to one 128-byte line. -/
structure BufEntry where
  target : Target
  /-- byte offset in the line and byte. -/
  bytes : Tab Byte
  /-- the stores that it has merged, oldest first. -/
  parts : List StorePart
  deriving DecidableEq, Repr

/-- A write of one element group, or of part of it, to one line, on its way through a store queue (R75). -/
structure ElemStore where
  uid : Nat
  iid : Nat
  laneGroup : Nat
  slice : Nat
  /-- the element group of the instruction (R166). -/
  group : Nat
  mode : Mode
  /-- the local address, where the store goes to a window; otherwise `target` names its storage. -/
  local? : Option Nat
  target : Target
  write : RemoteOp
  /-- the elements that it carries, lowest first. -/
  parts : List StorePart
  deriving DecidableEq, Repr

/-! ### Requests that leave the module, and accesses in progress -/

/-- Who waits for an access that leaves the cluster (R110, R140, R366). -/
inductive Who where
  /-- the instruction that strand `uid` issues from its helm. -/
  | helm (uid : Nat)
  /-- an instruction fetch of strand `uid`. -/
  | fetch (uid : Nat)
  /-- a line that an IPREF or IPIN of strand `uid` fetches into the instruction cache of its helm. -/
  | code (uid : Nat) (pin : Bool)
  /-- a scalar store of strand `uid`. -/
  | store (uid : Nat)
  /-- the member of the column queue of strand `uid` that executes. -/
  | column (uid iid : Nat)
  /-- a store element of strand `uid`, from a lane group. -/
  | elem (uid iid laneGroup : Nat)
  /-- a Drayman operation. -/
  | drayman (cid : Nat) (ident : Word)
  /-- a prefetch hint of strand `uid`. -/
  | hint (uid : Nat)
  /-- the value that a scalar load of strand `uid` may still take (R129), under its serial number. -/
  | late (uid seq : Nat)
  /-- a pass of a matrix operation of strand `uid`. -/
  | matrix (uid : Nat)
  /-- the fill of stream v24 + `n` of strand `uid`. -/
  | stream (uid n : Nat)
  /-- a commit of the Assayer of a cluster. -/
  | assayer (cid : Nat)
  /-- the Cox. -/
  | cox
  /-- the module's fabric interface: its probes (R116). -/
  | fabric
  /-- a request of another module, under its tag (R105). -/
  | remote (source : ModNum) (tag : Nat)
  deriving DecidableEq, Repr

/-- How far an outstanding remote request has come (R106, R116, R118). -/
inductive SendState where
  /-- on its way. -/
  | sent
  /-- refused or returned: to be reissued when the sender resumes. -/
  | back
  /-- held at issue, because its target is stopped. -/
  | held
  deriving DecidableEq, Repr

/-- An outstanding remote request of this module (R105, R106), in issue order. -/
structure Outstanding where
  tag : Nat
  who : Who
  target : ModNum
  pa : Nat
  va : Word
  owner : Owner
  op : RemoteOp
  acc : BitVec 3
  ident : Word
  state : SendState
  plane : BitVec 2
  link : BitVec 3
  view : PlaneView
  replay : Bool
  /-- planes on which the request has been returned undelivered (R112). -/
  returned : BitVec 4
  /-- the failure of the last return. -/
  failure : BitVec 4
  /-- DRED strips: identity, strip index, strip count (R378). -/
  strip : Option (Word × Nat × Nat)
  /-- the level of this module's leaf (R94). -/
  level : Nat
  /-- the stores that it carries. -/
  parts : List StorePart
  deriving DecidableEq, Repr

/-- What an access that left the module came back with. -/
inductive Answer where
  | bytes (l : List Byte)
  | claimed (next n : Word)
  | acked
  | violation
  | hostDetached
  | poisoned
  | remoteFault
  /-- the home finds no storage at the address (R25, R61, R97). -/
  | unimplemented
  /-- the target met a local hole or a non-canonical address: refused, and no violation (R45, R47). -/
  | outside
  /-- a fabric failure with its code (R109). -/
  | failed (code : BitVec 4)
  deriving DecidableEq, Repr

/-- An answer kept until the access that waits for it runs again (log 8). -/
structure Arrived where
  who : Who
  target : Option ModNum
  pa : Nat
  op : RemoteOp
  answer : Answer
  deriving DecidableEq, Repr

/-- A request outstanding at a pool port or at the host port (R62, R66). -/
structure PortRequest where
  id : Nat
  host : Bool
  who : Who
  target : Target
  op : RemoteOp
  /-- the encryption under which the access began (R32). -/
  enc : Enc
  /-- the stores that it carries. -/
  parts : List StorePart
  deriving DecidableEq, Repr

/-! ### Strands -/

/-- Why a strand does not issue, beyond a stalled instruction. -/
inductive IssueState where
  | running
  /-- IDLE (R247). -/
  | idle
  /-- TICKW waits for the tick after this one (R405). -/
  | tickw (since : Word)
  deriving DecidableEq, Repr

/-- A kernel event that waits for the strand to take it (R432): code and tval. -/
structure Event where
  code : Nat
  tval : Word
  deriving DecidableEq, Repr

/-- A convoy stop in progress (R431): the trap that its oldest member raised, to be taken once every older convoy has
retired. -/
structure ColTrap where
  cause : Word
  tval : Word
  /-- the address that epc receives where it is not H (R353). -/
  epc : Option Word
  /-- the element below which younger members of the convoy still run before they stop (R283). -/
  runOn : Nat
  deriving DecidableEq, Repr

/-- What a stalled member waits on (R440): its lowest stalled element, where it has one, with the address and the memory
slice, and the code of what it awaits. -/
structure WaitInfo where
  elem : Option Nat
  addr : Word
  slice : Nat
  code : Nat
  deriving DecidableEq, Repr

/-- A pre-emption request on its way (R441): the reason, and whether the strip-stop bound is still running. -/
structure PreemptReq where
  reason : Nat
  bound : Bool
  deriving DecidableEq, Repr

/-- A scalar load whose value may still be taken at a later instant (R129): nothing has read its register, and no younger
access that R128 or a fence orders behind it has issued. -/
structure LateLoad where
  seq : Nat
  reg : Reg
  /-- the set of x24 to x31 that the register belongs to. -/
  ui : Bool
  va : Word
  target : Target
  len : Nat
  signed : Bool
  /-- the value that the load is to return, where younger instructions go on from it before the load is performed. -/
  guess : Option Word
  deriving DecidableEq, Repr

/-- The state that belongs to a strand but lies outside its window (R438), which the Cox keeps while it is stopped. -/
structure Kept where
  /-- d1 to d7 (R282). -/
  dctr : Vector (BitVec 16) 8
  /-- the Drayman interrupt queue (R371). -/
  intq : List Word
  /-- the most recently forked operation (R385). -/
  lastIdent : Word
  /-- arrivals A, passages W, and arrivals fired, at crew and at gang scope (R300). -/
  crewA : Nat
  crewW : Nat
  crewFired : Nat
  gangA : Nat
  gangW : Nat
  gangFired : Nat
  /-- a SETVL or CLAIM has executed in the mode of the DCFG in force since that DCFG (R383). -/
  cfgStarted : Bool
  /-- the mode of that DCFG, for which a resumed strand's configuration is installed again (R384). -/
  cfgMode : Mode
  /-- S and the mask of the header of each RESTV that has stopped after some registers, by its base (R249). -/
  heads : List (Word × Nat × Nat)
  /-- an element or a reply whose copies differed, to be reported once the convoy has completed (R276): the mode of the
  member, and the trap. -/
  diverge : Option (Mode × ColTrap)
  /-- the faults that elements in FMASK have met, until their instruction traps: its address, the element, the fault
  (R89). -/
  faulted : List (Word × Nat × AFault)
  deriving DecidableEq, Repr

/-- The kept state of a strand that starts (R177). -/
def Kept.start : Kept :=
  { dctr := Vector.replicate 8 0, intq := [], lastIdent := 0, crewA := 0, crewW := 0, crewFired := 0,
    gangA := 0, gangW := 0, gangFired := 0, cfgStarted := false, cfgMode := .user, heads := [], diverge := none,
    faulted := [] }

/-- A DCFG configuration in force (R382, R383). -/
structure StripCfg where
  record : BitVec 512
  length : Nat
  mode : Mode
  /-- strips consumed. -/
  consumed : Nat
  /-- strips consumed whose successor is not yet forked, each with the serial number below which the strand's element
  accesses must be performed. -/
  due : List (Nat × Nat)
  err : Bool
  deriving DecidableEq, Repr

/-- One helm context of the module, with the strand it holds (R163, R177, R241, R435). -/
structure Strand where
  /-- the context holds a strand. -/
  resident : Bool
  /-- the gang it belongs to (a serial number of the Cox), its crew index and its index in the crew. -/
  gang : Nat
  crew : Nat
  pos : Nat
  pc : Word
  /-- x1 to x31; entry 0 is never read. -/
  x : Vector Word 32
  /-- x24 to x31 of the other set: the shadow set, or the program's while UIA is 1 (R238). -/
  shadow : Vector Word 8
  v : Vector (BitVec 16384) 32
  p : Vector (BitVec 1024) 16
  /-- the upper copies of protected mode (R275). -/
  vMirror : Vector (BitVec 16384) 32
  pMirror : Vector (BitVec 1024) 16
  vl : Nat
  /-- vtype bits 4:0; bit 4 is ILL. -/
  vtype : BitVec 5
  /-- the physical lane groups of the grant, ascending. -/
  lanes : List Nat
  /-- protected mode in force (R256, R275). -/
  protectedMode : Bool
  modeReg : Word
  ecarry : Word
  msel : BitVec 4
  fmask : BitVec 1024
  pmask : BitVec 1024
  amask : BitVec 32
  spillcnt : BitVec 6
  mgrant : Nat
  tol : BitVec 32
  uivec : Word
  uiepc : Word
  uie : Bool
  uia : Bool
  mode : Mode
  pmode : Mode
  kie : Bool
  pkie : Bool
  prot : Bool
  fpmode : Mode
  fpkie : Bool
  tvec : Word
  epc : Word
  cause : Word
  tval : Word
  owner : Owner
  share : Byte
  kscratch : Word
  ftvec : Word
  fepc : Word
  fcause : Word
  ftval : Word
  fscratch : Word
  k : Vector (BitVec 256) 16
  /-- the pending continuation record (R315). -/
  pendingRec : BitVec 512
  /-- the live column queue, oldest member first. -/
  queue : List Member
  /-- members decoded of the convoy that the helm assembles (R204, R205). -/
  assembling : List Member
  /-- the members held by each trap taken in kernel or firmware mode whose handler has not returned, innermost first
  (R434). -/
  held : List (List Member)
  replies : List Reply
  /-- registers of the set in use that await a reply which no member of the queue is to return: RPEND named them when
  the queue was unparked (R437). -/
  owed : BitVec 32
  openInstrs : List OpenInstr
  /-- instructions that have met HOST-DETACHED elements and not written their record (R98). -/
  detachNotes : List DetachNote
  nextIid : Nat
  /-- the strip at the head of the queue is bound to the lane groups (R172). -/
  bound : Bool
  streams : Vector Stream 8
  writeBuffer : List BufEntry
  /-- scalar loads whose values may still be taken later (R129). -/
  late : List LateLoad
  /-- tags of held remote stores whose bytes a load of the strand has read (R140, R141). -/
  forwarded : List Nat
  kept : Kept
  issue : IssueState
  colTrap : Option ColTrap
  /-- what the oldest member waited on when it last stalled (R440). -/
  waitsOn : Option WaitInfo
  preempt : Option PreemptReq
  /-- the mode in which the strand took PREEMPT, after which PDONE ends it (R442). -/
  preempted : Option Mode
  cfg : Option StripCfg
  /-- the mode in which the strand was pre-empted, until the ERET that returns to it (R384). -/
  resumeMode : Option Mode
  -- the context window (R435)
  pcount : Nat
  wfree : Bool
  svlmax : Nat
  rpend : BitVec 32
  ctxptr : Word
  rlanes : BitVec 3
  reshapeTarget : BitVec 2
  reshapePend : Bool
  tinfo : Word
  dcfgr : BitVec 512
  dcfgl : Word
  fabpend : Bool
  fabcode : BitVec 4
  fabaddr : Word
  /-- the serial number of the store that the pending report names (R111). -/
  fabseq : Nat
  pq : Tab (BitVec 512)
  deriving DecidableEq, Repr

/-- A free stream register (R177: unbound). -/
def Stream.start : Stream :=
  { col := 0, bound := false, append := false, delivered := 0, buffer := [], filled := 0, mode := .user, stuck := none,
    detached := false, consumed := false }

/-- A helm context with no strand, at module reset. Registers with no reset value hold 0 (DESIGN CHOICE, log 12). -/
def Strand.empty : Strand :=
  { resident := false, gang := 0, crew := 0, pos := 0, pc := 0, x := Vector.replicate 32 0,
    shadow := Vector.replicate 8 0, v := Vector.replicate 32 0, p := Vector.replicate 16 0,
    vMirror := Vector.replicate 32 0, pMirror := Vector.replicate 16 0, vl := 0, vtype := 0x10, lanes := [],
    protectedMode := false, modeReg := 0, ecarry := 0, msel := 0, fmask := 0, pmask := 0, amask := 0, spillcnt := 0,
    mgrant := 0, tol := 0, uivec := 0, uiepc := 0, uie := false, uia := false, mode := .user, pmode := .user,
    kie := true, pkie := false, prot := false, fpmode := .user, fpkie := false, tvec := 0, epc := 0, cause := 0,
    tval := 0, owner := 0, share := 0, kscratch := 0, ftvec := 0, fepc := 0, fcause := 0, ftval := 0, fscratch := 0,
    k := Vector.replicate 16 0, pendingRec := 0, queue := [], assembling := [], held := [], replies := [], owed := 0,
    openInstrs := [], detachNotes := [], nextIid := 1, bound := false, streams := Vector.replicate 8 Stream.start, writeBuffer := [],
    late := [], forwarded := [], kept := Kept.start, issue := .running, colTrap := none, waitsOn := none, preempt := none,
    preempted := none,
    cfg := none, resumeMode := none, pcount := 0, wfree := false, svlmax := 0, rpend := 0, ctxptr := 0, rlanes := 0,
    reshapeTarget := 0, reshapePend := false, tinfo := 0, dcfgr := 0, dcfgl := 0, fabpend := false, fabcode := 0,
    fabaddr := 0, fabseq := 0, pq := [] }

/-! ### Helms and clusters -/

/-- A line of a helm cache (R68): 128 bytes of translated memory of one owner. -/
structure CacheLine where
  module : Option ModNum
  line : Nat
  owner : Owner
  /-- the page is clear (R79). -/
  clear : Bool
  data : List Byte
  pinned : Bool
  deriving DecidableEq, Repr

/-- The two caches of a helm. -/
structure Helm where
  icache : List CacheLine
  dcache : List CacheLine
  /-- its strands whose load under way was asked for before an event that a later hit must not lie behind: an acquire, a
  store or a newer reading. What it brings serves that load alone and enters no cache (R128, R131, R135). -/
  stale : List Nat
  deriving DecidableEq, Repr

/-- Empty helm caches. -/
def Helm.empty : Helm := { icache := [], dcache := [], stale := [] }

/-- An entry of a translation cache (R83): one leaf. `level` is the leaf's level, 0 to 2. -/
structure TlbEntry where
  owner : Owner
  page : Nat
  level : Nat
  word0 : Word
  word1 : Word
  deriving DecidableEq, Repr

/-- An entry of a die's walk cache (R84): the table that level `level` of a walk points to. -/
structure WalkEntry where
  owner : Owner
  level : Nat
  index : Nat
  table : Nat
  deriving DecidableEq, Repr

/-- Where an access goes: local storage, a translated target, or a control-space offset of this module. -/
inductive Place where
  | local (addr : Nat)
  | target (t : Target)
  | control (off : Nat)
  deriving DecidableEq, Repr

/-- What a Drayman operation does (R372, R373, R375, R383). -/
inductive CopyKind where
  | copy
  /-- a strip fetch of the strand's DCFG configuration. -/
  | strip
  /-- a reducing copy: fold, ordered rule. -/
  | reduce (op : FoldOp) (ordered : Bool)
  deriving DecidableEq, Repr

/-- Where a Drayman operation stands. -/
inductive OpState where
  | running
  /-- it has faulted, and its record with status FAULTED is still to be written (R369); then it is serviced, or, where
  FQRESUME, FQABORT or DCANCEL has come by then, it runs again (status 0) or ends with a status. -/
  | faulted (next : Option Nat)
  /-- the serviced state (R90, R374). -/
  | serviced
  /-- stopped or finished with a final status (R368): its completion is to be written. -/
  | ending (status : Nat)
  deriving DecidableEq, Repr

/-- A sector that has started: it has passed its comparison and has translated (R41, R85). -/
structure SectorMove where
  /-- the pieces of its source, with their lengths. -/
  srcs : List (Place × Nat)
  dst : Place
  /-- the bytes of its source, once all of them have been read, with the marks of consumed errors. -/
  data : Option (List (Byte × Bool))
  deriving DecidableEq, Repr

/-- A Drayman operation (R362 to R374). -/
structure DOp where
  ident : Word
  uid : Nat
  /-- the issuing strand: gang, crew and index in the crew. -/
  holder : Nat × Nat × Nat
  owner : Owner
  mode : Mode
  kind : CopyKind
  handle : BitVec 32
  /-- the first byte of the handle side: BASE plus the offset; the module, where it is another one. -/
  buf : Word
  module : Option ModNum
  loc : Word
  /-- the handle side is the destination. -/
  put : Bool
  rows : Nat
  rbytes : Nat
  hstride : Int
  lstride : Int
  recordAddr : Option Word
  counter : BitVec 3
  ui : Bool
  state : OpState
  /-- the next sector: its row, the bytes of the row before it, and its number. Sectors land in ascending order, so that
  this is the sector map of R374. -/
  row : Nat
  off : Nat
  sector : Nat
  moving : Option SectorMove
  landed : Nat
  faults : Nat
  /-- ordered DRED: the partial sum (R377), and whether a marked element has gone into it. -/
  partialSum : Option Word
  partialBad : Bool
  /-- the final update of an ordered DRED has been applied. -/
  final : Bool
  /-- lowest strip that ended in a failure (R378). -/
  fstrip : Option Nat
  /-- a cancellation waits for the next sector boundary (R386). -/
  cancel : Bool
  /-- its local range was refused at issue, so that it marks no line and moves nothing (R365). -/
  void : Bool
  /-- the sector at hand has started once and is held by the serviced state (R378). -/
  held : Bool
  /-- its record of a consumed error has been written (R450). -/
  consumed : Bool
  /-- a strip's target on each other module that its strips have gone to (R378). -/
  stripsAt : List Target
  deriving DecidableEq, Repr

/-- A prefetch hint (R380). -/
structure Hint where
  seq : Nat
  uid : Nat
  owner : Owner
  mode : Mode
  handle : BitVec 32
  /-- the address of the DPREF that asked for it. -/
  ident : Word
  module : Option ModNum
  deadline : Word
  /-- bytes still to be served, from this virtual address. -/
  addr : Word
  bytes : Nat
  deriving DecidableEq, Repr

/-- One multiply that a matrix operation runs: the fields of MMA, MMAS or of a record (R355, R356, R357). -/
structure MatJob where
  row : Nat
  m : Nat
  n : Nat
  kk : Nat
  fa : Fmt
  fb : Fmt
  sparse : Option Pattern
  za : Bool
  bound : Option (BitVec 32)
  abase : Nat
  astride : Nat
  /-- B: an address in the scratchpad, or a handle and offset with the handle's BASE and module. -/
  bbase : Word
  bhandle : Option (BitVec 32)
  bmodule : Option ModNum
  /-- scale area, or none (R350). -/
  scale : Option Nat
  deriving DecidableEq, Repr

/-- A matrix operation (R351): the jobs left, the next k tile of the first, and its index in the record array. -/
structure MatOp where
  ident : Word
  uid : Nat
  /-- the strand as the holder of its rows: gang, crew and index in the crew. -/
  holder : Nat × Nat × Nat
  owner : Owner
  mode : Mode
  addr : Word
  jobs : List MatJob
  index : Nat
  tile : Nat
  serviced : Bool
  /-- its record of a consumed error has been written (R450). -/
  consumed : Bool
  /-- when the strand began to wait for the array (R351). -/
  since : Nat
  /-- the 256-byte sectors of B that the pass at hand has translated: the sector's number and the place of its first byte
  (R85, R358). -/
  places : List (Nat × Place)
  deriving DecidableEq, Repr

/-- The use of a block of 32 accumulator rows (R346, R347). -/
inductive BlockUse where
  | free
  | reserved (gang crew pos : Nat)
  /-- `back`: the block returns to the holder's reservation when MDETACH releases it. -/
  | held (gang crew pos : Nat) (back : Bool)
  deriving DecidableEq, Repr

/-- A code table bank (R293, R294). -/
structure CodeTable where
  nsym : Nat
  maxlen : Nat
  count : List Nat
  values : List Word
  owner : Owner
  loaded : Bool
  deriving DecidableEq, Repr

/-- A tile of a guarded launch (R414, R416). -/
structure Tile where
  index : Nat
  gang : Nat
  part : Option Nat
  residual : BitVec 32
  /-- staging lines: virtual line number, and offset with byte for each held byte. -/
  lines : List (Nat × Tab Byte)
  /-- a held write needed a 257th line (R418): the tile stops. -/
  overflow : Bool
  deriving DecidableEq, Repr

/-- A judged tile on its way to its outcome record (R420 to R422). -/
structure Judged where
  index : Nat
  outcome : Nat
  residual : BitVec 32
  ec : Bool
  held : Nat
  lines : Nat
  cstat : Nat
  committed : Nat
  /-- lines still to commit. -/
  pending : List (Nat × Tab Byte)
  /-- the exact tile's gang, 0 while none runs. -/
  exactGang : Nat
  /-- the staging part, until the commit has ended. -/
  part : Option Nat
  deriving DecidableEq, Repr

/-- A guarded launch (R412 to R415). -/
structure Guarded where
  serial : Nat
  owner : Owner
  mode : Mode
  tol : BitVec 32
  /-- the LEVEL L of the launch (R412). -/
  level : Nat
  n : Nat
  surrogate : BitVec 512
  exact : BitVec 512
  queue : Nat
  /-- the task that executed GLAUNCH, and its gang. -/
  task : Word
  launcher : Nat
  nextTile : Nat
  tiles : List Tile
  judged : List Judged
  /-- tiles discarded whose exact tile has not started, in discard order, each with the tick and the step of its discard. -/
  exactWaiting : List (Nat × Nat × Nat)
  /-- surrogate tiles neither committed nor discarded. -/
  left : Nat
  /-- still active on the cluster (R415). -/
  active : Bool
  since : Nat
  deriving DecidableEq, Repr

/-- An entry of the key store (R312): the logical index, the physical position and the key of a row. -/
structure KeyRow where
  index : Nat
  pos : Nat
  key : Nat
  deriving DecidableEq, Repr

/-- The key store of a cluster: the member that holds it, and its entries. -/
structure KeyStore where
  uid : Nat
  iid : Nat
  rows : List KeyRow
  deriving DecidableEq, Repr

/-- A cluster (512 of them): column engine, scratchpad-side units, Drayman, Miller, Assayer. -/
structure Cluster where
  tlb : List TlbEntry
  /-- charges V of the eight strands (R411). -/
  charge : Tab Nat
  storeQueue : List ElemStore
  acc : Tab (BitVec 32)
  blocks : Tab BlockUse
  matOps : List MatOp
  /-- pending matrix failures: holder (gang, crew, pos) and tval (R353, R354). -/
  matFail : List (Nat × Nat × Nat × Word)
  /-- MLSTAT, MLPASS, MLDENSE, MLDROP, MLRESENT, MLOVB (R344). -/
  mlstat : Word
  mlpass : Word
  mldense : Word
  mldrop : Word
  mlresent : Word
  mlovb : Word
  /-- the key store, where an instruction has taken it (R312); it is free again once that one has stopped. -/
  keyStore : Option KeyStore
  tables : Tab CodeTable
  nextSeq : Nat
  ops : List DOp
  hints : List Hint
  hintsRefused : Nat
  hintsDropped : Nat
  launches : List Guarded
  apass : Word
  aredo : Word
  aovf : Word
  acfail : Word
  acommit : Word
  /-- register rebuilds in this tick, by lane group (R452). -/
  rebuilds : Tab Nat
  deriving DecidableEq, Repr

/-- A cluster at module reset. -/
def Cluster.empty : Cluster :=
  { tlb := [], charge := [], storeQueue := [], acc := [], blocks := [], matOps := [], matFail := [], mlstat := 0,
    mlpass := 0, mldense := 0, mldrop := 0, mlresent := 0, mlovb := 0, keyStore := none, tables := [], nextSeq := 1,
    ops := [], hints := [], hintsRefused := 0, hintsDropped := 0, launches := [], apass := 0, aredo := 0, aovf := 0,
    acfail := 0, acommit := 0, rebuilds := [] }

/-! ### The module -/

/-- How a 64-byte unit of encrypted storage was last written (R31). Memory holds its plaintext. -/
inductive UnitKey where
  /-- as reset left it (log 4). -/
  | unwritten
  /-- as plaintext (a clear page, or a host write). -/
  | clear
  /-- under a key slot's contents, with the home module number of the tweak. -/
  | keyed (key : BitVec 512) (home : Nat)
  deriving DecidableEq, Repr

/-- A line of a pool cache (R61, R62). -/
structure PoolLine where
  line : Nat
  owner : Owner
  dirty : Bool
  keep : Bool
  data : List Byte
  /-- its marked units: 0 the lower 64 bytes, 1 the upper (R448). -/
  marks : List Nat
  deriving DecidableEq, Repr

/-- A line of the host-line cache (R66): a Shared line of 64 bytes. -/
structure HostLine where
  line : Nat
  owner : Owner
  /-- KEEP placed it (R76). -/
  keep : Bool
  data : List Byte
  deriving DecidableEq, Repr

/-- A grant window (R95). -/
structure Window where
  hbase : Word
  hlen : Word
  state : BitVec 2
  deriving DecidableEq, Repr

/-- A log of R46, R121 or R454. -/
structure Log where
  base : Word
  size : BitVec 5
  head : Word
  tail : Word
  lost : Word
  deriving DecidableEq, Repr

/-- An empty, disabled log. -/
def Log.empty : Log := { base := 0, size := 0, head := 0, tail := 0, lost := 0 }

/-- A packet that this module has received: an entry of a link's record (R107), with the response produced, if it has
been. -/
structure Received where
  source : ModNum
  tag : Nat
  plane : BitVec 2
  link : BitVec 3
  reply : Option RemoteReply
  deriving DecidableEq, Repr

/-- A frozen link record (R107): for each tag, the response produced. -/
structure FrozenRecord where
  plane : BitVec 2
  link : BitVec 3
  entries : List (ModNum × Nat × Option RemoteReply)
  deriving DecidableEq, Repr

/-- A response or refusal of this module that its requester may still be without (R113): it is sent again where it comes
back, and dropped in the end. -/
structure Response where
  dest : ModNum
  tag : Nat
  reply : RemoteReply
  view : PlaneView
  plane : BitVec 2
  link : BitVec 3
  /-- the address of the request, which decides the links (R103). -/
  pa : Nat
  deriving DecidableEq, Repr

/-- A request or a strip that this module has accepted as target and not yet answered (R115, R378). -/
inductive Incoming where
  | request (r : Request)
  | strip (t : Strip)
  deriving DecidableEq, Repr

/-- A served request that this module has translated: its sender and tag, the cluster whose translation cache it uses, and
the place (R39, R85). -/
structure ServedPlace where
  source : ModNum
  tag : Nat
  cid : Nat
  target : Target
  deriving DecidableEq, Repr

/-- How this module sends to one target (R116). -/
inductive PeerState where
  | running
  /-- stopped, until everything outstanding has come back; `own`: at this module's own switch point (R117). -/
  | stopped (own : Bool)
  /-- drained without new values: probing. -/
  | probing
  deriving DecidableEq, Repr

/-- A hardware queue entry (R390). -/
structure Queue where
  level : BitVec 4
  en : Bool
  stop : Bool
  owner : Owner
  size : BitVec 4
  ring : Word
  head : BitVec 32
  tail : BitVec 32
  late : BitVec 32
  qerr : BitVec 32
  deriving DecidableEq, Repr

/-- A queue at reset (R390). -/
def Queue.empty : Queue :=
  { level := 0, en := false, stop := false, owner := 0, size := 0, ring := 0, head := 0, tail := 0, late := 0,
    qerr := 0 }

/-- What the Cox does with a gang. -/
inductive GangState where
  /-- on the helms. -/
  | running
  /-- pre-empted or killed, strands still ending (R401). -/
  | stopping
  /-- in the resume list of its queue (R402). -/
  | stopped
  deriving DecidableEq, Repr

/-- A strand of a gang: where it runs or last ran, its save-area pointer and lanes for the resumption, the state of
R438, and whether it has ended. -/
structure GangStrand where
  crew : Nat
  pos : Nat
  uid : Nat
  ended : Bool
  /-- it has been stopped and waits for its resumption (R442). -/
  saved : Bool
  ctxptr : Word
  /-- lane groups for the resumption: those it had, or the narrower grant that RLANES asks for. -/
  lanes : Nat
  mode : Mode
  kept : Kept
  exit : Word
  deriving DecidableEq, Repr

/-- A gang that has been placed at least once (R399 to R410). -/
structure Gang where
  serial : Nat
  /-- task identity (R393), or 0 for a tile run. -/
  task : Word
  queue : Nat
  /-- the LEVEL of a tile run (R415); other gangs have the LEVEL that their queue has (R398). -/
  level : Nat
  owner : Owner
  record : BitVec 512
  state : GangState
  strands : List GangStrand
  /-- start order, for victims (R401). -/
  started : Nat
  /-- tick-bound: it may be placed in this tick (R404). -/
  released : Bool
  late : Bool
  killed : Bool
  /-- a tile run: launch cluster, launch serial, tile, exact. -/
  tile : Option (Nat × Nat × Nat × Bool)
  deriving DecidableEq, Repr

/-- What a candidate of a queue is (R395, R415). -/
inductive CandKey where
  /-- the record at HEAD. -/
  | record (task : Word)
  /-- a stopped gang of the resume list. -/
  | gang (serial : Nat)
  /-- a tile of a guarded launch: cluster, launch, tile; the exact one, or the surrogate. -/
  | tile (cid launch index : Nat) (exact : Bool)
  deriving DecidableEq, Repr

/-- What a victim's strand holds, reserved for the candidate it is stopped for (R399): its context, lane groups and row
blocks, and, with the first strand of a crew, the crew's SPAD units. -/
structure Reserved where
  cluster : Nat
  /-- none for a crew whose strands have all ended, of which the SPAD units alone are left. -/
  ctx : Option Nat
  holder : Nat × Nat × Nat
  lanes : List Nat
  blocks : Nat
  spad : Nat
  deriving DecidableEq, Repr

/-- What the Cox remembers of a candidate that is not yet placed, or of a tick-bound gang that is being stopped at the start
of a tick: the wait words still to be read in the reading under
way, whether the last reading found all of them at or below 0, the tick at which it became eligible, its skipped ticks,
the order in which it became a blocker, and the victims that stop for it (R395, R398 to R401, R404). -/
structure Candidate where
  queue : Nat
  key : CandKey
  unread : List Word
  /-- a word read in the reading under way stands above 0. -/
  above : Bool
  /-- the reading under way began at a tick start. -/
  atTick : Bool
  /-- a gang that is still being stopped, and will then be its queue's candidate. -/
  early : Bool
  satisfied : Bool
  since : Option Nat
  skips : Nat
  /-- its effective level at the start of this tick, where it was eligible then. -/
  startLevel : Option Nat
  blocker : Option Nat
  /-- tick-bound: it may be placed in this tick. -/
  released : Bool
  late : Bool
  victims : List Nat
  reserved : List Reserved
  deriving DecidableEq, Repr

/-- A report that the Cox or an Assayer has to write (R409, R422): data at an address (none left once it is written),
then the counter that it lowers by 1. -/
structure Completion where
  queue : Nat
  owner : Owner
  mode : Mode
  addr : Word
  data : List Byte
  counter : Word
  /-- the data is an outcome record whose TICK is still to be set: it is set as the record is written (R423). -/
  untimed : Bool
  deriving DecidableEq, Repr

/-- The Cox (R389 to R411). -/
structure Cox where
  queues : Tab Queue
  /-- identities of the records that wait in each queue, oldest first. -/
  waiting : Tab (List Word)
  gangs : List Gang
  /-- resume list of each queue: gang serials, oldest first. -/
  resume : Tab (List Nat)
  last : Tab Nat
  nextSeq : Nat
  nextGang : Nat
  nextStart : Nat
  nextBlocker : Nat
  /-- the highest effective level among the candidates that were eligible at the start of this tick (R400). -/
  topLevel : Nat
  candidates : List Candidate
  completions : List Completion
  deriving DecidableEq, Repr

/-- The Cox at reset: last[L] is 63 (R399). -/
def Cox.empty : Cox :=
  { queues := [], waiting := [], gangs := [], resume := [], last := [], nextSeq := 1, nextGang := 1, nextStart := 1,
    nextBlocker := 1, topLevel := 0, candidates := [], completions := [] }

/-- The management mailbox (R465). -/
structure Mailbox where
  arg : Vector Word 4
  result : Byte
  /-- the command that is being served, with its arguments, while BUSY is 1. -/
  cmd : Option (Byte × Vector Word 4)
  rej : Bool
  bootstat : Byte
  out : List Byte
  deriving DecidableEq, Repr

/-- The mailbox at power-up (R465). -/
def Mailbox.empty : Mailbox :=
  { arg := Vector.replicate 4 0, result := 0, cmd := none, rej := false, bootstat := 0, out := List.replicate 320 0 }

/-- BUSY (R465). -/
def Mailbox.busy (m : Mailbox) : Bool := m.cmd.isSome

/-- How the last access that the host made to the boot window or to the mailbox completed (R461, R465). -/
inductive HostReply where
  | none
  | done
  | data (l : List Byte)
  /-- CXL poison. -/
  | poison
  deriving DecidableEq, Repr

/-- One move of the machine's agents: an instruction that a strand issues, a row of the opcode table that is no
instruction word, or a move that has no row of its own. -/
inductive Move where
  /-- strand `uid` issues its next instruction. -/
  | issue (uid : Uid)
  /-- a row of the table. -/
  | row (i : Instr)
  /-- the column engine processes one element group or one step of the oldest member of the strand (R166). -/
  | columnStep (uid : Uid)
  /-- it processes an element group of the member at a place of the queue, out of turn, where nothing older holds it back
  (R128, R167, R175). -/
  | columnAhead (uid : Uid) (place group : Nat)
  /-- a scalar load of the strand takes its value at this later instant (R129). -/
  | reload (uid : Uid) (seq : Nat)
  /-- the strand goes on from this value of a load that is performed at a later instant (R129, log 92). -/
  | guess (uid : Uid) (seq : Nat) (value : Word)
  /-- the oldest entry of a store queue of the cluster is delivered and performed (R75). -/
  | deliver (cid : Cid) (laneGroup : BitVec 3) (slice : BitVec 4)
  /-- a helm data-cache line, instruction-cache line or translation leaves its cache (R68, R83). -/
  | evictData (helm : BitVec 11) (n : Nat)
  | evictCode (helm : BitVec 11) (n : Nat)
  | evictTlb (cid : Cid) (n : Nat)
  /-- a pointer leaves a die's walk cache (R84). -/
  | evictWalk (die : BitVec 6) (n : Nat)
  /-- a response of this module comes back undelivered (R113). -/
  | responseBack (dest : ModNum) (tag : Nat)
  /-- the host clears REJ: it writes 1 to bit 9 of MBSTAT (R465). -/
  | rejClear
  /-- the host writes an argument of the mailbox, or reads 8 bytes of its registers (R465). -/
  | mailArg (i : BitVec 2) (w : Word)
  | mailRead (offset : BitVec 12)
  /-- the command of the mailbox is served, or the checks of a boot end (R462, R465). -/
  | mailServe
  /-- the group switch of a plane has a link up to its spine again (R114). -/
  | spineUp (plane : BitVec 2)
  /-- an uncorrectable error strikes the lower or the upper 64 bytes of a pool-cache line (R448). -/
  | strikePool (die : BitVec 6) (n : Nat) (upper : Bool)
  /-- an uncorrectable error strikes a unit, or the tag or the full/empty bit of the local line that holds it (R448). -/
  | strike (unit : MarkUnit)
  | strikeLine (unit : MarkUnit)
  /-- an uncorrectable error strikes an element of the accumulator store, or a cluster's scalar state (R448, R452). -/
  | strikeAcc (cid : Cid) (index : BitVec 16)
  | strikeScalar (cid : Cid)
  /-- a parity error in a 32-bit slot of a vector register or predicate: rebuilt, or lost (R452). -/
  | parity (uid : Uid) (reg : Reg) (slot : BitVec 9) (lost : Bool)
  | parityPred (uid : Uid) (reg : PReg) (slot : BitVec 9) (lost : Bool)
  /-- a parity error in a line of a helm's instruction or data cache (R448). -/
  | cacheParity (helm : BitVec 11) (code : Bool) (n : Nat)
  /-- the firmware loads the resident kernel: it measures the image of `len` bytes that stands in module SRAM (R463). -/
  | kernelLoad (pa : BitVec 52) (len : Nat)
  /-- an upper lane of a protected strand goes wrong: bits of its copy of a slot flip (R275, R276). -/
  | laneFault (uid : Uid) (reg : Reg) (slot : BitVec 9) (bits : BitVec 32)
  deriving DecidableEq, Repr

/-- The module. Addresses of `lmem`: TCM byte `o` of strand `u` at 2^17 u + o, scratchpad byte `o` of cluster `c` at
2^30 + 2^23 c + o. Addresses of `pmem`: the physical address. -/
structure State where
  strands : Tab Strand
  helms : Tab Helm
  clusters : Tab Cluster
  -- memory
  lmem : Memory
  /-- owner tags of local lines, by local address / 128 (R35). -/
  tags : Tab Owner
  /-- local lines that are empty (R54). -/
  empties : List Nat
  pmem : Memory
  units : Tab UnitKey
  /-- marked units (R448): local words by local address / 8, physical units by address / 64. -/
  localMarks : List Nat
  physMarks : List Nat
  pool : Tab (List PoolLine)
  hostCache : List HostLine
  walks : Tab (List WalkEntry)
  keys : Tab (BitVec 512)
  -- module control block (R33, R65, R92, R379, R439)
  modnum : ModNum
  owntab : Word
  keysel : BitVec 12
  keydata : Vector Word 8
  vlog : Log
  poolcsz : Nat
  /-- PCFLUSH: bits 31:16 and 1:0 as last written. -/
  pcflush : Word
  pchit : Word
  pcmiss : Word
  pports : BitVec 12
  fqtab : Word
  foldtab : Word
  ptime : BitVec 32
  -- host port (R95, R467)
  hpstat : Word
  windows : Tab Window
  hevb : Word
  hevl : Word
  hostMessage : Bool
  -- fabric (R121)
  live : BitVec 4
  rcount : BitVec 24
  easyall : Bool
  linkup : BitVec 32
  /-- planes whose group switch has no link up to its spine (R114). -/
  spineDown : BitVec 4
  pptbase : Word
  reissue : Word
  flog : Log
  outstanding : List Outstanding
  nextTag : Nat
  peers : Tab PeerState
  /-- values that a stopped target's refusals carried, to be adopted when it has drained (R116). -/
  learned : Tab PlaneView
  /-- the records of the links that are up: the last 128 packets of each, oldest first (R107). -/
  received : List Received
  frozen : List FrozenRecord
  responses : List Response
  incoming : List Incoming
  /-- where the requests that have translated here go until they are answered (R85). -/
  servedAt : List ServedPlace
  /-- reducing copies of other modules, by identity, whose record of a consumed error has been written (R450). -/
  consumedFolds : List (ModNum × Word)
  arrived : List Arrived
  ports : List PortRequest
  nextPort : Nat
  -- scheduler (R389, R441)
  tperiod : BitVec 32
  tperiodNext : Option (BitVec 32)
  rbound : BitVec 32
  /-- what tvec holds at strand start: the value that the firmware last wrote (R241, log 22). -/
  fwTvec : Word
  cox : Cox
  tick : Word
  cycle : Word
  -- errors (R454)
  elog : Log
  mctgt : BitVec 12
  scrub : BitVec 32
  /-- where the scrub of each walk goes on: a die's SRAM unit, a cluster's scratchpad line, its TCM line (R453). -/
  scrubAt : Tab Nat
  rebuildlim : BitVec 32
  cecount : Word
  uecount : Word
  evwait : BitVec 32
  fenced : List Nat
  eventSet : List Event
  /-- events that have waited EVWAIT cycles, for firmware to take (R457). -/
  fwEvents : List Event
  poolPortsFailed : BitVec 8
  -- host, boot, module (R461 to R469)
  mailbox : Mailbox
  bootOpen : Bool
  minSvn : BitVec 32
  runSvn : BitVec 32
  fwvalid : Bool
  fwmeas : BitVec 512
  kvalid : Bool
  kmeas : BitVec 512
  /-- how the last load of a kernel went: whether it was accepted (R463). -/
  kload : Option Bool
  hostReply : HostReply
  slowMatrix : Bool
  stopped : Bool
  -- the model's own fields (log 1, 2): moves still to come, whose turn it is, and the counters behind free values
  agenda : List Move
  cur : Nat
  phase : Bool
  steps : Nat
  draws : Nat
  deriving DecidableEq, Repr

/-- Why the machine stops. -/
inductive Fault where
  /-- Raised by `step` when the agenda names a unit that the module does not have. Safe: no hardware step is lost. -/
  | noSuchUnit
  deriving DecidableEq, Repr

/-- Why an instruction has no meaning. -/
inductive Refusal where
  /-- Raised by an arm of `exec` whose instruction has no meaning yet. Safe: nothing can be proved of its run. -/
  | notModelled (mnemonic : String)
  deriving DecidableEq, Repr

/-- The module right after reset (R6): every field at the value the manual states, and, where it states none, at the
value that logs 3, 4, 12 and 13 name. -/
def State.reset : State :=
  { strands := [], helms := [], clusters := [], lmem := [], tags := [], empties := [], pmem := [], units := [],
    localMarks := [], physMarks := [], pool := [], hostCache := [], walks := [], keys := [], modnum := 0, owntab := 0,
    keysel := 0, keydata := Vector.replicate 8 0, vlog := Log.empty, poolcsz := 0, pcflush := 0, pchit := 0,
    pcmiss := 0, pports := 0, fqtab := 0, foldtab := 0, ptime := 11000000, hpstat := 0, windows := [], hevb := 0,
    hevl := 0, hostMessage := false, live := 0, rcount := 0, easyall := false, linkup := 0, spineDown := 0, pptbase := 0,
    reissue := 0, flog := Log.empty, outstanding := [], nextTag := 1, peers := [], learned := [], received := [],
    frozen := [], responses := [], incoming := [], servedAt := [], consumedFolds := [], arrived := [], ports := [], nextPort := 1,
    tperiod := 36666667, tperiodNext := none, rbound := 55000, fwTvec := 0, cox := Cox.empty, tick := 0, cycle := 0, elog := Log.empty, mctgt := 0, scrub := 4096, scrubAt := [],
    rebuildlim := 1024, cecount := 0, uecount := 0, evwait := 1100000, fenced := [], eventSet := [], fwEvents := [],
    poolPortsFailed := 0, mailbox := Mailbox.empty, bootOpen := true, minSvn := 0, runSvn := 0, fwvalid := false,
    fwmeas := 0, kvalid := false, kmeas := 0, kload := none, hostReply := .none, slowMatrix := false, stopped := false, agenda := [],
    cur := 0, phase := true, steps := 0, draws := 0 }

end Sys2Proof.Machine
end

