-- ==== Sys2Proof/Machine/Ops.lean ====
section
/-!
DEFINITION. The named operations that the meanings share: access to strands, clusters and registers, the reply queue,
parking and holding the column queue, taking a trap (one operation, R235) and returning from one (R237).
-/

namespace Sys2Proof.Machine

/-! ### Instructions as operations on the state -/

/-- A trap to be taken: cause code (R430), fault class or failure code, tval, and the address that epc receives where
it is not the address of the instruction being issued. -/
structure Trap where
  code : Nat
  cls : Nat
  tval : Word
  epc : Option Word
  deriving DecidableEq, Repr

/-- Why an operation stops short of its end. -/
inductive Stop where
  /-- it cannot go on yet; the instruction is tried again from the state reached. -/
  | wait
  /-- it takes a trap. -/
  | trap (t : Trap)
  deriving DecidableEq, Repr

/-- An operation of an instruction: it ends with a value, waits, or traps. -/
abbrev M (α : Type) := EStateM Stop State α

/-- Wait: the instruction is tried again. -/
def stall {α : Type} : M α := throw .wait

/-- Wait until `b` holds. -/
def waitUnless (b : Bool) : M Unit := if b then pure () else stall

/-- Take a trap with cause `code`, class `cls` and `tval`, at the instruction being issued. -/
def trapWith {α : Type} (code cls : Nat) (tval : Word) : M α := throw (.trap ⟨code, cls, tval, none⟩)

/-- `f x` for each element of the list, in order. -/
def forList {α : Type} : List α → (α → M Unit) → M Unit
  | [], _ => pure ()
  | x :: t, f => do f x; forList t f

/-- The list of results of `f` on each element, in order. -/
def mapList {α β : Type} : List α → (α → M β) → M (List β)
  | [], _ => pure []
  | x :: t, f => do
    let y ← f x
    let ys ← mapList t f
    pure (y :: ys)

/-- `body`; where it waits, the state is changed by `f`. -/
def onWait {α : Type} (f : State → State) (body : M α) : M α := fun s =>
  match body s with
  | .error .wait s' => .error .wait (f s')
  | r => r

/-- `body`; where it waits or answers no, the state is changed by `f`. -/
def onHold (f : State → State) (body : M Bool) : M Bool := fun s =>
  match body s with
  | .error .wait s' => .error .wait (f s')
  | .ok false s' => .ok false (f s')
  | r => r

/-! ### Places -/

/-- The cluster (8 x die + cluster) of strand `u`. -/
def clusterOf (u : Nat) : Nat := u / 8

/-- The helm of strand `u`. -/
def helmOf (u : Nat) : Nat := u / 2

/-- The die of cluster `c`. -/
def dieOf (c : Nat) : Nat := c / 8

/-- Strand `u`'s context. -/
def State.strand (s : State) (u : Nat) : Strand := Tab.get Strand.empty s.strands u

/-- The state with strand `u`'s context replaced. -/
def State.setStrand (s : State) (u : Nat) (t : Strand) : State := { s with strands := Tab.set s.strands u t }

/-- Cluster `c`. -/
def State.cluster (s : State) (c : Nat) : Cluster := Tab.get Cluster.empty s.clusters c

/-- The state with cluster `c` replaced. -/
def State.setCluster (s : State) (c : Nat) (t : Cluster) : State := { s with clusters := Tab.set s.clusters c t }

/-- The caches of helm `h`. -/
def State.helm (s : State) (h : Nat) : Helm := Tab.get Helm.empty s.helms h

/-- The state with the caches of helm `h` replaced. -/
def State.setHelm (s : State) (h : Nat) (t : Helm) : State := { s with helms := Tab.set s.helms h t }

/-- The state. -/
def getS : M State := fun s => .ok s s

/-- Change the state. -/
def modS (f : State → State) : M Unit := fun s => .ok () (f s)

/-- Strand `u`. -/
def getStrand (u : Nat) : M Strand := fun s => .ok (s.strand u) s

/-- Change strand `u`. -/
def modStrand (u : Nat) (f : Strand → Strand) : M Unit := fun s => .ok () (s.setStrand u (f (s.strand u)))

/-- Cluster `c`. -/
def getCluster (c : Nat) : M Cluster := fun s => .ok (s.cluster c) s

/-- Change cluster `c`. -/
def modCluster (c : Nat) (f : Cluster → Cluster) : M Unit := fun s => .ok () (s.setCluster c (f (s.cluster c)))

/-- The strand that issues. -/
def cur : M Nat := fun s => .ok s.cur s

/-- A fresh free value (log 2). -/
def drawWord : M Word := fun s => .ok (Config.freeWord s.draws) { s with draws := s.draws + 1 }

/-- What strand `u` waits on, where nothing is noted yet (R440). -/
def State.noteWait (u : Nat) (w : WaitInfo) (s : State) : State :=
  let t := s.strand u
  if t.waitsOn.isSome then s else s.setStrand u { t with waitsOn := some w }

/-- The element that waits, where none is noted yet. -/
def State.noteElem (u i : Nat) (s : State) : State :=
  let t := s.strand u
  match t.waitsOn with
  | some ⟨none, a, sl, c⟩ => s.setStrand u { t with waitsOn := some ⟨some i, a, sl, c⟩ }
  | _ => s

/-! ### Scalar registers and the reply queue -/

/-- Register `r`; x0 reads as zero (R224). -/
def Strand.readX (t : Strand) (r : Reg) : Word := if r = 0 then 0 else t.x[r.toNat]

/-- A reply slot names the register that `r` names now: x24 to x31 of the other set are other registers (R238). -/
def Strand.names (t : Strand) (q : Reply) (r : Reg) : Bool := q.reg = r && (r.toNat < 24 || q.ui == t.uia)

/-- The loads whose values younger instructions have gone on from, and which are still to be performed (R129). -/
def Strand.guesses (t : Strand) : List LateLoad := t.late.filter (·.guess.isSome)

/-- A load whose value may still be taken later has register `r`, as `r` is named now. -/
def Strand.lateNames (t : Strand) (l : LateLoad) (r : Reg) : Bool := l.reg = r && (r.toNat < 24 || l.ui == t.uia)

/-- A set of registers, a bit each, without register `r`. -/
def clearReg (b : BitVec 32) (r : Reg) : BitVec 32 := b &&& ~~~((1 : BitVec 32) <<< r.toNat)

/-- The strand with register `r` written: x0 discards the write, and a reply that an older instruction owes the
register is discarded (R169, R224). -/
def Strand.writeX (t : Strand) (r : Reg) (w : Word) : Strand :=
  if r = 0 then t
  else { t with
    x := t.x.set r.toNat w
    late := t.late.filter fun l => l.guess.isSome || !t.lateNames l r
    owed := clearReg t.owed r
    replies := t.replies.map fun q => if t.names q r then { q with disc := true } else q
    queue := t.queue.map fun m =>
      if t.replies.any (fun q => t.names q r && q.iid = m.iid) then { m with disc := true } else m }

/-- Register `r` awaits a reply (R169, R437). -/
def Strand.awaits (t : Strand) (r : Reg) : Bool :=
  r != 0 && (t.owed.getLsbD r.toNat || t.replies.any fun q => t.names q r && !q.disc && q.awaited)

/-- Read register `r` of strand `u`; the instruction stalls while the register awaits a reply (R169). A load whose value
is read has been performed by then, or is still to return the value that the strand goes on from (R129). -/
def readX (u : Nat) (r : Reg) : M Word := do
  let t ← getStrand u
  waitUnless (!t.awaits r)
  if t.late.any fun l => t.lateNames l r && l.guess.isNone then
    modStrand u fun t => { t with late := t.late.filter fun l => l.guess.isSome || !t.lateNames l r }
  else pure ()
  pure (t.readX r)

/-- Write register `r` of strand `u`. -/
def writeX (u : Nat) (r : Reg) (w : Word) : M Unit := modStrand u (·.writeX r w)

/-- The predicate register `g`; p0 is true in every lane (R177). -/
def Strand.readP (t : Strand) (g : PReg) : BitVec 1024 := if g = 0 then BitVec.allOnes 1024 else t.p[g.toNat]

/-- The register a pushed instruction replies to, x0 for none (R168). -/
def replyReg : Instr → Reg
  | .setvl _ xd _ | .claim _ xd _ _ | .vmvxToScalar _ xd _ _ | .vred _ _ _ xd _ | .pcnt _ xd _ | .pfirst _ xd _
  | .vldz _ _ _ xd _ _ _ | .klen xd _ | .ksel _ _ xd _ _ | .kselp _ _ xd _ _ | .kjoin _ _ xd _ _
  | .kmjoin _ _ xd _ _ | .ksemi _ xd _ _ | .ksemiAnti _ xd _ _ | .kgroup _ _ xd _ | .kagg _ _ xd _ _
  | .ksort _ xd _ | .ktopk _ _ xd _ _ | .kgath _ xd _ | .kcat _ xd _ _ => xd
  | _ => 0

/-- The memory fields of a vector memory instruction. -/
def memCtl : Instr → Option MCtl
  | .vld _ m _ _ _ | .vldStrided _ m _ _ _ _ | .vst _ m _ _ _ | .vstStrided _ m _ _ _ _ | .vldff _ m _ _ _
  | .vgath _ m _ _ _ _ | .vscat _ m _ _ _ _ | .vscadd _ m _ _ _ _ | .vldb _ m _ _ _ _ | .vstb _ m _ _ _ _
  | .vldz _ m _ _ _ _ _ => some m
  | _ => none

/-- Register a word's instruction replies to. -/
def replyRegOfWord (w : Word) : Reg := ((decode w).map replyReg).getD 0

/-- The chain bit of a word: only the vector and vector memory formats carry one (R166). -/
def chainBit (w : Word) : Bool :=
  let op := (w.extractLsb' 56 8).toNat
  w.getLsbD 55 && ((0x40 ≤ op && op ≤ 0x74) || (0x78 ≤ op && op ≤ 0x8a) || (0x8c ≤ op && op ≤ 0x93) || op = 0xb6)

/-! ### The column queue -/

/-- The convoys of a list of members: the number of last members. -/
def convoys (l : List Member) : Nat := (l.filter (·.last)).length

/-- Members held by traps whose handlers have not returned (R434). -/
def Strand.heldMembers (t : Strand) : List Member := t.held.flatten

/-- The column queue is empty as the rules that wait for it count it: held members do not count (R434). -/
def Strand.queueEmpty (t : Strand) : Bool := t.queue.isEmpty

/-- The code of a mode (R223, R436). -/
def Mode.code : Mode → BitVec 2
  | .user => 0
  | .kernel => 1
  | .firmware => 2

/-- The mode of a code; the reserved code 3 acts as user (log 14). -/
def Mode.ofCode (b : BitVec 2) : Mode :=
  match b.toNat with
  | 1 => .kernel
  | 2 => .firmware
  | _ => .user

/-- A bit as a word of width `n`. -/
def flagBit (n : Nat) (b : Bool) : BitVec n := if b then 1 else 0

/-- A parked member as its 64 bytes (R436). -/
def Member.toPQ (m : Member) : BitVec 512 :=
  (0 : BitVec 80) ++ m.owner ++ (0 : BitVec 10) ++ flagBit 1 m.prot ++ m.rm ++ m.mode.code ++ flagBit 1 m.last
    ++ flagBit 1 m.disc ++ flagBit 1 m.pv ++ m.idx ++ m.opd ++ m.opc ++ m.opb ++ m.opa ++ m.addr ++ m.word

/-- The member that 64 bytes of the parked queue describe (R436), under serial number `iid`. One whose index is VL has
completed and waits for its convoy to retire (R254, R431): it does nothing more. -/
def Member.ofPQ (b : BitVec 512) (iid vl : Nat) : Member :=
  { done := b.getLsbD 398 && (b.extractLsb' 384 14).toNat = vl
    word := b.extractLsb' 0 64, addr := b.extractLsb' 64 64, opa := b.extractLsb' 128 64, opb := b.extractLsb' 192 64,
    opc := b.extractLsb' 256 64, opd := b.extractLsb' 320 64, idx := b.extractLsb' 384 14, pv := b.getLsbD 398,
    disc := b.getLsbD 399, last := b.getLsbD 400, mode := Mode.ofCode (b.extractLsb' 401 2), rm := b.extractLsb' 403 2,
    prot := b.getLsbD 405, owner := b.extractLsb' 416 16, iid := iid, mid := false, consumed := false,
    work := none, ahead := [], reach := 0 }

end Sys2Proof.Machine

namespace Sys2Proof

/-- Element width in bits of a type (R190). -/
def ElemTy.bits : ElemTy → Nat
  | .i32 | .f32 => 32
  | .i64 => 64
  | .bf16 => 16

end Sys2Proof

namespace Sys2Proof.Machine

/-- The element type that vtype names, or none while it is illegal (R241). -/
def Strand.elemTy (t : Strand) : Option ElemTy :=
  if t.vtype.getLsbD 4 then none else ElemTy.ofCode (t.vtype.extractLsb' 0 4)

/-- VLMAX of `g` lane groups for a type, halved in protected mode (R171, R256). -/
def vlmaxOf (g : Nat) (prot : Bool) (ty : ElemTy) : Nat :=
  let n := g * (2048 / ElemTy.bits ty)
  if prot then n / 2 else n

/-- The vlmax register (R171): 0 while the type is illegal. -/
def Strand.vlmax (t : Strand) : Nat :=
  match t.elemTy with
  | none => 0
  | some ty => vlmaxOf t.lanes.length t.protectedMode ty

/-- Registers awaiting a reply from members of a list, or from one that the queue no longer has (R433, R437). -/
def pendBits (t : Strand) (l : List Member) : BitVec 32 :=
  l.foldl (fun acc m =>
    let r := replyRegOfWord m.word
    if r != 0 && !m.disc && t.replies.any (fun q => q.iid = m.iid && !q.disc && q.awaited) then acc ||| (1 <<< r.toNat)
    else acc) t.owed

/-- Whether a reply belongs to one of the members. -/
def ownedBy (l : List Member) (q : Reply) : Bool := l.any fun m => m.iid = q.iid

/-- Undelivered strips of a stream are discarded; its delivered count stays (R433). -/
def Stream.parked (st : Stream) : Stream := { st with buffer := [], filled := st.delivered.toNat, stuck := none }

/-- Number the members of a list from `n`, as PQ slots. -/
def pqOf : Nat → List Member → Tab (BitVec 512)
  | _, [] => []
  | n, m :: l => (n, m.toPQ) :: pqOf (n + 1) l

/-! ### Descriptors (R304, R305) -/

/-- BASE of a column descriptor. -/
def descBase (d : BitVec 256) : Word := d.extractLsb' 0 64
/-- LEN. -/
def descLen (d : BitVec 256) : Nat := (d.extractLsb' 64 32).toNat
/-- CAP. -/
def descCap (d : BitVec 256) : Nat := (d.extractLsb' 96 32).toNat
/-- ETYPE. -/
def descType (d : BitVec 256) : Nat := (d.extractLsb' 128 4).toNat
/-- SORTED. -/
def descSorted (d : BitVec 256) : Bool := d.getLsbD 132
/-- HASPOS. -/
def descHaspos (d : BitVec 256) : Bool := d.getLsbD 133
/-- UNIQUE. -/
def descUnique (d : BitVec 256) : Bool := d.getLsbD 134
/-- PBASE. -/
def descPbase (d : BitVec 256) : Word := d.extractLsb' 192 64

/-- Bytes of an element of an ETYPE (R305). -/
def etypeBytes (e : Nat) : Nat := if e = 2 then 8 else if e = 4 then 2 else 4

/-- The vector type of an ETYPE (R305). -/
def etypeVector (e : Nat) : ElemTy := if e = 2 then .i64 else if e = 3 then .f32 else if e = 4 then .bf16 else .i32

/-- The descriptor with a field of `w` bits at `lo` replaced. -/
def descSet (d : BitVec 256) (lo w n : Nat) : BitVec 256 :=
  (d &&& ~~~((BitVec.allOnes w).setWidth 256 <<< lo)) ||| ((BitVec.ofNat w n).setWidth 256 <<< lo)

/-! ### Continuation records (R315 to R319) -/

/-- The destination columns of a column instruction: the first, and the second where it has one. -/
def colDests : Instr → Option PReg × Option PReg
  | .ksel _ kd _ _ _ | .kselp _ kd _ _ _ | .ksemi kd _ _ _ | .ksemiAnti kd _ _ _ | .kagg _ kd _ _ _ | .ksort kd _ _
  | .ktopk _ kd _ _ _ | .kgath kd _ _ | .kcat kd _ _ _ => (some kd, none)
  | .kjoin kd kc _ _ _ | .kmjoin kd kc _ _ _ | .kgroup kd kc _ _ => (some kd, some kc)
  | _ => (none, none)

/-- The continuation record of a member that stops (R315): `dest` names a full destination. -/
def ColWork.record (w : ColWork) (m : Member) (dest : Nat) : BitVec 512 :=
  (0 : BitVec 192) ++ w.aux ++ BitVec.ofNat 32 w.outn2 ++ BitVec.ofNat 32 w.outn ++ BitVec.ofNat 32 w.curc
    ++ BitVec.ofNat 32 w.curb ++ BitVec.ofNat 32 w.cura ++ (0 : BitVec 10) ++ w.flags ++ BitVec.ofNat 4 w.phase
    ++ (0 : BitVec 1) ++ BitVec.ofNat 2 dest ++ (1 : BitVec 1) ++ m.word.extractLsb' 56 8 ++ m.addr

/-- The strand with the LEN of a column set. -/
def Strand.setLen (t : Strand) (k : Option PReg) (n : Nat) : Strand :=
  match k with
  | some r => { t with k := t.k.set r.toNat (descSet t.k[r.toNat] 64 32 n) }
  | none => t

/-- A column instruction that stops leaves its record as the pending one, and in its destinations the lengths written
so far (R314, R319), those above a CAP that a handler has lowered too: R318 does not bound that LEN (DESIGN CHOICE, log 115). -/
def Strand.saveRecord (t : Strand) (m : Member) (w : ColWork) (dest : Nat) : Strand :=
  let (kd, kc) := ((decode m.word).map colDests).getD (none, none)
  (({ t with pendingRec := w.record m dest }).setLen kd w.outn).setLen kc w.outn2

/-- A member that stops leaves a record where it is a column instruction that has started. -/
def Strand.saveWork (t : Strand) (m : Member) : Strand :=
  match m.work with
  | some w => t.saveRecord m w 0
  | none => t

/-- A member as it stops (R254, R431): one that has completed in an unretired convoy records VL, its first unprocessed
element, and replies no more. A scatter-add among whose updates it stops is left as one to be replayed (R284), a column
instruction as one to be continued (R317). -/
def Strand.stopped (t : Strand) (m : Member) : Member :=
  if m.done then { m with pv := true, idx := BitVec.ofNat 14 t.vl, disc := true }
  else if m.work.isSome then { m with pv := true, idx := 0x3ffe, work := none }
  else if m.pv && m.idx = 0x3ffd then { m with idx := 0x3fff }
  else m

/-- Write one reply's value to its register, of the set that it named at issue (R238). -/
def Strand.putReply (t : Strand) (q : Reply) (v : Word) : Strand :=
  if q.disc || q.reg = 0 then t
  else if q.reg.toNat < 24 || q.ui == t.uia then
    { t with x := t.x.set q.reg.toNat v, owed := clearReg t.owed q.reg }
  else { t with shadow := t.shadow.set (q.reg.toNat % 8) v (Nat.mod_lt _ (by decide)) }

/-- Write the replies of a list whose values are known, in the order of their slots, up to the first whose value is not
(R168, R169). -/
def Strand.putReplies (t : Strand) : List Reply → Strand
  | [] => { t with replies := [] }
  | q :: rest =>
    match q.value with
    | none => { t with replies := q :: rest }
    | some v => (t.putReply q v).putReplies rest

/-- The strand with every reply written that can be. -/
def Strand.reply (t : Strand) : Strand := t.putReplies t.replies

/-- Park the column queue (R433): every unretired member moves to the parked queue, in order. A member that has completed
keeps what its counter still waits for (R282). -/
def Strand.park (t : Strand) (wfree : Bool) : Strand :=
  let t := t.reply
  let t := t.queue.foldl Strand.saveWork t
  let l := t.queue.map t.stopped
  { t with
    pq := pqOf 0 l ++ t.pq.filter (fun e => l.length ≤ e.1)
    pcount := l.length
    rpend := pendBits t l
    owed := 0
    svlmax := t.vlmax
    wfree := wfree
    queue := []
    assembling := []
    replies := t.replies.filter fun q => !ownedBy l q
    openInstrs := t.openInstrs.filter fun o => o.executed || !l.any fun m => m.iid = o.iid
    bound := false
    streams := t.streams.map Stream.parked }

/-- Hold the column queue for a trap taken in kernel or firmware mode (R434). -/
def Strand.hold (t : Strand) : Strand :=
  let t := t.queue.foldl Strand.saveWork t
  let stop (m : Member) : Member := if m.done then m else t.stopped m
  { t with held := t.queue.map stop :: t.held, queue := [], assembling := [], bound := false }

/-! ### Traps and returns (R235 to R237, R433, R434) -/

/-- The cause register for a code, a class and a member (R243). -/
def causeWord (code cls member : Nat) : Word := BitVec.ofNat 64 (code + cls * 2 ^ 16 + member * 2 ^ 20)

/-- Entry into kernel mode, as one step (R235). -/
def Strand.enterKernel (t : Strand) (epc cause tval : Word) : Strand :=
  { t with epc := epc, cause := cause, tval := tval, pmode := t.mode, pkie := t.kie, mode := .kernel, kie := false,
           pc := t.tvec }

/-- Entry into firmware mode, as one step (R235). -/
def Strand.enterFirmware (t : Strand) (epc cause tval : Word) : Strand :=
  { t with fepc := epc, fcause := cause, ftval := tval, fpmode := t.mode, fpkie := t.kie, mode := .firmware,
           kie := false, pc := t.ftvec }

/-- What a trap or an event does to the column queue: parked from user mode, held from the others (R433, R434). -/
def Strand.setAside (t : Strand) (wfree : Bool) : Strand :=
  match t.mode with
  | .user => t.park wfree
  | .kernel | .firmware => t.hold

/-- The convoy that the helm assembles is given up unpushed: its reply slots and its counters are as before (R204,
R205). -/
def Strand.abandon (t : Strand) : Strand :=
  let gone (iid : Nat) : Bool := t.assembling.any fun m => m.iid = iid
  let lower (k : Kept) (o : OpenInstr) : Kept :=
    if gone o.iid && o.d != 0 then { k with dctr := k.dctr.set o.d.toNat (k.dctr[o.d.toNat] - 1) } else k
  { t with
    assembling := []
    replies := t.replies.filter fun q => !gone q.iid
    kept := t.openInstrs.foldl lower t.kept
    openInstrs := t.openInstrs.filter fun o => !gone o.iid }

/-- Take a trap or an event. `firmware` asks for the firmware entry; a trap taken in firmware mode always uses it
(R235). -/
def Strand.takeTrap (t : Strand) (firmware wfree : Bool) (epc cause tval : Word) : Strand :=
  let t' := { t.abandon.setAside wfree with issue := .running, colTrap := none, late := t.guesses }
  if firmware || t.mode = .firmware then t'.enterFirmware epc cause tval else t'.enterKernel epc cause tval

/-- The address that epc receives for a trap at the instruction being issued: the first member of an unpushed convoy
(R205), otherwise the instruction. -/
def Strand.trapPc (t : Strand) : Word :=
  match t.assembling with
  | m :: _ => m.addr
  | [] => t.pc

/-- The strand after it takes the trap `tr` at the instruction it issues. TRAP 0xFF00 and above from kernel mode, and an
error consumed with KIE = 0, enter firmware mode (R235, R451). -/
def Strand.takeSync (t : Strand) (tr : Trap) : Strand :=
  let firmware := (tr.code = 7 && t.mode = .kernel && decide (0xff00 ≤ tr.tval.toNat)) || (tr.code = 131 && !t.kie)
  t.takeTrap firmware false (tr.epc.getD t.trapPc) (causeWord tr.code tr.cls 0) tr.tval

/-- The members of a parked queue, as pushed again under new serial numbers (R437). -/
def unparkMembers (t : Strand) : List Member :=
  (List.range t.pcount).map fun i => Member.ofPQ (Tab.get 0 t.pq i) (t.nextIid + i) t.vl

/-- The reply slots that unparked members reserve again: their registers await them where RPEND says so (R437). -/
def unparkReplies (ui : Bool) (rpend : BitVec 32) (l : List Member) : List Reply :=
  l.filterMap fun m =>
    let r := replyRegOfWord m.word
    if r != 0 && !m.disc then
      some { reg := r, ui := ui, iid := m.iid, value := none, disc := false, awaited := rpend.getLsbD r.toNat }
    else none

/-- The registers of RPEND to which no slot of a list replies. -/
def unparkOwed (rpend : BitVec 32) (l : List Reply) : BitVec 32 :=
  l.foldl (fun acc q => clearReg acc q.reg) (rpend &&& 0xfffffffe)

/-- The entry of a pushed instruction that names a counter or carries the S bit (R139, R282). -/
def openOf (w : Word) (iid : Nat) : Option OpenInstr :=
  match (decode w).bind memCtl with
  | some m => if m.d != 0 || m.s then some { iid := iid, d := m.d, s := m.s, executed := false } else none
  | none => none

/-- Unpark the column queue (R437 steps 3 to 5). -/
def Strand.unpark (t : Strand) : Strand :=
  let l := unparkMembers t
  let slots := unparkReplies t.uia t.rpend l
  { t with queue := l ++ t.queue, replies := slots ++ t.replies, owed := unparkOwed t.rpend slots,
           nextIid := t.nextIid + t.pcount,
           openInstrs := t.openInstrs ++ (l.filter fun m => !m.done).filterMap (fun m => openOf m.word m.iid)
           pcount := 0, rpend := 0 }

/-- Release the members that the returning handler's trap held (R434). -/
def Strand.release (t : Strand) : Strand :=
  match t.held with
  | [] => t
  | l :: rest => { t with queue := l ++ t.queue, held := rest }

/-- The member that keeps an ERET from unparking: it has an index, and the grant has changed (R437 step 2). -/
def unparkBlocker (t : Strand) : Option Member :=
  if t.svlmax = t.vlmax then none else (unparkMembers t).find? (·.pv)

/-- The mode that ERET returns to. -/
def Strand.returnMode (t : Strand) : Mode := if t.mode = .firmware then t.fpmode else t.pmode

/-- The return itself (R237). -/
def Strand.returnFrom (t : Strand) : Strand :=
  if t.mode = .firmware then { t with pc := t.fepc, mode := t.fpmode, kie := t.fpkie }
  else { t with pc := t.epc, mode := t.pmode, kie := t.pkie }

/-- The column queue after a return to mode `m` (R434, R437). -/
def Strand.restoreQueue (t : Strand) (m : Mode) : Strand :=
  match m with
  | .user => { t with queue := t.heldMembers ++ t.queue, held := [] }.unpark
  | .kernel | .firmware => t.release

/-! ### An instruction that the helm executes -/

/-- ILLEGAL at the instruction being issued (R202, R430). -/
def illegal {α : Type} (u : Nat) : M α := fun s =>
  .error (.trap ⟨1, 0, (s.strand u).pc, none⟩) s

/-- PRIVILEGE at the instruction being issued (R223, R430). -/
def privilege {α : Type} (u : Nat) : M α := fun s =>
  .error (.trap ⟨2, 0, (s.strand u).pc, none⟩) s

/-- ALIGN with the misaligned address (R430). -/
def alignTrap {α : Type} (a : Word) : M α := trapWith 3 0 a

/-- The instruction being issued is refused in user mode (R223). -/
def needKernel (u : Nat) : M Unit := do
  let t ← getStrand u
  match t.mode with
  | .user => privilege u
  | .kernel | .firmware => pure ()

/-- An instruction that cannot follow a chained member (R204): the helm executes it, or it starts a convoy of its
own. tval names the instruction whose chain bit breaks the rule. -/
def noChain (u : Nat) : M Unit := do
  let t ← getStrand u
  match t.assembling.getLast? with
  | none => pure ()
  | some m => trapWith 1 0 m.addr

/-- The strand after it takes the trap of a pushed instruction (R431): epc is the address of the oldest instruction not
issued, where the trap names no other. -/
def Strand.takeColumn (t : Strand) (c : ColTrap) : Strand :=
  t.takeTrap (c.cause.extractLsb' 0 8 = 131 && !t.kie) false (c.epc.getD t.trapPc) c.cause c.tval

/-- The requester of an access of strand `u` that is wanted no more: nothing waits for its answer, which names the helm or
the column engine in a record at most. -/
def Who.unheard (u : Nat) : Who → Who
  | .helm _ | .fetch _ | .code _ _ | .store _ | .late _ _ => .late u 0
  | .column _ _ | .elem _ _ _ | .drayman _ _ | .hint _ | .matrix _ | .stream _ _ | .assayer _ | .cox | .fabric
  | .remote _ _ => .column u 0

/-- No instruction waits for the answer of this access. -/
def Who.isUnheard : Who → Bool
  | .late _ n | .column _ n => n = 0
  | .code _ _ => true
  | .helm _ | .fetch _ | .store _ | .elem _ _ _ | .drayman _ _ | .hint _ | .matrix _ | .stream _ _ | .assayer _ | .cox
  | .fabric | .remote _ _ => false

/-- The accesses of some requesters of strand `u` are wanted no more: the answers kept are forgotten, and those under way
are discarded when they return. -/
def State.disown (s : State) (u : Nat) (mine : Who → Bool) : State :=
  let drop (w : Who) : Who := if mine w then w.unheard u else w
  { s with
    arrived := s.arrived.filter fun a => !mine a.who
    outstanding := s.outstanding.map fun o => { o with who := drop o.who }
    ports := s.ports.map fun p => { p with who := drop p.who } }

/-- Element loads and instruction fetches of a strand that are under way when it traps are discarded when they return
(R440); the answers kept for its helm's instruction are forgotten. -/
def State.discardColumn (s : State) (u : Nat) : State :=
  let s := s.disown u fun
    | .column v _ | .fetch v => v = u
    | .helm _ | .code _ _ | .store _ | .elem _ _ _ | .drayman _ _ | .hint _ | .late _ _ | .matrix _ | .stream _ _
    | .assayer _ | .cox | .fabric | .remote _ _ => false
  { s with arrived := s.arrived.filter fun a => a.who != .helm u }

/-- The trap entry of strand `u` after a trap at the instruction it issues: a trap of a pushed instruction that is ready
is the older one, and is taken instead (R432). -/
def State.trapEntry (s : State) (u : Nat) (tr : Trap) : State :=
  let t := s.strand u
  let t' := match t.colTrap with
    | some c => t.takeColumn c
    | none => t.takeSync tr
  (s.discardColumn u).setStrand u t'

/-- The operation is an update at an atomic unit: it reads and writes at one instant (R72, R482). -/
def opAtomic : RemoteOp → Bool
  | .amo _ _ _ | .cas _ _ _ | .claim _ | .addElem _ _ | .fold _ _ | .folds _ _ => true
  | .load _ | .probe | .invalidate _ _ _ | .release _ | .store _ | .nibble _ _ | .copied _ _ => false

/-- First element that a member has still to process. -/
def Member.nextElem (m : Member) : Nat := if m.pv then m.idx.toNat else 0

/-- A member has begun what no stop may find it in: it stands inside an element group or a lane-crossing instruction (R254),
among the updates of a scatter-add (R285), or below groups that it is not to repeat. -/
def Member.partWay (m : Member) : Bool := !m.done && (m.mid || (m.pv && m.idx = 0x3ffd) || decide (m.nextElem < m.reach))

/-- An atomic of strand `u`'s column engine is under way: its CLAIM is not to be stopped (R302). -/
def State.columnAtomic (s : State) (u : Nat) : Bool :=
  let mine : Who → Bool
    | .column v _ => v = u
    | .helm _ | .fetch _ | .store _ | .late _ _ | .elem _ _ _ | .code _ _ | .drayman _ _ | .hint _ | .matrix _
    | .stream _ _ | .assayer _ | .cox | .fabric | .remote _ _ => false
  s.ports.any (fun p => mine p.who && opAtomic p.op) || s.outstanding.any (fun o => mine o.who && opAtomic o.op)
    || s.arrived.any (fun a => mine a.who && opAtomic a.op)

/-- The column engine of strand `u` stands where no event and no trap may stop it: in a member, or in an atomic (R254, R285,
R302). -/
def State.columnBusy (s : State) (u : Nat) : Bool := (s.strand u).queue.any (·.partWay) || s.columnAtomic u

/-- The strand takes a trap that its instruction has raised in state `s'`. While its column engine stands where nothing may
stop it, the instruction is as if it had not run: it runs again (R254, R285, R302, R431). -/
def State.trapOr (s : State) (u : Nat) (tr : Trap) (s' : State) : State :=
  if s'.columnBusy u then s else s'.trapEntry u tr

/-- The outcome of an operation that runs in state `s`: the next state, which is the state reached where it waits, and the
state after the trap entry where it traps. -/
def conclude (u : Nat) (s : State) (r : EStateM.Result Stop State Unit) : Host.Outcome State Fault Refusal :=
  match r with
  | .ok _ s' => .next s'
  | .error .wait s' => .next s'
  | .error (.trap t) s' => .next (s.trapOr u t s')

/-- Run `body` as an instruction of the strand that issues, executed by the helm; it then goes on at the next word. -/
def helmOp (body : Nat → M Unit) (s : State) : Host.Outcome State Fault Refusal :=
  conclude s.cur s ((do
    noChain s.cur
    body s.cur
    modStrand s.cur fun t => { t with pc := t.pc + 8 }) s)

/-- Run `body` as an instruction of the strand that issues, executed by the helm; it answers where the strand goes on. -/
def helmJump (body : Nat → M Word) (s : State) : Host.Outcome State Fault Refusal :=
  conclude s.cur s ((do
    noChain s.cur
    let pc ← body s.cur
    modStrand s.cur fun t => { t with pc := pc }) s)

end Sys2Proof.Machine
end

