-- ==== Sys2Proof/Machine/Flags.lean ====
section
/-!
DEFINITION. The sticky exception flags of the `mode` register (R211, R212) and how an instruction raises them.
-/

namespace Sys2Proof.Machine

/-- A set of flags in the order of mode bits 4 to 9: NV, DZ, OF, UF, NX, IOV (R211). -/
abbrev Flags := BitVec 6

/-- Invalid operation. -/
def Flags.nv : Flags := 0x01
/-- Division by zero. -/
def Flags.dz : Flags := 0x02
/-- Overflow. -/
def Flags.of : Flags := 0x04
/-- Underflow. -/
def Flags.uf : Flags := 0x08
/-- Inexact. -/
def Flags.nx : Flags := 0x10
/-- Integer overflow. -/
def Flags.iov : Flags := 0x20

/-- A flag raised where `b` holds. -/
def Flags.when (b : Bool) (f : Flags) : Flags := if b then f else 0

/-- The strand with flags ORed into `mode` (R212). -/
def Strand.raise (t : Strand) (f : Flags) : Strand :=
  { t with modeReg := t.modeReg ||| (f.setWidth 64 <<< 4) }

/-- OR flags into `mode` of strand `u` (R212). -/
def raiseFlags (u : Nat) (f : Flags) : M Unit := modStrand u (·.raise f)

/-- The rounding mode in force: mode.RM (R211). -/
def Strand.rm (t : Strand) : BitVec 2 := t.modeReg.extractLsb' 0 2

end Sys2Proof.Machine
end

