-- ==== Sys2Proof/Machine/Float.lean ====
section
/-!
DEFINITION. Number formats to the bit, rounding and conversion (R206 to R216, R222). A floating-point code is decoded
into its exact value, the operation is computed exactly, and the result is rounded once.
-/

namespace Sys2Proof.Machine

/-! ### Exact values -/

/-- The value of a floating-point code: a NaN, an infinity, or plus or minus m x 2^e. -/
inductive FVal where
  | nan (signalling : Bool)
  | inf (neg : Bool)
  | fin (neg : Bool) (m : Nat) (e : Int)
  deriving DecidableEq, Repr

/-- The parameters of a binary format (R207): exponent bits, mantissa bits, bias, and whether an all-ones exponent
field encodes infinities and NaNs. -/
structure FFmt where
  ebits : Nat
  mbits : Nat
  bias : Nat
  ieee : Bool
  deriving DecidableEq, Repr

/-- FP32 (R207). -/
def FFmt.f32 : FFmt := ⟨8, 23, 127, true⟩
/-- BF16. -/
def FFmt.bf16 : FFmt := ⟨8, 7, 127, true⟩
/-- FP16. -/
def FFmt.f16 : FFmt := ⟨5, 10, 15, true⟩
/-- E4M3: no infinity; its only NaNs are 0x7F and 0xFF. -/
def FFmt.e4m3 : FFmt := ⟨4, 3, 7, false⟩
/-- E5M2. -/
def FFmt.e5m2 : FFmt := ⟨5, 2, 15, true⟩
/-- E2M1: no infinity and no NaN. -/
def FFmt.e2m1 : FFmt := ⟨2, 1, 1, false⟩

/-- Bits of a format's code. -/
def FFmt.width (f : FFmt) : Nat := 1 + f.ebits + f.mbits

/-- The exponent of the smallest subnormal. -/
def FFmt.qmin (f : FFmt) : Int := 1 - (f.bias : Int) - f.mbits

/-- The canonical NaN of a format (R207). -/
def FFmt.cnan (f : FFmt) : Nat :=
  if f = .e4m3 then 0x7f else (2 ^ f.ebits - 1) * 2 ^ f.mbits + 2 ^ (f.mbits - 1)

/-- The sign bit of a format's code. -/
def FFmt.signBit (f : FFmt) : Nat := 2 ^ (f.ebits + f.mbits)

/-- A code of infinity. -/
def FFmt.inf (f : FFmt) (neg : Bool) : Nat :=
  (if neg then f.signBit else 0) + (2 ^ f.ebits - 1) * 2 ^ f.mbits

/-- The code of the largest finite magnitude (R207). -/
def FFmt.maxCode (f : FFmt) : Nat :=
  if f = .e4m3 then 0x7e
  else if f.ieee then (2 ^ f.ebits - 1) * 2 ^ f.mbits - 1
  else 2 ^ (f.ebits + f.mbits) - 1

/-- DECODE of a binary floating-point code (R207, R222). -/
def FFmt.decode (f : FFmt) (code : Nat) : FVal :=
  let neg := decide (code / f.signBit % 2 = 1)
  let ex := code / 2 ^ f.mbits % 2 ^ f.ebits
  let man := code % 2 ^ f.mbits
  if f.ieee && ex = 2 ^ f.ebits - 1 then
    if man = 0 then .inf neg else .nan (man < 2 ^ (f.mbits - 1))
  else if f = .e4m3 && code % 0x80 = 0x7f then .nan false
  else if ex = 0 then .fin neg man f.qmin
  else .fin neg (man + 2 ^ f.mbits) (f.qmin + ex - 1)

/-- The number of bits of a natural number. -/
def bitLen (n : Nat) : Nat := if n = 0 then 0 else Nat.log2 n + 1

/-- m x 2^e cut to a multiple of 2^q and rounded: the multiple, and whether it was inexact. Mode 0 is nearest even, 1
toward zero, 2 down, 3 up (R211). -/
def roundAt (rm : BitVec 2) (neg : Bool) (m : Nat) (e q : Int) : Nat × Bool :=
  if q ≤ e then (m * 2 ^ (e - q).toNat, false)
  else
    let d := 2 ^ (q - e).toNat
    let hi := m / d
    let r := m % d
    let up :=
      match rm.toNat with
      | 0 => decide (d < 2 * r) || (decide (2 * r = d) && decide (hi % 2 = 1))
      | 1 => false
      | 2 => neg && decide (r ≠ 0)
      | _ => !neg && decide (r ≠ 0)
    (if up then hi + 1 else hi, decide (r ≠ 0))

/-- Whether a rounding mode takes an overflow to infinity (IEEE 754, R216). -/
def overflowsToInf (rm : BitVec 2) (neg : Bool) : Bool :=
  match rm.toNat with
  | 0 => true
  | 1 => false
  | 2 => neg
  | _ => !neg

/-- The code of the multiple `n` of 2^q, a magnitude in range; `q` is the quantum the value was rounded at. -/
def FFmt.pack (f : FFmt) (neg : Bool) (n : Nat) (q : Int) : Nat :=
  let s := if neg then f.signBit else 0
  if n < 2 ^ f.mbits then s + n
  else if n < 2 ^ (f.mbits + 1) then s + (q - f.qmin + 1).toNat * 2 ^ f.mbits + (n - 2 ^ f.mbits)
  else s + (q - f.qmin + 2).toNat * 2 ^ f.mbits

/-- RND of plus or minus m x 2^e to a binary format, with the flags of R213: tininess is detected after rounding. A
zero keeps its sign. `sat` takes an overflow to the largest finite value (R216, memory narrowing). -/
def FFmt.roundSat (f : FFmt) (sat : Bool) (rm : BitVec 2) (neg : Bool) (m : Nat) (e : Int) : Nat × Flags :=
  if m = 0 then (if neg then f.signBit else 0, 0)
  else
    let p : Int := f.mbits + 1
    let top : Int := bitLen m + e
    let q := max (top - p) f.qmin
    let (n, inexact) := roundAt rm neg m e q
    let code := f.pack neg n q
    let mag := f.pack false n q
    let big := if f.ieee then decide ((2 ^ f.ebits - 1) * 2 ^ f.mbits ≤ mag) else decide (f.maxCode < mag)
    if big then
      (if sat || !overflowsToInf rm neg then (if neg then f.signBit else 0) + f.maxCode else f.inf neg,
        Flags.of ||| Flags.nx)
    else
      let (n', _) := roundAt rm neg m e (top - p)
      let tiny := decide (bitLen n' + (top - p) ≤ f.qmin + f.mbits)
      (code, Flags.when (tiny && inexact) Flags.uf ||| Flags.when inexact Flags.nx)

/-- RND (R222). -/
def FFmt.round (f : FFmt) (rm : BitVec 2) (neg : Bool) (m : Nat) (e : Int) : Nat × Flags :=
  f.roundSat false rm neg m e

/-! ### Poison -/

end Sys2Proof.Machine

namespace Sys2Proof

/-- The poison pattern of a type (R215). -/
def ElemTy.poison : ElemTy → Nat
  | .f32 => 0xfff00bad
  | .bf16 => 0xfff0
  | .i32 => 0x80000000
  | .i64 => 0x8000000000000000

/-- The format of a floating-point element type, none for the integer types. -/
def ElemTy.ffmt : ElemTy → Option Machine.FFmt
  | .f32 => some .f32
  | .bf16 => some .bf16
  | .i32 | .i64 => none

/-- The element type of a scalar floating-point type (R186). -/
def FTy.elem : FTy → ElemTy
  | .f32 => .f32
  | .bf16 => .bf16

/-- The format of a scalar floating-point type. -/
def FTy.ffmt : FTy → Machine.FFmt
  | .f32 => .f32
  | .bf16 => .bf16

end Sys2Proof

namespace Sys2Proof.Machine

/-- The poison pattern of FP32 and BF16 as formats; other formats have none. -/
def FFmt.isPoison (f : FFmt) (code : Nat) : Bool :=
  (f = .f32 && code = 0xfff00bad) || (f = .bf16 && code = 0xfff0)

/-- The poison code of FP32 or BF16. -/
def FFmt.poison (f : FFmt) : Nat := if f = .bf16 then 0xfff0 else 0xfff00bad

/-! ### Arithmetic (R213, R214, R215) -/

/-- A signed magnitude as an integer multiple of 2^e. -/
def signed (neg : Bool) (m : Nat) : Int := if neg then -(m : Int) else m

/-- The canonical NaN, raising NV where `invalid` holds. -/
def FFmt.makeNan (f : FFmt) (invalid : Bool) : Nat × Flags := (f.cnan, Flags.when invalid Flags.nv)

/-- Whether a value is a signalling NaN. -/
def FVal.isSnan : FVal → Bool
  | .nan s => s
  | .inf _ | .fin _ _ _ => false

/-- Whether a value is a NaN. -/
def FVal.isNan : FVal → Bool
  | .nan _ => true
  | .inf _ | .fin _ _ _ => false

/-- The sign of a sum that is exactly zero: that of its operands where they agree, else + (- under RDN) (R213). -/
def zeroSumSign (rm : BitVec 2) (na nb : Bool) : Bool := if na = nb then na else rm = 2

/-- The exact sum of two finite values, rounded once. -/
def FFmt.sumFin (f : FFmt) (rm : BitVec 2) (na : Bool) (ma : Nat) (ea : Int) (nb : Bool) (mb : Nat) (eb : Int) :
    Nat × Flags :=
  let e := min ea eb
  let t : Int := signed na (ma * 2 ^ (ea - e).toNat) + signed nb (mb * 2 ^ (eb - e).toNat)
  if t = 0 then f.round rm (zeroSumSign rm na nb) 0 0
  else f.round rm (decide (t < 0)) t.natAbs e

/-- a + b of two values (NaNs and infinities as IEEE 754 directs). -/
def FFmt.addVal (f : FFmt) (rm : BitVec 2) (a b : FVal) : Nat × Flags :=
  match a, b with
  | .nan s, y => f.makeNan (s || y.isSnan)
  | .inf _, .nan s => f.makeNan s
  | .fin _ _ _, .nan s => f.makeNan s
  | .inf na, .inf nb => if na = nb then (f.inf na, 0) else f.makeNan true
  | .inf na, .fin _ _ _ => (f.inf na, 0)
  | .fin _ _ _, .inf nb => (f.inf nb, 0)
  | .fin na ma ea, .fin nb mb eb => f.sumFin rm na ma ea nb mb eb

/-- The value with its sign changed. -/
def FVal.neg : FVal → FVal
  | .nan s => .nan s
  | .inf n => .inf !n
  | .fin n m e => .fin (!n) m e

/-- a x b, exact; 0 x infinity is an invalid NaN, given as a signalling NaN so that it raises NV. -/
def FVal.mul (a b : FVal) : FVal :=
  match a, b with
  | .nan s, y => .nan (s || y.isSnan)
  | .inf _, .nan s => .nan s
  | .fin _ _ _, .nan s => .nan s
  | .inf na, .inf nb => .inf (na != nb)
  | .inf na, .fin nb mb _ => if mb = 0 then .nan true else .inf (na != nb)
  | .fin na ma _, .inf nb => if ma = 0 then .nan true else .inf (na != nb)
  | .fin na ma ea, .fin nb mb eb => .fin (na != nb) (ma * mb) (ea + eb)

/-- RND of an exact value. -/
def FFmt.roundVal (f : FFmt) (rm : BitVec 2) : FVal → Nat × Flags
  | .nan s => f.makeNan s
  | .inf n => (f.inf n, 0)
  | .fin n m e => f.round rm n m e

/-- RND(a + b) on codes, poison first (R215, R227). -/
def FFmt.add (f : FFmt) (rm : BitVec 2) (a b : Nat) : Nat × Flags :=
  if f.isPoison a || f.isPoison b then (f.poison, 0) else f.addVal rm (f.decode a) (f.decode b)

/-- RND(a - b). -/
def FFmt.sub (f : FFmt) (rm : BitVec 2) (a b : Nat) : Nat × Flags :=
  if f.isPoison a || f.isPoison b then (f.poison, 0) else f.addVal rm (f.decode a) (f.decode b).neg

/-- RND(a x b). -/
def FFmt.mul (f : FFmt) (rm : BitVec 2) (a b : Nat) : Nat × Flags :=
  if f.isPoison a || f.isPoison b then (f.poison, 0) else f.roundVal rm ((f.decode a).mul (f.decode b))

/-- RND(a x b + c), rounded once; `negC` subtracts c. -/
def FFmt.fma (f : FFmt) (rm : BitVec 2) (negC : Bool) (a b c : Nat) : Nat × Flags :=
  if f.isPoison a || f.isPoison b || f.isPoison c then (f.poison, 0)
  else
    let z := f.decode c
    f.addVal rm ((f.decode a).mul (f.decode b)) (if negC then z.neg else z)

/-- A quotient n / d as an odd-jammed multiple of 2^e: enough bits for any rounding, the last one set where bits were
lost. -/
def jamDiv (n d : Nat) (e : Int) (extra : Nat) : Nat × Int :=
  let num := n * 2 ^ extra
  let q := num / d
  (2 * q + (if num % d = 0 then 0 else 1), e - extra - 1)

/-- RND(a / b) of two values: division of a finite nonzero value by zero raises DZ (R227). -/
def FFmt.divVal (f : FFmt) (rm : BitVec 2) (a b : FVal) : Nat × Flags :=
  match a, b with
  | .nan s, y => f.makeNan (s || y.isSnan)
  | .inf _, .nan s => f.makeNan s
  | .fin _ _ _, .nan s => f.makeNan s
  | .inf _, .inf _ => f.makeNan true
  | .inf na, .fin nb _ _ => (f.inf (na != nb), 0)
  | .fin na _ _, .inf nb => (if na != nb then f.signBit else 0, 0)
  | .fin na ma ea, .fin nb mb eb =>
    if mb = 0 then
      if ma = 0 then f.makeNan true else (f.inf (na != nb), Flags.dz)
    else if ma = 0 then (if na != nb then f.signBit else 0, 0)
    else
      let (n, e) := jamDiv ma mb (ea - eb) (f.mbits + 4 + bitLen mb)
      f.round rm (na != nb) n e

/-- RND(a / b) on codes. -/
def FFmt.div (f : FFmt) (rm : BitVec 2) (a b : Nat) : Nat × Flags :=
  if f.isPoison a || f.isPoison b then (f.poison, 0) else f.divVal rm (f.decode a) (f.decode b)

/-- Floor of the square root of `n`, from its bits: `k` more bits below the root `r` found so far. -/
def isqrtFrom (n : Nat) : Nat → Nat → Nat
  | 0, r => r
  | k + 1, r =>
    let r' := r + 2 ^ k
    isqrtFrom n k (if r' * r' ≤ n then r' else r)

/-- Floor of the square root. -/
def isqrt (n : Nat) : Nat := isqrtFrom n ((bitLen n + 1) / 2) 0

/-- The square root of m x 2^e as an odd-jammed multiple of a power of two. -/
def jamSqrt (m : Nat) (e : Int) (extra : Nat) : Nat × Int :=
  let m' := if e % 2 = 0 then m else 2 * m
  let e' := if e % 2 = 0 then e else e - 1
  let n := m' * 2 ^ (2 * extra)
  let r := isqrt n
  (2 * r + (if r * r = n then 0 else 1), e' / 2 - extra - 1)

/-- RND(sqrt(a)): a negative number other than -0 is invalid (R213). -/
def FFmt.sqrt (f : FFmt) (rm : BitVec 2) (a : Nat) : Nat × Flags :=
  if f.isPoison a then (f.poison, 0)
  else
    match f.decode a with
    | .nan s => f.makeNan s
    | .inf n => if n then f.makeNan true else (f.inf false, 0)
    | .fin n m e =>
      if m = 0 then (a, 0)
      else if n then f.makeNan true
      else
        let (r, q) := jamSqrt m e (f.mbits + 4)
        f.round rm false r q

/-! ### Order -/

/-- Compare two finite or infinite values; none where one is a NaN. -/
def FVal.cmp (a b : FVal) : Option Ordering :=
  match a, b with
  | .nan _, _ => none
  | _, .nan _ => none
  | .inf na, .inf nb => some (if na = nb then .eq else if na then .lt else .gt)
  | .inf na, .fin _ _ _ => some (if na then .lt else .gt)
  | .fin _ _ _, .inf nb => some (if nb then .gt else .lt)
  | .fin na ma ea, .fin nb mb eb =>
    let e := min ea eb
    some (compare (signed na (ma * 2 ^ (ea - e).toNat)) (signed nb (mb * 2 ^ (eb - e).toNat)))

/-- Whether the value is -0. -/
def FVal.isNegZero : FVal → Bool
  | .fin n m _ => n && m = 0
  | .nan _ | .inf _ => false

/-- minimumNumber (R213), on codes: -0 is less than +0; two NaNs give the canonical NaN. -/
def FFmt.minNum (f : FFmt) (a b : Nat) : Nat × Flags :=
  if f.isPoison a || f.isPoison b then (f.poison, 0)
  else
    let x := f.decode a
    let y := f.decode b
    let fl := Flags.when (x.isSnan || y.isSnan) Flags.nv
    match x.cmp y with
    | some .lt => (a, fl)
    | some .gt => (b, fl)
    | some .eq => (if y.isNegZero then b else a, fl)
    | none => if x.isNan then (if y.isNan then f.cnan else b, fl) else (a, fl)

/-- maximumNumber (R213). -/
def FFmt.maxNum (f : FFmt) (a b : Nat) : Nat × Flags :=
  if f.isPoison a || f.isPoison b then (f.poison, 0)
  else
    let x := f.decode a
    let y := f.decode b
    let fl := Flags.when (x.isSnan || y.isSnan) Flags.nv
    match x.cmp y with
    | some .gt => (a, fl)
    | some .lt => (b, fl)
    | some .eq => (if y.isNegZero then a else b, fl)
    | none => if x.isNan then (if y.isNan then f.cnan else b, fl) else (a, fl)

/-- Condition codes on floating-point codes (R189, R228): the truth and the flags. Codes 6 to 9 compare bit patterns. A
poison operand compares as a quiet NaN (R215). -/
def FFmt.cond (f : FFmt) (c : Cond) (a b : Nat) : Bool × Flags :=
  let val (n : Nat) : FVal := if f.isPoison n then .nan false else f.decode n
  let x := val a
  let y := val b
  let sn := Flags.when (x.isSnan || y.isSnan) Flags.nv
  let qn := Flags.when ((x.isNan && !f.isPoison a) || (y.isNan && !f.isPoison b)) Flags.nv
  let o := x.cmp y
  match c with
  | .eq => (o = some .eq, sn)
  | .ne => (o ≠ some .eq, sn)
  | .lt => (o = some .lt, qn)
  | .le => (o = some .lt || o = some .eq, qn)
  | .gt => (o = some .gt, qn)
  | .ge => (o = some .gt || o = some .eq, qn)
  | .ltu => (decide (a < b), 0)
  | .leu => (decide (a ≤ b), 0)
  | .gtu => (decide (b < a), 0)
  | .geu => (decide (b ≤ a), 0)
  | .uno => (o = none, sn)
  | .ord => (o ≠ none, sn)

/-- Condition codes on integers of `w` bits (R189): signed for codes 2 to 5 unless `uns`. -/
def intCond (w : Nat) (uns : Bool) (c : Cond) (a b : BitVec w) : Bool :=
  match c with
  | .eq => a == b
  | .ne => a != b
  | .lt => if uns then a.ult b else a.slt b
  | .le => if uns then a.ule b else a.sle b
  | .gt => if uns then b.ult a else b.slt a
  | .ge => if uns then b.ule a else b.sle a
  | .ltu => a.ult b
  | .leu => a.ule b
  | .gtu => b.ult a
  | .geu => b.ule a
  | .uno => false
  | .ord => true

/-! ### Integers and conversions (R216, R222) -/

/-- WRAP(n, w) as a code: n modulo 2^w. -/
def wrapCode (n : Int) (w : Nat) : Nat := (n % (2 ^ w : Nat)).toNat

/-- A code of `w` bits read as a signed integer. -/
def sintOf (w code : Nat) : Int :=
  if 2 ^ (w - 1) ≤ code % 2 ^ w then ((code % 2 ^ w : Nat) : Int) - (2 ^ w : Nat) else ((code % 2 ^ w : Nat) : Int)

/-- SAT, with the flag it raises. -/
def satInt (n lo hi : Int) (flag : Flags) : Int × Flags :=
  if n < lo then (lo, flag) else if hi < n then (hi, flag) else (n, 0)

/-- A floating-point value rounded to an integer under `rm` and saturated to lo .. hi: NaN gives 0 (R216). -/
def FVal.toInt (v : FVal) (rm : BitVec 2) (lo hi : Int) : Int × Flags :=
  match v with
  | .nan _ => (0, Flags.nv)
  | .inf n => (if n then lo else hi, Flags.nv)
  | .fin n m e =>
    let (k, inexact) := roundAt rm n m e 0
    let i := signed n k
    if i < lo then (lo, Flags.nv) else if hi < i then (hi, Flags.nv) else (i, Flags.when inexact Flags.nx)

/-- An integer rounded to a floating-point format. -/
def FFmt.ofInt (f : FFmt) (rm : BitVec 2) (i : Int) : Nat × Flags := f.round rm (decide (i < 0)) i.natAbs 0

/-- A floating-point code converted to another floating-point format under `rm`, NaNs canonical, poison kept (R215,
R216). Only a signalling NaN raises NV. -/
def FFmt.convert (f g : FFmt) (rm : BitVec 2) (code : Nat) : Nat × Flags :=
  if f.isPoison code then (g.poison, 0) else g.roundVal rm (f.decode code)

/-- The least and greatest value of a signed integer of `w` bits. -/
def sMin (w : Nat) : Int := -(2 ^ (w - 1) : Nat)
/-- The greatest value. -/
def sMax (w : Nat) : Int := (2 ^ (w - 1) : Nat) - 1

end Sys2Proof.Machine

namespace Sys2Proof

/-- The binary format of a memory or matrix format, none for the integer formats and E8M0. -/
def Fmt.ffmt : Fmt → Option Machine.FFmt
  | .f32 => some .f32
  | .bf16 => some .bf16
  | .f16 => some .f16
  | .e4m3 => some .e4m3
  | .e5m2 => some .e5m2
  | .e2m1 => some .e2m1
  | .i32 | .i64 | .i8 | .i4 | .i4x | .e8m0 => none

/-- Bits of an element of a memory or matrix format (R206, R207). -/
def Fmt.bits : Fmt → Nat
  | .i64 => 64
  | .i32 | .f32 => 32
  | .bf16 | .f16 => 16
  | .e4m3 | .e5m2 | .i8 | .e8m0 => 8
  | .i4 | .i4x | .e2m1 => 4

end Sys2Proof
end

