-- ==== Sys2Proof/Machine/Storage.lean ====
section
/-!
DEFINITION. Storage below translation: what an operation does to the bytes it names (R73, R232, R233, R302, R375, R482),
local lines with their tags, full/empty bits and marks (R35, R36, R53 to R56, R448, R449), and units of encrypted
memory (R31).
-/

namespace Sys2Proof.Machine

/-! ### Bytes -/

/-- The number whose bytes are given, least significant first (R4). -/
def natOfBytes : List Byte → Nat
  | [] => 0
  | b :: t => b.toNat + 256 * natOfBytes t

/-- The low `n` bytes of a number, least significant first. -/
def bytesOfNat : Nat → Nat → List Byte
  | 0, _ => []
  | n + 1, v => BitVec.ofNat 8 v :: bytesOfNat n (v / 256)

end Sys2Proof.Machine

namespace Sys2Proof

/-- Bytes of an access size (R186). -/
def MemSize.bytes : MemSize → Nat
  | .b => 1
  | .h => 2
  | .w => 4
  | .d => 8

/-- Bytes of an atomic (R186). -/
def AmoSize.bytes : AmoSize → Nat
  | .w => 4
  | .d => 8
  | .q => 16

/-- Bytes of a fold's element (R375). -/
def FoldOp.bytes : FoldOp → Nat
  | .fadd32 | .add32 | .fmin32 | .fmax32 => 4
  | .add64 => 8

end Sys2Proof

namespace Sys2Proof.Machine

/-! ### What an operation does to the bytes it names -/

end Sys2Proof.Machine

namespace Sys2Proof

/-- FOLD(d, s) of R375, on codes. Folds raise no flag. -/
def FoldOp.apply (op : FoldOp) (d s : Nat) : Nat :=
  match op with
  | .fadd32 => (Machine.FFmt.f32.add 0 d s).1
  | .add32 => (d + s) % 2 ^ 32
  | .add64 => (d + s) % 2 ^ 64
  | .fmin32 => (Machine.FFmt.f32.minNum d s).1
  | .fmax32 => (Machine.FFmt.f32.maxNum d s).1

/-- The new value of an AMO (R232), on codes of `w` bits. -/
def AmoOp.apply (op : AmoOp) (w old b : Nat) : Nat :=
  match op with
  | .swap => b
  | .add => (old + b) % 2 ^ w
  | .and => old &&& b
  | .or => old ||| b
  | .xor => old ^^^ b
  | .min => if Machine.sintOf w b < Machine.sintOf w old then b else old
  | .max => if Machine.sintOf w old < Machine.sintOf w b then b else old
  | .minu => if b < old then b else old
  | .maxu => if old < b then b else old
  | .fadd => (Machine.FFmt.f32.add 0 old b).1

/-- One VSCADD update in the element's type (R291): RNE for the floating-point types, WRAP for the integer types. -/
def ElemTy.accumulate (ty : ElemTy) (old v : Nat) : Nat :=
  match ty.ffmt with
  | some f => (f.add 0 old v).1
  | none => (old + v) % 2 ^ ElemTy.bits ty

end Sys2Proof

namespace Sys2Proof.Machine

/-- Bytes that an operation names. -/
def opSize : RemoteOp → Nat
  | .load n => n
  | .store l => l.length
  | .amo _ sz _ => sz.bytes
  | .cas sz _ _ => sz.bytes
  | .claim _ => 16
  | .addElem ty _ => ElemTy.bits ty / 8
  | .nibble _ _ => 1
  | .fold op _ => op.bytes
  | .folds op l => op.bytes * l.length
  | .copied l _ => l.length
  | .probe | .invalidate _ _ _ | .release _ => 0

/-- The operation only reads. -/
def opReads : RemoteOp → Bool
  | .load _ | .probe | .invalidate _ _ _ | .release _ => true
  | .store _ | .amo _ _ _ | .cas _ _ _ | .claim _ | .addElem _ _ | .nibble _ _ | .fold _ _ | .folds _ _ | .copied _ _ => false

/-- The operation is performed at an atomic unit: the updates, and the masked write of a 4-bit element (R482). -/
def opAtUnit (op : RemoteOp) : Bool :=
  match op with
  | .nibble _ _ => true
  | .amo _ _ _ | .cas _ _ _ | .claim _ | .addElem _ _ | .fold _ _ | .folds _ _ | .load _ | .probe | .invalidate _ _ _
  | .release _ | .store _ | .copied _ _ => opAtomic op

/-- The bytes as all written. -/
def writeAll (l : List Byte) : List (Option Byte) := l.map some

/-- No byte written. -/
def writeNone (l : List Byte) : List (Option Byte) := l.map fun _ => none

/-- What a strip of folds writes over the old bytes: an element that carries a mark writes nothing. -/
def foldWrites (op : FoldOp) (old : List Byte) : List (Option Word) → List (Option Byte)
  | [] => []
  | none :: l => List.replicate op.bytes none ++ foldWrites op (old.drop op.bytes) l
  | some v :: l =>
    writeAll (bytesOfNat op.bytes (op.apply (natOfBytes (old.take op.bytes)) (v.toNat % 2 ^ (8 * op.bytes))))
      ++ foldWrites op (old.drop op.bytes) l

/-- The offsets and lengths of the ranges that an operation leaves marked (R449). -/
def opMarks : RemoteOp → List (Nat × Nat)
  | .copied _ bad => bad.map fun i => (i, 1)
  | .folds op l => l.zipIdx.filterMap fun e => if e.1.isNone then some (op.bytes * e.2, op.bytes) else none
  | .load _ | .store _ | .amo _ _ _ | .cas _ _ _ | .claim _ | .addElem _ _ | .nibble _ _ | .fold _ _ | .probe
  | .invalidate _ _ _ | .release _ => []

/-- What an operation writes over the old bytes, and its answer: the whole of an atomic's read and write, at one instant
(R137). -/
def opApply (old : List Byte) : RemoteOp → List (Option Byte) × Answer
  | .load _ => (writeNone old, .bytes old)
  | .store l => (l, .acked)
  | .amo op sz b =>
    let w := 8 * sz.bytes
    (writeAll (bytesOfNat sz.bytes (op.apply w (natOfBytes old) (b.toNat % 2 ^ w))), .bytes old)
  | .cas sz e n =>
    let w := 8 * sz.bytes
    (writeAll (if natOfBytes old = e.toNat % 2 ^ w then bytesOfNat sz.bytes n.toNat else old), .bytes old)
  | .claim m =>
    let next := natOfBytes (old.take 8)
    let limit := natOfBytes (old.drop 8)
    let n := min m.toNat (limit - next)
    (writeAll (bytesOfNat 8 (next + n) ++ old.drop 8), .claimed (BitVec.ofNat 64 next) (BitVec.ofNat 64 n))
  | .addElem ty v =>
    (writeAll (bytesOfNat (ElemTy.bits ty / 8) (ty.accumulate (natOfBytes old) (v.toNat % 2 ^ ElemTy.bits ty))), .acked)
  | .nibble high v =>
    let o := natOfBytes old
    (writeAll (bytesOfNat 1 (if high then o % 16 + 16 * v.toNat else o / 16 * 16 + v.toNat)), .acked)
  | .fold op v => (writeAll (bytesOfNat op.bytes (op.apply (natOfBytes old) (v.toNat % 2 ^ (8 * op.bytes)))), .acked)
  | .folds op l => (foldWrites op old l, .acked)
  | .copied l _ => (l, .acked)
  | .probe | .invalidate _ _ _ | .release _ => ([], .acked)

/-- Old bytes with the written ones over them. -/
def overlay : List Byte → List (Option Byte) → List Byte
  | b :: t, some c :: u => (let _ := b; c) :: overlay t u
  | b :: t, none :: u => b :: overlay t u
  | [], _ => []
  | l, [] => l

/-! ### Lists of keys -/

/-- A key in a sorted list of keys. -/
def keyInsert : List Nat → Nat → List Nat
  | [], k => [k]
  | j :: t, k => if j = k then j :: t else if k < j then k :: j :: t else j :: keyInsert t k

/-- A key out of a list. -/
def keyErase (l : List Nat) (k : Nat) : List Nat := l.filter (· != k)

/-! ### Local lines -/

/-- The local address of byte `o` of strand `u`'s TCM half. -/
def tcmAddr (u o : Nat) : Nat := 2 ^ 17 * u + o

/-- The local address of byte `o` of cluster `c`'s scratchpad. -/
def spadAddr (c o : Nat) : Nat := 2 ^ 30 + 2 ^ 23 * c + o

/-- The bytes at consecutive addresses of a memory. -/
def readBytes (m : Memory) (a : Nat) : Nat → List Byte
  | 0 => []
  | n + 1 => Memory.read m a :: readBytes m (a + 1) n

/-- A memory with the written bytes stored from address `a` on. -/
def storeBytes (m : Memory) (a : Nat) : List (Option Byte) → Memory
  | [] => m
  | none :: t => storeBytes m (a + 1) t
  | some b :: t => storeBytes (Memory.write m a b) (a + 1) t

/-- The units of `k` bytes that the `n` bytes at `a` touch. -/
def unitsOf (k a n : Nat) : List Nat :=
  if n = 0 then [] else (List.range ((a + n - 1) / k - a / k + 1)).map (· + a / k)

/-- A unit of `k` bytes whose bytes are all written by the write at `a`. -/
def unitCovered (k unit a : Nat) (w : List (Option Byte)) : Bool :=
  (List.range k).all fun i => decide (a ≤ k * unit + i) && ((w.getD (k * unit + i - a) none).isSome)

/-- The marks after a write at `a`: a write that covers a whole unit clears its mark (R449). -/
def clearMarks (k : Nat) (marks : List Nat) (a : Nat) (w : List (Option Byte)) : List Nat :=
  marks.filter fun u => !(unitCovered k u a w)

/-- Every line that the `n` local bytes at `a` touch is full (R55). -/
def State.localFull (s : State) (a n : Nat) : Bool := (unitsOf 128 a n).all fun l => !s.empties.contains l

/-- An access of an owner sees what a line holds: in user mode only where the line carries the owner's tag (R35); in
kernel and firmware modes whatever the tag (R36). -/
def State.sees (s : State) (mode : Mode) (owner : Owner) (line : Nat) : Bool :=
  match mode with
  | .user => Tab.get 0 s.tags line = owner
  | .kernel | .firmware => true

/-- The local bytes at `a` touch a marked unit (R448) of a line that the access sees: zeros that stand for another
owner's line carry no mark (R35). -/
def State.localMarked (s : State) (mode : Mode) (owner : Owner) (a n : Nat) : Bool :=
  (unitsOf 8 a n).any fun w => s.localMarks.contains w && s.sees mode owner (w / 16)

/-- The stored bytes at `a` as an access of an owner reads them: a line that it does not see reads as zeros (R35,
R36). -/
def State.localRead (s : State) (mode : Mode) (owner : Owner) (a n : Nat) : List Byte :=
  (List.range n).map fun i => if s.sees mode owner ((a + i) / 128) then Memory.read s.lmem (a + i) else 0

/-- Make a line an owner's: a user-mode write to a line with another tag first zeroes it (R35); a kernel or firmware
write sets the tag alone (R36). -/
def State.claimLine (s : State) (mode : Mode) (owner : Owner) (line : Nat) : State :=
  if Tab.get 0 s.tags line = owner then s
  else
    match mode with
    | .user =>
      { s with lmem := storeBytes s.lmem (128 * line) (List.replicate 128 (some 0)),
               localMarks := clearMarks 8 s.localMarks (128 * line) (List.replicate 128 (some 0)),
               tags := Tab.set s.tags line owner }
    | .kernel | .firmware => { s with tags := Tab.set s.tags line owner }

/-- Make the lines of a list an owner's. -/
def State.claimLines (s : State) (mode : Mode) (owner : Owner) (l : List Nat) : State :=
  l.foldl (fun s l => s.claimLine mode owner l) s

/-- Write local bytes at `a` (R35, R36, R449). The lines whose bytes are written change owner. -/
def State.localWrite (s : State) (mode : Mode) (owner : Owner) (a : Nat) (w : List (Option Byte)) : State :=
  let touched := (unitsOf 128 a w.length).filter fun l =>
    (List.range 128).any fun i => decide (a ≤ 128 * l + i) && (w.getD (128 * l + i - a) none).isSome
  let s := s.claimLines mode owner touched
  { s with lmem := storeBytes s.lmem a w, localMarks := clearMarks 8 s.localMarks a w }

/-- The lines that an operation at `a` leaves marks in: it writes them too. -/
def markedLines (a : Nat) (op : RemoteOp) : List Nat := (opMarks op).flatMap fun e => unitsOf 128 (a + e.1) e.2

/-- The units of `k` bytes that an operation at `a` marks, added to marks. -/
def addMarks (k : Nat) (marks : List Nat) (a : Nat) (op : RemoteOp) : List Nat :=
  (opMarks op).foldl (fun l e => (unitsOf k (a + e.1) e.2).foldl keyInsert l) marks

/-- An operation at a local address, at its bank or TCM port (R72): the answer and the state. A consumed error leaves
the bytes as they are (R450). -/
def State.localOp (s : State) (mode : Mode) (owner : Owner) (a : Nat) (op : RemoteOp) : Answer × State :=
  let n := opSize op
  if (opReads op || opAtomic op) && s.localMarked mode owner a n then (.poisoned, s)
  else
    let (w, ans) := opApply (s.localRead mode owner a n) op
    let t := (s.localWrite mode owner a w).claimLines mode owner (markedLines a op)
    (ans, if opReads op then s else { t with localMarks := addMarks 8 t.localMarks a op })

/-- Mark the local lines of a range empty (R54). -/
def State.markEmpty (s : State) (a n : Nat) : State :=
  { s with empties := (unitsOf 128 a n).foldl keyInsert s.empties }

/-- Mark one local line full. -/
def State.markFull (s : State) (line : Nat) : State := { s with empties := keyErase s.empties line }

/-! ### Units of encrypted memory (R31) -/

/-- The tweak of a 64-byte unit: M x 2^52 + P (R31). -/
def tweakOf (home unit : Nat) : Nat := home * 2 ^ 52 + 64 * unit

/-- 64 bytes through the cipher. -/
def cryptUnit (f : BitVec 512 → Nat → List Nat → List Nat) (key : BitVec 512) (home unit : Nat) (l : List Byte) :
    List Byte :=
  (f key (tweakOf home unit) (l.map BitVec.toNat)).map (BitVec.ofNat 8)

/-- The stored bits of a unit: ciphertext where it was written under a key. -/
def storedUnit (k : UnitKey) (unit : Nat) (plain : List Byte) : List Byte :=
  match k with
  | .unwritten | .clear => plain
  | .keyed key home => cryptUnit xtsEncrypt key home unit plain

/-- Whether an access under `e` finds the plaintext as it was written. -/
def sameKey (k : UnitKey) (e : Enc) : Bool :=
  match k, e with
  | .unwritten, _ => true
  | .clear, none => true
  | .clear, some _ => false
  | .keyed _ _, none => false
  | .keyed key home, some (key', home') => key = key' && home = home'

/-- A unit as an access under `e` reads it: under another key, the stored bits through that key (R31). R7 and R32 leave
what such a read returns undefined: the model computes the decryption (log 85). -/
def State.readUnit (s : State) (e : Enc) (unit : Nat) : List Byte :=
  let k := Tab.get .unwritten s.units unit
  let plain := readBytes s.pmem (64 * unit) 64
  if sameKey k e then plain
  else
    match e with
    | none => storedUnit k unit plain
    | some (key, home) => cryptUnit xtsDecrypt key home unit (storedUnit k unit plain)

/-- The `n` bytes at `a` as an access under `e` reads them. -/
def State.physRead (s : State) (e : Enc) (a : Nat) : Nat → List Byte
  | 0 => []
  | n + 1 =>
    (if sameKey (Tab.get .unwritten s.units (a / 64)) e then Memory.read s.pmem a
     else (s.readUnit e (a / 64)).getD (a % 64) 0) :: State.physRead s e (a + 1) n

/-- How a unit is held after a write under `e`. -/
def unitKeyOf : Enc → UnitKey
  | none => .clear
  | some (key, home) => .keyed key home

/-- Make a unit readable as plaintext under `e`: the merge at the controller (R48). -/
def State.adoptUnit (s : State) (e : Enc) (unit : Nat) : State :=
  let k := Tab.get .unwritten s.units unit
  let s' := if sameKey k e then s else { s with pmem := storeBytes s.pmem (64 * unit) (writeAll (s.readUnit e unit)) }
  if k = unitKeyOf e then s' else { s' with units := Tab.set s'.units unit (unitKeyOf e) }

/-- Write physical bytes at `a` under `e` (R31, R449). -/
def State.physWrite (s : State) (e : Enc) (a : Nat) (w : List (Option Byte)) : State :=
  let s := (unitsOf 64 a w.length).foldl (fun s u => s.adoptUnit e u) s
  { s with pmem := storeBytes s.pmem a w, physMarks := clearMarks 64 s.physMarks a w }

/-- The physical bytes at `a` touch a marked unit. -/
def State.physMarked (s : State) (a n : Nat) : Bool := (unitsOf 64 a n).any s.physMarks.contains

/-- An operation applied to physical memory under `e`, at its home unit. -/
def State.physOp (s : State) (e : Enc) (a : Nat) (op : RemoteOp) : Answer × State :=
  let n := opSize op
  if (opReads op || opAtomic op) && s.physMarked a n then (.poisoned, s)
  else
    let (w, ans) := opApply (s.physRead e a n) op
    let t := s.physWrite e a w
    (ans, if opReads op then s else { t with physMarks := addMarks 64 t.physMarks a op })

/-! ### What a full cache gives up -/

/-- The set that a line or page falls in. -/
def setOf (sets n : Nat) : Nat := Config.cacheSet sets n % max 1 sets

/-- The entry that a cache of `ways` ways gives up so that `n` may enter: none while its set has room; otherwise one of
those of the set that `may` offers, chosen by `pick`. -/
def cacheVictim {α : Type} (sets ways pick : Nat) (key : α → Nat) (may : List α → List α) (n : Nat) (l : List α) :
    Option α :=
  if l.length < ways then none
  else
    let set := l.filter fun e => setOf sets (key e) = setOf sets n
    if set.length < ways then none
    else
      let choices := may set
      choices[pick % max 1 choices.length]?

/-- The list without the entry that is given up. -/
def dropVictim {α : Type} [DecidableEq α] (v : Option α) (l : List α) : List α :=
  match v with
  | some e => l.erase e
  | none => l

/-- The state after a free choice has been made. -/
def State.drawn (s : State) : State := { s with draws := s.draws + 1 }

/-! ### Physical addresses (R24 to R26, R97) -/

/-- The kind of a physical address (R24). -/
def kindOf (pa : Nat) : Nat := pa / 2 ^ 50 % 4

/-- Bytes of a die that are module SRAM: 192 MiB less the pool cache (R25, R61). -/
def State.sramBytes (s : State) : Nat := 0xc000000 - s.poolcsz * 2 ^ 24

/-- The state of the grant window that holds a host address: 1 LIVE, 2 DETACHED, 0 none (R97). -/
def State.windowState (s : State) (hpa : Nat) : Nat :=
  let inside (w : Window) : Bool :=
    w.state != 0 && w.hbase.toNat ≤ hpa && hpa < w.hbase.toNat + w.hlen.toNat
  match s.windows.find? fun e => inside e.2 with
  | some e => e.2.state.toNat
  | none => 0

/-- What a physical address of this module meets (R25, R26, R97): none where it reaches storage or control space. -/
def State.physFault (s : State) (pa : Nat) : Option AFault :=
  let off := pa % 2 ^ 50
  match kindOf pa with
  | 0 => if 2 ^ 34 ≤ off || s.sramBytes ≤ off % 2 ^ 28 then some ⟨3, 7, 7, 1⟩ else none
  | 1 => if Config.poolBytes ≤ off then some ⟨3, 7, 7, 1⟩ else none
  | 2 =>
    match s.windowState off with
    | 1 => none
    | 2 => some ⟨6, 0, 7, 1⟩
    | _ => some ⟨3, 7, 7, 1⟩
  | _ => none

/-! ### Owners and keys (R28 to R30, R481) -/

/-- The contents of a key slot. -/
def State.slotKey (s : State) (slot : Nat) : BitVec 512 := Tab.get 0 s.keys slot

/-- How the device accesses the structures it manages in module SRAM: under slot 1 (R481). -/
def State.deviceEnc (s : State) : Enc := some (s.slotKey 1, s.modnum.toNat)

/-- The `n` bytes at `a`, of a structure that the device manages, reach storage (R25). -/
def State.deviceReaches (s : State) (a n : Nat) : Bool :=
  (s.physFault a).isNone && (s.physFault (a + n - 1)).isNone

/-- A word of a structure that the device manages: free bytes where its address reaches no storage, and where it touches a
marked unit (logs 41 and 87). -/
def State.deviceRead (s : State) (a n : Nat) : Nat :=
  natOfBytes (if s.deviceReaches a n && !s.physMarked a n then s.physRead s.deviceEnc a n
    else (List.range n).map fun i => Config.lostByte (a + i))

/-- Write a structure that the device manages: nothing is written where its address reaches no storage (R25). -/
def State.deviceStore (s : State) (a n v : Nat) : State :=
  if s.deviceReaches a n then s.physWrite s.deviceEnc a (writeAll (bytesOfNat n v)) else s

/-- The address of the owner-table entry of an owner (R29). -/
def State.ownerAddr (s : State) (o : Owner) : Nat := s.owntab.toNat % 2 ^ 52 + 32 * o.toNat

/-- The owner-table entry of an owner (R29). -/
def State.ownerEntry (s : State) (o : Owner) : BitVec 256 := BitVec.ofNat 256 (s.deviceRead (s.ownerAddr o) 32)

/-- The entry refuses accesses: VALID is 0, or, in an entry other than 0 and 1, KEYSLOT is 4,095 (R30). -/
def State.ownerRefused (s : State) (o : Owner) : Bool :=
  let e := s.ownerEntry o
  !e.getLsbD 0 || (2 ≤ o.toNat && e.extractLsb' 2 12 = 0xfff)

/-- What the check of an access owner's entry finds: a violation of kind OWNER where the entry refuses (R30); where the
entry cannot be read, UNIMPLEMENTED at an address that reaches no storage (R25, log 87), and WALK-ERROR in a marked unit
(R448, log 41). -/
def State.ownerFault (s : State) (o : Owner) : Option AFault :=
  if !s.deviceReaches (s.ownerAddr o) 32 then some ⟨3, 7, 7, 1⟩
  else if s.physMarked (s.ownerAddr o) 32 then some ⟨7, 0, 7, 1⟩
  else if s.ownerRefused o then some ⟨3, 8, 7, 1⟩
  else none

/-- The key slot of an owner: 0 and 1 for owners 0 and 1, otherwise its entry's (R30). -/
def State.ownerSlot (s : State) (o : Owner) : Nat :=
  if o.toNat ≤ 1 then o.toNat else ((s.ownerEntry o).extractLsb' 2 12).toNat

/-- The encryption of an owner's access to a physical address: the tweak's module number is this module's for module
SRAM and 0 otherwise (R31). -/
def State.encOf (s : State) (o : Owner) (clear : Bool) (pa : Nat) : Enc :=
  if clear && kindOf pa = 2 then none else some (s.slotKey (s.ownerSlot o), if kindOf pa = 0 then s.modnum.toNat else 0)

end Sys2Proof.Machine
end

