-- ==== Sys2Proof/Machine/Translate.lean ====
section
/-!
DEFINITION. Logs and fault queues (R46, R93, R94, R123, R455) and the translation of a virtual address with its checks,
in the order of R87 (R17 to R30, R57, R77 to R88).
-/

namespace Sys2Proof.Machine

/-! ### Records -/

/-- On whose behalf an access is made, as records name it (R46, R94): strand, mode, owner, unit code, handle, and the
instruction address or operation identity. -/
structure Agent where
  uid : Nat
  mode : Mode
  owner : Owner
  unit : Nat
  handle : BitVec 32
  ident : Word
  deriving DecidableEq, Repr

/-! ### Virtual addresses (R17 to R21) -/

/-- Bits 63:56 all equal bit 55 (R17). -/
def canonical (va : Word) : Bool :=
  let top := va.toNat / 2 ^ 55
  top = 0 || top = 2 ^ 9 - 1

/-- The regions of the virtual space (R18). -/
inductive Region where
  | user
  | spad (off : Nat)
  | tcm (off : Nat)
  | hole
  | nonCanonical
  | kernelHalf
  deriving DecidableEq, Repr

/-- The region of an address (R18). -/
def regionOf (va : Word) : Region :=
  let a := va.toNat
  if !canonical va then .nonCanonical
  else if 2 ^ 63 ≤ a then .kernelHalf
  else if a < 0x7e0000000000 then .user
  else if a < 0x7e0000800000 then .spad (a - 0x7e0000000000)
  else if a < 0x7f0000000000 then .hole
  else if a < 0x7f0000020000 then .tcm (a - 0x7f0000000000)
  else if a < 0x800000000000 then .hole
  else .user

/-- The access's owner: owner 1 for the kernel half, otherwise the agent's (R28, R78). -/
def accessOwner (ag : Agent) (va : Word) : Owner := if regionOf va = .kernelHalf then 1 else ag.owner

/-! ### Records of accesses -/

/-- The access codes of R46. -/
inductive Acc where
  | read | write | atomic | fetch | copySource | copyDest | reduce | hint
  deriving DecidableEq, Repr

/-- The code of an access (R46). -/
def Acc.code : Acc → Nat
  | .read => 0
  | .write => 1
  | .atomic => 2
  | .fetch => 3
  | .copySource => 4
  | .copyDest => 5
  | .reduce => 6
  | .hint => 7

/-- A record's fields, each a value and its lowest bit, as one number. -/
def record (l : List (Nat × Nat)) : Nat := l.foldl (fun n f => n + f.1 * 2 ^ f.2) 0

/-- A count that rises by one and saturates at 2^64 - 1. -/
def satInc (w : Word) : Word := if w = BitVec.allOnes 64 then w else w + 1

/-- A count of 32 bits that rises by one and saturates. -/
def satInc32 (w : BitVec 32) : BitVec 32 := if w = BitVec.allOnes 32 then w else w + 1

/-- A log takes a record: it is enabled and not full (R46). -/
def Log.takes (l : Log) : Bool :=
  6 ≤ l.size.toNat && l.size.toNat ≤ 20 && (l.head - l.tail).toNat != 2 ^ l.size.toNat

/-- Where the next record of a log is written (R46). -/
def Log.slot (l : Log) : Nat := l.base.toNat % 2 ^ 52 + 32 * (l.head.toNat % 2 ^ l.size.toNat)

/-- Append a 32-byte record to a log (R46): the state's memory and the log. -/
def State.appendLog (s : State) (l : Log) (r : Nat) : State × Log :=
  if l.takes then (s.deviceStore l.slot 32 r, { l with head := l.head + 1 })
  else (s, { l with lost := satInc l.lost })

/-- The place of a strand in a record: die, cluster in the die, strand in the cluster. -/
def dieIn (u : Nat) : Nat := u / 64
/-- The cluster in its die. -/
def clusterIn (u : Nat) : Nat := u / 8 % 8
/-- The strand in its cluster. -/
def strandIn (u : Nat) : Nat := u % 8

/-- Append a violation record (R46). `module` is the requesting module. An address in the kernel half carries owner 1
(R78). -/
def State.logViolation (s : State) (ag : Agent) (module : ModNum) (addr : Word) (phys : Bool) (acc : Acc) (kind : Nat) :
    State :=
  let r := record [(addr.toNat, 0), (phys.toNat, 64), (acc.code, 65), (kind, 68),
    ((if phys then ag.owner else accessOwner ag addr).toNat, 72), (module.toNat, 88), (dieIn ag.uid, 107),
    (clusterIn ag.uid, 113), (strandIn ag.uid, 116), (ag.unit, 119), (ag.handle.toNat, 128), (s.tick.toNat % 2 ^ 32, 160),
    (ag.ident.toNat, 192)]
  let (s, l) := s.appendLog s.vlog r
  { s with vlog := l }

/-- An access of the device's own, to a structure that it manages, is logged where its address reaches no storage (R25):
the record names owner 1, whose key slot the access uses, and place 0 (log 87). -/
def State.deviceLost (s : State) (a n : Nat) (acc : Acc) : State :=
  if s.deviceReaches a n then s else s.logViolation ⟨0, .kernel, 1, 0, 0, 0⟩ s.modnum (BitVec.ofNat 64 a) true acc 7

/-- Write a structure that the device manages; a write that reaches no storage is logged (R25). -/
def State.deviceWrite (s : State) (a n v : Nat) : State := (s.deviceStore a n v).deviceLost a n .write

/-- A record of another log that reached no storage is logged as a violation (R25). -/
def State.logChecked (s : State) (l : Log) : State := if l.takes then s.deviceLost l.slot 32 .write else s

/-- Append a fabric error record (R123). A request through a handle of another module has no physical address here: ADDR
holds the virtual one (log 86). -/
def State.logFabric (s : State) (o : Outstanding) (fail : Nat) (uid unit : Nat) : State :=
  let r := record [(o.pa % 2 ^ 64, 0), (o.target.toNat, 64), (fail, 84), (o.plane.toNat, 88), (o.link.toNat, 90),
    (o.acc.toNat, 93), (o.owner.toNat, 96), (dieIn uid, 112), (clusterIn uid, 118), (strandIn uid, 121), (unit, 124),
    (s.tick.toNat % 2 ^ 32, 128), (o.ident.toNat, 160)]
  let (t, l) := s.appendLog s.flog r
  ({ t with flog := l }).logChecked s.flog

/-- Append the fabric record of a plane withdrawn (5) or admitted (6) (R123). -/
def State.logPlane (s : State) (fail plane : Nat) : State :=
  let (t, l) := s.appendLog s.flog (record [(fail, 84), (plane, 88), (s.tick.toNat % 2 ^ 32, 128)])
  ({ t with flog := l }).logChecked s.flog

/-- Append an error record (R455); the index of the record, or 2^64 - 1 where it was dropped (R456). Records of KIND 4,
6 and 7 raise MACHINE-CHECK in the event set (R456, R457). -/
def State.logError (s : State) (addr kind level uid lanegrp : Nat) (owner : Owner) (elem : Nat) (ident : Word) :
    State × Word :=
  let r := record [(addr, 0), (kind, 64), (level, 68), (dieIn uid, 72), (clusterIn uid, 78), (strandIn uid, 81),
    (lanegrp, 84), (owner.toNat, 88), (elem, 104), (s.tick.toNat % 2 ^ 32, 128), (ident.toNat, 160)]
  let idx := if s.elog.takes then s.elog.head else BitVec.allOnes 64
  let (t, l) := s.appendLog s.elog r
  let s := ({ t with elog := l }).logChecked s.elog
  (if kind = 4 || kind = 6 || kind = 7 then { s with eventSet := s.eventSet ++ [⟨131, idx⟩] } else s, idx)

/-- A read of the device's own is logged where its address reaches no storage (R25), or consumes an error (R448). -/
def State.deviceLog (s : State) (a n : Nat) : State :=
  if s.deviceReaches a n && s.physMarked a n then (s.logError (a / 64 * 64) 1 2 0 0 1 0 0).1 else s.deviceLost a n .read

/-- Where an owner's fault queue is described (R92). -/
def State.fqEntry (s : State) (o : Owner) : Nat := s.fqtab.toNat % 2 ^ 52 + 32 * o.toNat

/-- An owner's fault queue takes a record (R93). -/
def State.fqTakes (s : State) (o : Owner) : Bool :=
  let e := s.fqEntry o
  let size := s.deviceRead (e + 8) 4 % 32
  6 ≤ size && size ≤ 16 && (s.deviceRead (e + 16) 8 + 2 ^ 64 - s.deviceRead (e + 24) 8) % 2 ^ 64 != 2 ^ size

/-- Write a 64-byte record to an owner's fault queue, or count it in LOST (R93). -/
def State.fqAppend (s : State) (o : Owner) (r : Nat) : State :=
  let e := s.fqEntry o
  let s := s.deviceLog e 32
  if s.fqTakes o then
    let head := s.deviceRead (e + 16) 8
    let size := s.deviceRead (e + 8) 4 % 32
    let s := s.deviceWrite (s.deviceRead e 8 % 2 ^ 52 / 64 * 64 + 64 * (head % 2 ^ size)) 64 r
    s.deviceWrite (e + 16) 8 ((head + 1) % 2 ^ 64)
  else
    let lost := s.deviceRead (e + 12) 4
    s.deviceWrite (e + 12) 4 (if lost = 2 ^ 32 - 1 then lost else lost + 1)

/-- Bytes of a page-size code (R94). -/
def psizeBytes (p : Nat) : Nat := if p = 0 then 2 ^ 12 else if p = 1 then 2 ^ 16 else 2 ^ 25

/-- A fault-queue record (R94). -/
def State.faultRecord (s : State) (ag : Agent) (owner : Owner) (va : Word) (rlen : Nat) (f : AFault) (acc : Acc)
    (ovf : Bool) (elem : Option Nat) : Nat :=
  record [(va.toNat, 0), (alignDown va.toNat (psizeBytes f.psize), 64), (rlen, 128), (f.cls, 160), (f.level, 164),
    (f.psize, 167), (acc.code, 169), (ag.unit, 172), (ovf.toNat, 175), (owner.toNat, 176), (s.modnum.toNat, 192),
    (dieIn ag.uid, 211), (clusterIn ag.uid, 217), (strandIn ag.uid, 220), (ag.ident.toNat, 256),
    (ag.handle.toNat, 320), (s.tick.toNat % 2 ^ 32, 352), (elem.getD 0, 384), (elem.isSome.toNat, 398)]

/-- Write the fault-queue record of an access (R93, R94). -/
def State.queueFault (s : State) (ag : Agent) (owner : Owner) (va : Word) (rlen : Nat) (f : AFault) (acc : Acc)
    (ovf : Bool) (elem : Option Nat) : State :=
  s.fqAppend owner (s.faultRecord ag owner va rlen f acc ovf elem)

/-- A guarded launch is active on cluster `c` (R57, R415). -/
def State.launchActive (s : State) (c : Nat) : Bool := (s.cluster c).launches.any (·.active)

/-! ### The walk (R77 to R84) -/

/-- The lowest address bit that level `l` of the walk indexes (R77). -/
def levelShift : Nat → Nat
  | 0 => 12
  | 1 => 16
  | 2 => 25
  | 3 => 34
  | _ => 45

/-- Entries of a table of level `l` (R77). -/
def levelEntries : Nat → Nat
  | 0 => 16
  | 1 => 512
  | 2 => 512
  | _ => 2048

/-- How a walk ends: a leaf of some level, or a fault class at a level. -/
inductive WalkEnd where
  | leaf (level : Nat) (word0 word1 : Word)
  | fail (cls level : Nat)
  deriving DecidableEq, Repr

/-- A table lies outside kind 0, or is not 4 KiB aligned (R77). -/
def badTable (pa : Nat) : Bool := pa % 4096 != 0 || kindOf pa != 0

/-- A valid entry is malformed at level `l` (R80). -/
def malformed (l : Nat) (w0 w1 : Word) : Bool :=
  let leaf := w0.getLsbD 1
  let pa := w0.toNat % 2 ^ 52 / 4096 * 4096
  w0.extractLsb' 9 3 != 0 || w0.extractLsb' 52 12 != 0 || w1.extractLsb' 20 44 != 0
    || (leaf && 3 ≤ l) || (!leaf && l = 0)
    || (!leaf && (w0.extractLsb' 2 7 != 0 || w1 != 0))
    || (leaf && pa % 2 ^ levelShift l != 0)
    || (leaf && w0.extractLsb' 7 2 = 3)
    || (leaf && w0.getLsbD 6 && kindOf pa != 2)
    || (leaf && l = 0 && kindOf pa != 2)

/-- The pointer that a die's walk cache holds for a level (R84). -/
def State.cachedTable (s : State) (die : Nat) (o : Owner) (level : Nat) (va : Word) : Option Nat :=
  ((Tab.get [] s.walks die).find? fun e =>
    e.owner = o && e.level = level && e.index = va.toNat % 2 ^ 56 / 2 ^ levelShift level).map (·.table)

/-- Keep a pointer of levels 4 to 2 in the die's walk cache of 512 entries (R84). A full one gives up any entry: R84 names
no policy, and the choice is free (log 84). -/
def State.cacheTable (s : State) (die : Nat) (o : Owner) (level : Nat) (va : Word) (table : Nat) : State :=
  if level < 2 then s
  else
    let e : WalkEntry := ⟨o, level, va.toNat % 2 ^ 56 / 2 ^ levelShift level, table⟩
    let l := Tab.get [] s.walks die
    let v := cacheVictim 1 512 (Config.freeVictim s.draws) (fun _ => 0) id 0 l
    { s.drawn with walks := Tab.set s.walks die (e :: dropVictim v l) }

/-- One level of a walk: the walk ends, or goes on at the next level's table. -/
inductive WalkStep where
  | ends (e : WalkEnd)
  | next (table : Nat)
  deriving DecidableEq, Repr

/-- Read the entry of level `l` in `table`, or take the pointer from the walk cache (R77, R80, R82, R84). An entry whose
address reaches no storage ends the walk in a violation of kind UNIMPLEMENTED (R25, log 87). A pointer
that names a bad table ends the walk at the level of the entry that holds it (R94). -/
def State.walkStep (s : State) (die : Nat) (o : Owner) (va : Word) (l table : Nat) : WalkStep × State :=
  match s.cachedTable die o l va with
  | some t => (.next t, s)
  | none =>
    if badTable table then (.ends (.fail 2 l), s)
    else
      let a := table + 16 * (va.toNat / 2 ^ levelShift l % levelEntries l)
      if !s.deviceReaches a 16 then (.ends (.fail 3 l), s)
      else if s.physMarked a 16 then (.ends (.fail 7 l), s)
      else
        let w0 := BitVec.ofNat 64 (s.deviceRead a 8)
        let w1 := BitVec.ofNat 64 (s.deviceRead (a + 8) 8)
        if !w0.getLsbD 0 then (.ends (.fail 1 l), s)
        else if malformed l w0 w1 then (.ends (.fail 2 l), s)
        else if w0.getLsbD 1 then (.ends (.leaf l w0 w1), s)
        else
          let t := w0.toNat % 2 ^ 52 / 4096 * 4096
          if badTable t then (.ends (.fail 2 l), s) else (.next t, s.cacheTable die o l va t)

/-- Walk from `table` at level `l` down (R77). -/
def walkFrom (die : Nat) (o : Owner) (va : Word) : Nat → Nat → State → WalkEnd × State
  | 0, table, s =>
    match s.walkStep die o va 0 table with
    | (.ends e, s) => (e, s)
    | (.next _, s) => (.fail 2 0, s)
  | l + 1, table, s =>
    match s.walkStep die o va (l + 1) table with
    | (.ends e, s) => (e, s)
    | (.next t, s) => walkFrom die o va l t s

/-- An entry of a translation cache put in: the cache has 512 sets of 8 entries, most recently used first (R83). The
entry that a full set gives up is any but the most recently used: which one, its pseudo-LRU leaves free (log 84). -/
def tlbInsert (pick : Nat) (e : TlbEntry) (l : List TlbEntry) : List TlbEntry :=
  e :: dropVictim (cacheVictim 512 8 pick TlbEntry.page (List.drop 1) e.page l) l

/-- The leaf that a translation cache holds for an address (R83). -/
def Cluster.tlbFind (c : Cluster) (o : Owner) (va : Word) : Option TlbEntry :=
  c.tlb.find? fun e => e.owner = o && e.page = va.toNat % 2 ^ 56 / 2 ^ levelShift e.level

/-- The page-table root of an owner (R29). -/
def State.ptroot (s : State) (o : Owner) : Nat := ((s.ownerEntry o).extractLsb' 64 64).toNat

/-- The leaf of an address, from the cluster's translation cache or a walk (R83, R84). A PTROOT with a nonzero bit of
63:52, and one that is no place for a table, end the walk with TABLE at level 4, no entry having been read (log 87). -/
def State.findLeaf (s : State) (c : Nat) (o : Owner) (va : Word) : WalkEnd × State :=
  match (s.cluster c).tlbFind o va with
  | some e => (.leaf e.level e.word0 e.word1, s)
  | none =>
    let root := s.ptroot o
    if 2 ^ 52 ≤ root then (.fail 2 4, s) else walkFrom (dieOf c) o va 4 root s

/-- A translation that has ended in no fault stands in the cluster's translation cache, as the most recently used of its
set (R83). -/
def State.keepLeaf (s : State) (c : Nat) (o : Owner) (va : Word) (l : Nat) (w0 w1 : Word) : State :=
  let e : TlbEntry := ⟨o, va.toNat % 2 ^ 56 / 2 ^ levelShift l, l, w0, w1⟩
  let k := s.cluster c
  if k.tlb.head? = some e then s
  else if k.tlb.contains e then s.setCluster c { k with tlb := e :: k.tlb.erase e }
  else s.drawn.setCluster c { k with tlb := tlbInsert (Config.freeVictim s.draws) e k.tlb }

/-! ### Rights and physical checks -/

/-- The leaf grants the access (R81). -/
def grants (mode : Mode) (acc : Acc) (w0 : Word) : Bool :=
  let r := w0.getLsbD 2
  let w := w0.getLsbD 3
  (w0.getLsbD 5 || mode != .user) &&
    match acc with
    | .read | .copySource | .hint => r
    | .write | .copyDest | .reduce => w
    | .atomic => r && w
    | .fetch => w0.getLsbD 4

/-- The page-size code of a level (R94). -/
def psizeOfLevel (l : Nat) : Nat := if l = 0 then 0 else if l = 2 then 2 else 1

/-- The target of an access through a leaf. -/
def leafTarget (module : ModNum) (o : Owner) (va : Word) (l : Nat) (w0 w1 : Word) : Target :=
  let m := w1.extractLsb' 0 19
  { level := l
    module := if w1.getLsbD 19 && m != module then some m else none
    pa := w0.toNat % 2 ^ 52 / 2 ^ levelShift l * 2 ^ levelShift l + va.toNat % 2 ^ levelShift l
    owner := o
    clear := w0.getLsbD 6
    pol := (Pol.ofCode (w0.extractLsb' 7 2)).getD .default
    va := va }

/-- Translate an address of the translated halves and check the access, in the order of R87. Where the leaf names control
space, the access that may go there keeps the leaf itself (`keepControl`): every other one ends in a violation (R83). -/
def State.translate (s : State) (ag : Agent) (acc : Acc) (va : Word) : (Except AFault Place) × State :=
  let o := accessOwner ag va
  if regionOf va = .kernelHalf && ag.mode = .user then (.error ⟨3, 1, 7, 1⟩, s)
  else
    match s.ownerFault o with
    | some f => (.error f, s)
    | none =>
    match s.findLeaf (clusterOf ag.uid) o va with
    | (.fail cls l, s) => (.error ⟨cls, if cls = 3 then 7 else 0, l, if l = 0 then 0 else 1⟩, s)
    | (.leaf l w0 w1, s) =>
      if !grants ag.mode acc w0 then (.error ⟨3, 0, l, psizeOfLevel l⟩, s)
      else
        let t := leafTarget s.modnum o va l w0 w1
        let kept := s.keepLeaf (clusterOf ag.uid) o va l w0 w1
        match t.module with
        | some _ => (.ok (.target t), kept)
        | none =>
          if kindOf t.pa = 3 then
            if ag.mode = .user then (.error ⟨3, 2, l, psizeOfLevel l⟩, s) else (.ok (.control (t.pa % 2 ^ 50)), s)
          else
            match s.physFault t.pa with
            | some f => (.error { f with level := l, psize := psizeOfLevel l }, s)
            | none => (.ok (.target t), kept)

/-- An access to control space that is made keeps its leaf in the translation cache (R83). -/
def State.keepControl (s : State) (ag : Agent) (va : Word) : State :=
  let o := accessOwner ag va
  match s.findLeaf (clusterOf ag.uid) o va with
  | (.leaf l w0 w1, s) => s.keepLeaf (clusterOf ag.uid) o va l w0 w1
  | (.fail _ _, s) => s

/-- The violation of kind CONTROL that an access meets at the leaf that names control space (R34): the level and page
size are the leaf's (R94). -/
def State.controlFault (s : State) (ag : Agent) (va : Word) : AFault :=
  match (s.findLeaf (clusterOf ag.uid) (accessOwner ag va) va).1 with
  | .leaf l _ _ => ⟨3, 2, l, psizeOfLevel l⟩
  | .fail _ _ => ⟨3, 2, 7, 1⟩

/-- The physical address of an offset in the boot window: the first 128 MiB of dies 0 and 1 (R461). -/
def bootPa (off : Nat) : Nat := if off < 2 ^ 27 then off else 2 ^ 28 + (off - 2 ^ 27)

/-- An access of the firmware to the image that it was booted from: the boot ROM leaves the boot window mapped for owner 0 in
firmware mode, from `Config.bootImageBase` on (R462, log 30). -/
def State.imagePlace (s : State) (ag : Agent) (va : Word) (n : Nat) : Option Place :=
  if ag.mode = .firmware && ag.owner = 0 && s.fwvalid then
    let off := (va - Config.bootImageBase).toNat
    if off + n ≤ 2 ^ 27 || (2 ^ 27 ≤ off && off + n ≤ 2 ^ 28) then
      some (.target { module := none, pa := bootPa off, owner := 0, clear := false, pol := .default, va := va, level := 7 })
    else none
  else none

/-- Where an access of `n` bytes at `va` goes, or what it meets (R17 to R23, R57, R87). -/
def State.resolve (s : State) (ag : Agent) (acc : Acc) (va : Word) (n : Nat) : (Except AFault Place) × State :=
  match regionOf va with
  | .nonCanonical => (.error ⟨4, 0, 7, 1⟩, s)
  | .hole => (.error ⟨5, 0, 7, 1⟩, s)
  | .spad off =>
    if acc = .fetch || (s.launchActive (clusterOf ag.uid) && 0x7c0000 < off + n) then (.error ⟨5, 0, 7, 1⟩, s)
    else (.ok (.local (spadAddr (clusterOf ag.uid) off)), s)
  | .tcm off => if acc = .fetch then (.error ⟨5, 0, 7, 1⟩, s) else (.ok (.local (tcmAddr ag.uid off)), s)
  | .user | .kernelHalf =>
    match s.imagePlace ag va n with
    | some p => (.ok p, s)
    | none => s.translate ag acc va

/-- Resolve within an operation. -/
def resolveM (ag : Agent) (acc : Acc) (va : Word) (n : Nat) : M (Except AFault Place) := fun s =>
  let (r, s) := s.resolve ag acc va n
  .ok r s

/-- A violation is logged by R46; the other classes are not (R47). -/
def State.logIfViolation (s : State) (ag : Agent) (acc : Acc) (va : Word) (f : AFault) : State :=
  if f.cls = 3 then s.logViolation ag s.modnum va false acc f.kind else s

end Sys2Proof.Machine
end

