-- ==== Sys2Proof/Machine/Access.lean ====
section
/-!
DEFINITION. How an operation reaches its storage (R58 to R67, R103 to R112, R125, R140): at once at a bank, an SRAM
controller or a pool-cache line, or through a request to a pool port, to the host or to another module, whose answer
arrives later. Also the write buffers (R69) and the store queues (R75), which hold stores back.
-/

namespace Sys2Proof.Machine

/-! ### Pool cache (R60 to R63) -/

/-- XOR of the 6-bit chunks of a number, `k` chunks. -/
def fold6 : Nat → Nat → Nat
  | 0, _ => 0
  | k + 1, n => (n % 64) ^^^ fold6 k (n / 64)

/-- The home die of a pooled address (R60). -/
def homeDie (pa : Nat) : Nat := fold6 7 (pa % 2 ^ 50 / 256)

/-- The pool port of a pooled address: the interleave of PPORTS over the ports in service (R63, R65). The manual gives
the mask and the granule and no map: the model takes the granule's number modulo the ports in service, in ascending
order, and port 0 where the mask is 0 (log 89). -/
def State.poolPort (s : State) (pa : Nat) : Nat :=
  let ports := (List.range 8).filter fun i => s.pports.getLsbD i
  ports.getD (pa % 2 ^ 50 / 2 ^ (12 + (s.pports.extractLsb' 8 4).toNat) % max 1 ports.length) 0

/-- The pool port of an address has failed (R63). -/
def State.portFailed (s : State) (pa : Nat) : Bool := s.poolPortsFailed.getLsbD (s.poolPort pa)

/-- The lines of a die's pool cache, most recently used first. -/
def State.poolLines (s : State) (die : Nat) : List PoolLine := Tab.get [] s.pool die

/-- The state with a die's pool-cache lines replaced. -/
def State.setPool (s : State) (die : Nat) (l : List PoolLine) : State := { s with pool := Tab.set s.pool die l }

/-- Write a pool-cache line back under its owner's key (R62), its marks with it (R449); a failed port drops it (R456). -/
def State.writeBack (s : State) (l : PoolLine) : State :=
  if !l.dirty then s
  else if s.portFailed (128 * l.line) then (s.logError (128 * l.line) 6 4 (64 * homeDie (128 * l.line)) 0 l.owner 0 0).1
  else
    let s := s.physWrite (s.encOf l.owner false (128 * l.line)) (128 * l.line) (writeAll l.data)
    { s with physMarks := (l.marks.map (2 * l.line + ·)).foldl keyInsert s.physMarks }

/-- Take a line out of a pool cache, written back where it is Dirty (R62). -/
def State.dropPool (s : State) (die : Nat) (l : PoolLine) : State :=
  (s.writeBack l).setPool die ((s.poolLines die).filter fun e => e.line != l.line)

/-- What a full set of the pool cache may give up: the least recently used line that KEEP did not place, or the least
recently used (R61, R76). -/
def poolOldest (set : List PoolLine) : List PoolLine :=
  match (set.filter fun e => !e.keep).getLast? with
  | some e => [e]
  | none => set.getLast?.toList

/-- The line that the pool cache of a die gives up for another: POOLCSZ bytes are POOLCSZ / 2,048 sets of 16 lines
(R61). -/
def State.poolVictim (s : State) (die line : Nat) : Option PoolLine :=
  cacheVictim (s.poolcsz * 2 ^ 13) 16 0 PoolLine.line poolOldest line (s.poolLines die)

/-- Fill a line of the home die's pool cache under an owner's key, `enc` (R62); marked units stay marked in it (R448). -/
def State.fillPool (s : State) (line : Nat) (owner : Owner) (enc : Enc) (keep : Bool) : State :=
  let die := homeDie (128 * line)
  let s : State := match s.poolVictim die line with
    | some v => s.dropPool die v
    | none => s
  let data := s.physRead enc (128 * line) 128
  let marks := [0, 1].filter fun i => s.physMarks.contains (2 * line + i)
  let others := (s.poolLines die).filter fun e => e.line != line
  s.setPool die (⟨line, owner, false, keep, data, marks⟩ :: others)

/-- The units of a pool-cache line, from `off` on, that `n` bytes touch are marked (R448). -/
def PoolLine.marked (l : PoolLine) (off n : Nat) : Bool := (unitsOf 64 off n).any l.marks.contains

/-- An operation on a line that the pool cache holds; the line becomes most recently used, and Dirty where written. -/
def State.poolHit (s : State) (die : Nat) (l : PoolLine) (pa : Nat) (op : RemoteOp) (keep : Bool) : Answer × State :=
  let n := opSize op
  let lines := (s.poolLines die).filter fun e => e.line != l.line
  if (opReads op || opAtomic op) && l.marked (pa % 128) n then (.poisoned, s)
  else
    let old := (l.data.drop (pa % 128)).take n
    let (w, ans) := opApply old op
    let data := l.data.take (pa % 128) ++ overlay old w ++ l.data.drop (pa % 128 + n)
    let marks := addMarks 64 (clearMarks 64 l.marks (pa % 128) w) (pa % 128) op
    let l' := { l with data := data, dirty := l.dirty || !opReads op, keep := l.keep || keep, marks := marks }
    (ans, s.setPool die (l' :: lines))

/-- The `n` bytes at a target of this module touch a marked unit: of the pool cache's line where it holds one, otherwise of
the storage below (R448). -/
def State.targetMarked (s : State) (t : Target) (n : Nat) : Bool :=
  match (if kindOf t.pa = 1 then (s.poolLines (homeDie t.pa)).find? fun e => e.line = t.pa / 128 && e.owner = t.owner
    else none) with
  | some l => l.marked (t.pa % 128) n
  | none => s.physMarked t.pa n

/-! ### Requests that leave -/

/-- The helm scalar pipe that a requester's accesses go through, or the cluster memory pipe of an element access (R49):
the number of the helm, or of the cluster. -/
def Who.pipe : Who → Option (Nat ⊕ Nat)
  | .helm u | .fetch u | .code u _ | .store u | .late u _ => some (.inl (helmOf u))
  | .column u _ | .elem u _ _ | .stream u _ => some (.inr (clusterOf u))
  | .drayman _ _ | .hint _ | .matrix _ | .assayer _ | .cox | .fabric | .remote _ _ => none

/-- Requests that a pipe holds at most (R49). -/
def pipeLimit : Nat ⊕ Nat → Nat
  | .inl _ => 64
  | .inr _ => 8192

/-- A requester's pipe is full: its request is held at issue (R49). -/
def State.pipeFull (s : State) (who : Who) : Bool :=
  match who.pipe with
  | none => false
  | some p => pipeLimit p ≤ ((s.ports.map (·.who) ++ s.outstanding.map (·.who)).filter fun w => w.pipe = some p).length

/-- A request to a pool port or to the host is made, under the key that is installed now (R32). -/
def State.askPort (s : State) (host : Bool) (who : Who) (t : Target) (op : RemoteOp) (parts : List StorePart) : State :=
  { s with ports := s.ports ++ [⟨s.nextPort, host, who, t, op, s.encOf t.owner t.clear t.pa, parts⟩],
           nextPort := s.nextPort + 1 }

/-- A request to the same 256-byte granule is outstanding at a port: later ones wait behind it, so that the stores to a
granule are performed in the order in which they left (R130). -/
def State.portBusy (s : State) (pa : Nat) : Bool := s.ports.any fun p => p.target.pa / 256 = pa / 256

/-- A pooled access at its home die: the answer of a hit, or a request to the pool port (R60, R62), by which one that lies in
two lines always goes. -/
def State.poolStart (s : State) (who : Who) (t : Target) (op : RemoteOp) (parts : List StorePart) :
    Option Answer × State :=
  let die := homeDie t.pa
  if 128 < t.pa % 128 + opSize op then (none, s.askPort false who t op parts)
  else match (s.poolLines die).find? fun e => e.line = t.pa / 128 with
  | some l =>
    if l.owner = t.owner then
      let (a, s) := s.poolHit die l t.pa op (t.pol = .keep)
      (some a, { s with pchit := satInc s.pchit })
    else
      let s := s.dropPool die l
      (none, { s.askPort false who t op parts with pcmiss := satInc s.pcmiss })
  | none =>
    (none, { s.askPort false who t op parts with pcmiss := if s.poolcsz = 0 then s.pcmiss else satInc s.pcmiss })

/-- The bytes of host addresses that the host-line cache holds for an owner, where it holds all of them (R66). -/
def State.hostBytes (s : State) (owner : Owner) (pa n : Nat) : Option (List Byte) :=
  (List.range n).mapM fun i =>
    (s.hostCache.find? fun e => e.line = (pa + i) / 64 && e.owner = owner).bind fun e => e.data[(pa + i) % 64]?

/-- A line of the host-line cache with the bytes of a store at `a` over its own. -/
def HostLine.update (e : HostLine) (a : Nat) (w : List (Option Byte)) : HostLine :=
  { e with data := e.data.zipIdx.map fun b =>
      if a ≤ 64 * e.line + b.2 then (w.getD (64 * e.line + b.2 - a) none).getD b.1 else b.1 }

/-- A host-homed access: a load that hits the host-line cache is answered; everything else goes to the host, and a
store updates a cached copy at once (R66, R67). -/
def State.hostStart (s : State) (who : Who) (t : Target) (op : RemoteOp) (parts : List StorePart) :
    Option Answer × State :=
  match op with
  | .load n =>
    match s.hostBytes t.owner t.pa n with
    | some l => (some (if s.physMarked t.pa n then .poisoned else .bytes l), s)
    | none => (none, s.askPort true who t op parts)
  | .store w | .copied w _ =>
    let upd (e : HostLine) : HostLine := if e.owner = t.owner then e.update t.pa w else e
    (none, ({ s with hostCache := s.hostCache.map upd }).askPort true who t op parts)
  | .amo _ _ _ | .cas _ _ _ | .claim _ | .addElem _ _ | .nibble _ _ | .fold _ _ | .folds _ _ | .probe
  | .invalidate _ _ _ | .release _ => (none, s.askPort true who t op parts)

/-- Begin an access at its home on this module: the answer where it is served at once. Its home checks that it reaches
storage, the host port against the grant windows (R25, R97); an access that has translated earlier may find that it
does so no more. One that finds its pipe full is held (R49). -/
def State.homeStart (s : State) (who : Who) (t : Target) (op : RemoteOp) (parts : List StorePart) :
    Option Answer × State :=
  match s.physFault t.pa with
  | some f => (some (if f.cls = 6 then .hostDetached else .unimplemented), s)
  | none =>
    match kindOf t.pa with
    | 0 =>
      if s.pipeFull who then (none, s)
      else
        let (a, s) := s.physOp (s.encOf t.owner t.clear t.pa) t.pa op
        (some a, s)
    | 1 => if s.portBusy t.pa || s.pipeFull who then (none, s) else s.poolStart who t op parts
    | _ => if s.portBusy t.pa || s.pipeFull who then (none, s) else s.hostStart who t op parts

/-! ### The fabric (R103, R104) -/

/-- XOR of the bytes of PA bits 55:8 (R103). -/
def fold8 : Nat → Nat → Nat
  | 0, _ => 0
  | k + 1, n => (n % 256) ^^^ fold8 k (n / 256)

/-- The hash g of a granule (R103). -/
def granuleHash (pa : Nat) : Nat := fold8 6 (pa % 2 ^ 52 / 256)

/-- The planes of a mask in ascending order. -/
def planesOf (mask : BitVec 4) : List Nat := (List.range 4).filter fun p => mask.getLsbD p

/-- The plane of a granule under a mask (R103). -/
def planeOf (mask : BitVec 4) (pa : Nat) : Nat :=
  let l := planesOf mask
  l.getD (granuleHash pa % l.length) 0

/-- The link of a granule on a plane: the first that is up, counting from g[7:5] (R103). -/
def State.linkOf (s : State) (plane pa : Nat) : Nat :=
  let start := granuleHash pa / 32
  match (List.range 8).find? fun i => s.linkup.getLsbD (8 * plane + (start + i) % 8) with
  | some i => (start + i) % 8
  | none => start

/-- The address of the peer plane table entry of a module (R122). -/
def State.peerAddr (s : State) (m : ModNum) : Nat := s.pptbase.toNat % 2 ^ 52 + 4 * m.toNat

/-- The peer plane table entry of a module (R122). -/
def State.peerView (s : State) (m : ModNum) : PlaneView :=
  let e := s.deviceRead (s.peerAddr m) 4
  ⟨BitVec.ofNat 4 e, BitVec.ofNat 24 (e / 256)⟩

/-- Write a peer plane table entry (R113, R116). -/
def State.setPeerView (s : State) (m : ModNum) (v : PlaneView) : State :=
  s.deviceWrite (s.peerAddr m) 4 (v.mask.toNat + 256 * v.count.toNat)

/-- The strand and unit that a requester's record names (R46). A commit of the Assayer is no strand's access: it names
strand 0 of its cluster (log 90). For the Cox's own accesses R46 has no unit and R123 no place: they name place 0 and unit 0
(DESIGN CHOICE, log 110). -/
def Who.place : Who → Nat × Nat
  | .helm u | .fetch u | .store u | .code u _ | .late u _ => (u, 0)
  | .column u _ | .elem u _ _ | .stream u _ => (u, 1)
  | .drayman c i => (8 * c + (i.extractLsb' 32 3).toNat, 2)
  | .hint u => (u, 2)
  | .matrix u => (u, 3)
  | .assayer c => (8 * c, 4)
  | .cox | .fabric => (0, 0)
  | .remote _ _ => (0, 5)

/-- Send a request to another module (R103 to R106): the failure NO-PLANE at once, or the request outstanding, held
where its target is stopped (R116); none where its pipe is full (R49). A request that NO-PLANE ends was never attempted:
its record names plane 0 and the link of R103 there (log 88). -/
def State.sendRemote (s : State) (who : Who) (m : ModNum) (t : Target) (op : RemoteOp) (acc : Acc) (ident : Word)
    (strip : Option (Word × Nat × Nat)) (parts : List StorePart) : Option Answer × State :=
  let view := s.peerView m
  let both := s.live &&& view.mask
  let plane := planeOf both t.pa
  let o : Outstanding :=
    { tag := s.nextTag, who := who, target := m, pa := t.pa, va := t.va, owner := t.owner, op := op,
      acc := BitVec.ofNat 3 acc.code, ident := ident,
      state := if Tab.get .running s.peers m.toNat = .running then .sent else .held
      plane := BitVec.ofNat 2 plane, link := BitVec.ofNat 3 (s.linkOf plane t.pa), view := view, replay := false,
      returned := 0, failure := 0, strip := strip, level := t.level, parts := parts }
  if both = 0 then
    let (u, unit) := who.place
    (some (.failed 4), (s.deviceLog (s.peerAddr m) 4).logFabric o 4 u unit)
  else if s.pipeFull who then (none, s)
  else
    let s := s.deviceLog (s.peerAddr m) 4
    (none, { s with outstanding := s.outstanding ++ [o], nextTag := s.nextTag + 1 })

/-- The line that a target lies in, as a target of its own. -/
def Target.lineOf (t : Target) : Target := { t with pa := t.pa / 128 * 128, va := t.va - BitVec.ofNat 64 (t.pa % 128) }

/-! ### Ready and now: accesses that an instruction waits for -/

/-- Two accesses are the same: requester, module, address and operation. -/
def Arrived.matches (a : Arrived) (who : Who) (t : Target) (op : RemoteOp) : Bool :=
  a.who = who && a.target = t.module && a.pa = t.pa && a.op = op

/-- The access has been requested and not answered. -/
def State.asked (s : State) (who : Who) (t : Target) (op : RemoteOp) : Bool :=
  match t.module with
  | some m => s.outstanding.any fun o => o.who = who && o.target = m && o.pa = t.pa && o.op = op
  | none => s.ports.any fun p => p.who = who && p.target.pa = t.pa && p.op = op

/-- What an operation writes into byte `i` of those it names, as a held write shows it (R140): none where it does not
write the byte, and `some none` where its value is known at the target alone. -/
def opHolds (i : Nat) : RemoteOp → Option (Option Byte)
  | .store w => (w.getD i none).map some
  | .amo .swap sz b => if i < sz.bytes then some (some (b.extractLsb' (8 * i) 8)) else none
  | .amo _ sz _ | .cas sz _ _ => if i < sz.bytes then some none else none
  | .claim _ => if i < 8 then some none else none
  | .addElem ty _ => if i < ElemTy.bits ty / 8 then some none else none
  | .nibble _ _ => if i = 0 then some none else none
  | .load _ | .fold _ _ | .folds _ _ | .copied _ _ | .probe | .invalidate _ _ _ | .release _ => none

/-- The strand whose write is held at the fabric port (R140): a scalar store, an atomic or a store element. Writes of
engine operations are not held. -/
def Who.holds : Who → Option Nat
  | .store u | .elem u _ _ | .helm u | .column u _ => some u
  | .fetch _ | .code _ _ | .late _ _ | .drayman _ _ | .hint _ | .matrix _ | .stream _ _ | .assayer _ | .cox | .fabric
  | .remote _ _ => none

/-- The youngest held remote write of a cluster to byte `a` of a module: its tag, and the byte where it is known
(R140). -/
def State.heldByte (s : State) (c : Nat) (m : ModNum) (a : Nat) : Option (Nat × Byte) :=
  let covers (o : Outstanding) : Option (Nat × Option Byte) :=
    if o.target = m && o.pa ≤ a && o.who.holds.map clusterOf = some c then
      (opHolds (a - o.pa) o.op).map fun b => (o.tag, b)
    else none
  (s.outstanding.filterMap covers).getLast?.bind fun e => e.2.map fun b => (e.1, b)

/-- The bytes of a load served from the cluster's held data, where it covers all of them (R140). -/
def State.forward (s : State) (c : Nat) (t : Target) (n : Nat) : Option (List (Nat × Byte)) :=
  match t.module with
  | none => none
  | some m => (List.range n).mapM fun i => s.heldByte c m (t.pa + i)

/-- An instruction of the helm is in the midst of an access that leaves the cluster (R110, R234). -/
def State.midAccess (s : State) (u : Nat) : Bool :=
  s.ports.any (fun p => p.who = .helm u) || s.outstanding.any (fun o => o.who = .helm u)
    || s.arrived.any (fun a => a.who = .helm u)

/-- The strands of helm `h` whose access under way was asked for by now: what it brings is older than what happens now. -/
def State.olderLoads (s : State) (h : Nat) : List Nat := [2 * h, 2 * h + 1].filter s.midAccess

/-- Lines leave the data cache of helm `h`, but those that `keep` names, and none that a load has asked for by now enters
it (R70, R128, R131, R139). -/
def State.dropData (s : State) (h : Nat) (keep : CacheLine → Bool) : State :=
  s.setHelm h { s.helm h with dcache := (s.helm h).dcache.filter keep, stale := s.olderLoads h }

/-- No line. -/
def noLine (_ : CacheLine) : Bool := false

/-- A line other than a target's. -/
def CacheLine.apart (e : CacheLine) (t : Target) : Bool := !(e.module = t.module && e.line = t.pa / 128)

/-- Strand `u` has read held bytes: the tags of their stores are kept for a fence of system scope (R141), and the lines
of the helm's data cache that hold the granule's older bytes leave it, so that no later load of the strand returns
them (R131). -/
def State.readHeld (s : State) (u : Nat) (t : Target) (l : List (Nat × Byte)) : State :=
  (s.setStrand u { s.strand u with
    forwarded := l.foldl (fun f e => keyInsert f e.1) (s.strand u).forwarded }).dropData (helmOf u) (·.apart t)

/-- The cluster whose held data a requester's loads see: strands only (R140). -/
def Who.cluster : Who → Option Nat
  | .helm u | .column u _ => some (clusterOf u)
  | .fetch _ | .code _ _ | .store _ | .late _ _ | .elem _ _ _ | .drayman _ _ | .hint _ | .matrix _ | .stream _ _
  | .assayer _ | .cox | .fabric | .remote _ _ => none

/-- What an access at a target answers now, or a request for it: none while it must wait. -/
def State.access (s : State) (who : Who) (acc : Acc) (ident : Word) (t : Target) (op : RemoteOp) :
    Option Answer × State :=
  match s.arrived.find? fun a => a.matches who t op with
  | some a => (some a.answer, s)
  | none =>
    if s.asked who t op then (none, s)
    else
      match t.module with
      | none => s.homeStart who t op []
      | some m => s.sendRemote who m t op acc ident none []

/-- Keep an answer for the access that waits for it. -/
def State.keepAnswer (s : State) (who : Who) (t : Target) (op : RemoteOp) (a : Answer) : State :=
  { s with arrived := s.arrived ++ [⟨who, t.module, t.pa, op, a⟩] }

/-- Forget the answers kept for a requester: its instruction has used them. -/
def State.forget (s : State) (who : Who) : State := { s with arrived := s.arrived.filter fun a => a.who != who }

/-- An access of the instruction being issued by strand `u`: it waits until its answer is there, and the answer is
used up. Loads may be served from the cluster's held data (R140). -/
def askM (who : Who) (acc : Acc) (ident : Word) (t : Target) (op : RemoteOp) : M Answer := fun s =>
  let fwd := match op, who.cluster with
    | .load n, some c => s.forward c t n
    | _, _ => none
  match fwd, who with
  | some l, .helm u | some l, .column u _ =>
    .ok (.bytes (l.map (·.2))) (s.readHeld u t l)
  | _, _ =>
    match s.access who acc ident t op with
    | (some a, s) => .ok a { s with arrived := s.arrived.filter fun e => !e.matches who t op }
    | (none, s) => .error .wait s

/-- Whether the answer of an access is at hand; a request is made where it must come from outside. The answer of an
access that is served at once is not taken. -/
def readyM (who : Who) (acc : Acc) (ident : Word) (t : Target) (n : Nat) : M Bool := fun s =>
  let op := RemoteOp.load n
  let fwd := (who.cluster.bind fun c => s.forward c t n).isSome
  if fwd || s.arrived.any (fun a => a.matches who t op) then .ok true s
  else if s.asked who t op then .ok false s
  else
    match t.module with
    | none =>
      if kindOf t.pa = 0 then .ok ((s.physFault t.pa).isSome || !s.pipeFull who) s
      else
        match s.homeStart who t op [] with
        | (some a, s) => .ok true (s.keepAnswer who t op a)
        | (none, s) => .ok false s
    | some m =>
      match s.sendRemote who m t op acc ident none [] with
      | (some a, s) => .ok true (s.keepAnswer who t op a)
      | (none, s) => .ok false s

/-! ### Stores that are held back -/

/-- A failed remote store of a strand is reported through FABPEND and FABADDR: they keep the oldest unreported one
(R111). -/
def Strand.reportStore (t : Strand) (code : BitVec 4) (p : StorePart) : Strand :=
  if t.fabpend && t.fabseq ≤ p.seq then t
  else { t with fabpend := true, fabcode := code, fabaddr := p.va, fabseq := p.seq }

/-- The agent that the records of a store name. -/
def StorePart.agent (p : StorePart) (u unit : Nat) (owner : Owner) : Agent := ⟨u, .kernel, owner, unit, 0, p.ident⟩

/-- A strand with a HOST-DETACHED access of an instruction noted: the lowest element stands for all of them (R98). -/
def Strand.noteDetached (t : Strand) (n : DetachNote) : Strand :=
  let lower (e : DetachNote) : Bool := match n.elem, e.elem with
    | some i, some j => i < j
    | some _, none | none, _ => false
  { t with detachNotes :=
      if t.detachNotes.any (·.seq = n.seq) then t.detachNotes.map fun e => if e.seq = n.seq && lower e then n else e
      else t.detachNotes ++ [n] }

/-- The fault-queue record of a HOST-DETACHED access of strand `u` (R94, R98). -/
def State.recordDetached (s : State) (u unit : Nat) (n : DetachNote) : State :=
  let ag : Agent := ⟨u, .kernel, n.owner, unit, 0, n.ident⟩
  s.queueFault ag (accessOwner ag n.va) n.va n.len ⟨6, 0, n.level, psizeOfLevel n.level⟩
    (if n.write then .write else .read) false n.elem

/-- The note of a store that meets a detached grant window. -/
def StorePart.note (p : StorePart) (t : Target) : DetachNote :=
  ⟨p.seq, p.elem, p.va, p.len, t.level, true, t.owner, p.ident⟩

/-- A store meets a detached grant window: it is dropped. A scalar store leaves its record at once; an element is noted for
the record of its instruction (R98). -/
def State.detachedStore (s : State) (u unit : Nat) (t : Target) (p : StorePart) : State :=
  if p.elem.isSome then s.setStrand u ((s.strand u).noteDetached (p.note t)) else s.recordDetached u unit (p.note t)

/-- The level of storage that a target names, for error records (R455). -/
def State.levelOf (s : State) (t : Target) : Nat :=
  match kindOf t.pa with
  | 0 => 2
  | 1 => if (s.poolLines (homeDie t.pa)).any (fun l => l.line = t.pa / 128) then 3 else 4
  | _ => 5

/-- The level of a local address: TCM or scratchpad (R455). -/
def localLevel (a : Nat) : Nat := if a < 2 ^ 30 then 0 else 1

/-- A uncorrectable error is consumed: one record, which names the unit's address, counted in UECOUNT (R450, R454, R455);
the record's index. -/
def State.consume (s : State) (ag : Agent) (addr level elem : Nat) : State × Word :=
  let (s, i) := s.logError (addr / 64 * 64) 1 level ag.uid 0 ag.owner elem ag.ident
  ({ s with uecount := satInc s.uecount }, i)

/-- An update of a scatter-add meets a mark as it is performed: it is not applied, and the error is consumed (R450). Its
instruction has gone on by then, so that the record alone reports it (log 102). -/
def State.updateLost (s : State) (u unit : Nat) (owner : Owner) (addr level : Nat) (parts : List StorePart) : State :=
  match parts.head? with
  | some p => (s.consume (p.agent u unit owner) addr level (p.elem.getD 0)).1
  | none => s

/-- The access code of a store's operation. -/
def storeAcc (op : RemoteOp) : Acc := if opAtomic op then .atomic else .write

/-- What the answer of a store does (R25, R46, R98, R111): a failure is reported, a detached range leaves a fault-queue
record, and a violation is logged, with the kind REMOTE-REFUSED where another module has refused it. The store has left
its instruction behind by then, so that no trap can be precise: the record alone reports it (log 91). -/
def State.storeAnswered (s : State) (u unit : Nat) (t : Target) (op : RemoteOp) (parts : List StorePart) (a : Answer) :
    State :=
  let oldest := parts.head?
  match a with
  | .failed code =>
    match oldest with
    | some p => s.setStrand u ((s.strand u).reportStore code p)
    | none => s
  | .hostDetached => parts.foldl (fun s p => s.detachedStore u unit t p) s
  | .violation =>
    match oldest with
    | some p => s.logViolation (p.agent u unit t.owner) s.modnum p.va false (storeAcc op) 5
    | none => s
  | .unimplemented =>
    parts.foldl (fun s p => s.logViolation (p.agent u unit t.owner) s.modnum p.va false (storeAcc op) 7) s
  | .poisoned => if opAtomic op then s.updateLost u unit t.owner (if t.module.isNone then t.pa else 0) (s.levelOf t) parts else s
  | .bytes _ | .claimed _ _ | .acked | .remoteFault | .outside => s

/-- Update the issuing helm's data cache when a write-buffer entry leaves (R69). -/
def Helm.applyStore (h : Helm) (t : Target) (bytes : Tab Byte) : Helm :=
  { h with dcache := h.dcache.map fun l =>
      if l.module = t.module && l.line = t.pa / 128 && l.owner = t.owner then
        { l with data := (List.range 128).map fun i =>
            match bytes.find? (fun e => e.1 = i) with
            | some e => e.2
            | none => l.data.getD i 0 }
      else l }

/-- The store operation of a write-buffer entry: its first byte's offset in the line, and the bytes. -/
def bufOp (bytes : Tab Byte) : Nat × RemoteOp :=
  let lo := (bytes.head?.map (·.1)).getD 0
  let hi := (bytes.getLast?.map (·.1)).getD 0
  (lo, .store ((List.range (hi + 1 - lo)).map fun i => (bytes.find? fun e => e.1 = lo + i).map (·.2)))

/-- A store leaves for its home: performed at once, or a request made; none where it cannot leave yet. -/
def State.storeLeaves (s : State) (who : Who) (t : Target) (op : RemoteOp) (parts : List StorePart) : Option State :=
  let (u, unit) := who.place
  let done (a : Option Answer) (s : State) : State := match a with
    | some a => s.storeAnswered u unit t op parts a
    | none => s
  if s.pipeFull who then none
  else
    match t.module with
    | some m =>
      let (a, s) := s.sendRemote who m t op (storeAcc op) ((parts.head?.map (·.ident)).getD 0) none parts
      some (done a s)
    | none =>
      if kindOf t.pa != 0 && s.portBusy t.pa then none
      else
        let (a, s) := s.homeStart who t op parts
        some (done a s)

/-- What a load of strand `u` has of a target's line, or has asked for, is older than a store of the strand that leaves
now: the load asks again (R128). -/
def State.askAgain (s : State) (u : Nat) (t : Target) : State :=
  let line (pa : Nat) : Bool := pa / 128 = t.pa / 128
  { s with
    arrived := s.arrived.filter fun a => !(a.who = .helm u && opReads a.op && a.target = t.module && line a.pa)
    outstanding := s.outstanding.map fun o =>
      if o.who = .helm u && opReads o.op && some o.target = t.module && line o.pa then { o with who := o.who.unheard u } else o
    ports := s.ports.map fun p =>
      if p.who = .helm u && opReads p.op && t.module.isNone && line p.target.pa then { p with who := p.who.unheard u } else p }

/-- An entry of a strand's write buffer leaves for its home, if it can (R69). -/
def State.drainEntry (s : State) (u : Nat) (e : BufEntry) : State :=
  let (lo, op) := bufOp e.bytes
  let t := { e.target with pa := e.target.pa / 128 * 128 + lo }
  match s.storeLeaves (.store u) t op e.parts with
  | none => s
  | some s =>
    let t := s.strand u
    let s := (s.setStrand u { t with writeBuffer := t.writeBuffer.erase e }).askAgain u e.target
    s.setHelm (helmOf u) { (s.helm (helmOf u)).applyStore e.target e.bytes with stale := s.olderLoads (helmOf u) }

/-- The oldest entry of a strand's write buffer leaves for its home (R69). -/
def State.drainOne (s : State) (u : Nat) : State :=
  match (s.strand u).writeBuffer with
  | [] => s
  | e :: _ => s.drainEntry u e

/-- The entries of a strand's write buffer for other modules leave, in order. -/
def State.drainRemote (s : State) (u : Nat) : State :=
  ((s.strand u).writeBuffer.filter fun e => e.target.module.isSome).foldl (fun s e => s.drainEntry u e) s

/-- The whole write buffer leaves, as far as it can: `n` entries. -/
def State.drainAll (s : State) (u : Nat) : Nat → State
  | 0 => s
  | n + 1 => (s.drainOne u).drainAll u n

/-- Scalar stores of a strand that have left and are not acknowledged. -/
def State.storesOut (s : State) (u : Nat) : Bool :=
  s.ports.any (fun p => p.who = .store u) || s.outstanding.any (fun o => o.who = .store u)

/-- The write buffer is empty and its stores are acknowledged (R70). -/
def State.bufferClear (s : State) (u : Nat) : Bool := (s.strand u).writeBuffer.isEmpty && !s.storesOut u

/-- Drain the write buffer, and wait until its stores are acknowledged (R70, R142). -/
def drainM (u : Nat) : M Unit := fun s =>
  let s := s.drainAll u (s.strand u).writeBuffer.length
  if s.bufferClear u then .ok () s else .error .wait s

/-! ### Memory slices (R74, R75) -/

/-- XOR of the 4-bit chunks of a number. -/
def fold4 : Nat → Nat → Nat
  | 0, _ => 0
  | k + 1, n => (n % 16) ^^^ fold4 k (n / 16)

/-- The slice of a physical address (R74). -/
def paSlice (pa : Nat) : Nat := fold4 11 (pa % 2 ^ 52 / 256)

/-- The slice of a translated address. -/
def targetSlice (t : Target) : Nat := paSlice t.pa

/-- The slice of a local address: the line number modulo 16. -/
def localSlice (a : Nat) : Nat := a / 128 % 16

/-- A requester is a store element of strand `u`, of an instruction up to `iid`, that `p` accepts the lane group of. -/
def Who.isElem (w : Who) (u iid : Nat) (p : Nat → Bool) : Bool :=
  match w with
  | .elem v j lg => v = u && j ≤ iid && p lg
  | .helm _ | .fetch _ | .code _ _ | .store _ | .late _ _ | .column _ _ | .drayman _ _ | .hint _ | .matrix _
  | .stream _ _ | .assayer _ | .cox | .fabric | .remote _ _ => false

/-- A store element of strand `u`'s instructions up to `iid`, of one lane group and slice, has left and is not
performed. -/
def State.elemOutSlice (s : State) (u iid laneGroup slice : Nat) : Bool :=
  s.ports.any (fun p => p.who.isElem u iid (· = laneGroup) && paSlice p.target.pa = slice)
    || s.outstanding.any (fun o => o.who.isElem u iid (· = laneGroup) && paSlice o.pa = slice)

/-- Two entries write a common byte. -/
def ElemStore.overlaps (e f : ElemStore) : Bool :=
  let meets (a b : Nat) : Bool := decide (a < b + opSize f.write) && decide (b < a + opSize e.write)
  match e.local?, f.local? with
  | some a, some b => meets a b
  | none, none => e.target.module = f.target.module && meets e.target.pa f.target.pa
  | _, _ => false

/-- An entry carries store elements, as opposed to updates (R291). -/
def ElemStore.stores (e : ElemStore) : Bool := !opAtomic e.write

/-- An entry may be delivered now: a window line that it writes is full (R55), no element access of an older instruction
of its lane group and slice is under way (R128), and no entry in front of it holds a lower element of its own
instruction with a byte in common, which is the earlier store (R128, R286). -/
def State.mayDeliver (s : State) (c : Nat) (e : ElemStore) : Bool :=
  (match e.local? with
    | some a => s.localFull a (opSize e.write)
    | none => true)
  && (e.iid = 0 || !s.elemOutSlice e.uid (e.iid - 1) e.laneGroup e.slice)
  && !((s.cluster c).storeQueue.takeWhile (· != e)).any fun f =>
      f.uid = e.uid && f.iid = e.iid && f.stores && e.stores && e.overlaps f

/-- Deliver the oldest entry of a store queue that has not left, and perform it (R75, R125). -/
def State.deliverOne (s : State) (c laneGroup slice : Nat) : State :=
  let q := (s.cluster c).storeQueue
  match q.find? fun e => e.laneGroup = laneGroup && e.slice = slice with
  | none => s
  | some e =>
    let gone (s : State) : State := s.setCluster c { s.cluster c with storeQueue := (s.cluster c).storeQueue.erase e }
    if !s.mayDeliver c e then s
    else
      match e.local? with
      | some a =>
        let (ans, t) := s.localOp e.mode e.target.owner a e.write
        if ans = .poisoned && opAtomic e.write then (gone t).updateLost e.uid 1 e.target.owner 0 (localLevel a) e.parts
        else gone t
      | none =>
        match (gone s).storeLeaves (.elem e.uid e.iid e.laneGroup) e.target e.write e.parts with
        | none => s
        | some s => s

/-- A requester is a store element of strand `u`, of instruction `iid`. -/
def Who.elemOf (w : Who) (u iid : Nat) : Bool :=
  match w with
  | .elem v j _ => v = u && j = iid
  | .helm _ | .fetch _ | .code _ _ | .store _ | .late _ _ | .column _ _ | .drayman _ _ | .hint _ | .matrix _
  | .stream _ _ | .assayer _ | .cox | .fabric | .remote _ _ => false

/-- Element accesses of instruction `iid` of strand `u` that are not performed (R282). -/
def State.ownElemsOut (s : State) (u iid : Nat) : Bool :=
  (s.cluster (clusterOf u)).storeQueue.any (fun e => e.uid = u && e.iid = iid)
    || s.ports.any (fun p => p.who.elemOf u iid) || s.outstanding.any (fun o => o.who.elemOf u iid)

/-- Element accesses of instructions of strand `u` with serial number at most `iid` that are not performed. -/
def State.elemsOut (s : State) (u iid : Nat) : Bool :=
  (s.cluster (clusterOf u)).storeQueue.any (fun e => e.uid = u && e.iid ≤ iid)
    || s.ports.any (fun p => p.who.isElem u iid fun _ => true)
    || s.outstanding.any (fun o => o.who.isElem u iid fun _ => true)

/-- Every element access of a strand is performed. -/
def State.elemsClear (s : State) (u : Nat) : Bool := !s.elemsOut u (s.strand u).nextIid

end Sys2Proof.Machine
end

