-- ==== Sys2Proof/Machine/Operands.lean ====
section
/-!
DEFINITION. Operand forms: immediates, branch targets and addresses of scalar words (R179, R186, R226, R231), and the
agent on whose behalf a strand's helm makes its accesses.
-/

namespace Sys2Proof.Machine

/-- The sign-extended imm32 field (R186, R226). -/
def immVal (imm : BitVec 32) : Word := imm.signExtend 64

/-- The target of BR, BCMP and CALL: the instruction's own address plus 8 x the sign-extended offset (R179). -/
def branchTarget (pc : Word) (off : BitVec 32) : Word := pc + (immVal off <<< 3)

/-- A target taken from a register: bits 2:0 nonzero take ALIGN, with tval the target (R179). -/
def checkedTarget (a : Word) : M Word := if a.extractLsb' 0 3 = 0 then pure a else alignTrap a

/-- The address of an immediate-offset access (R231). -/
def offsetAddr (base : Word) (off : BitVec 32) : Word := base + immVal off

/-- The address of a register-indexed access: x[xa] + x[xb] x size (R186, R231). -/
def indexedAddr (base index : Word) (size : MemSize) : Word := base + index * BitVec.ofNat 64 size.bytes

/-- A naturally aligned address (R231). -/
def aligned (a : Word) (n : Nat) : Bool := a.toNat % n = 0

/-- A misaligned scalar access takes ALIGN before any effect (R231). -/
def needAligned (a : Word) (n : Nat) : M Unit := if aligned a n then pure () else alignTrap a

/-- The agent of a strand's scalar pipe (R28, R46). -/
def State.scalarAgent (s : State) (u : Nat) : Agent :=
  let t := s.strand u
  ⟨u, t.mode, t.owner, 0, 0, t.pc⟩

/-- Read three registers' worth of operands in one go: two. -/
def readX2 (u : Nat) (ra rb : Reg) : M (Word × Word) := do
  let a ← readX u ra
  let b ← readX u rb
  pure (a, b)

end Sys2Proof.Machine
end

