-- ==== Sys2Proof/Machine/HelmMem.lean ====
section
/-!
DEFINITION. Accesses that a helm makes for its own instructions (R44, R55, R88, R98, R111, R450, R451), held writes of
surrogate tiles (R416, R417), and areas that one instruction moves in many pieces.
-/

namespace Sys2Proof.Machine

/-! ### Refused accesses and failures -/

/-- An access that a helm makes is refused: the answers kept for the instruction are forgotten, a violation is logged,
and the precise access trap is taken (R44, R46, R88). -/
def accessTrap {α : Type} (ag : Agent) (acc : Acc) (va : Word) (f : AFault) : M α := do
  modS fun s => (s.logIfViolation ag acc va f).forget (.helm ag.uid)
  trapWith 4 f.cls va

/-- MACHINE-CHECK at the instruction of the helm, before any effect of it (R451). -/
def machineCheck {α : Type} (ag : Agent) (addr level : Nat) : M α := do
  let s ← getS
  let (s', i) := s.consume ag addr level 0
  modS fun _ => s'.forget (.helm ag.uid)
  trapWith 131 0 i

/-- What the answer of an access means to the helm's instruction: the answer of an access that completed, or the trap
of one that did not (R46, R98, R111, R451). -/
def helmAnswer (ag : Agent) (acc : Acc) (va : Word) (t : Target) (a : Answer) : M Answer :=
  match a with
  | .bytes l => pure (.bytes l)
  | .claimed x n => pure (.claimed x n)
  | .acked => pure .acked
  | .violation => accessTrap ag acc va ⟨3, 5, 7, 1⟩
  | .unimplemented => accessTrap ag acc va ⟨3, 7, 7, 1⟩
  | .outside => accessTrap ag acc va ⟨5, 0, 7, 1⟩
  | .hostDetached => accessTrap ag acc va ⟨6, 0, 7, 1⟩
  | .remoteFault => accessTrap ag acc va ⟨8, 0, 7, 1⟩
  | .poisoned => do
    let s ← getS
    machineCheck ag t.pa (s.levelOf t)
  | .failed c => do
    modS (·.forget (.helm ag.uid))
    trapWith 6 c.toNat va

/-- Where an access of the helm goes, or the trap of R88. -/
def placeM (ag : Agent) (acc : Acc) (va : Word) (n : Nat) : M Place := do
  match ← resolveM ag acc va n with
  | .ok p => pure p
  | .error f => accessTrap ag acc va f

/-- A control-space place that the instruction may not reach (R34). -/
def controlTrap {α : Type} (ag : Agent) (acc : Acc) (va : Word) : M α := accessTrap ag acc va ⟨3, 2, 7, 1⟩

/-- A window access of the helm: it waits for full lines (R55), and is performed at once. -/
def localM (ag : Agent) (a : Nat) (op : RemoteOp) : M Answer := do
  let s ← getS
  waitUnless (s.localFull a (opSize op))
  let (ans, s') := s.localOp ag.mode ag.owner a op
  match ans with
  | .poisoned => machineCheck ag 0 (localLevel a)
  | .bytes _ | .claimed _ _ | .acked | .violation | .unimplemented | .outside | .hostDetached | .remoteFault
  | .failed _ => do
    modS fun _ => s'
    pure ans

/-- An access that the instruction makes among others: its answer is kept until the instruction has completed
(log 8). -/
def keepM (who : Who) (acc : Acc) (ident : Word) (t : Target) (op : RemoteOp) : M Answer := fun s =>
  match s.arrived.find? fun a => a.matches who t op with
  | some a => .ok a.answer s
  | none =>
    match s.access who acc ident t op with
    | (some a, s) => .ok a (s.keepAnswer who t op a)
    | (none, s) => .error .wait s

/-- The target under which the answer of a window access is kept. -/
def windowTarget (owner : Owner) (va : Word) (a : Nat) : Target := ⟨none, 2 ^ 52 + a, owner, false, .default, va, 7⟩

/-- A window access that the instruction makes among others: performed once, its answer kept as those of `keepM` are. -/
def keepLocal (ag : Agent) (va : Word) (a : Nat) (op : RemoteOp) : M Answer := fun s =>
  let t := windowTarget ag.owner va a
  match s.arrived.find? fun r => r.matches (.helm ag.uid) t op with
  | some r => .ok r.answer s
  | none =>
    match localM ag a op s with
    | .ok ans s => .ok ans (s.keepAnswer (.helm ag.uid) t op ans)
    | .error e s => .error e s

/-- Lower a dependence counter by 1. -/
def Kept.lower (k : Kept) (d : BitVec 3) : Kept :=
  if d = 0 then k else { k with dctr := k.dctr.set d.toNat (k.dctr[d.toNat] - 1) }

/-- Raise a dependence counter by 1. -/
def Kept.raise (k : Kept) (d : BitVec 3) : Kept :=
  if d = 0 then k else { k with dctr := k.dctr.set d.toNat (k.dctr[d.toNat] + 1) }

/-- The pushed instructions of a strand that have completed (R282): they have executed and their own element accesses are
performed. -/
def State.completedOpens (s : State) (u : Nat) : List OpenInstr :=
  (s.strand u).openInstrs.filter fun o => o.executed && !s.ownElemsOut u o.iid

/-- The instructions of strand `u` that have met HOST-DETACHED elements and whose accesses are all over. -/
def State.detachedOver (s : State) (u : Nat) : List DetachNote :=
  let t := s.strand u
  t.detachNotes.filter fun n => !t.queue.any (fun m => m.iid = n.seq && !m.done) && !s.ownElemsOut u n.seq

/-- They write their records (R98). -/
def State.reportDetached (s : State) (u : Nat) : State :=
  let l := s.detachedOver u
  if l.isEmpty then s
  else
    let t := s.strand u
    l.foldl (fun s n => s.recordDetached u 1 n)
      (s.setStrand u { t with detachNotes := t.detachNotes.filter fun n => !l.contains n })

/-- Completed instructions lower their counters and are forgotten (R282). One with the S bit has ordered its elements
before younger scalar accesses, so that no line that the helm's data cache holds may answer those (R139). -/
def State.settle (s : State) (u : Nat) : State :=
  let s := s.reportDetached u
  let l := s.completedOpens u
  let t := s.strand u
  if l.isEmpty then s
  else
    let s := s.setStrand u { t with
      openInstrs := t.openInstrs.filter fun o => !l.contains o
      kept := l.foldl (fun k o => k.lower o.d) t.kept }
    if l.any (·.s) then s.dropData (helmOf u) noLine else s

/-- Settle the counters of strand `u`. -/
def settleM (u : Nat) : M Unit := modS (·.settle u)

/-- Younger scalar accesses and forks wait for the element accesses of an instruction with the S bit (R139). -/
def sHold (u : Nat) : M Unit := do
  settleM u
  let t ← getStrand u
  waitUnless (!t.openInstrs.any (·.s))

/-! ### Loads that take their values late (R129) -/

/-- The value of loaded bytes: zero-extended, or sign-extended (R231). -/
def extended (sgn : Bool) (l : List Byte) : Word :=
  let w := 8 * l.length
  if sgn then BitVec.ofInt 64 (sintOf w (natOfBytes l)) else BitVec.ofNat 64 (natOfBytes l)

/-- A load's bytes overlap the `n` bytes of a target. -/
def LateLoad.overlaps (l : LateLoad) (t : Target) (n : Nat) : Bool :=
  l.target.module = t.module && decide (l.target.pa < t.pa + n) && decide (t.pa < l.target.pa + l.len)

/-- The value of a load, written to its register without any other effect. -/
def Strand.putLate (t : Strand) (l : LateLoad) (b : List Byte) : Strand :=
  t.putReply ⟨l.reg, l.ui, 0, none, false, true⟩ (extended l.signed b)

/-- A load takes the bytes `b` at this instant. One whose value the strand has gone on from is performed where these give
that value, and otherwise is not performed yet (R129). -/
def Strand.takeLate (t : Strand) (l : LateLoad) (b : List Byte) : Strand :=
  match l.guess with
  | none => t.putLate l b
  | some w => if extended l.signed b = w then { t with late := t.late.filter (· != l) } else t

/-- The answer of a load that takes its value late. -/
def State.lateAnswer (s : State) (u seq : Nat) (a : Answer) : State :=
  match (s.strand u).late.find? fun l => l.seq = seq, a with
  | some l, .bytes b => s.setStrand u ((s.strand u).takeLate l b)
  | _, _ => s

/-- The strand goes on from a value of a load that is still to be performed: a load from translated memory that nothing
has ended (R129). -/
def State.guess (s : State) (u seq : Nat) (w : Word) : State :=
  let t := s.strand u
  match t.late.find? fun l => l.seq = seq && l.guess.isNone with
  | none => s
  | some l =>
    let v := extended l.signed (bytesOfNat l.len w.toNat)
    let upd (k : LateLoad) : LateLoad := if k = l then { l with guess := some v } else k
    s.setStrand u { t.putReply ⟨l.reg, l.ui, 0, none, false, true⟩ v with late := t.late.map upd }

/-! ### Held writes of surrogate tiles (R416 to R418) -/

/-- Strand `u` runs a surrogate tile: the index of the launch in its cluster and of the tile in the launch. -/
def State.tileOf (s : State) (u : Nat) : Option (Nat × Nat) :=
  let g := (s.strand u).gang
  let find (p : Guarded × Nat) : Option (Nat × Nat) :=
    (p.1.tiles.findIdx? fun t => t.gang = g && t.part.isSome).map fun i => (p.2, i)
  if g = 0 then none else (s.cluster (clusterOf u)).launches.zipIdx.findSome? find

/-- A tile of a cluster. -/
def Cluster.tile (c : Cluster) (ix : Nat × Nat) : Option Tile := (c.launches[ix.1]?).bind fun l => l.tiles[ix.2]?

/-- A cluster with one of its tiles replaced. -/
def Cluster.setTile (c : Cluster) (ix : Nat × Nat) (t : Tile) : Cluster :=
  let upd (l : Guarded) : Guarded := { l with tiles := l.tiles.set ix.2 t }
  { c with launches := c.launches.modify ix.1 upd }

/-- The local address of a byte of line `i` of a tile's part (R416). -/
def stagingAddr (cid part i o : Nat) : Nat := spadAddr cid (0x7c0000 + 0x8000 * part + 128 * i + o)

/-- Staging lines with the written bytes of virtual address `va` on over them; a new line is taken at the end. -/
def stageBytes (lines : List (Nat × Tab Byte)) (va : Nat) : List (Option Byte) → List (Nat × Tab Byte)
  | [] => lines
  | none :: t => stageBytes lines (va + 1) t
  | some b :: t =>
    let put (e : Nat × Tab Byte) : Nat × Tab Byte := if e.1 = va / 128 then (e.1, Tab.set e.2 (va % 128) b) else e
    let lines := if lines.any (fun e => e.1 = va / 128) then lines.map put else lines ++ [(va / 128, [(va % 128, b)])]
    stageBytes lines (va + 1) t

/-- The local words that hold staged bytes of `n` bytes at `va`. -/
def stagedWords (cid part : Nat) (lines : List (Nat × Tab Byte)) (va n : Nat) : List Nat :=
  (List.range n).filterMap fun i =>
    match lines.findIdx? fun e => e.1 = (va + i) / 128 && e.2.any fun b => b.1 = (va + i) % 128 with
    | some j => some (stagingAddr cid part j ((va + i) % 128) / 8)
    | none => none

/-- Marks of staging words after a held write: one that covers a whole word clears its mark (R449). -/
def stageMarks (cid part : Nat) (lines : List (Nat × Tab Byte)) (va : Nat) (w : List (Option Byte)) (marks : List Nat) :
    List Nat :=
  let whole := (unitsOf 8 va w.length).filter fun k => unitCovered 8 k va w
  marks.filter fun k => !whole.any fun j => (stagedWords cid part lines (8 * j) 1).contains k

/-- A held write: its bytes go to the tile's staging lines; one that needs a 257th line does not write, and the tile
stops (R416, R418). -/
def State.stage (s : State) (u : Nat) (ix : Nat × Nat) (va : Word) (w : List (Option Byte)) : State :=
  let c := s.cluster (clusterOf u)
  match c.tile ix with
  | none => s
  | some t =>
    let lines := stageBytes t.lines va.toNat w
    if 256 < lines.length then s.setCluster (clusterOf u) (c.setTile ix { t with overflow := true })
    else
      let s := s.setCluster (clusterOf u) (c.setTile ix { t with lines := lines })
      { s with localMarks := stageMarks (clusterOf u) (t.part.getD 0) lines va.toNat w s.localMarks }

/-- Held element stores that one entry would carry clear the marks of the staging words that they cover together (R449):
`halves` are the half-bytes that they write, by their virtual addresses. -/
def State.stageTogether (s : State) (u : Nat) (halves : List Nat) : State :=
  match (s.tileOf u).bind (s.cluster (clusterOf u)).tile with
  | none => s
  | some t =>
    let whole := (halves.map (· / 16)).eraseDups.filter fun k => (List.range 16).all fun j => halves.contains (16 * k + j)
    let words := whole.flatMap fun k => stagedWords (clusterOf u) (t.part.getD 0) t.lines (8 * k) 1
    { s with localMarks := s.localMarks.filter fun w => !words.contains w }

/-- The strand's tile has overflowed, and the strand is still to take the PREEMPT of its kill: it issues and executes nothing
more, but for a handler that runs with KIE = 0 (R408, R418). -/
def State.tileStopped (s : State) (u : Nat) : Bool :=
  let t := s.strand u
  match (s.tileOf u).bind (s.cluster (clusterOf u)).tile with
  | some e => e.overflow && t.preempted.isNone && (t.kie || t.mode = .user)
  | none => false

/-- A staged byte of a virtual address. -/
def stagedByte (lines : List (Nat × Tab Byte)) (va : Nat) : Option Byte :=
  match lines.find? fun e => e.1 = va / 128 with
  | some e => (e.2.find? fun b => b.1 = va % 128).map (·.2)
  | none => none

/-- Loaded bytes with the tile's staged bytes over them (R417). -/
def stagedOver (lines : List (Nat × Tab Byte)) (va : Nat) : List Byte → List Byte
  | [] => []
  | b :: t => (stagedByte lines va).getD b :: stagedOver lines (va + 1) t

/-- Bytes that a strand loads from `va`, with its tile's staged bytes over them. -/
def State.loadOver (s : State) (u : Nat) (va : Word) (l : List Byte) : List Byte :=
  match (s.tileOf u).bind (s.cluster (clusterOf u)).tile with
  | some t => stagedOver t.lines va.toNat l
  | none => l

/-- The tile's staging lines hold each of the `n` bytes at `va`: a load takes none from memory (R417). -/
def State.stagedWhole (s : State) (u : Nat) (va : Word) (n : Nat) : Bool :=
  match (s.tileOf u).bind (s.cluster (clusterOf u)).tile with
  | some t => (List.range n).all fun i => (stagedByte t.lines (va.toNat + i)).isSome
  | none => false

/-- A load of `n` bytes takes a staged byte whose word is marked (R448, R450). -/
def State.stagedMarked (s : State) (u : Nat) (va : Word) (n : Nat) : Bool :=
  match (s.tileOf u).bind (s.cluster (clusterOf u)).tile with
  | some t => (stagedWords (clusterOf u) (t.part.getD 0) t.lines va.toNat n).any s.localMarks.contains
  | none => false

/-- The level code of staging lines (R455). -/
def stagingLevel : Nat := 9

/-! ### Accesses of system instructions -/

/-- A load that the cluster's held remote data covers is served from it; any other access is `body` (R140). -/
def heldOr (u : Nat) (t : Target) (op : RemoteOp) (body : M Answer) : M Answer := do
  let s ← getS
  match op with
  | .load n =>
    match s.forward (clusterOf u) t n with
    | some l => do
      modS (·.readHeld u t l)
      pure (.bytes (l.map (·.2)))
    | none => body
  | .store _ | .amo _ _ _ | .cas _ _ _ | .claim _ | .addElem _ _ | .nibble _ _ | .fold _ _ | .folds _ _ | .copied _ _ | .probe
  | .invalidate _ _ _ | .release _ => body

/-- Lines that the helm's data cache holds leave it. -/
def dropData (u : Nat) : M Unit := modS (·.dropData (helmOf u) noLine)

/-- The bytes of an access to memory by the helm: of a load whose bytes the tile has all staged, none are read (R417). -/
def stagedOr (u : Nat) (va : Word) (op : RemoteOp) (body : M Answer) : M Answer := do
  let s ← getS
  match op with
  | .load n => if s.stagedWhole u va n then pure (.bytes (List.replicate n 0)) else body
  | .store _ | .amo _ _ _ | .cas _ _ _ | .claim _ | .addElem _ _ | .nibble _ _ | .fold _ _ | .folds _ _ | .copied _ _ | .probe
  | .invalidate _ _ _ | .release _ => body

/-- One access of a system instruction that makes several, each of them kept until the instruction completes. A store
by a surrogate tile to translated memory is held (R416). No line that a data cache holds answers a younger load before
those accesses (R125, R248). -/
def areaAccess (u : Nat) (acc : Acc) (va : Word) (op : RemoteOp) : M Answer := do
  let s ← getS
  let ag := s.scalarAgent u
  match ← placeM ag acc va (opSize op) with
  | .local a => keepLocal ag va a op
  | .control _ => controlTrap ag acc va
  | .target t =>
    match op, s.tileOf u with
    | .store w, some ix => do
      modS fun s => s.stage u ix va w
      pure .acked
    | _, _ => do
      let a ← stagedOr u va op (heldOr u t op (keepM (.helm u) acc ag.ident t op))
      dropData u
      match ← helmAnswer ag acc va t a with
      | .bytes l => do
        let s ← getS
        if s.stagedMarked u va l.length then machineCheck ag 0 stagingLevel
        else pure (.bytes (s.loadOver u va l))
      | r => pure r

/-- The bytes of an answer. -/
def Answer.data : Answer → List Byte
  | .bytes l => l
  | .claimed _ _ | .acked | .violation | .unimplemented | .outside | .hostDetached | .poisoned | .remoteFault
  | .failed _ => []

/-- The pieces of an area of `n` bytes at a 64-byte-aligned base: offset and length of each. -/
def pieces (n : Nat) : List (Nat × Nat) := (List.range ((n + 63) / 64)).map fun i => (64 * i, min 64 (n - 64 * i))

/-- Read an area, piece by piece in ascending order. -/
def readArea (u : Nat) (base : Word) (n : Nat) : M (List Byte) := do
  let l ← mapList (pieces n) fun p => do
    let a ← areaAccess u .read (base + BitVec.ofNat 64 p.1) (.load p.2)
    pure a.data
  pure l.flatten

/-- Write an area, piece by piece in ascending order. -/
def writeArea (u : Nat) (base : Word) (l : List Byte) : M Unit :=
  forList (pieces l.length) fun p => do
    let _ ← areaAccess u .write (base + BitVec.ofNat 64 p.1) (.store (writeAll ((l.drop p.1).take p.2)))
    pure ()

/-- Check translation and rights of an area before anything of it moves (R250). -/
def checkArea (u : Nat) (acc : Acc) (base : Word) (n : Nat) : M Unit :=
  forList (pieces n) fun p => do
    let s ← getS
    let va := base + BitVec.ofNat 64 p.1
    match ← placeM (s.scalarAgent u) acc va p.2 with
    | .control _ => controlTrap (s.scalarAgent u) acc va
    | .local _ | .target _ => pure ()

/-- The column queue of the strand is empty (R433: the live queue). -/
def queueEmptyM (u : Nat) : M Unit := do
  let t ← getStrand u
  waitUnless t.queueEmpty

/-- Every older access of the strand is performed: the column queue is empty, the element accesses are performed and
the write buffer is drained. -/
def olderDone (u : Nat) : M Unit := do
  queueEmptyM u
  let s ← getS
  waitUnless (s.elemsClear u)
  drainM u

end Sys2Proof.Machine
end

