-- ==== Sys2Proof/Machine/Sync.lean ====
section
/-!
DEFINITION. What the helm executes to order accesses: fences (R133, R135, R141, R297, R299), the wait for a barrier
(R151, R152, R300) and for a dependence counter (R282, R301).
-/

namespace Sys2Proof.Machine

/-! ### Waits -/

/-- Requests of a strand that are outstanding at other modules (R141). -/
def State.remoteOut (s : State) (u : Nat) : Bool :=
  s.outstanding.any fun o => match o.who with
    | .helm v | .store v | .column v _ | .elem v _ _ => v = u
    | .fetch _ | .code _ _ | .late _ _ | .drayman _ _ | .hint _ | .matrix _ | .stream _ _ | .assayer _ | .cox | .fabric
    | .remote _ _ => false

/-- Held stores that a load of the strand has read and that are not applied yet (R141, step 2). -/
def State.forwardedOut (s : State) (u : Nat) : Bool :=
  (s.strand u).forwarded.any fun tag => s.outstanding.any fun o => o.tag = tag

/-- Stores and store elements of a strand that go to another module and have not left its buffer or its queues. -/
def State.remoteHeld (s : State) (u : Nat) : Bool :=
  (s.strand u).writeBuffer.any (fun e => e.target.module.isSome)
    || (s.cluster (clusterOf u)).storeQueue.any fun e => e.uid = u && e.target.module.isSome

/-- The wait of PFENCE: every older remote request has its final response (R141). Members in the column queue come first,
since they may make such requests; local stores and elements are not waited for. -/
def remoteDone (u : Nat) : M Unit := do
  queueEmptyM u
  modS (·.drainRemote u)
  let s ← getS
  waitUnless (!s.remoteHeld u && !s.remoteOut u)

/-- The acquire of cluster scope or wider (R70). -/
def acquireM (u : Nat) (scope : Scope) : M Unit :=
  match scope with
  | .strand => pure ()
  | .cluster | .die | .module | .system => dropData u

/-- What a release waits for (R133): the element accesses of older vector instructions, those still in the column queue
included; then the write buffer and the remote requests. -/
def releaseM (u : Nat) (scope : Scope) : M Unit := do
  queueEmptyM u
  let s ← getS
  waitUnless (s.elemsClear u)
  match scope with
  | .strand => pure ()
  | .cluster | .die => drainM u
  | .module | .system => do
    drainM u
    remoteDone u

/-- Element updates of a strand, which are atomics (R73), are not all performed. -/
def State.updatesOut (s : State) (u : Nat) : Bool :=
  let mine (w : Who) : Bool := w.isElem u (s.strand u).nextIid fun _ => true
  (s.cluster (clusterOf u)).storeQueue.any (fun e => e.uid = u && opAtomic e.write)
    || s.ports.any (fun p => mine p.who && opAtomic p.op) || s.outstanding.any (fun o => mine o.who && opAtomic o.op)

/-- What a fence with acquire ordering waits for: every older load and atomic (R135). Loads have their values once the
column queue is empty. -/
def acquireWaits (u : Nat) : M Unit := do
  queueEmptyM u
  let s ← getS
  waitUnless (!s.updatesOut u)

/-- The steps of a system-scope fence after those of module scope (R141). -/
def systemWaits (u : Nat) (scope : Scope) : M Unit :=
  match scope with
  | .system => do
    remoteDone u
    let s ← getS
    waitUnless (!s.forwardedOut u)
    modStrand u fun t => { t with forwarded := [] }
  | .strand | .cluster | .die | .module => pure ()

/-- The waits and the invalidation of a fence (R133, R135, R141). -/
def fenceWaits (u : Nat) (scope : Scope) (order : Order) : M Unit := do
  queueEmptyM u
  match order with
  | .relaxed => pure ()
  | .acq => acquireWaits u
  | .rel | .ar => releaseM u scope
  systemWaits u scope
  match order with
  | .relaxed | .rel => pure ()
  | .acq | .ar => acquireM u scope

/-- A failed store that awaits its report is reported to a user-mode fence (R111): the report clears. -/
def fabricReport (u : Nat) : M Unit := do
  let t ← getStrand u
  match t.mode with
  | .user =>
    if t.fabpend then do
      modStrand u fun t => { t with fabpend := false, fabcode := 0, fabaddr := 0 }
      trapWith 6 t.fabcode.toNat t.fabaddr
    else pure ()
  | .kernel | .firmware => pure ()

/-- A fence reports failed stores at module and system scope (R297). -/
def scopeReports : Scope → Bool
  | .module | .system => true
  | .strand | .cluster | .die => false

/-- FENCE (R297). At strand scope with .ar, no line that the helm's data cache holds may answer a younger scalar load, which
an older vector store comes before (R139; log 94). -/
def execFence (scope : Scope) (order : Order) (s : State) : Host.Outcome State Fault Refusal :=
  helmOp (fun u => do
    match scope, order with
    | .strand, .ar => do
      fenceWaits u scope order
      dropData u
    | _, _ => fenceWaits u scope order
    if scopeReports scope then fabricReport u else pure ()) s

/-- PFENCE (R299). -/
def execPfence (s : State) : Host.Outcome State Fault Refusal :=
  helmOp (fun u => do
    remoteDone u
    fabricReport u) s

/-! ### Barriers (R300) -/

/-- The members of a strand's crew or gang. -/
def State.members (s : State) (u : Nat) (gang : Bool) : List GangStrand :=
  match s.cox.gangs.find? fun g => g.serial = (s.strand u).gang with
  | none => []
  | some g => g.strands.filter fun m => gang || m.crew = (s.strand u).crew

/-- The number of the latest arrival that a member has fired; a strand that has ended fires no more (R407). -/
def State.firedOf (s : State) (gang : Bool) (m : GangStrand) : Nat :=
  let k := if m.ended || m.saved then m.kept else (s.strand m.uid).kept
  if gang then k.gangFired else k.crewFired

/-- Every member has fired arrival `a`; a crew or gang of one strand passes at once. -/
def State.allFired (s : State) (u : Nat) (gang : Bool) (a : Nat) : Bool :=
  let l := s.members u gang
  decide (l.length ≤ 1) || l.all fun m => a ≤ s.firedOf gang m

/-- The scope of a barrier (R151). -/
def barrierScope (gang : Bool) : Scope := if gang then .module else .cluster

/-- BARW (R300): waits until every member has fired this strand's latest arrival, and returns as an acquire. -/
def execBarw (gang : Bool) (s : State) : Host.Outcome State Fault Refusal :=
  helmOp (fun u => do
    let t ← getStrand u
    let a := if gang then t.kept.gangA else t.kept.crewA
    let w := if gang then t.kept.gangW else t.kept.crewW
    if w < a then do
      let s ← getS
      waitUnless (s.allFired u gang a)
      modStrand u fun t =>
        { t with kept := if gang then { t.kept with gangW := a } else { t.kept with crewW := a } }
    else pure ()
    acquireM u (barrierScope gang)) s

/-! ### Dependence counters -/

/-- WAITD (R301): waits until the counter is at or below the value, and returns as an acquire at module scope. -/
def execWaitd (n : BitVec 3) (v : BitVec 16) (s : State) : Host.Outcome State Fault Refusal :=
  helmOp (fun u => do
    settleM u
    let t ← getStrand u
    waitUnless (t.kept.dctr[n.toNat].ule v)
    acquireM u .module) s

end Sys2Proof.Machine
end

