-- ==== Sys2Proof/Machine/Caches.lean ====
section
/-!
DEFINITION. The instruction caches (R68, R71, R244, R245) and the invalidation of translations (R86, R246).
-/

namespace Sys2Proof.Machine

/-! ### Lines of the instruction cache -/

/-- The line of a physical address that a cache holds for an owner (R68). -/
def findLine (l : List CacheLine) (module : Option ModNum) (line : Nat) (owner : Owner) : Option CacheLine :=
  l.find? fun e => e.module = module && e.line = line && e.owner = owner

/-- The list without a line. -/
def dropLine (l : List CacheLine) (module : Option ModNum) (line : Nat) (owner : Owner) : List CacheLine :=
  l.filter fun e => !(e.module = module && e.line = line && e.owner = owner)

/-- The lines of a helm cache of 128 sets of 4 that stay when one more comes in (R68). A full set gives up a line that is
not pinned: R68 names no policy, and the choice is free (log 84). -/
def makeRoom (pick : Nat) (e : CacheLine) (l : List CacheLine) : List CacheLine :=
  dropVictim (cacheVictim 128 4 pick CacheLine.line (fun set => set.filter fun e => !e.pinned) e.line l) l

/-- Two of the four ways of a line's set are pinned already (R71). -/
def pinsFull (l : List CacheLine) (line : Nat) : Bool :=
  let pins := l.filter (·.pinned)
  2 ≤ pins.length && 2 ≤ (pins.filter fun e => setOf 128 e.line = setOf 128 line).length

/-- The helm with a line in its instruction cache, pinned where that is asked for and allowed (R71). -/
def Helm.fillCode (h : Helm) (pick : Nat) (e : CacheLine) (pin : Bool) : Helm :=
  let old := findLine h.icache e.module e.line e.owner
  let others := dropLine h.icache e.module e.line e.owner
  let was := match old with
    | some o => o.pinned
    | none => false
  let pinned := was || (pin && !pinsFull others e.line)
  { h with icache := { e with pinned := pinned } :: makeRoom pick e others }

/-- Helm `n` with a line in its instruction cache. -/
def State.fillCode (s : State) (n : Nat) (e : CacheLine) (pin : Bool) : State :=
  s.drawn.setHelm n ((s.helm n).fillCode (Config.freeVictim s.draws) e pin)

/-- A line of a target, with its bytes. -/
def Target.cacheLine (t : Target) (data : List Byte) : CacheLine := ⟨t.module, t.pa / 128, t.owner, t.clear, data, false⟩

/-- Fetch a line into the instruction cache of strand `u`'s helm, without waiting for it (R245). -/
def State.prefetchCode (s : State) (u : Nat) (t : Target) (ident : Word) (pin : Bool) : State :=
  let t := t.lineOf
  match findLine (s.helm (helmOf u)).icache t.module (t.pa / 128) t.owner with
  | some e => s.fillCode (helmOf u) e pin
  | none =>
    match s.access (.code u pin) .fetch ident t (.load 128) with
    | (some (.bytes l), s) => s.fillCode (helmOf u) (t.cacheLine l) pin
    | (some .violation, s) => s.logIfViolation (s.scalarAgent u) .fetch t.va ⟨3, 5, 7, 1⟩
    | (some .unimplemented, s) => s.logIfViolation (s.scalarAgent u) .fetch t.va ⟨3, 7, 7, 1⟩
    | (_, s) => s

/-- The addresses of the lines that IPREF, IPIN and IUNPIN name: those of `n` bytes at `a`. -/
def namedLines (a : Word) (n : Nat) : List Word :=
  if n = 0 then []
  else (List.range ((a.toNat % 128 + n - 1) / 128 + 1)).map fun i =>
    BitVec.ofNat 64 (a.toNat / 128 * 128) + BitVec.ofNat 64 (128 * i)

/-- The number of bytes that IPREF, IPIN and IUNPIN cover: with x0, one (R245). -/
def codeBytes (xb : Reg) (b : Word) : Nat := if xb = 0 then 1 else min b.toNat 65536

/-- Act on each named line whose fetch would not fault. -/
def forCode (u : Nat) (xa xb : Reg) (off : BitVec 32) (f : Target → State → State) : M Unit := do
  let a ← readX u xa
  let b ← readX u xb
  forList (namedLines (offsetAddr a off) (codeBytes xb b)) fun va => do
    let s ← getS
    match ← resolveM (s.scalarAgent u) .fetch va 128 with
    | .ok (.target t) => modS (f t)
    | .ok (.local _) | .ok (.control _) | .error _ => pure ()

/-- IPREF (R245). -/
def execIpref (xa xb : Reg) (off : BitVec 32) (s : State) : Host.Outcome State Fault Refusal :=
  helmOp (fun u => do
    let t ← getStrand u
    forCode u xa xb off fun tg s => s.prefetchCode u tg t.pc false) s

/-- IPIN (R245): kernel and firmware modes. -/
def execIpin (xa xb : Reg) (off : BitVec 32) (s : State) : Host.Outcome State Fault Refusal :=
  helmOp (fun u => do
    needKernel u
    let t ← getStrand u
    forCode u xa xb off fun tg s => s.prefetchCode u tg t.pc true) s

/-- A line that a fetch under way asks for. -/
def Target.sameLine (t : Target) (m : Option ModNum) (pa : Nat) (o : Owner) : Bool :=
  m = t.module && pa / 128 = t.pa / 128 && o = t.owner

/-- A fetch of helm `h` that would pin its line does not pin it. -/
def Who.unpinned (h : Nat) : Who → Who
  | .code v true => if helmOf v = h then .code v false else .code v true
  | w => w

/-- Fetches under way that would pin a line fill it unpinned (R245). -/
def State.unpinFetches (s : State) (h : Nat) (t : Target) : State :=
  { s with
    outstanding := s.outstanding.map fun o =>
      if t.sameLine (some o.target) o.pa o.owner then { o with who := o.who.unpinned h } else o
    ports := s.ports.map fun p =>
      if t.sameLine p.target.module p.target.pa p.target.owner then { p with who := p.who.unpinned h } else p }

/-- The state with a line of helm `h` unpinned, and with the fetches of it that are still out. -/
def State.unpinCode (s : State) (h : Nat) (t : Target) : State :=
  let s := s.unpinFetches h t
  let upd (e : CacheLine) : CacheLine :=
    if e.module = t.module && e.line = t.pa / 128 && e.owner = t.owner then { e with pinned := false } else e
  s.setHelm h { s.helm h with icache := (s.helm h).icache.map upd }

/-- IUNPIN (R245): kernel and firmware modes. -/
def execIunpin (xa xb : Reg) (off : BitVec 32) (s : State) : Host.Outcome State Fault Refusal :=
  helmOp (fun u => do
    needKernel u
    forCode u xa xb off fun tg s => s.unpinCode (helmOf u) tg) s

/-- The target of a cached line. -/
def CacheLine.target (e : CacheLine) : Target := ⟨e.module, 128 * e.line, e.owner, e.clear, .default, 0, 7⟩

/-- Lines of code that the helm's strands have asked for before a FENCEI, answered or not, fill its instruction cache no
more (R244): what has come is forgotten, and what is under way will be. -/
def State.forgetCode (s : State) (h : Nat) : State :=
  let stale (u : Nat) : Who → Bool
    | .fetch v | .code v _ => v = u
    | .helm _ | .store _ | .late _ _ | .column _ _ | .elem _ _ _ | .drayman _ _ | .hint _ | .matrix _ | .stream _ _
    | .assayer _ | .cox | .fabric | .remote _ _ => false
  (s.disown (2 * h) (stale (2 * h))).disown (2 * h + 1) (stale (2 * h + 1))

/-- The target that an outstanding request names. -/
def Outstanding.at (o : Outstanding) : Target := ⟨some o.target, o.pa, o.owner, false, .default, o.va, o.level⟩

/-- The strand whose fetch under way is to pin a line in helm `h`. -/
def Who.pins (h : Nat) : Who → Option Nat
  | .code v true => if helmOf v = h then some v else none
  | _ => none

/-- The lines that IPIN fetches under way are to pin in helm `h`, with their strands. -/
def State.pinsOut (s : State) (h : Nat) : List (Nat × Target) :=
  (s.outstanding.filterMap fun o => (o.who.pins h).map fun v => (v, o.at)) ++
    s.ports.filterMap fun p => (p.who.pins h).map fun v => (v, p.target)

/-- FENCEI on helm `h` as far as its instruction cache goes: what was fetched or asked for before is given up, and the
lines that IPIN has asked for and not obtained are asked for again (R71, R244, R245). -/
def State.fenceCode (s : State) (h : Nat) (ident : Word) (lines : List CacheLine) : State :=
  let s' := (s.setHelm h { s.helm h with icache := lines }).forgetCode h
  (s.pinsOut h).foldl (fun s e => s.prefetchCode e.1 e.2 ident true) s'

/-- The answer to a pinned line's refill: the line again, or none; a refusal is logged (R46). -/
def refilled (ag : Agent) (e : CacheLine) (a : Answer) : M (List CacheLine) :=
  match a with
  | .bytes l => pure [{ e with data := l }]
  | .violation => do
    modS (·.logIfViolation ag .fetch 0 ⟨3, 5, 7, 1⟩)
    pure []
  | .unimplemented => do
    modS (·.logIfViolation ag .fetch 0 ⟨3, 7, 7, 1⟩)
    pure []
  | .claimed _ _ | .acked | .outside | .hostDetached | .poisoned | .remoteFault | .failed _ => pure []

/-- FENCEI (R71, R244): acts as FENCE.mod.ar, invalidates the instruction cache, and refills the pinned lines, which
stay pinned. A pinned line that cannot be refilled is left out. -/
def execFencei (s : State) : Host.Outcome State Fault Refusal :=
  helmOp (fun u => do
    fenceWaits u .module .ar
    fabricReport u
    let s ← getS
    let h := helmOf u
    let t ← getStrand u
    let answers ← mapList ((s.helm h).icache.filter (·.pinned)) fun e => do
      let a ← keepM (.helm u) .fetch t.pc e.target (.load 128)
      pure (e, a)
    let lines ← mapList answers fun r => refilled (s.scalarAgent u) r.1 r.2
    modS fun s => (s.fenceCode h t.pc lines.flatten).forget (.helm u)) s

/-! ### TLBINV -/

/-- An entry of a translation cache that an invalidation names (R246). -/
def TlbEntry.named (e : TlbEntry) (f : InvKind) (va : Word) (owner : Owner) : Bool :=
  match f with
  | .page => e.owner = owner && e.page = va.toNat % 2 ^ 56 / 2 ^ levelShift e.level
  | .owner => e.owner = owner
  | .all => true

/-- An entry of a walk cache that an invalidation names. -/
def WalkEntry.named (e : WalkEntry) (f : InvKind) (va : Word) (owner : Owner) : Bool :=
  match f with
  | .page => e.owner = owner && e.index = va.toNat % 2 ^ 56 / 2 ^ levelShift e.level
  | .owner => e.owner = owner
  | .all => true

/-- The loads of a cluster's strands that may still take their values have taken them by now (R86, R129). -/
def State.endLoads (s : State) (c : Nat) : State :=
  { s with strands := s.strands.map fun e => if clusterOf e.1 = c then (e.1, { e.2 with late := e.2.guesses }) else e }

/-- Invalidate in one cluster and in its die's walk cache; no access takes a value through an old translation any more. -/
def State.invalidateIn (s : State) (f : InvKind) (va : Word) (owner : Owner) (c : Nat) : State :=
  let s := s.endLoads c
  let s := s.setCluster c { s.cluster c with tlb := (s.cluster c).tlb.filter fun e => !e.named f va owner }
  { s with walks := Tab.set s.walks (dieOf c) ((Tab.get [] s.walks (dieOf c)).filter fun e => !e.named f va owner) }

/-- Clusters of a scope, among those that hold anything (R246). -/
def State.clustersOf (s : State) (c : Nat) (scope : Scope) : List Nat :=
  match scope with
  | .strand | .cluster => [c]
  | .die => (s.clusters.map (·.1) ++ s.strands.map (clusterOf ·.1)).filter fun k => dieOf k = dieOf c
  | .module | .system => s.clusters.map (·.1) ++ s.strands.map (clusterOf ·.1) ++ s.walks.map (8 * ·.1)

/-- Invalidate in every cluster and walk cache of a list of clusters. -/
def State.invalidate (s : State) (f : InvKind) (va : Word) (owner : Owner) : List Nat → State
  | [] => s
  | c :: t => (s.invalidateIn f va owner c).invalidate f va owner t

/-- Element accesses of a cluster that have translated and not reached their slice, engine sectors and lines and served
requests that have translated and not landed, and loads that are still to be performed (R86, R129). -/
def State.translationsUsed (s : State) (c : Nat) : Bool :=
  let busy (w : Who) : Bool := match w with
    | .drayman k _ | .assayer k => k = c
    | .matrix u | .hint u | .column u _ => clusterOf u = c
    | .helm _ | .fetch _ | .code _ _ | .store _ | .late _ _ | .elem _ _ _ | .stream _ _ | .cox | .fabric | .remote _ _ => false
  !(s.cluster c).storeQueue.isEmpty || (s.cluster c).ops.any (·.moving.isSome) || s.servedAt.any (fun p => p.cid = c)
    || s.strands.any (fun e => clusterOf e.1 = c && !e.2.guesses.isEmpty)
    || (s.cluster c).matOps.any (fun o => !o.places.isEmpty)
    || s.ports.any (fun p => busy p.who) || s.outstanding.any (fun o => busy o.who)

/-- Modules of whose planes the peer plane table says that one is live: those that an invalidation at system scope is
sent to (log 17). -/
def State.otherModules (s : State) : List ModNum :=
  let base := s.pptbase.toNat % 2 ^ 52
  let units := (s.units.map (fun e : Nat × UnitKey => e.1) ++ s.pmem.map (fun e : Host.Cell => e.1 / 64)).filter fun k =>
    base ≤ 64 * k && 64 * k < base + 2 ^ 21
  let mods := (units.foldl keyInsert []).flatMap fun k => (List.range 16).map fun i => (64 * k - base) / 4 + i
  (mods.map (BitVec.ofNat 19)).filter fun m => m != s.modnum && (s.peerView m).mask != 0

/-- Send the invalidation to each other module, without waiting. -/
def sendInvalidations (u : Nat) (ident : Word) (f : InvKind) (va : Word) (owner : Owner) : 
    List ModNum → M (List (ModNum × Option Answer))
  | [] => pure []
  | m :: l => do
    let t : Target := ⟨some m, 0, owner, false, .default, va, 7⟩
    let r ← fun s => match s.arrived.find? fun a => a.matches (.helm u) t (.invalidate f va owner) with
      | some a => .ok (some a.answer) s
      | none =>
        match s.access (.helm u) .write ident t (.invalidate f va owner) with
        | (some a, s) => .ok (some a) (s.keepAnswer (.helm u) t (.invalidate f va owner) a)
        | (none, s) => .ok none s
    let rest ← sendInvalidations u ident f va owner l
    pure ((m, r) :: rest)

/-- The first module whose invalidation failed, with the failure's code. -/
def firstFailed : List (ModNum × Option Answer) → Option (ModNum × BitVec 4)
  | [] => none
  | (m, some (.failed c)) :: _ => some (m, c)
  | _ :: t => firstFailed t

/-- TLBINV (R246): the entries leave the caches of the scope; it returns once no access uses the old translation, and at
system scope once every other module has answered. -/
def execTlbinv (scope : Scope) (f : InvKind) (xa xb : Reg) (s : State) : Host.Outcome State Fault Refusal :=
  helmOp (fun u => do
    needKernel u
    let va ← readX u xa
    let b ← readX u xb
    let owner := b.extractLsb' 0 16
    let s ← getS
    let l := s.clustersOf (clusterOf u) scope
    modS fun s => s.invalidate f va owner (clusterOf u :: l)
    match scope with
    | .strand | .cluster | .die | .module => waitUnless (!l.any s.translationsUsed)
    | .system => do
      let t ← getStrand u
      let r ← sendInvalidations u t.pc f va owner s.otherModules
      waitUnless (!l.any s.translationsUsed && r.all fun e => e.2.isSome)
      modS (·.forget (.helm u))
      match firstFailed r with
      | some (m, c) => trapWith 6 c.toNat (m.setWidth 64)
      | none => pure ()) s

end Sys2Proof.Machine
end

