-- ==== Sys2Proof/Machine/Csr.lean ====
section
/-!
DEFINITION. Control registers (R239 to R243), TRAP (R236) and UIRET (R238).
-/

namespace Sys2Proof.Machine

/-! ### The map (R241) -/

/-- The control registers. -/
inductive Csr where
  | vl | vtype | vlmax | grant | mode | ecarry | msel | fmask | pmask | amask | spillcnt | mgrant | tol | tick | plive
  | uivec | uiepc | uictl | cycle | status | tvec | epc | cause | tval | progress | owner | share | kscratch | ftvec
  | fepc | fcause | ftval | fscratch
  deriving DecidableEq, Repr

/-- The register of a number; none where the map does not list it. -/
def Csr.ofNumber (n : BitVec 12) : Option Csr :=
  match n.toNat with
  | 0x000 => some .vl
  | 0x001 => some .vtype
  | 0x002 => some .vlmax
  | 0x003 => some .grant
  | 0x004 => some .mode
  | 0x005 => some .ecarry
  | 0x006 => some .msel
  | 0x007 => some .fmask
  | 0x008 => some .pmask
  | 0x009 => some .amask
  | 0x00a => some .spillcnt
  | 0x00b => some .mgrant
  | 0x00c => some .tol
  | 0x00d => some .tick
  | 0x00e => some .plive
  | 0x00f => some .uivec
  | 0x010 => some .uiepc
  | 0x011 => some .uictl
  | 0x012 => some .cycle
  | 0x400 => some .status
  | 0x401 => some .tvec
  | 0x402 => some .epc
  | 0x403 => some .cause
  | 0x404 => some .tval
  | 0x405 => some .progress
  | 0x406 => some .owner
  | 0x407 => some .share
  | 0x408 => some .kscratch
  | 0x800 => some .ftvec
  | 0x801 => some .fepc
  | 0x802 => some .fcause
  | 0x803 => some .ftval
  | 0x804 => some .fscratch
  | _ => none

/-- Registers that no instruction writes (RO). -/
def Csr.readOnly : Csr → Bool
  | .vl | .vtype | .vlmax | .grant | .mgrant | .tick | .plive | .cycle => true
  | .mode | .ecarry | .msel | .fmask | .pmask | .amask | .spillcnt | .tol | .uivec | .uiepc | .uictl | .status | .tvec
  | .epc | .cause | .tval | .progress | .owner | .share | .kscratch | .ftvec | .fepc | .fcause | .ftval | .fscratch =>
    false

/-- Registers whose access waits until the column queue is empty (Q). -/
def Csr.waits : Csr → Bool
  | .vl | .vtype | .vlmax | .grant | .mode | .ecarry | .msel | .fmask | .pmask | .amask | .spillcnt | .mgrant | .tol
  | .progress => true
  | .tick | .plive | .uivec | .uiepc | .uictl | .cycle | .status | .tvec | .epc | .cause | .tval | .owner | .share
  | .kscratch | .ftvec | .fepc | .fcause | .ftval | .fscratch => false

/-- The lowest mode that may access a register: bits 11:10 of its number (R239). -/
def csrLevel (n : BitVec 12) : Nat := n.toNat / 1024

/-! ### Masks -/

/-- The window `w` of a 1,024-element mask; windows at or above VLMAX read as zero (R241). -/
def maskWindow (m : BitVec 1024) (w vlmax : Nat) : Word := if 64 * w < vlmax then m.extractLsb' (64 * w) 64 else 0

/-- The mask with window `w` replaced; a window at or above VLMAX ignores the write. -/
def setMaskWindow (m : BitVec 1024) (w vlmax : Nat) (v : Word) : BitVec 1024 :=
  if 64 * w < vlmax then
    (m &&& ~~~((BitVec.allOnes 64).setWidth 1024 <<< (64 * w))) ||| (v.setWidth 1024 <<< (64 * w))
  else m

/-! ### The progress register (R435) -/

/-- The first convoy of a list of members. -/
def firstConvoy : List Member → List Member
  | [] => []
  | m :: t => if m.last then [m] else m :: firstConvoy t

/-- The list with `f` applied to its first `n` entries. -/
def mapFirst {α : Type} (f : α → Nat → α) : Nat → Nat → List α → List α
  | 0, _, l => l
  | _ + 1, _, [] => []
  | n + 1, i, a :: t => f a i :: mapFirst f n (i + 1) t

/-- The progress fields of up to four members: index in bits 16m + 13 : 16m, valid in bit 16m + 14. -/
def progressOf : List Member → Nat → Word
  | [], _ => 0
  | m :: t, i =>
    (BitVec.ofNat 64 (m.idx.toNat + (if m.pv then 2 ^ 14 else 0)) <<< (16 * i)) ||| progressOf t (i + 1)

/-- A member with its progress fields taken from a written word. Of a strand whose VL is `vl`, one at VL has completed, and
another has not (R254). -/
def setProgress (w : Word) (vl : Nat) (m : Member) (i : Nat) : Member :=
  let idx := w.extractLsb' (16 * i) 14
  let pv := w.getLsbD (16 * i + 14)
  { m with idx := idx, pv := pv, done := pv && idx.toNat = vl }

/-- The members of the parked queue. -/
def Strand.parked (t : Strand) : List Member := unparkMembers t

/-- The value of `progress`. -/
def Strand.progress (t : Strand) : Word :=
  if t.pcount ≠ 0 then progressOf (firstConvoy t.parked) 0
  else
    match t.held with
    | l :: _ => progressOf (firstConvoy (l.map t.stopped)) 0
    | [] => 0

/-- A write to `progress`. -/
def Strand.setProgress (t : Strand) (w : Word) : Strand :=
  if t.pcount ≠ 0 then
    let l := t.parked
    let n := min 4 (firstConvoy l).length
    { t with pq := pqOf 0 (mapFirst (Machine.setProgress w t.vl) n 0 l) ++ t.pq.filter (fun e => t.pcount ≤ e.1) }
  else
    match t.held with
    | l :: rest =>
      let l := l.map t.stopped
      { t with held := mapFirst (Machine.setProgress w t.vl) (min 4 (firstConvoy l).length) 0 l :: rest }
    | [] => t

/-! ### Values and writes -/

/-- PLSTAT (R121). -/
def State.plstat (s : State) : Word :=
  BitVec.ofNat 64 (record [(s.live.toNat, 0), (s.rcount.toNat, 4), (s.easyall.toNat, 28)])

/-- `status` (R242). -/
def Strand.statusWord (t : Strand) : Word :=
  BitVec.ofNat 64 (record [(t.mode.code.toNat, 0), (t.pmode.code.toNat, 2), (t.kie.toNat, 4), (t.pkie.toNat, 5),
    (t.prot.toNat, 6), (t.fpmode.code.toNat, 8), (t.fpkie.toNat, 10)])

/-- The value of a control register. -/
def State.csrValue (s : State) (u : Nat) (c : Csr) : Word :=
  let t := s.strand u
  match c with
  | .vl => BitVec.ofNat 64 t.vl
  | .vtype => t.vtype.setWidth 64
  | .vlmax => BitVec.ofNat 64 t.vlmax
  | .grant => BitVec.ofNat 64 (t.lanes.length + (if t.protectedMode then 16 else 0))
  | .mode => t.modeReg
  | .ecarry => t.ecarry
  | .msel => t.msel.setWidth 64
  | .fmask => maskWindow t.fmask t.msel.toNat t.vlmax
  | .pmask => maskWindow t.pmask t.msel.toNat t.vlmax
  | .amask => t.amask.setWidth 64
  | .spillcnt => t.spillcnt.setWidth 64
  | .mgrant => BitVec.ofNat 64 t.mgrant
  | .tol => t.tol.setWidth 64
  | .tick => s.tick
  | .plive => s.plstat
  | .uivec => t.uivec
  | .uiepc => t.uiepc
  | .uictl => BitVec.ofNat 64 (t.uie.toNat + 2 * t.uia.toNat)
  | .cycle => s.cycle
  | .status => t.statusWord
  | .tvec => t.tvec
  | .epc => t.epc
  | .cause => t.cause
  | .tval => t.tval
  | .progress => t.progress
  | .owner => t.owner.setWidth 64
  | .share => t.share.setWidth 64
  | .kscratch => t.kscratch
  | .ftvec => t.ftvec
  | .fepc => t.fepc
  | .fcause => t.fcause
  | .ftval => t.ftval
  | .fscratch => t.fscratch

/-- A written code address: bits 2:0 are ignored (R178). -/
def codeAddr (w : Word) : Word := w &&& ~~~7

/-- The fields of `cause` and `fcause` (R243). -/
def causeMask : Word := 0x3f00ff

/-- A write to `status` (R242): MODE is read-only, and the firmware fields are written in firmware mode alone. -/
def Strand.setStatus (t : Strand) (w : Word) : Strand :=
  let fw := t.mode = .firmware
  { t with
    pmode := if w.extractLsb' 2 2 = 0 then .user else if w.extractLsb' 2 2 = 1 then .kernel else t.pmode
    kie := w.getLsbD 4
    pkie := w.getLsbD 5
    prot := w.getLsbD 6
    fpmode := if fw && w.extractLsb' 8 2 != 3 then Mode.ofCode (w.extractLsb' 8 2) else t.fpmode
    fpkie := if fw then w.getLsbD 10 else t.fpkie }

/-- The strand with a control register written; reserved bits are ignored (R5). Read-only registers never come here. -/
def Strand.csrWrite (t : Strand) (c : Csr) (w : Word) : Strand :=
  match c with
  | .vl | .vtype | .vlmax | .grant | .mgrant | .tick | .plive | .cycle => t
  | .mode => { t with modeReg := w &&& 0x3f3 }
  | .ecarry => { t with ecarry := w &&& 0xffffffff }
  | .msel => { t with msel := w.extractLsb' 0 4 }
  | .fmask => { t with fmask := setMaskWindow t.fmask t.msel.toNat t.vlmax w }
  | .pmask => { t with pmask := setMaskWindow t.pmask t.msel.toNat t.vlmax w }
  | .amask => { t with amask := w.extractLsb' 0 32 }
  | .spillcnt => { t with spillcnt := w.extractLsb' 0 6 }
  | .tol => { t with tol := w.extractLsb' 0 32 }
  | .uivec => { t with uivec := codeAddr w }
  | .uiepc => { t with uiepc := codeAddr w }
  | .uictl => { t with uie := w.getLsbD 0 }
  | .status => t.setStatus w
  | .tvec => { t with tvec := codeAddr w }
  | .epc => { t with epc := codeAddr w }
  | .cause => { t with cause := w &&& causeMask }
  | .tval => { t with tval := w }
  | .progress => t.setProgress w
  | .owner => { t with owner := w.extractLsb' 0 16 }
  | .share => if w.extractLsb' 0 8 = 0 then t else { t with share := w.extractLsb' 0 8 }
  | .kscratch => { t with kscratch := w }
  | .ftvec => { t with ftvec := codeAddr w }
  | .fepc => { t with fepc := codeAddr w }
  | .fcause => { t with fcause := w &&& causeMask }
  | .ftval => { t with ftval := w }
  | .fscratch => { t with fscratch := w }

/-- The level of a mode, as R239 counts it. -/
def Mode.level (m : Mode) : Nat := m.code.toNat

/-- An access to a control register (R239, R240): `f` gives the new value from the old one, none for a read alone.
ILLEGAL for an unlisted number or a write to a read-only register, then PRIVILEGE, then the wait of a Q register. -/
def csrAccess (xd : Reg) (n : BitVec 12) (f : Option (M (Word → Word))) (u : Nat) : M Unit := do
  match Csr.ofNumber n with
  | none => illegal u
  | some c =>
    let t ← getStrand u
    if f.isSome && c.readOnly then illegal u
    else if t.mode.level < csrLevel n then privilege u
    else do
      if c.waits then waitUnless t.queueEmpty else pure ()
      match f with
      | none => do
        let s ← getS
        writeX u xd (s.csrValue u c)
      | some g => do
        let h ← g
        let s ← getS
        let old := s.csrValue u c
        writeX u xd old
        modStrand u fun t => t.csrWrite c (h old)
        if c = .tvec && t.mode = .firmware then modS fun s => { s with fwTvec := (s.strand u).tvec } else pure ()

/-- CSRR (R239). -/
def execCsrr (xd : Reg) (csr : BitVec 12) (s : State) : Host.Outcome State Fault Refusal :=
  helmOp (csrAccess xd csr none) s

/-- CSRW (R239). -/
def execCsrw (xd xa : Reg) (csr : BitVec 12) (s : State) : Host.Outcome State Fault Refusal :=
  helmOp (fun u => csrAccess xd csr (some (do
    let a ← readX u xa
    pure fun _ => a)) u) s

/-- CSRS (R239): with x0 it only reads. -/
def execCsrs (xd xa : Reg) (csr : BitVec 12) (s : State) : Host.Outcome State Fault Refusal :=
  helmOp (fun u => csrAccess xd csr (if xa = 0 then none else some (do
    let a ← readX u xa
    pure fun old => old ||| a)) u) s

/-- CSRC (R239): with x0 it only reads. -/
def execCsrc (xd xa : Reg) (csr : BitVec 12) (s : State) : Host.Outcome State Fault Refusal :=
  helmOp (fun u => csrAccess xd csr (if xa = 0 then none else some (do
    let a ← readX u xa
    pure fun old => old &&& ~~~a)) u) s

/-! ### TRAP and UIRET -/

/-- TRAP (R236): cause TRAP, tval n, epc the address after it. -/
def execTrap (n : BitVec 16) (s : State) : Host.Outcome State Fault Refusal :=
  helmOp (fun u => do
    let t ← getStrand u
    throw (.trap ⟨7, 0, n.setWidth 64, some (t.pc + 8)⟩)) s

/-- Exchange x24 to x31 with the other set (R238). -/
def Strand.swapShadow (t : Strand) : Strand :=
  { t with
    x := Vector.ofFn fun i : Fin 32 => if 24 ≤ i.val then t.shadow[i.val % 8] else t.x[i]
    shadow := Vector.ofFn fun i : Fin 8 => t.x[24 + i.val] }

/-- UIRET (R238): ILLEGAL while no handler is active. -/
def execUiret (s : State) : Host.Outcome State Fault Refusal :=
  helmJump (fun u => do
    let t ← getStrand u
    if t.uia then do
      modStrand u fun t => { t.swapShadow with uia := false }
      pure t.uiepc
    else illegal u) s

end Sys2Proof.Machine
end

