-- ==== Sys2Proof/Machine/ElemMem.lean ====
section
/-!
DEFINITION. Element accesses of the column engine: memory slices and store queues (R74, R75), what a load or a store
element waits for (R55, R128), faults and their records (R89, R98, R283), consumed errors (R450) and remote failures
(R111).
-/

namespace Sys2Proof.Machine

/-! ### The member that executes -/

/-- The agent of a member's accesses (R28, R46). -/
def Member.agent (m : Member) (u : Nat) : Agent := ⟨u, m.mode, m.owner, 1, 0, m.addr⟩

/-- The requester of a member's accesses. -/
def Member.who (m : Member) (u : Nat) : Who := .column u m.iid

/-- Change the member of a strand's column queue with a serial number. -/
def modMember (u iid : Nat) (f : Member → Member) : M Unit :=
  modStrand u fun t => { t with queue := t.queue.map fun m => if m.iid = iid then f m else m }

/-- The member's progress index (R241, R254): elements below it are done. -/
def setIdx (u iid i : Nat) : M Unit := modMember u iid fun m => { m with idx := BitVec.ofNat 14 i, pv := true, mid := false }

/-- The same among the elements of a group, or among those that a lane-crossing instruction writes, where nothing stops
the member (R254). -/
def setMid (u iid i : Nat) : M Unit := modMember u iid fun m => { m with idx := BitVec.ofNat 14 i, pv := true, mid := true }

/-! ### Slices and queues -/

/-- Deliver up to `n` entries of one store queue. -/
def State.deliverN (s : State) (c lg slice : Nat) : Nat → State
  | 0 => s
  | n + 1 => (s.deliverOne c lg slice).deliverN c lg slice n

/-- Deliver the entries of every queue that holds one of strand `u`, as far as they go. -/
def State.deliverStrand (s : State) (u : Nat) : State :=
  ((s.cluster (clusterOf u)).storeQueue).foldl (fun s e => s.deliverOne (clusterOf u) e.laneGroup e.slice) s

/-- Older store elements of the strand in the same lane group and slice leave their queue first. -/
def flushQueue (u lg slice : Nat) : M Unit := fun s =>
  let c := clusterOf u
  let mine (s : State) : Bool := (s.cluster c).storeQueue.any fun e => e.uid = u && e.laneGroup = lg && e.slice = slice
  let s := if mine s then s.deliverN c lg slice (s.cluster c).storeQueue.length else s
  if mine s then .error .wait s else .ok () s

/-- Older store elements of the strand in the same lane group and slice are performed first (R128). -/
def flushOwn (u lg slice : Nat) : M Unit := do
  flushQueue u lg slice
  let s ← getS
  waitUnless (!s.elemOutSlice u (s.strand u).nextIid lg slice)

/-- A scalar store of the strand to the same line is performed first (R128). -/
def flushBuffer (u : Nat) (t : Target) : M Unit := fun s =>
  let inBuffer (s : State) : Bool :=
    (s.strand u).writeBuffer.any fun e => e.target.module = t.module && e.target.pa / 128 = t.pa / 128
  let out (s : State) : Bool :=
    s.ports.any (fun p => p.who = .store u && t.module.isNone && p.target.pa / 128 = t.pa / 128)
      || s.outstanding.any (fun o => o.who = .store u && t.module = some o.target && o.pa / 128 = t.pa / 128)
  let s := if inBuffer s then s.drainAll u (s.strand u).writeBuffer.length else s
  if inBuffer s || out s then .error .wait s else .ok () s

/-- Every element access of the strand's instructions up to serial number `iid` is performed: entries are delivered, and
those under way are waited for. -/
def elemsDone (u iid : Nat) : M Unit := fun s =>
  let s := if s.elemsOut u iid then s.deliverStrand u else s
  if s.elemsOut u iid then .error .wait s else .ok () s

/-! ### Where an element goes -/

/-- What became of an element access. -/
inductive Got where
  | bytes (l : List Byte)
  /-- an element fault (R283). -/
  | fault (f : AFault)
  /-- R98. -/
  | detached (f : AFault)
  /-- a consumed error: address and level for its record (R450). -/
  | poisoned (addr level : Nat)
  /-- a remote failure, with its code (R111). -/
  | failed (c : BitVec 4)
  deriving DecidableEq, Repr

/-- Where an element access goes; control space is a violation of kind CONTROL (R34). -/
def elemPlace (u : Nat) (m : Member) (acc : Acc) (va : Word) (n : Nat) : M (Except AFault Place) := do
  match ← resolveM (m.agent u) acc va n with
  | .ok (.control _) => do
    let s ← getS
    pure (.error (s.controlFault (m.agent u) va))
  | r => pure r

/-- An access fault as an element meets it. -/
def gotFault (f : AFault) : Got := if f.cls = 6 then .detached f else .fault f

/-- Begin a load element, under the instruction's cache policy (R76): whether its value is at hand. A scalar store of the
strand to its line is performed first (R128); then held remote data may serve it (R140). -/
def loadReady (u : Nat) (m : Member) (pol : Pol) (lg : Nat) (va : Word) (n : Nat) : M Bool := do
  match ← elemPlace u m .read va n with
  | .error _ | .ok (.control _) => pure true
  | .ok (.local a) => do
    let s ← getS
    onHold (State.noteWait u ⟨none, va, localSlice a, if s.localFull a n then 0 else 1⟩) (do
      flushOwn u lg (localSlice a)
      pure (s.localFull a n))
  | .ok (.target t) =>
    onHold (State.noteWait u ⟨none, va, targetSlice t, 0⟩) (do
      flushBuffer u t
      flushQueue u lg (targetSlice t)
      let s ← getS
      if s.stagedWhole u va n || (s.forward (clusterOf u) t n).isSome then pure true
      else do
        flushOwn u lg (targetSlice t)
        readyM (m.who u) .read m.addr { t with pol := pol } n)

/-- The answer of an access that is at hand: one kept, or one that is served at once. -/
def peekM (who : Who) (acc : Acc) (ident : Word) (t : Target) (op : RemoteOp) : M Answer := fun s =>
  match s.arrived.find? fun a => a.matches who t op with
  | some a => .ok a.answer s
  | none =>
    match s.access who acc ident t op with
    | (some a, s) => .ok a s
    | (none, s) => .error .wait s

/-- What an answer means to an element. -/
def gotAnswer (s : State) (t : Target) : Answer → Got
  | .bytes l => .bytes l
  | .claimed _ _ | .acked => .bytes []
  | .violation => .fault ⟨3, 5, t.level, psizeOfLevel t.level⟩
  | .unimplemented => .fault ⟨3, 7, t.level, psizeOfLevel t.level⟩
  | .outside => .fault ⟨5, 0, 7, 1⟩
  | .hostDetached => .detached ⟨6, 0, t.level, psizeOfLevel t.level⟩
  | .poisoned => .poisoned t.pa (s.levelOf t)
  | .remoteFault => .fault ⟨8, 0, 7, 1⟩
  | .failed c => .failed c

/-- Loaded bytes with the tile's staged bytes over them (R417). -/
def stagedGot (s : State) (u : Nat) (va : Word) (l : List Byte) : Got :=
  if s.stagedMarked u va l.length then .poisoned 0 stagingLevel else .bytes (s.loadOver u va l)

/-- Perform a load element that is ready. -/
def loadElem (u : Nat) (m : Member) (pol : Pol) (va : Word) (n : Nat) : M Got := do
  match ← elemPlace u m .read va n with
  | .error f => pure (gotFault f)
  | .ok (.control _) => pure (.fault ⟨3, 2, 7, 1⟩)
  | .ok (.local a) => do
    let s ← getS
    match (s.localOp m.mode m.owner a (.load n)).1 with
    | .bytes l => pure (.bytes l)
    | .claimed _ _ | .acked | .violation | .unimplemented | .outside | .hostDetached | .poisoned | .remoteFault
    | .failed _ => pure (.poisoned 0 (localLevel a))
  | .ok (.target t) => do
    let s ← getS
    match (if s.stagedWhole u va n then some (List.replicate n (0, 0)) else s.forward (clusterOf u) t n) with
    | some l => do
      if s.stagedWhole u va n then pure () else modS (·.readHeld u t l)
      pure (stagedGot s u va (l.map (·.2)))
    | none => do
      let a ← peekM (m.who u) .read m.addr { t with pol := pol } (.load n)
      let s ← getS
      match gotAnswer s t a with
      | .bytes l => pure (stagedGot s u va l)
      | g => pure g

/-- The element accesses of a group are over: the answers kept for them are forgotten. -/
def groupDone (u : Nat) (m : Member) : M Unit := modS (·.forget (m.who u))

/-- A store element can be put into its queue: its line is full, and no older scalar store to its line is on its
way. -/
def storeReady (u : Nat) (m : Member) (acc : Acc) (va : Word) (n : Nat) : M Bool := do
  match ← elemPlace u m acc va n with
  | .error _ | .ok (.control _) => pure true
  | .ok (.local a) => do
    let s ← getS
    onHold (State.noteWait u ⟨none, va, localSlice a, if s.localFull a n then 0 else 1⟩) (pure (s.localFull a n))
  | .ok (.target t) =>
    onHold (State.noteWait u ⟨none, va, targetSlice t, 0⟩) (do
      flushBuffer u t
      pure true)

/-- A line as the entries of store queues name it: a line of a window, or of the storage of a module. -/
def storeLine (a : Option Nat) (t : Target) : Nat :=
  match a with
  | some a => a / 128
  | none => 2 ^ 60 * ((t.module.map BitVec.toNat).getD 0 + 1) + t.pa / 128

/-- The queue that a store element goes to: its slice, and the line that it writes; none where it faults. -/
def storeSlot (u : Nat) (m : Member) (acc : Acc) (va : Word) (n : Nat) : M (Option (Nat × Nat)) := do
  match ← elemPlace u m acc va n with
  | .error _ | .ok (.control _) => pure none
  | .ok (.local a) => pure (some (localSlice a, a / 128))
  | .ok (.target t) => pure (some (targetSlice t, storeLine none t))

/-- An entry of a store queue: the strand, the instruction, its element group, and the line (R75). -/
abbrev EntryKey := Nat × Nat × Nat × Nat

/-- The entry that a store element belongs to. -/
def ElemStore.entry (e : ElemStore) : EntryKey := (e.uid, e.iid, e.group, storeLine e.local? e.target)

/-- The entries of the queue of a lane group and slice: what one element group stores to one line is one entry (R75). -/
def State.queueEntries (s : State) (c lg slice : Nat) : List EntryKey :=
  (((s.cluster c).storeQueue.filter fun e => e.laneGroup = lg && e.slice = slice).map (·.entry)).eraseDups

/-- Entries that the queue of a lane group and slice may still take (R75). -/
def State.queueSpace (s : State) (c lg slice : Nat) : Nat := 32 - (s.queueEntries c lg slice).length

/-- How many of a list of store elements of one element group find room in their queues (R75), in order. An element is a
lane group, a slice and its entry. -/
def State.fitting (s : State) (c : Nat) : List (Nat × Nat × EntryKey) → List (Option (Nat × Nat × EntryKey)) → Nat
  | _, [] => 0
  | seen, none :: rest => s.fitting c seen rest + 1
  | seen, some (lg, slice, k) :: rest =>
    let here := s.queueEntries c lg slice
    let more := (seen.filter fun e => e.1 = lg && e.2.1 = slice && !here.contains e.2.2).eraseDups
    if here.contains k || seen.contains (lg, slice, k) || decide (here.length + more.length < 32) then
      s.fitting c ((lg, slice, k) :: seen) rest + 1
    else 0

/-- Two byte writes of one line as one: offsets in the line, later ones over earlier ones. -/
def mergeWrites (o1 : Nat) (w1 : List (Option Byte)) (o2 : Nat) (w2 : List (Option Byte)) : Nat × List (Option Byte) :=
  let lo := min o1 o2
  let hi := max (o1 + w1.length) (o2 + w2.length)
  (lo, (List.range (hi - lo)).map fun i =>
    match (if o2 ≤ lo + i then w2.getD (lo + i - o2) none else none) with
    | some b => some b
    | none => if o1 ≤ lo + i then w1.getD (lo + i - o1) none else none)

/-- The storage address of an entry. -/
def ElemStore.addr (e : ElemStore) : Nat := e.local?.getD e.target.pa

/-- An entry at another address with another write. -/
def ElemStore.rewrite (e : ElemStore) (a : Nat) (w : List (Option Byte)) : ElemStore :=
  match e.local? with
  | some _ => { e with local? := some a, write := .store w }
  | none =>
    { e with target := { e.target with pa := a, va := e.target.va + BitVec.ofNat 64 a - BitVec.ofNat 64 e.target.pa }
             write := .store w }

/-- Two store elements belong to one entry (R75). -/
def ElemStore.joins (e f : ElemStore) : Bool := e.laneGroup = f.laneGroup && e.entry = f.entry

/-- Two stores of one entry as one write, where they are of a kind that combines: bytes, or the two nibbles of a byte
(R75, R286, R449). -/
def ElemStore.combine (f e : ElemStore) : Option ElemStore :=
  let both (a : Nat) (l : List (Option Byte)) : ElemStore := { f.rewrite a l with parts := f.parts ++ e.parts }
  match f.write, e.write with
  | .store w', .store w =>
    let (a, l) := mergeWrites f.addr w' e.addr w
    some (both a l)
  | .nibble false v, .nibble true v' => if f.addr = e.addr then some (both f.addr [some (v' ++ v)]) else none
  | .nibble true v, .nibble false v' => if f.addr = e.addr then some (both f.addr [some (v ++ v')]) else none
  | _, _ => none

/-- A queue with a store element put in: the stores of one entry stand together, and combine into one write where they may
(R75, R449), unless an element of another lane group with a byte in common stands between them (R286). The second
component says whether `e` is in. -/
def enqueueAt (e : ElemStore) : List ElemStore → List ElemStore × Bool
  | [] => ([], false)
  | f :: t =>
    match enqueueAt e t with
    | (l, true) => (f :: l, true)
    | (l, false) =>
      if f.joins e && !(t.any fun g => g.uid = e.uid && g.iid = e.iid && g.overlaps e) then
        match f.combine e with
        | some g => (g :: l, true)
        | none => (f :: e :: l, true)
      else (f :: l, false)

/-- A queue with a store element put in: last, where it belongs to no entry that stands there. A byte that two nibbles have
made joins the bytes of its entry. -/
def enqueue (e : ElemStore) (q : List ElemStore) : List ElemStore :=
  match enqueueAt e q with
  | (l, true) => gather l
  | (l, false) => l ++ [e]
where
  /-- Neighbours of one entry that combine do so. -/
  gather : List ElemStore → List ElemStore
    | [] => []
    | f :: t =>
      match gather t with
      | [] => [f]
      | g :: l =>
        if f.joins g then
          match f.combine g with
          | some h => h :: l
          | none => f :: g :: l
        else f :: g :: l

/-- A target that a local write carries: its owner alone matters. -/
def localTarget (owner : Owner) (va : Word) : Target := ⟨none, 0, owner, false, .default, va, 7⟩

/-- Put store element `i`, of element group `group`, into its queue once it is ready; a held write of a tile goes to its
staging lines (R416). -/
def storeElem (u : Nat) (m : Member) (acc : Acc) (pol : Pol) (lg group i : Nat) (va : Word) (op : RemoteOp) : M Got := do
  let put (a : Option Nat) (slice : Nat) (t : Target) : M Got := do
    let part : StorePart := ⟨va, opSize op, m.addr, m.iid, some i⟩
    let e : ElemStore := ⟨u, m.iid, lg, slice, group, m.mode, a, t, op, [part]⟩
    modCluster (clusterOf u) fun c => { c with storeQueue := enqueue e c.storeQueue }
    pure (.bytes [])
  match ← elemPlace u m acc va (opSize op) with
  | .error f => pure (gotFault f)
  | .ok (.control _) => pure (.fault ⟨3, 2, 7, 1⟩)
  | .ok (.local a) => put (some a) (localSlice a) (localTarget m.owner va)
  | .ok (.target t) => do
    let s ← getS
    let t := { t with pol := pol }
    match op, s.tileOf u with
    | .store w, some ix => do
      modS fun s => s.stage u ix va w
      pure (.bytes [])
    | .nibble high v, some ix => do
      let a ← peekM (m.who u) .read m.addr t (.load 1)
      let s ← getS
      match gotAnswer s t a with
      | .bytes l => do
        let o := natOfBytes (s.loadOver u va l)
        let b := if high then o % 16 + 16 * v.toNat else o / 16 * 16 + v.toNat
        modS fun s => s.stage u ix va [some (BitVec.ofNat 8 b)]
        pure (.bytes [])
      | g => pure g
    | _, _ => put none (targetSlice t) t

/-! ### Faults and records -/

/-- A faulted element: index, address, fault. -/
abbrev ElemFault := Nat × Word × AFault

/-- The faults that records name: the lowest element of each 64 KiB range (R89). -/
def distinctRanges : List ElemFault → List Nat → List ElemFault
  | [], _ => []
  | e :: t, seen =>
    let r := e.2.1.toNat / 65536
    if seen.contains r then distinctRanges t seen else e :: distinctRanges t (r :: seen)

/-- The fault-queue records of an instruction, at most 16 (R89). -/
def State.elemRecords (s : State) (ag : Agent) (acc : Acc) (n : Nat) (more : Bool) : Nat → List ElemFault → State
  | 0, _ => s
  | _ + 1, [] => s
  | k + 1, e :: t =>
    let s := s.queueFault ag (accessOwner ag e.2.1) e.2.1 n e.2.2 acc (more && k = 0) (some e.1)
    s.elemRecords ag acc n more k t

/-- The trap of an instruction with faulted elements (R89, R283): violations are logged, records written, and the member
marked for replay. -/
def elemTrap {α : Type} (u : Nat) (m : Member) (acc : Acc) (n : Nat) (l : List ElemFault) : M α := do
  let ag := m.agent u
  forList l fun e => modS fun s => s.logIfViolation ag acc e.2.1 e.2.2
  let r := distinctRanges l []
  modS fun s => s.elemRecords ag acc n (decide (16 < r.length)) 16 r
  setIdx u m.iid 0x3fff
  groupDone u m
  match l with
  | e :: _ => trapWith 4 e.2.2.cls e.2.1
  | [] => trapWith 4 0 0

/-- A HOST-DETACHED access of an instruction, of element `e` where it has elements: it is noted for the instruction's one
record (R98). -/
def detachedAccess (u : Nat) (m : Member) (acc : Acc) (va : Word) (n : Nat) (f : AFault) (e : Option Nat) : M Unit :=
  modStrand u (·.noteDetached ⟨m.iid, e, va, n, f.level, acc != .read, m.owner, m.addr⟩)

/-- A HOST-DETACHED element. -/
def detachedElem (u : Nat) (m : Member) (acc : Acc) (va : Word) (n i : Nat) (f : AFault) : M Unit :=
  detachedAccess u m acc va n f (some i)

/-- An element that consumes an error: the instruction's first is logged (R450). -/
def consumeElem (u : Nat) (m : Member) (addr level i : Nat) : M Unit := do
  let t ← getStrand u
  if t.queue.any fun q => q.iid = m.iid && q.consumed then pure ()
  else do
    modS fun s => (s.consume (m.agent u) addr level i).1
    modMember u m.iid fun m => { m with consumed := true }

/-- A precise access trap of a pushed instruction that is no element fault (R88): no record. -/
def colAccessTrap {α : Type} (u : Nat) (m : Member) (acc : Acc) (va : Word) (f : AFault) : M α := do
  modS fun s => s.logIfViolation (m.agent u) acc va f
  groupDone u m
  trapWith 4 f.cls va

/-- MACHINE-CHECK at a pushed instruction, for its element `elem` (R450, R451). -/
def colMachineCheck {α : Type} (u : Nat) (m : Member) (addr level elem : Nat) : M α := do
  let s ← getS
  let (s', i) := s.consume (m.agent u) addr level elem
  modS fun _ => s'
  groupDone u m
  trapWith 131 0 i

/-- ILLEGAL at a pushed instruction: tval is its address (R252, R430). -/
def colIllegal {α : Type} (m : Member) : M α := trapWith 1 0 m.addr

end Sys2Proof.Machine
end

