-- ==== Sys2Proof/Machine/Engine.lean ====
section
/-!
DEFINITION. What the engines of a cluster share: handles and their checks (R38 to R41), and reads of an operation, piece
by piece, with the marks of the bytes they return (R39, R55, R85, R124, R450).
-/

namespace Sys2Proof.Machine

/-! ### Handles (R38 to R42) -/

/-- The slot of a handle (R38). -/
def handleSlot (h : BitVec 32) : Nat := (h.extractLsb' 12 20).toNat

/-- The generation of a handle. -/
def handleGen (h : BitVec 32) : BitVec 12 := h.extractLsb' 0 12

/-- The address of the handle-table entry of a slot of an owner (R29). -/
def State.handleAddr (s : State) (o : Owner) (slot : Nat) : Nat :=
  ((s.ownerEntry o).extractLsb' 128 64).toNat % 2 ^ 52 + 32 * slot

/-- The handle-table entry of a slot of an owner (R29, R39). -/
def State.handleEntry (s : State) (o : Owner) (slot : Nat) : BitVec 256 := BitVec.ofNat 256 (s.deviceRead (s.handleAddr o slot) 32)

/-- HTCOUNT of an owner. -/
def State.handleCount (s : State) (o : Owner) : Nat := ((s.ownerEntry o).extractLsb' 192 20).toNat

/-- BASE of an entry. -/
def entryBase (e : BitVec 256) : Word := e.extractLsb' 0 64
/-- LEN of an entry. -/
def entryLen (e : BitVec 256) : Nat := (e.extractLsb' 64 48).toNat

/-- The module that holds a buffer, where it is another one (R39). -/
def State.entryModule (s : State) (e : BitVec 256) : Option ModNum :=
  if e.getLsbD 147 && e.extractLsb' 128 19 != s.modnum then some (e.extractLsb' 128 19) else none

/-- The rights of an entry (R39). -/
inductive HRight where
  | rd | wr | red | pf
  deriving DecidableEq, Repr

/-- The bit of a right. -/
def HRight.bit : HRight → Nat
  | .rd => 148
  | .wr => 149
  | .red => 150
  | .pf => 151

/-- A handle names a slot of its owner's table (R38). -/
def State.handleNamed (s : State) (o : Owner) (h : BitVec 32) : Bool :=
  handleSlot h != 0 && decide (handleSlot h < s.handleCount o) && handleGen h != 0

/-- A handle compares equal with its entry (R40 point 1, R41). -/
def State.handleLive (s : State) (o : Owner) (h : BitVec 32) : Bool :=
  let e := s.handleEntry o (handleSlot h)
  s.handleNamed o h && e.getLsbD 164 && e.extractLsb' 152 12 = handleGen h

/-- The check of a handle (R40) for the bytes at offsets `lo` to `hi` - 1, `off` being the operation's offset: the trap
it takes, with the violation that is logged. -/
def State.handleTrap (s : State) (o : Owner) (h : BitVec 32) (right : HRight) (off lo hi : Int) :
    Option (Trap × Option Nat) :=
  let e := s.handleEntry o (handleSlot h)
  let va := entryBase e + BitVec.ofInt 64 off
  if !s.handleLive o h then some (⟨5, 0, h.setWidth 64, none⟩, none)
  else if !e.getLsbD right.bit then some (⟨4, 3, va, none⟩, some 4)
  else if lo < hi && (lo < 0 || (entryLen e : Int) < hi) then some (⟨4, 3, va, none⟩, some 3)
  else none

/-- The read of a handle-table entry at issue: an entry whose address reaches no storage is a violation of kind
UNIMPLEMENTED, which names that address (R25, log 87), and one in a marked unit consumes the error as a record that the helm
reads does (R448, R450, log 41). -/
def readHandle (ag : Agent) (acc : Acc) (h : BitVec 32) : M Unit := do
  let s ← getS
  let a := s.handleAddr ag.owner (handleSlot h)
  if !s.handleNamed ag.owner h then pure ()
  else if !s.deviceReaches a 32 then do
    modS fun s => s.logViolation { ag with handle := h } s.modnum (BitVec.ofNat 64 a) true acc 7
    trapWith 4 3 (BitVec.ofNat 64 a)
  else if s.physMarked a 32 then machineCheck ag a 2
  else pure ()

/-- Check a handle for an agent: the entry, or the trap. -/
def checkHandle (ag : Agent) (acc : Acc) (h : BitVec 32) (right : HRight) (off lo hi : Int) : M (BitVec 256) := do
  readHandle ag acc h
  let s ← getS
  match s.handleTrap ag.owner h right off lo hi with
  | none => pure (s.handleEntry ag.owner (handleSlot h))
  | some (t, none) => throw (.trap t)
  | some (t, some kind) => do
    modS fun s => s.logViolation { ag with handle := h } s.modnum t.tval false acc kind
    throw (.trap t)

/-! ### Engine accesses -/

/-- The address field of a request whose address its target translates: a handle's BASE on another module (R39). -/
def virtPa (va : Word) : Nat := 2 ^ 64 + va.toNat

/-- The target of an access through a handle with GLOBAL. -/
def globalTarget (m : ModNum) (o : Owner) (va : Word) : Target := ⟨some m, virtPa va, o, false, .default, va, 7⟩

/-- What became of a read of an engine operation. -/
inductive EGot where
  /-- the bytes, each with the mark of a consumed error, and where such an error lay: address and level (R455). -/
  | data (l : List (Byte × Bool)) (bad : Option (Nat × Nat))
  | fault (f : AFault)
  | detached (f : AFault)
  | failed (c : BitVec 4)
  deriving DecidableEq, Repr

/-- What local bytes hold for an operation. -/
def State.localGet (s : State) (ag : Agent) (a n : Nat) : EGot :=
  .data ((s.localRead ag.mode ag.owner a n).zipIdx.map fun e =>
      (e.1, s.localMarks.contains ((a + e.2) / 8) && s.sees ag.mode ag.owner ((a + e.2) / 128)))
    (if s.localMarked ag.mode ag.owner a n then some (0, localLevel a) else none)

/-- A local read of an operation: it waits for full lines (R55). -/
def localBytes (ag : Agent) (a n : Nat) : M EGot := do
  let s ← getS
  waitUnless (s.localFull a n)
  pure (s.localGet ag a n)

/-- What the answer of a translated read means to an operation; `leaf` is the level of its leaf. -/
def engAnswer (n addr level leaf : Nat) : Answer → EGot
  | .bytes l => .data (l.map fun b => (b, false)) none
  | .claimed _ _ | .acked => .data [] none
  | .poisoned => .data (List.replicate n (0, true)) (some (addr, level))
  | .violation => .fault ⟨3, 5, leaf, psizeOfLevel leaf⟩
  | .unimplemented => .fault ⟨3, 7, leaf, psizeOfLevel leaf⟩
  | .outside => .fault ⟨5, 0, 7, 1⟩
  | .hostDetached => .detached ⟨6, 0, leaf, psizeOfLevel leaf⟩
  | .remoteFault => .fault ⟨8, 0, 7, 1⟩
  | .failed c => .failed c

/-- The place `d` bytes further on. -/
def Place.shift (p : Place) (d : Nat) : Place :=
  match p with
  | .local a => .local (a + d)
  | .target t => .target { t with pa := t.pa + d, va := t.va + BitVec.ofNat 64 d }
  | .control o => .control (o + d)

/-- Where the bytes of an operation lie: a handle with GLOBAL is translated at its module (R39, R91). -/
def engPlace (ag : Agent) (acc : Acc) (module : Option ModNum) (va : Word) (n : Nat) : M (Except AFault Place) := do
  match module with
  | some m => pure (.ok (.target (globalTarget m ag.owner va)))
  | none =>
    match ← resolveM ag acc va n with
    | .ok (.control _) => do
      let s ← getS
      pure (.error (s.controlFault ag va))
    | r => pure r

/-- Where an access meets a fault instead: a detached range is told apart (R98). -/
def engFault (f : AFault) : EGot := if f.cls = 6 then .detached f else .fault f

/-- A read of at most 64 bytes that lie in one 64-byte unit, at a place. -/
def engRead (ag : Agent) (who : Who) (acc : Acc) (n : Nat) : Place → M EGot
  | .control _ => pure (.fault ⟨3, 2, 7, 1⟩)
  | .local a => localBytes ag a n
  | .target t => do
    let a ← keepM who acc ag.ident t (.load n)
    let s ← getS
    pure (if t.module.isSome then engAnswer n 0 2 t.level a else engAnswer n t.pa (s.levelOf t) t.level a)

/-- A read of at most 64 bytes that lie in one 64-byte unit. -/
def engPiece (ag : Agent) (who : Who) (acc : Acc) (module : Option ModNum) (va : Word) (n : Nat) : M EGot := do
  match ← engPlace ag acc module va n with
  | .error f => pure (engFault f)
  | .ok p => engRead ag who acc n p

/-- The pieces of the `n` bytes at `va`, one for each `k`-byte unit that they touch: address and length. -/
def unitPieces (k : Nat) (va : Word) (n : Nat) : List (Word × Nat) :=
  (unitsOf k va.toNat n).map fun u =>
    let lo := max va.toNat (k * u)
    (BitVec.ofNat 64 lo, min (va.toNat + n) (k * u + k) - lo)

end Sys2Proof.Machine
end

