-- ==== Sys2Proof/Machine/Lanes.lean ====
section
/-!
DEFINITION. How the column engine runs a vector instruction: element types and lane groups (R170, R171), guards and the
Z policy (R251), stream-bound registers (R331, R332), progress by element groups (R254), poison and flags (R212, R253)
and the two copies of protected mode (R275, R276).
-/

namespace Sys2Proof.Machine

/-! ### Elements -/

/-- The registers of one half: the lower copies, or the upper ones of protected mode. -/
structure Half where
  v : Vector (BitVec 16384) 32
  p : Vector (BitVec 1024) 16
  deriving DecidableEq, Repr

/-- A half of a strand's registers. -/
def Strand.half (t : Strand) (upper : Bool) : Half := if upper then ⟨t.vMirror, t.pMirror⟩ else ⟨t.v, t.p⟩

/-- A predicate of a half; p0 is true in every lane. -/
def Half.pred (h : Half) (g : PReg) : BitVec 1024 := if g = 0 then BitVec.allOnes 1024 else h.p[g.toNat]

/-- Element `i` of width `w` (R171). -/
def elemAt (x : BitVec 16384) (w i : Nat) : Nat := (x.extractLsb' (w * i) w).toNat

/-- A register with element `i` replaced. -/
def setElem (x : BitVec 16384) (w i n : Nat) : BitVec 16384 :=
  (x &&& ~~~((BitVec.allOnes w).setWidth 16384 <<< (w * i))) |||
    ((BitVec.ofNat w n).setWidth 16384 <<< (w * i))

/-- A predicate with bit `i` replaced. -/
def setBit (x : BitVec 1024) (i : Nat) (b : Bool) : BitVec 1024 :=
  if b then x ||| ((1 : BitVec 1024) <<< i) else x &&& ~~~((1 : BitVec 1024) <<< i)

/-- Element `i` of register `r` of a half. -/
def Half.elem (h : Half) (w : Nat) (r : Reg) (i : Nat) : Nat := elemAt h.v[r.toNat] w i

/-! ### The instruction that runs -/

/-- What an instruction finds when it runs: its strand's type, VL, the count of elements that may be active (VL, or
fewer at the end of a stream), and the elements of a group. -/
structure Run where
  u : Nat
  m : Member
  ty : ElemTy
  w : Nat
  vl : Nat
  limit : Nat
  epg : Nat
  vlmax : Nat
  prot : Bool
  rm : BitVec 2
  lanes : List Nat
  deriving DecidableEq, Repr

/-- The first element that is still to be processed. -/
def Run.start (x : Run) : Nat := if x.m.pv then x.m.idx.toNat else 0

/-- Elements of a group: those of R171, halved in protected mode (R275). -/
def groupElems (ty : ElemTy) (prot : Bool) : Nat :=
  if prot then 2048 / ElemTy.bits ty / 2 else 2048 / ElemTy.bits ty

/-- Elements of a group of the strand. -/
def Strand.groupSize (t : Strand) : Nat := (t.elemTy.map fun ty => groupElems ty t.protectedMode).getD 0

/-- The lane group of the cluster that holds element `i`. -/
def Run.laneGroup (x : Run) (i : Nat) : Nat := x.lanes.getD (i / x.epg) 0

/-- The elements of the processed groups: those of the groups that VL reaches (R173). -/
def Run.processed (x : Run) : Nat := alignUp x.vl x.epg

/-- Element `i` is active under a guard (R191), in a half. -/
def Run.active (x : Run) (h : Half) (g : PReg) (n : Bool) (i : Nat) : Bool :=
  decide (i < x.limit) && ((h.pred g).getLsbD i != n)

/-- The type in force; ILLEGAL while there is none. -/
def typeM (u : Nat) (m : Member) : M ElemTy := do
  let t ← getStrand u
  match t.elemTy with
  | some ty => pure ty
  | none => colIllegal m

/-! ### Streams -/

/-- The index of a register among the stream registers v24 to v31. -/
def streamIx (r : Reg) : Option (Fin 8) := if h : 24 ≤ r.toNat ∧ r.toNat < 32 then some ⟨r.toNat - 24, by omega⟩ else none

/-- The stream that a register is bound to. -/
def Strand.streamOf (t : Strand) (r : Reg) : Option (Fin 8 × Stream) :=
  match streamIx r with
  | some i => if t.streams[i].bound then some (i, t.streams[i]) else none
  | none => none

/-- The read-bound streams that the sources name, each once. -/
def Strand.readStreams (t : Strand) (srcs : List Reg) : List (Fin 8 × Stream) :=
  ((srcs.filterMap t.streamOf).filter fun e => !e.2.append).eraseDups

/-- Sources and destination agree with their bindings and with the type (R331, R332). -/
def checkStreams (m : Member) (t : Strand) (ty : ElemTy) (srcs : List Reg) (dst : Option Reg) : M Unit := do
  if (t.readStreams srcs).any fun e => etypeVector (descType t.k[e.2.col.toNat]) != ty then colIllegal m else pure ()
  match dst.bind t.streamOf with
  | none => pure ()
  | some (_, st) =>
    if !st.append || etypeVector (descType t.k[st.col.toNat]) != ty then colIllegal m else pure ()

/-- Elements that a read of a stream delivers, of VL asked for: those up to the end of the column (R331). -/
def streamCount (t : Strand) (st : Stream) (vl : Nat) : Nat :=
  min vl (descLen t.k[st.col.toNat] - st.delivered.toNat)

/-- A register with the first elements replaced by the delivered ones, and zero up to VL. -/
def deliveredReg (w vl : Nat) (x : BitVec 16384) (l : List (Word × Bool)) (poison : Nat) : BitVec 16384 :=
  (List.range vl).foldl (fun x i =>
    setElem x w i (match l[i]? with
      | some (v, bad) => if bad then poison else v.toNat
      | none => 0)) x

/-- The PMASK bits of delivered elements that consumed an error (R450). -/
def deliveredMask (l : List (Word × Bool)) : BitVec 1024 :=
  l.zipIdx.foldl (fun p e => if e.1.2 then setBit p e.2 true else p) 0

/-- One read of a stream: the next VL elements go to its register, and the stream advances by VL (R331). -/
def Strand.deliverStream (t : Strand) (ty : ElemTy) (i : Fin 8) (vl : Nat) : Strand :=
  let st := t.streams[i]
  let n := streamCount t st vl
  let l := st.buffer.take n
  let r := 24 + i.val
  let st' : Stream := { st with delivered := st.delivered + BitVec.ofNat 32 vl, buffer := st.buffer.drop n }
  { t with
    streams := t.streams.set i st'
    v := t.v.setIfInBounds r (deliveredReg (ElemTy.bits ty) vl (t.v.getD r 0) l ty.poison)
    vMirror := t.vMirror.setIfInBounds r (deliveredReg (ElemTy.bits ty) vl (t.vMirror.getD r 0) l ty.poison)
    pmask := t.pmask ||| deliveredMask l }

/-- A reader that reaches the element at which a fill met a fault takes the precise access trap, and the fill is tried
again (log 26). -/
def stuckTrap (u : Nat) (i : Fin 8) : Option (Word × Nat) → M Unit
  | none => pure ()
  | some (va, cls) => do
    modStrand u fun t => { t with streams := t.streams.set i { t.streams[i] with stuck := none } }
    trapWith 4 cls va

/-- Take the next strips of the streams that the sources name, once they are there. A member that has an index has taken
its strips before. -/
def takeStreams (u : Nat) (m : Member) (ty : ElemTy) (srcs : List Reg) : M Unit := do
  let t ← getStrand u
  let l := t.readStreams srcs
  if m.pv || l.isEmpty then pure ()
  else do
    let short := l.filter fun e => e.2.buffer.length < streamCount t e.2 t.vl
    forList short fun e => stuckTrap u e.1 e.2.stuck
    onWait (State.noteWait u ⟨(short.map fun e => e.2.buffer.length).head?, 0, 0, 2⟩) (waitUnless short.isEmpty)
    forList l fun e => modStrand u fun t => t.deliverStream ty e.1 t.vl
    setIdx u m.iid 0

/-- Elements that may be active: VL, or fewer where a source is a stream at its column's end. -/
def Strand.activeLimit (t : Strand) (srcs : List Reg) : Nat :=
  (t.readStreams srcs).foldl (fun n e =>
    min n (descLen t.k[e.2.col.toNat] - (e.2.delivered.toNat - t.vl))) t.vl

/-- Prepare an instruction: its type, its bindings, its streams. -/
def prepare (u : Nat) (m : Member) (srcs : List Reg) (dst : Option Reg) : M Run := do
  let ty ← typeM u m
  let t ← getStrand u
  checkStreams m t ty srcs dst
  takeStreams u m ty srcs
  let t ← getStrand u
  pure ⟨u, m, ty, ElemTy.bits ty, t.vl, t.activeLimit srcs, groupElems ty t.protectedMode, t.vlmax, t.protectedMode,
    m.rm, t.lanes⟩

/-! ### Results -/

/-- What an instruction computes for one element: the code, its flags, and whether it is poison that a source held. -/
structure VRes where
  val : Nat
  fl : Flags
  poison : Bool
  deriving DecidableEq, Repr

/-- A result that raises nothing. -/
def VRes.plain (n : Nat) : VRes := ⟨n, 0, false⟩

/-- What becomes of one destination element: unchanged, zeroed, or the result. -/
def policy (z active : Bool) (r : VRes) : Option VRes :=
  if active then some r else if z then some (.plain 0) else none

/-- One committed element of a vector register (R276): where the copies differ, both receive poison. -/
structure Committed where
  lower : BitVec 16384
  upper : BitVec 16384
  fl : Flags
  pmask : BitVec 1024
  diverged : Option Nat

/-- Commit element `i` of a register. -/
def commitElem (ty : ElemTy) (prot : Bool) (low high : Nat → Option VRes) (c : Committed) (i : Nat) : Committed :=
  let w := ElemTy.bits ty
  let put (x : BitVec 16384) (n : Nat) : BitVec 16384 := setElem x w i n
  match low i, high i with
  | none, none => c
  | a, b =>
    let la := match a with
      | some r => r.val
      | none => elemAt c.lower w i
    let lb := match b with
      | some r => r.val
      | none => elemAt c.upper w i
    let fl := match a with
      | some r => r.fl
      | none => 0
    let bad := match a with
      | some r => r.poison
      | none => false
    if prot && la != lb then
      { lower := put c.lower ty.poison, upper := put c.upper ty.poison, fl := c.fl ||| fl,
        pmask := setBit c.pmask i true
        diverged := match c.diverged with
          | some j => some j
          | none => some i }
    else
      { lower := put c.lower la, upper := put c.upper la, fl := c.fl ||| fl,
        pmask := if bad then setBit c.pmask i true else c.pmask, diverged := c.diverged }

/-- Position of a member in its convoy (R431). -/
def memberNumber (t : Strand) (m : Member) : Nat := (firstOf t.queue).findIdx fun q => q.iid = m.iid
where
  /-- The first convoy of a queue. -/
  firstOf : List Member → List Member
    | [] => []
    | q :: t => if q.last then [q] else q :: firstOf t

/-- The element that a DIVERGE trap names (R276). -/
def ColTrap.elem (c : ColTrap) : Nat := c.tval.toNat % 2 ^ 14

/-- A DIVERGE trap names a lower member than another, or a lower element of the same member. -/
def ColTrap.lower (c d : ColTrap) : Bool := c.cause.ult d.cause || (c.cause = d.cause && decide (c.elem < d.elem))

/-- Copies differed: the DIVERGE trap follows once the convoy has completed, for the lowest member that diverged
(R276). -/
def noteDiverge (u : Nat) (m : Member) (tval : Nat) : M Unit := do
  modStrand u fun t =>
    let c : ColTrap := ⟨causeWord 11 0 (memberNumber t m), BitVec.ofNat 64 tval, none, 0⟩
    match t.kept.diverge with
    | some (_, d) => if c.lower d then { t with kept := { t.kept with diverge := some (m.mode, c) } } else t
    | none => { t with kept := { t.kept with diverge := some (m.mode, c) } }

/-- Report the element of a register that diverged. -/
def noteElem (u : Nat) (m : Member) (reg : Nat) (isPred : Bool) (d : Option Nat) : M Unit :=
  match d with
  | none => pure ()
  | some i => noteDiverge u m (i + reg * 2 ^ 16 + (if isPred then 2 ^ 24 else 0))

/-- Write elements of vector register `vd`: `low` and `high` give what each copy of element `i` receives. -/
def commitVec (x : Run) (vd : Reg) (elems : List Nat) (low high : Nat → Option VRes) : M Unit := do
  let t ← getStrand x.u
  let c : Committed := elems.foldl (commitElem x.ty x.prot low high)
    { lower := t.v[vd.toNat], upper := t.vMirror[vd.toNat], fl := 0, pmask := t.pmask, diverged := none }
  modStrand x.u fun t =>
    ({ t with v := t.v.set vd.toNat c.lower, vMirror := t.vMirror.set vd.toNat c.upper, pmask := c.pmask }).raise c.fl
  noteElem x.u x.m vd.toNat false c.diverged

/-- Write bits of predicate `pd`; p0 takes none (R184). -/
def commitPred (x : Run) (pd : PReg) (elems : List Nat) (low high : Nat → Option Bool) : M Unit := do
  let t ← getStrand x.u
  let get (p : BitVec 1024) (r : Option Bool) (i : Nat) : Bool := r.getD (p.getLsbD i)
  let step (c : BitVec 1024 × BitVec 1024 × BitVec 1024 × Option Nat) (i : Nat) :
      BitVec 1024 × BitVec 1024 × BitVec 1024 × Option Nat :=
    let (a, b, pm, d) := c
    let la := get a (low i) i
    let lb := get b (high i) i
    if x.prot && la != lb then
      (setBit a i false, setBit b i false, setBit pm i true, match d with
        | some j => some j
        | none => some i)
    else (setBit a i la, setBit b i la, pm, d)
  if pd = 0 then pure ()
  else do
    let (a, b, pm, d) := elems.foldl step (t.p[pd.toNat], t.pMirror[pd.toNat], t.pmask, none)
    modStrand x.u fun t => { t with p := t.p.set pd.toNat a, pMirror := t.pMirror.set pd.toNat b, pmask := pm }
    noteElem x.u x.m pd.toNat true d

/-- Give a member's reply its value (R168); in protected mode the two copies are compared (R276). -/
def replyM (x : Run) (low high : Word) : M Unit := do
  let bad : Word := match x.ty.ffmt with
    | some _ => BitVec.ofNat 64 x.ty.poison
    | none => BitVec.allOnes 64
  let v := if x.prot && low != high then bad else low
  modStrand x.u fun t =>
    { t with replies := t.replies.map fun q => if q.iid = x.m.iid then { q with value := some v } else q }
  if x.prot && low != high then noteDiverge x.u x.m (0x3fff + (replyRegOfWord x.m.word).toNat * 2 ^ 16) else pure ()

/-- Give a reply that no lanes computed its value. -/
def replyWord (u : Nat) (m : Member) (v : Word) : M Unit := modStrand u fun t =>
  { t with replies := t.replies.map fun q => if q.iid = m.iid then { q with value := some v } else q }

/-- An element as a scalar result (R265): INT32 sign-extended, FP32 and BF16 zero-extended. -/
def scalarOf (ty : ElemTy) (n : Nat) : Word :=
  match ty with
  | .i32 => (BitVec.ofNat 32 n).signExtend 64
  | .i64 | .f32 | .bf16 => BitVec.ofNat 64 n

/-! ### Appends (R332) -/

/-- A kernel-visible record for an appended element that faults: it stops the instruction at that element. -/
def appendFault {α : Type} (u : Nat) (m : Member) (va : Word) (n i : Nat) (f : AFault) : M α := do
  let ag := m.agent u
  modS fun s => (s.logIfViolation ag .write va f).queueFault ag (accessOwner ag va) va n f .write false (some i)
  setIdx u m.iid i
  trapWith 4 f.cls va

/-- Append one element to the column of an append-bound register. -/
def appendElem (x : Run) (sx : Fin 8) (i n : Nat) : M Unit := do
  let t ← getStrand x.u
  let col := t.streams[sx].col
  let d := t.k[col.toNat]
  let sz := etypeBytes (descType d)
  if descCap d ≤ descLen d then do
    setIdx x.u x.m.iid i
    trapWith 8 0 (col.setWidth 64)
  else do
    let va := descBase d + BitVec.ofNat 64 (descLen d * sz)
    waitUnless (← storeReady x.u x.m .write va sz)
    let slot ← storeSlot x.u x.m .write va sz
    let s ← getS
    waitUnless (match slot with
      | some (slice, _) => decide (0 < s.queueSpace (clusterOf x.u) (x.laneGroup i) slice)
      | none => true)
    let g ← storeElem x.u x.m .write .default (x.laneGroup i) (i / max 1 x.epg) i va
      (.store (writeAll (bytesOfNat sz n)))
    match g with
    | .fault f => appendFault x.u x.m va sz i f
    | .detached f => detachedElem x.u x.m .write va sz i f
    | .bytes _ | .poisoned _ _ | .failed _ => pure ()
    modStrand x.u fun t =>
      { t with k := t.k.set col.toNat (descSet t.k[col.toNat] 64 32 (descLen d + 1)),
               streams := t.streams.set sx { t.streams[sx] with delivered := t.streams[sx].delivered + 1 } }

/-- The value that element `i` of a register is committed with: in protected mode its copies are compared first (R276). -/
def committedVal (x : Run) (t : Strand) (vd : Reg) (low high : Nat → Option VRes) (i : Nat) : Nat :=
  elemAt (commitElem x.ty x.prot low high ⟨t.v[vd.toNat], t.vMirror[vd.toNat], 0, 0, none⟩ i).lower x.w i

/-- Append the active elements of a written register, in ascending order, where it is bound for appending; `after` is what
each commits besides. Where there are several, each moves the progress index past itself, so that a stop in their midst
repeats none. -/
def appendThen (x : Run) (vd : Reg) (elems : List Nat) (active : Nat → Bool) (low high : Nat → Option VRes)
    (after : Nat → M Unit) : M Unit := do
  let t ← getStrand x.u
  match t.streamOf vd with
  | none => pure ()
  | some (sx, _) => forList (elems.filter active) fun i => do
    let t ← getStrand x.u
    appendElem x sx i (committedVal x t vd low high i)
    after i
    if 1 < elems.length then setMid x.u x.m.iid (i + 1) else pure ()

/-- Append the active elements of a written register, which commit nothing else one by one. -/
def appendM (x : Run) (vd : Reg) (elems : List Nat) (active : Nat → Bool) (low high : Nat → Option VRes) : M Unit :=
  appendThen x vd elems active low high fun _ => pure ()

/-! ### Element-wise instructions -/

/-- The elements of the group in which the instruction stands, from its progress index on. -/
def Run.group (x : Run) : List Nat :=
  let hi := (x.start / x.epg + 1) * x.epg
  (List.range hi).drop x.start

/-- The instruction has processed every group (R173). -/
def Run.finished (x : Run) : Bool := x.vl ≤ x.start || x.epg = 0

/-- After a group: the index moves to the next one; whether that was the last. -/
def nextGroup (x : Run) : M Bool := do
  let hi := (x.start / x.epg + 1) * x.epg
  setIdx x.u x.m.iid hi
  pure (decide (x.vl ≤ hi))

/-- After one element of a group: the index moves past it, and the member stands inside the group unless that was its last
(R254); whether it was the last of all. -/
def nextElem (x : Run) : M Bool := do
  if (x.start + 1) % max 1 x.epg = 0 then setIdx x.u x.m.iid (x.start + 1) else setMid x.u x.m.iid (x.start + 1)
  pure (decide (x.processed ≤ x.start + 1))

/-- The elements of one step: a group, or one element where the destination is bound for appending (R332). -/
def Run.step (x : Run) (single : Bool) : List Nat := if single then [x.start] else x.group

/-- One step of an element-wise instruction that writes vector register `vd`: `f` computes an element of a half. -/
def elementwise (u : Nat) (m : Member) (k : VCtl) (srcs : List Reg) (vd : Reg) (legal : ElemTy → Bool)
    (f : Run → Half → Nat → VRes) : M Bool := do
  let ty ← typeM u m
  if legal ty then pure () else colIllegal m
  let x ← prepare u m srcs (some vd)
  let t ← getStrand u
  let single := (t.streamOf vd).isSome
  if x.finished && !(single && decide (x.start < x.processed)) then pure true
  else do
    let lo := t.half false
    let hi := t.half true
    let actLo := x.active lo k.g k.n
    let low (i : Nat) : Option VRes := policy k.z (actLo i) (f x lo i)
    let high (i : Nat) : Option VRes := if x.prot then policy k.z (x.active hi k.g k.n i) (f x hi i) else low i
    appendM x vd (x.step single) actLo low high
    commitVec x vd (x.step single) low high
    if single then nextElem x else nextGroup x

/-- One step of an element-wise instruction that writes predicates: each destination with the bit it receives. -/
def predwise (u : Nat) (m : Member) (k : VCtl) (srcs : List Reg) (dsts : List (PReg × (Run → Half → Nat → Bool)))
    (fl : Run → Half → Nat → Flags) : M Bool := do
  let x ← prepare u m srcs none
  let t ← getStrand u
  if x.finished then pure true
  else do
    let lo := t.half false
    let hi := t.half true
    let bit (h : Half) (g : Run → Half → Nat → Bool) (i : Nat) : Option Bool :=
      if x.active h k.g k.n i then some (g x h i) else if k.z then some false else none
    forList dsts fun d => commitPred x d.1 x.group (bit lo d.2) (bit (if x.prot then hi else lo) d.2)
    raiseFlags u (x.group.foldl (fun a i => if x.active lo k.g k.n i then a ||| fl x lo i else a) 0)
    nextGroup x

/-! ### Lane-crossing instructions -/

/-- The elements of every processed group. -/
def Run.all (x : Run) : List Nat := List.range x.processed

/-- A lane-crossing member that carries an index has completed before its convoy stopped (R255, R431), unless it stopped
among the elements it appends (R332). -/
def unlessDone (u : Nat) (m : Member) (vd : Option Reg) (body : M Bool) : M Bool := do
  let t ← getStrand u
  let appends := match vd.bind t.streamOf with
    | some (_, st) => st.append && decide (m.idx.toNat < t.vl)
    | none => false
  if m.pv && !appends then pure true else body

/-- Run a lane-crossing instruction that writes vector register `vd` in one step, on a type that `legal` accepts: `f` gives
the whole result of a half, element by element (none: not written). -/
def crossing (u : Nat) (m : Member) (srcs : List Reg) (vd : Reg) (legal : ElemTy → Bool)
    (f : Run → Half → Nat → Option VRes) (act : Run → Half → Nat → Bool) : M Bool := unlessDone u m (some vd) (do
  let ty ← typeM u m
  if legal ty then pure () else colIllegal m
  let x ← prepare u m srcs (some vd)
  let t ← getStrand u
  let lo := t.half false
  let hi := t.half true
  appendM x vd (x.all.drop x.start) (act x lo) (f x lo) (f x (if x.prot then hi else lo))
  commitVec x vd x.all (f x lo) (f x (if x.prot then hi else lo))
  pure true)

end Sys2Proof.Machine
end

