-- ==== Sys2Proof/Machine/Push.lean ====
section
/-!
DEFINITION. How the helm issues an instruction to the column engine (R164 to R169, R177, R204, R205, R282): operands read
at issue, checks made at issue, the reply slot, the dependence counter, and the convoy that the instruction joins.
-/

namespace Sys2Proof.Machine

/-- The opcode of a word. -/
def opcodeOf (w : Word) : Nat := (w.extractLsb' 56 8).toNat

/-- The instruction reads or writes elements of a vector register or predicate, so that it needs a legal vtype (R177). -/
def needsType (w : Word) : Bool :=
  let op := opcodeOf w
  (0x42 ≤ op && op ≤ 0x8a) || (0x8c ≤ op && op ≤ 0x93) || op = 0xb6

/-- SETVL and SETVT, which make vtype legal. -/
def setsType (w : Word) : Bool := opcodeOf w = 0x40 || opcodeOf w = 0x41

/-- SETVL and CLAIM, with which a strip starts (R172). -/
def startsStrip (w : Word) : Bool := opcodeOf w = 0x40 || opcodeOf w = 0x9e

/-- SETVL, SETVT, VFOLD and CLAIM start a convoy of their own (R204). -/
def startsConvoy (w : Word) : Bool := (0x40 ≤ opcodeOf w && opcodeOf w ≤ 0x42) || opcodeOf w = 0x9e

/-- vtype is illegal, and no older instruction in the queue will make it legal (R177). -/
def Strand.typeMissing (t : Strand) : Bool :=
  t.vtype.getLsbD 4 && !(t.queue ++ t.assembling).any fun m => setsType m.word

/-- What an instruction of the column engine has read when it issues. -/
structure Opnds where
  a : Word
  b : Word
  c : Word
  d : Word
  deriving DecidableEq, Repr

/-- No operand. -/
def noOpnds (_ : Nat) : M Opnds := pure ⟨0, 0, 0, 0⟩

/-- The operand of the xa field. -/
def opndA (xa : Reg) (u : Nat) : M Opnds := do
  let a ← readX u xa
  pure ⟨a, 0, 0, 0⟩

/-- The operand of the xb field. -/
def opndB (xb : Reg) (u : Nat) : M Opnds := do
  let b ← readX u xb
  pure ⟨0, b, 0, 0⟩

/-- The operands of the xa and xb fields. -/
def opndAB (xa xb : Reg) (u : Nat) : M Opnds := do
  let a ← readX u xa
  let b ← readX u xb
  pure ⟨a, b, 0, 0⟩

/-- The operands of the xa, xb and xc fields. -/
def opndABC (xa xb xc : Reg) (u : Nat) : M Opnds := do
  let a ← readX u xa
  let b ← readX u xb
  let c ← readX u xc
  pure ⟨a, b, c, 0⟩

/-- The convoy under assembly may take this instruction: four members with chain bits are too many, and some
instructions start a convoy of their own (R204). tval names the member whose chain bit breaks the rule. -/
def joinConvoy (u : Nat) (w : Word) : M Unit := do
  let t ← getStrand u
  match t.assembling.getLast? with
  | none => pure ()
  | some m => if 4 ≤ t.assembling.length || startsConvoy w then trapWith 1 0 m.addr else pure ()

/-- A reply slot and a queue entry are free (R165, R168), and the counter can rise (R282). -/
def roomFor (u : Nat) (i : Instr) : M Unit := do
  settleM u
  let t ← getStrand u
  waitUnless (replyReg i = 0 || t.replies.length < 16)
  waitUnless (convoys t.queue < 32)
  match memCtl i with
  | some c => waitUnless (c.d = 0 || t.kept.dctr[c.d.toNat] != BitVec.allOnes 16)
  | none => pure ()

/-- The strand with an issued instruction in its convoy, which is pushed when its last member issues (R165, R166). -/
def Strand.take (t : Strand) (i : Instr) (o : Opnds) : Strand :=
  let w := encode i
  let m : Member :=
    { word := w, addr := t.pc, opa := o.a, opb := o.b, opc := o.c, opd := o.d, idx := 0, pv := false, disc := false,
      last := !chainBit w, mode := t.mode, rm := t.rm, prot := t.prot, owner := t.owner, iid := t.nextIid,
      done := false, mid := false, consumed := false, work := none,
      ahead := [], reach := 0 }
  let r := replyReg i
  let reply : List Reply := if r = 0 then [] else [⟨r, t.uia, t.nextIid, none, false, true⟩]
  let opens := (openOf w t.nextIid).toList
  let convoy := t.assembling ++ [m]
  { t with
    nextIid := t.nextIid + 1
    replies := t.replies ++ reply
    openInstrs := t.openInstrs ++ opens
    kept := opens.foldl (fun k e => k.raise e.d) t.kept
    assembling := if m.last then [] else convoy
    queue := if m.last then t.queue ++ convoy else t.queue
    pc := t.pc + 8 }

/-- Issue `i` to the column engine: `opnds` reads its operands, `check` makes the checks that its own rule makes at
issue, `after` is what its issue does besides. -/
def pushThen (i : Instr) (opnds : Nat → M Opnds) (check : Nat → Opnds → M Unit) (after : Nat → M Unit) (s : State) :
    Host.Outcome State Fault Refusal :=
  conclude s.cur s ((do
    let u := s.cur
    joinConvoy u (encode i)
    let t ← getStrand u
    if needsType (encode i) && t.typeMissing then illegal u else pure ()
    let o ← opnds u
    check u o
    roomFor u i
    modStrand u fun t => t.take i o
    after u) s)

/-- An instruction whose issue does nothing besides. -/
def noMore (_ : Nat) : M Unit := pure ()

/-- Issue `i` to the column engine. -/
def pushOp (i : Instr) (opnds : Nat → M Opnds) (check : Nat → Opnds → M Unit) (s : State) :
    Host.Outcome State Fault Refusal := pushThen i opnds check noMore s

/-- An instruction that checks nothing of its own at issue. -/
def noCheck (_ : Nat) (_ : Opnds) : M Unit := pure ()

end Sys2Proof.Machine
end

