-- ==== Sys2Proof/Machine/VecArith.lean ====
section
/-!
DEFINITION. What vector instructions compute on element codes: integer and floating-point arithmetic (R259, R260, R261),
the correctly rounded 2^a, log2 a and 1/sqrt a, conversions between element types (R262), and the reduction operators
with their two orders (R220, R266).
-/

namespace Sys2Proof.Machine

/-- A floating-point result: it is poison exactly where a source was. -/
def VRes.fp (f : FFmt) (srcs : List Nat) (r : Nat × Flags) : VRes := ⟨r.1, r.2, srcs.any f.isPoison⟩

/-- A value that an instruction moves: poison of a floating-point type is marked (R253). -/
def VRes.move (ty : ElemTy) (n : Nat) : VRes :=
  match ty.ffmt with
  | some f => ⟨n, 0, f.isPoison n⟩
  | none => .plain n

/-! ### Two operands (R259) -/

/-- An integer operand, signed unless `u`. -/
def readInt (w : Nat) (u : Bool) (a : Nat) : Int := if u then (a : Int) else sintOf w a

/-- An exact integer result, wrapped or saturated. -/
def intResultOf (w : Nat) (u sat : Bool) (n : Int) : VRes :=
  if sat then
    let (r, fl) := if u then satInt n 0 ((2 ^ w : Nat) - 1) Flags.iov else satInt n (sMin w) (sMax w) Flags.iov
    ⟨wrapCode r w, fl, false⟩
  else .plain (wrapCode n w)

/-- VADD. -/
def addVal (u sat : Bool) (ty : ElemTy) (rm : BitVec 2) (a b : Nat) : VRes :=
  match ty.ffmt with
  | some f => .fp f [a, b] (f.add rm a b)
  | none => intResultOf (ElemTy.bits ty) u sat (readInt (ElemTy.bits ty) u a + readInt (ElemTy.bits ty) u b)

/-- VSUB. -/
def subVal (u sat : Bool) (ty : ElemTy) (rm : BitVec 2) (a b : Nat) : VRes :=
  match ty.ffmt with
  | some f => .fp f [a, b] (f.sub rm a b)
  | none => intResultOf (ElemTy.bits ty) u sat (readInt (ElemTy.bits ty) u a - readInt (ElemTy.bits ty) u b)

/-- VMUL: the low half of the product, or the high half with H. -/
def mulVal (u h : Bool) (ty : ElemTy) (rm : BitVec 2) (a b : Nat) : VRes :=
  match ty.ffmt with
  | some f => .fp f [a, b] (f.mul rm a b)
  | none =>
    let w := ElemTy.bits ty
    let p := readInt w u a * readInt w u b
    .plain (wrapCode (if h then p / (2 ^ w : Nat) else p) w)

/-- VDIV: toward zero; division by zero gives all ones. -/
def divVal (u : Bool) (ty : ElemTy) (rm : BitVec 2) (a b : Nat) : VRes :=
  match ty.ffmt with
  | some f => .fp f [a, b] (f.div rm a b)
  | none =>
    let w := ElemTy.bits ty
    if b = 0 then .plain (2 ^ w - 1) else .plain (wrapCode ((readInt w u a).tdiv (readInt w u b)) w)

/-- VMIN. -/
def minVal (u : Bool) (ty : ElemTy) (a b : Nat) : VRes :=
  match ty.ffmt with
  | some f => .fp f [a, b] (f.minNum a b)
  | none => .plain (if readInt (ElemTy.bits ty) u b < readInt (ElemTy.bits ty) u a then b else a)

/-- VMAX. -/
def maxVal (u : Bool) (ty : ElemTy) (a b : Nat) : VRes :=
  match ty.ffmt with
  | some f => .fp f [a, b] (f.maxNum a b)
  | none => .plain (if readInt (ElemTy.bits ty) u a < readInt (ElemTy.bits ty) u b then b else a)

/-- VSHL: the count is b mod SEW. -/
def shlVal (ty : ElemTy) (a b : Nat) : VRes :=
  .plain (a * 2 ^ (b % ElemTy.bits ty) % 2 ^ ElemTy.bits ty)

/-- VSHR. -/
def shrVal (ty : ElemTy) (a b : Nat) : VRes := .plain (a / 2 ^ (b % ElemTy.bits ty))

/-- VSRA. -/
def sraVal (ty : ElemTy) (a b : Nat) : VRes :=
  .plain (wrapCode (sintOf (ElemTy.bits ty) a / (2 ^ (b % ElemTy.bits ty) : Nat)) (ElemTy.bits ty))

/-- VFMA and VFMS (R260). -/
def fmaVal (sub : Bool) (ty : ElemTy) (rm : BitVec 2) (a b c : Nat) : VRes :=
  match ty.ffmt with
  | some f => .fp f [a, b, c] (f.fma rm sub a b c)
  | none =>
    let w := ElemTy.bits ty
    let p := sintOf w a * sintOf w b
    .plain (wrapCode (if sub then p - sintOf w c else p + sintOf w c) w)

/-! ### One operand (R261) -/

/-- Bits below the binary point with which 2^a and log2 a are worked out: more than twice what correct rounding of
FP32 needs (R261). -/
def fracBits : Nat := 192

/-- ln 2 x 2^192, rounded down. -/
def ln2Fixed : Nat := 4350955369971217654477563090224794165364344896676135745069

/-- A lower bound of the sum of t^j / j! from the term `term`, number `j`, in units of 2^-192, over `fuel` terms. -/
def expSeries (t : Nat) : Nat → Nat → Nat → Nat
  | 0, _, _ => 0
  | fuel + 1, j, term => term + expSeries t fuel (j + 1) (term * t / ((j + 1) * 2 ^ fracBits))

/-- 2^f for f = frac / 2^k, 0 < f < 1, in units of 2^-192: a lower bound, at least 1. -/
def exp2Frac (frac k : Nat) : Nat := expSeries (frac * ln2Fixed / 2 ^ k) 48 0 (2 ^ fracBits)

/-- RND(2^a) of a finite a = plus or minus m x 2^e. Only integers have an exact result. -/
def FFmt.exp2Fin (f : FFmt) (rm : BitVec 2) (neg : Bool) (m : Nat) (e : Int) : Nat × Flags :=
  if m = 0 then f.round rm false 1 0
  else if 12 < (bitLen m : Int) + e then f.round rm false 1 (if neg then -4096 else 4096)
  else if 0 ≤ e then f.round rm false 1 (signed neg (m * 2 ^ e.toNat))
  else
    let k := (-e).toNat
    let n : Int := signed neg m / (2 ^ k : Nat)
    let frac := (signed neg m % (2 ^ k : Nat)).toNat
    if frac = 0 then f.round rm false 1 n
    else f.round rm false (2 * exp2Frac frac k + 1) (n - (fracBits + 1 : Nat))

/-- VEXP2. -/
def FFmt.exp2 (f : FFmt) (rm : BitVec 2) (a : Nat) : Nat × Flags :=
  if f.isPoison a then (f.poison, 0)
  else
    match f.decode a with
    | .nan s => f.makeNan s
    | .inf n => (if n then 0 else f.inf false, 0)
    | .fin n m e => f.exp2Fin rm n m e

/-- The first `n` bits of log2 x below the point, by repeated squaring; x, between 1 and 2, in units of 2^-192. -/
def log2Bits : Nat → Nat → Nat → Nat
  | 0, _, acc => acc
  | n + 1, x, acc =>
    let y := x * x / 2 ^ fracBits
    if 2 ^ (fracBits + 1) ≤ y then log2Bits n (y / 2) (2 * acc + 1) else log2Bits n y (2 * acc)

/-- RND(log2(m x 2^e)): exact for a power of two, of which the logarithm of 1 is +0. -/
def FFmt.log2Fin (f : FFmt) (rm : BitVec 2) (m : Nat) (e : Int) : Nat × Flags :=
  let q := bitLen m - 1
  let n : Int := q + e
  if m = 2 ^ q then if n = 0 then (0, 0) else f.round rm (decide (n < 0)) n.natAbs 0
  else
    let bits := 100
    let v : Int := 2 * (n * (2 ^ bits : Nat) + log2Bits bits (m * 2 ^ (fracBits - q)) 0) + 1
    f.round rm (decide (v < 0)) v.natAbs (-(bits + 1 : Nat))

/-- VLOG2. -/
def FFmt.log2 (f : FFmt) (rm : BitVec 2) (a : Nat) : Nat × Flags :=
  if f.isPoison a then (f.poison, 0)
  else
    match f.decode a with
    | .nan s => f.makeNan s
    | .inf n => if n then f.makeNan true else (f.inf false, 0)
    | .fin n m e =>
      if m = 0 then (f.inf true, Flags.dz) else if n then f.makeNan true else f.log2Fin rm m e

/-- VRCP: 1 / a. -/
def FFmt.recip (f : FFmt) (rm : BitVec 2) (a : Nat) : Nat × Flags :=
  f.div rm (f.bias * 2 ^ f.mbits) a

/-- RND(1 / sqrt(m x 2^e)), m nonzero: enough bits of the root of 2^120 / m, and whether any are lost. -/
def FFmt.rsqrtFin (f : FFmt) (rm : BitVec 2) (m : Nat) (e : Int) : Nat × Flags :=
  let m' := if e % 2 = 0 then m else 2 * m
  let e' := if e % 2 = 0 then e else e - 1
  let r := isqrt (2 ^ 120 / m')
  f.round rm false (2 * r + (if r * r * m' = 2 ^ 120 then 0 else 1)) (-(e' / 2) - 61)

/-- VRSQ. -/
def FFmt.rsqrt (f : FFmt) (rm : BitVec 2) (a : Nat) : Nat × Flags :=
  if f.isPoison a then (f.poison, 0)
  else
    match f.decode a with
    | .nan s => f.makeNan s
    | .inf n => if n then f.makeNan true else (0, 0)
    | .fin n m e =>
      if m = 0 then (f.inf n, Flags.dz) else if n then f.makeNan true else f.rsqrtFin rm m e

/-- A one-operand instruction on floating-point types. -/
def fpVal (op : FFmt → BitVec 2 → Nat → Nat × Flags) (ty : ElemTy) (rm : BitVec 2) (a : Nat) : VRes :=
  match ty.ffmt with
  | some f => .fp f [a] (op f rm a)
  | none => .plain a

/-- A sign operation on a code: poison stays, a NaN becomes canonical, and a signalling one raises NV. -/
def FFmt.signOp (f : FFmt) (op : Nat → Nat) (a : Nat) : Nat × Flags :=
  if f.isPoison a then (f.poison, 0)
  else
    match f.decode a with
    | .nan s => f.makeNan s
    | .inf _ | .fin _ _ _ => (op a, 0)

/-- VABS. -/
def absVal (ty : ElemTy) (a : Nat) : VRes :=
  match ty.ffmt with
  | some f => .fp f [a] (f.signOp (· % f.signBit) a)
  | none => .plain (wrapCode (sintOf (ElemTy.bits ty) a).natAbs (ElemTy.bits ty))

/-- VNEG. -/
def negVal (ty : ElemTy) (a : Nat) : VRes :=
  match ty.ffmt with
  | some f => .fp f [a] (f.signOp (· ^^^ f.signBit) a)
  | none => .plain (wrapCode (-(sintOf (ElemTy.bits ty) a)) (ElemTy.bits ty))

/-! ### Conversions (R262) -/

/-- VCVT of one code from type `s` to type `t`. -/
def convertVal (s t : ElemTy) (rm : BitVec 2) (a : Nat) : VRes :=
  match s.ffmt, t.ffmt with
  | some f, some g => .fp f [a] (f.convert g rm a)
  | some f, none =>
    if f.isPoison a then .plain t.poison
    else
      let (i, fl) := (f.decode a).toInt rm (sMin (ElemTy.bits t)) (sMax (ElemTy.bits t))
      ⟨wrapCode i (ElemTy.bits t), fl, false⟩
  | none, some g =>
    let (n, fl) := g.ofInt rm (sintOf (ElemTy.bits s) a)
    ⟨n, fl, false⟩
  | none, none => .plain (wrapCode (sintOf (ElemTy.bits s) a) (ElemTy.bits t))

/-! ### Reductions (R220, R266) -/

/-- The operator of a reduction, with its flags: an integer sum that wraps raises IOV. R266 says that a poisoned element makes a
floating-point result POISON, and that .and, .or, .xor, .minu and .maxu work on bit patterns: under a floating-point type
these five are taken to give no floating-point result, and follow the patterns (DESIGN CHOICE, log 113). -/
def redOp (op : RedOp) (ty : ElemTy) (rm : BitVec 2) (a b : Nat) : Nat × Flags :=
  let w := ElemTy.bits ty
  match op with
  | .sum =>
    match ty.ffmt with
    | some f => f.add rm a b
    | none =>
      let n := sintOf w a + sintOf w b
      (wrapCode n w, Flags.when (decide (n < sMin w) || decide (sMax w < n)) Flags.iov)
  | .min =>
    match ty.ffmt with
    | some f => f.minNum a b
    | none => (if sintOf w b < sintOf w a then b else a, 0)
  | .max =>
    match ty.ffmt with
    | some f => f.maxNum a b
    | none => (if sintOf w a < sintOf w b then b else a, 0)
  | .and => (a &&& b, 0)
  | .or => (a ||| b, 0)
  | .xor => (a ^^^ b, 0)
  | .minu => (min a b, 0)
  | .maxu => (max a b, 0)

/-- IDENT (R220). -/
def redIdent (op : RedOp) (ty : ElemTy) : Nat :=
  let w := ElemTy.bits ty
  match op with
  | .sum | .or | .xor | .maxu => 0
  | .and | .minu => 2 ^ w - 1
  | .min =>
    match ty.ffmt with
    | some f => f.inf false
    | none => 2 ^ (w - 1) - 1
  | .max =>
    match ty.ffmt with
    | some f => f.inf true
    | none => 2 ^ (w - 1)

/-- ORDSUM over the values of the active elements, in ascending order. -/
def ordFold (op : Nat → Nat → Nat × Flags) (ident : Nat) : List Nat → Nat × Flags
  | [] => (ident, 0)
  | a :: t => t.foldl (fun acc b =>
    let (r, fl) := op acc.1 b
    (r, acc.2 ||| fl)) (a, 0)

/-- A node of TREESUM from its two children; none is EMPTY. -/
def treeNode (op : Nat → Nat → Nat × Flags) (l h : Option (Nat × Flags)) : Option (Nat × Flags) :=
  match l, h with
  | none, x => x
  | some x, none => some x
  | some (a, fa), some (b, fb) =>
    let (r, fl) := op a b
    some (r, fa ||| fb ||| fl)

/-- TREESUM over the 2^k elements from index `base`: the tree over element indices. -/
def treeFold (op : Nat → Nat → Nat × Flags) (leaf : Nat → Option (Nat × Flags)) : Nat → Nat → Option (Nat × Flags)
  | 0, base => leaf base
  | k + 1, base => treeNode op (treeFold op leaf k base) (treeFold op leaf k (base + 2 ^ k))

/-- The exponent of the least power of two that is at least `n`. -/
def ceilLog2 (n : Nat) : Nat := bitLen (n - 1)

end Sys2Proof.Machine
end

