-- ==== Sys2Proof/Machine/Vector.lean ====
section
/-!
DEFINITION. Vector compute, predicates and irregular primitives (R251 to R274): what the helm does with each instruction
(`exec…`: it is pushed to the column engine, R164) and what the column engine then does (`col…`: one element group, or a
whole lane-crossing instruction; true once it has completed).
-/

namespace Sys2Proof.Machine

/-! ### Sources -/

/-- An element of a vector register. -/
def srcReg (r : Reg) (x : Run) (h : Half) (i : Nat) : Nat := h.elem x.w r i

/-- The low SEW bits of x[xb], read at issue (R259). -/
def srcX (x : Run) (_ : Half) (_ : Nat) : Nat := x.m.opb.toNat % 2 ^ x.w

/-- A zero-extended immediate. -/
def srcImm (n : Nat) (_ : Run) (_ : Half) (_ : Nat) : Nat := n

/-- The immediate of VADD (R192): sign-extended for integer types, a BF16 value widened exactly for the others. -/
def srcAddImm (imm : BitVec 16) (x : Run) (_ : Half) (_ : Nat) : Nat :=
  match x.ty with
  | .i32 => (imm.signExtend 32).toNat
  | .i64 => (imm.signExtend 64).toNat
  | .f32 => if FFmt.bf16.isPoison imm.toNat then FFmt.f32.poison else imm.toNat * 2 ^ 16
  | .bf16 => imm.toNat

/-- Every element type is accepted. -/
def anyType (_ : ElemTy) : Bool := true

/-- Only the floating-point types are accepted (R261). -/
def floatType (ty : ElemTy) : Bool := ty.ffmt.isSome

/-- A two-operand element-wise instruction (R259). -/
def binary (u : Nat) (m : Member) (k : VCtl) (vd va : Reg) (srcs : List Reg) (b : Run → Half → Nat → Nat)
    (op : ElemTy → BitVec 2 → Nat → Nat → VRes) : M Bool :=
  elementwise u m k (va :: srcs) vd anyType fun x h i => op x.ty x.rm (srcReg va x h i) (b x h i)

/-- A one-operand element-wise instruction (R261). -/
def unary (u : Nat) (m : Member) (k : VCtl) (vd va : Reg) (legal : ElemTy → Bool) (op : ElemTy → BitVec 2 → Nat → VRes) :
    M Bool :=
  elementwise u m k [va] vd legal fun x h i => op x.ty x.rm (srcReg va x h i)

/-- A bitwise operation on patterns: no poison, no flag (R253). -/
def bitwise (op : Nat → Nat → Nat) (_ : ElemTy) (_ : BitVec 2) (a b : Nat) : VRes := .plain (op a b)

/-- A shift. -/
def shifted (op : ElemTy → Nat → Nat → VRes) (ty : ElemTy) (_ : BitVec 2) (a b : Nat) : VRes := op ty a b

/-- An instruction that returns a scalar: the value and the flags that each half gives (R265, R266, R268). -/
def scalarResult (u : Nat) (m : Member) (srcs : List Reg) (f : Run → Half → Word × Flags) : M Bool :=
  unlessDone u m none (do
    let x ← prepare u m srcs none
    let t ← getStrand u
    let a := f x (t.half false)
    let b := if x.prot then f x (t.half true) else a
    raiseFlags u a.2
    replyM x a.1 b.1
    pure true)

/-- A predicate instruction on predicate sources (R268). -/
def predicate (u : Nat) (m : Member) (k : VCtl) (pd : PReg) (f : Half → Nat → Bool) : M Bool :=
  predwise u m k [] [(pd, fun _ h i => f h i)] fun _ _ _ => 0

/-! ### SETVL, SETVT and VFOLD -/

/-- The strand with v0 to v31 and p1 to p15 cleared (R177, R256). -/
def Strand.clearVectors (t : Strand) : Strand :=
  { t with v := Vector.replicate 32 0, vMirror := Vector.replicate 32 0, p := Vector.replicate 16 0,
           pMirror := Vector.replicate 16 0 }

/-- Element `i` of a fold to `h` elements (R258): the elements i + t h in ascending t. -/
def foldVal (ty : ElemTy) (rm : BitVec 2) (f h : Nat) (elem : Nat → Nat) (i : Nat) : VRes :=
  let l := (List.range (2 ^ f)).map fun t => elem (i + t * h)
  let (n, fl) := ordFold (redOp .sum ty rm) 0 l
  ⟨n, fl, (VRes.move ty n).poison⟩

/-- Fold one register of a strand in place (R444): only lower copies are folded, and the result is mirrored. -/
def Strand.foldReg (t : Strand) (ty : ElemTy) (f : Nat) (r : Reg) : Strand :=
  let w := ElemTy.bits ty
  let n := t.vlmax
  let x := t.v[r.toNat]
  let res (i : Nat) : VRes := if i < n / 2 ^ f then foldVal ty t.rm f (n / 2 ^ f) (elemAt x w) i else .plain 0
  let y := (List.range n).foldl (fun acc i => setElem acc w i (res i).val) x
  let fl := (List.range (n / 2 ^ f)).foldl (fun acc i => acc ||| (res i).fl) 0
  let pm := (List.range (n / 2 ^ f)).foldl (fun p i => if (res i).poison then setBit p i true else p) t.pmask
  ({ t with v := t.v.set r.toNat y, vMirror := t.vMirror.set r.toNat y, pmask := pm }).raise fl

/-- The registers of a mask, ascending. -/
def maskRegs (mask : BitVec 32) : List Reg :=
  ((List.range 32).filter fun i => mask.getLsbD i).map fun i => BitVec.ofNat 5 i

/-- A pending reshape, at its reshape point (R174, R443). -/
def Strand.reshape (t : Strand) : Strand :=
  let g := 2 ^ t.reshapeTarget.toNat
  if !t.reshapePend then t
  else if t.lanes.length ≤ g then { t with reshapePend := false }
  else
    let f := bitLen (t.lanes.length / g) - 1
    let folded := match t.elemTy with
      | some ty => (maskRegs t.amask).foldl (fun (t : Strand) r => t.foldReg ty f r) t
      | none => t
    { folded with lanes := t.lanes.take g, reshapePend := false }

/-- SETVL on the grant in force (R256): the registers are cleared at the first SETVL, and where protected mode changes. -/
def Strand.setvl (t : Strand) (ty : ElemTy) (req : Nat) (prot : Bool) : Strand :=
  let t := if t.vtype.getLsbD 4 || prot != t.protectedMode then { t.clearVectors with protectedMode := prot } else t
  { t with vtype := (ElemTy.code ty).setWidth 5, vl := min req (vlmaxOf t.lanes.length prot ty) }

/-- Strips of a DCFG configuration: SLEN elements each (R382, R383). -/
def StripCfg.strips (c : StripCfg) : Nat :=
  let slen := (c.record.extractLsb' 16 16).toNat
  (c.length + slen - 1) / slen

/-- A SETVL or CLAIM consumes the oldest strip of the configuration of its mode; the first one consumes none (R383). -/
def Strand.consumeStrip (t : Strand) (m : Member) : Strand :=
  match t.cfg with
  | none => t
  | some c =>
    if m.mode ≠ c.mode then t
    else if !t.kept.cfgStarted then { t with kept := { t.kept with cfgStarted := true } }
    else if c.strips ≤ c.consumed then t
    else
      { t with
        cfg := some { c with consumed := c.consumed + 1, due := c.due ++ [(c.consumed, m.iid)] }
        dcfgl := BitVec.ofNat 32 (c.consumed + 1) ++ t.dcfgl.extractLsb' 0 32 }

/-- The column engine's part of SETVL. -/
def colSetvl (u : Nat) (m : Member) (t : ElemTy) (_ : Reg) (_ : LenSrc) : M Bool := do
  modStrand u fun s => (s.reshape.setvl t m.opa.toNat m.prot).consumeStrip m
  let s ← getStrand u
  replyWord u m (BitVec.ofNat 64 s.vl)
  pure true

/-- SETVL (R256). -/
def execSetvl (t : ElemTy) (xd : Reg) (n : LenSrc) (s : State) : Host.Outcome State Fault Refusal :=
  pushOp (.setvl t xd n) (fun u => match n with
    | .imm n => pure ⟨n.setWidth 64, 0, 0, 0⟩
    | .reg xa => opndA xa u) noCheck s

/-- The column engine's part of SETVT. While vtype is illegal it acts as SETVL with a request of 0 and no reply. -/
def colSetvt (u : Nat) (m : Member) (t : ElemTy) : M Bool := do
  let s ← getStrand u
  if s.vtype.getLsbD 4 then do
    modStrand u fun s => (s.reshape.setvl t 0 m.prot).consumeStrip m
    pure true
  else if vlmaxOf s.lanes.length s.protectedMode t < s.vl then colIllegal m
  else do
    modStrand u fun s => { s with vtype := (ElemTy.code t).setWidth 5 }
    pure true

/-- SETVT (R257). -/
def execSetvt (t : ElemTy) (s : State) : Host.Outcome State Fault Refusal := pushOp (.setvt t) noOpnds noCheck s

/-- The column engine's part of VFOLD: it ignores VL and has no guard. -/
def colVfold (u : Nat) (m : Member) (vd va : Reg) (f : BitVec 2) : M Bool := unlessDone u m (some vd) (do
  let ty ← typeM u m
  let s ← getStrand u
  let h := s.vlmax / 2 ^ f.toNat
  if h < groupElems ty s.protectedMode then colIllegal m else pure ()
  let x ← prepare u m [va] (some vd)
  let t ← getStrand u
  let res (hf : Half) (i : Nat) : VRes := if i < h then foldVal x.ty x.rm f.toNat h (hf.elem x.w va) i else .plain 0
  let lo := res (t.half false)
  let hi := if x.prot then res (t.half true) else lo
  appendM x vd ((List.range x.vlmax).drop x.start) (fun i => decide (i < x.vl)) (fun i => some (lo i)) (fun i => some (hi i))
  commitVec x vd (List.range x.vlmax) (fun i => some (lo i)) (fun i => some (hi i))
  pure true)

/-- VFOLD (R258). -/
def execVfold (vd va : Reg) (f : BitVec 2) (s : State) : Host.Outcome State Fault Refusal :=
  pushOp (.vfold vd va f) noOpnds noCheck s

/-! ### Element-wise arithmetic (R259 to R261) -/

/-- The column engine's part of VADD (R259). -/
def colVadd (u : Nat) (m : Member) (k : VCtl) (uns sat : Bool) (vd va vb : Reg) : M Bool :=
  binary u m k vd va [vb] (srcReg vb) (addVal uns sat)

/-- VADD (R259). -/
def execVadd (k : VCtl) (uns sat : Bool) (vd va vb : Reg) (s : State) : Host.Outcome State Fault Refusal :=
  pushOp (.vadd k uns sat vd va vb) noOpnds noCheck s

/-- The column engine's part of VADD with a scalar (R259). -/
def colVaddX (u : Nat) (m : Member) (k : VCtl) (uns sat : Bool) (vd va _xb : Reg) : M Bool :=
  binary u m k vd va [] srcX (addVal uns sat)

/-- VADD with a scalar (R259). -/
def execVaddX (k : VCtl) (uns sat : Bool) (vd va xb : Reg) (s : State) : Host.Outcome State Fault Refusal :=
  pushOp (.vaddX k uns sat vd va xb) (opndB xb) noCheck s

/-- The column engine's part of VADD with an immediate (R259, R192). -/
def colVaddI (u : Nat) (m : Member) (k : VCtl) (uns sat : Bool) (vd va : Reg) (imm : BitVec 16) : M Bool :=
  binary u m k vd va [] (srcAddImm imm) (addVal uns sat)

/-- VADD with an immediate (R259, R192). -/
def execVaddI (k : VCtl) (uns sat : Bool) (vd va : Reg) (imm : BitVec 16) (s : State) : Host.Outcome State Fault Refusal :=
  pushOp (.vaddI k uns sat vd va imm) noOpnds noCheck s

/-- The column engine's part of VSUB (R259). -/
def colVsub (u : Nat) (m : Member) (k : VCtl) (uns sat : Bool) (vd va vb : Reg) : M Bool :=
  binary u m k vd va [vb] (srcReg vb) (subVal uns sat)

/-- VSUB (R259). -/
def execVsub (k : VCtl) (uns sat : Bool) (vd va vb : Reg) (s : State) : Host.Outcome State Fault Refusal :=
  pushOp (.vsub k uns sat vd va vb) noOpnds noCheck s

/-- The column engine's part of VSUB with a scalar (R259). -/
def colVsubX (u : Nat) (m : Member) (k : VCtl) (uns sat : Bool) (vd va _xb : Reg) : M Bool :=
  binary u m k vd va [] srcX (subVal uns sat)

/-- VSUB with a scalar (R259). -/
def execVsubX (k : VCtl) (uns sat : Bool) (vd va xb : Reg) (s : State) : Host.Outcome State Fault Refusal :=
  pushOp (.vsubX k uns sat vd va xb) (opndB xb) noCheck s

/-- The column engine's part of VMUL (R259). -/
def colVmul (u : Nat) (m : Member) (k : VCtl) (uns h : Bool) (vd va vb : Reg) : M Bool :=
  binary u m k vd va [vb] (srcReg vb) (mulVal uns h)

/-- VMUL (R259). -/
def execVmul (k : VCtl) (uns h : Bool) (vd va vb : Reg) (s : State) : Host.Outcome State Fault Refusal :=
  pushOp (.vmul k uns h vd va vb) noOpnds noCheck s

/-- The column engine's part of VMUL with a scalar (R259). -/
def colVmulX (u : Nat) (m : Member) (k : VCtl) (uns h : Bool) (vd va _xb : Reg) : M Bool :=
  binary u m k vd va [] srcX (mulVal uns h)

/-- VMUL with a scalar (R259). -/
def execVmulX (k : VCtl) (uns h : Bool) (vd va xb : Reg) (s : State) : Host.Outcome State Fault Refusal :=
  pushOp (.vmulX k uns h vd va xb) (opndB xb) noCheck s

/-- The column engine's part of VDIV (R259). -/
def colVdiv (u : Nat) (m : Member) (k : VCtl) (uns : Bool) (vd va vb : Reg) : M Bool :=
  binary u m k vd va [vb] (srcReg vb) (divVal uns)

/-- VDIV (R259). -/
def execVdiv (k : VCtl) (uns : Bool) (vd va vb : Reg) (s : State) : Host.Outcome State Fault Refusal :=
  pushOp (.vdiv k uns vd va vb) noOpnds noCheck s

/-- The column engine's part of VMIN (R259). -/
def colVmin (u : Nat) (m : Member) (k : VCtl) (uns : Bool) (vd va vb : Reg) : M Bool :=
  binary u m k vd va [vb] (srcReg vb) (fun ty _ => minVal uns ty)

/-- VMIN (R259). -/
def execVmin (k : VCtl) (uns : Bool) (vd va vb : Reg) (s : State) : Host.Outcome State Fault Refusal :=
  pushOp (.vmin k uns vd va vb) noOpnds noCheck s

/-- The column engine's part of VMIN with a scalar (R259). -/
def colVminX (u : Nat) (m : Member) (k : VCtl) (uns : Bool) (vd va _xb : Reg) : M Bool :=
  binary u m k vd va [] srcX (fun ty _ => minVal uns ty)

/-- VMIN with a scalar (R259). -/
def execVminX (k : VCtl) (uns : Bool) (vd va xb : Reg) (s : State) : Host.Outcome State Fault Refusal :=
  pushOp (.vminX k uns vd va xb) (opndB xb) noCheck s

/-- The column engine's part of VMAX (R259). -/
def colVmax (u : Nat) (m : Member) (k : VCtl) (uns : Bool) (vd va vb : Reg) : M Bool :=
  binary u m k vd va [vb] (srcReg vb) (fun ty _ => maxVal uns ty)

/-- VMAX (R259). -/
def execVmax (k : VCtl) (uns : Bool) (vd va vb : Reg) (s : State) : Host.Outcome State Fault Refusal :=
  pushOp (.vmax k uns vd va vb) noOpnds noCheck s

/-- The column engine's part of VMAX with a scalar (R259). -/
def colVmaxX (u : Nat) (m : Member) (k : VCtl) (uns : Bool) (vd va _xb : Reg) : M Bool :=
  binary u m k vd va [] srcX (fun ty _ => maxVal uns ty)

/-- VMAX with a scalar (R259). -/
def execVmaxX (k : VCtl) (uns : Bool) (vd va xb : Reg) (s : State) : Host.Outcome State Fault Refusal :=
  pushOp (.vmaxX k uns vd va xb) (opndB xb) noCheck s

/-- The column engine's part of VAND (R259). -/
def colVand (u : Nat) (m : Member) (k : VCtl) (vd va vb : Reg) : M Bool :=
  binary u m k vd va [vb] (srcReg vb) (bitwise (· &&& ·))

/-- VAND (R259). -/
def execVand (k : VCtl) (vd va vb : Reg) (s : State) : Host.Outcome State Fault Refusal :=
  pushOp (.vand k vd va vb) noOpnds noCheck s

/-- The column engine's part of VAND with a scalar (R259). -/
def colVandX (u : Nat) (m : Member) (k : VCtl) (vd va _xb : Reg) : M Bool :=
  binary u m k vd va [] srcX (bitwise (· &&& ·))

/-- VAND with a scalar (R259). -/
def execVandX (k : VCtl) (vd va xb : Reg) (s : State) : Host.Outcome State Fault Refusal :=
  pushOp (.vandX k vd va xb) (opndB xb) noCheck s

/-- The column engine's part of VAND with an immediate (R259). -/
def colVandI (u : Nat) (m : Member) (k : VCtl) (vd va : Reg) (imm : BitVec 16) : M Bool :=
  binary u m k vd va [] (srcImm imm.toNat) (bitwise (· &&& ·))

/-- VAND with an immediate (R259). -/
def execVandI (k : VCtl) (vd va : Reg) (imm : BitVec 16) (s : State) : Host.Outcome State Fault Refusal :=
  pushOp (.vandI k vd va imm) noOpnds noCheck s

/-- The column engine's part of VOR (R259). -/
def colVor (u : Nat) (m : Member) (k : VCtl) (vd va vb : Reg) : M Bool :=
  binary u m k vd va [vb] (srcReg vb) (bitwise (· ||| ·))

/-- VOR (R259). -/
def execVor (k : VCtl) (vd va vb : Reg) (s : State) : Host.Outcome State Fault Refusal :=
  pushOp (.vor k vd va vb) noOpnds noCheck s

/-- The column engine's part of VOR with a scalar (R259). -/
def colVorX (u : Nat) (m : Member) (k : VCtl) (vd va _xb : Reg) : M Bool :=
  binary u m k vd va [] srcX (bitwise (· ||| ·))

/-- VOR with a scalar (R259). -/
def execVorX (k : VCtl) (vd va xb : Reg) (s : State) : Host.Outcome State Fault Refusal :=
  pushOp (.vorX k vd va xb) (opndB xb) noCheck s

/-- The column engine's part of VOR with an immediate (R259). -/
def colVorI (u : Nat) (m : Member) (k : VCtl) (vd va : Reg) (imm : BitVec 16) : M Bool :=
  binary u m k vd va [] (srcImm imm.toNat) (bitwise (· ||| ·))

/-- VOR with an immediate (R259). -/
def execVorI (k : VCtl) (vd va : Reg) (imm : BitVec 16) (s : State) : Host.Outcome State Fault Refusal :=
  pushOp (.vorI k vd va imm) noOpnds noCheck s

/-- The column engine's part of VXOR (R259). -/
def colVxor (u : Nat) (m : Member) (k : VCtl) (vd va vb : Reg) : M Bool :=
  binary u m k vd va [vb] (srcReg vb) (bitwise (· ^^^ ·))

/-- VXOR (R259). -/
def execVxor (k : VCtl) (vd va vb : Reg) (s : State) : Host.Outcome State Fault Refusal :=
  pushOp (.vxor k vd va vb) noOpnds noCheck s

/-- The column engine's part of VXOR with a scalar (R259). -/
def colVxorX (u : Nat) (m : Member) (k : VCtl) (vd va _xb : Reg) : M Bool :=
  binary u m k vd va [] srcX (bitwise (· ^^^ ·))

/-- VXOR with a scalar (R259). -/
def execVxorX (k : VCtl) (vd va xb : Reg) (s : State) : Host.Outcome State Fault Refusal :=
  pushOp (.vxorX k vd va xb) (opndB xb) noCheck s

/-- The column engine's part of VXOR with an immediate (R259). -/
def colVxorI (u : Nat) (m : Member) (k : VCtl) (vd va : Reg) (imm : BitVec 16) : M Bool :=
  binary u m k vd va [] (srcImm imm.toNat) (bitwise (· ^^^ ·))

/-- VXOR with an immediate (R259). -/
def execVxorI (k : VCtl) (vd va : Reg) (imm : BitVec 16) (s : State) : Host.Outcome State Fault Refusal :=
  pushOp (.vxorI k vd va imm) noOpnds noCheck s

/-- The column engine's part of VSHL (R259). -/
def colVshl (u : Nat) (m : Member) (k : VCtl) (vd va vb : Reg) : M Bool :=
  binary u m k vd va [vb] (srcReg vb) (shifted shlVal)

/-- VSHL (R259). -/
def execVshl (k : VCtl) (vd va vb : Reg) (s : State) : Host.Outcome State Fault Refusal :=
  pushOp (.vshl k vd va vb) noOpnds noCheck s

/-- The column engine's part of VSHL with a scalar (R259). -/
def colVshlX (u : Nat) (m : Member) (k : VCtl) (vd va _xb : Reg) : M Bool :=
  binary u m k vd va [] srcX (shifted shlVal)

/-- VSHL with a scalar (R259). -/
def execVshlX (k : VCtl) (vd va xb : Reg) (s : State) : Host.Outcome State Fault Refusal :=
  pushOp (.vshlX k vd va xb) (opndB xb) noCheck s

/-- The column engine's part of VSHL by an immediate (R259). -/
def colVshlI (u : Nat) (m : Member) (k : VCtl) (vd va : Reg) (n : BitVec 6) : M Bool :=
  binary u m k vd va [] (srcImm n.toNat) (shifted shlVal)

/-- VSHL by an immediate (R259). -/
def execVshlI (k : VCtl) (vd va : Reg) (n : BitVec 6) (s : State) : Host.Outcome State Fault Refusal :=
  pushOp (.vshlI k vd va n) noOpnds noCheck s

/-- The column engine's part of VSHR (R259). -/
def colVshr (u : Nat) (m : Member) (k : VCtl) (vd va vb : Reg) : M Bool :=
  binary u m k vd va [vb] (srcReg vb) (shifted shrVal)

/-- VSHR (R259). -/
def execVshr (k : VCtl) (vd va vb : Reg) (s : State) : Host.Outcome State Fault Refusal :=
  pushOp (.vshr k vd va vb) noOpnds noCheck s

/-- The column engine's part of VSHR with a scalar (R259). -/
def colVshrX (u : Nat) (m : Member) (k : VCtl) (vd va _xb : Reg) : M Bool :=
  binary u m k vd va [] srcX (shifted shrVal)

/-- VSHR with a scalar (R259). -/
def execVshrX (k : VCtl) (vd va xb : Reg) (s : State) : Host.Outcome State Fault Refusal :=
  pushOp (.vshrX k vd va xb) (opndB xb) noCheck s

/-- The column engine's part of VSHR by an immediate (R259). -/
def colVshrI (u : Nat) (m : Member) (k : VCtl) (vd va : Reg) (n : BitVec 6) : M Bool :=
  binary u m k vd va [] (srcImm n.toNat) (shifted shrVal)

/-- VSHR by an immediate (R259). -/
def execVshrI (k : VCtl) (vd va : Reg) (n : BitVec 6) (s : State) : Host.Outcome State Fault Refusal :=
  pushOp (.vshrI k vd va n) noOpnds noCheck s

/-- The column engine's part of VSRA (R259). -/
def colVsra (u : Nat) (m : Member) (k : VCtl) (vd va vb : Reg) : M Bool :=
  binary u m k vd va [vb] (srcReg vb) (shifted sraVal)

/-- VSRA (R259). -/
def execVsra (k : VCtl) (vd va vb : Reg) (s : State) : Host.Outcome State Fault Refusal :=
  pushOp (.vsra k vd va vb) noOpnds noCheck s

/-- The column engine's part of VSRA with a scalar (R259). -/
def colVsraX (u : Nat) (m : Member) (k : VCtl) (vd va _xb : Reg) : M Bool :=
  binary u m k vd va [] srcX (shifted sraVal)

/-- VSRA with a scalar (R259). -/
def execVsraX (k : VCtl) (vd va xb : Reg) (s : State) : Host.Outcome State Fault Refusal :=
  pushOp (.vsraX k vd va xb) (opndB xb) noCheck s

/-- The column engine's part of VSRA by an immediate (R259). -/
def colVsraI (u : Nat) (m : Member) (k : VCtl) (vd va : Reg) (n : BitVec 6) : M Bool :=
  binary u m k vd va [] (srcImm n.toNat) (shifted sraVal)

/-- VSRA by an immediate (R259). -/
def execVsraI (k : VCtl) (vd va : Reg) (n : BitVec 6) (s : State) : Host.Outcome State Fault Refusal :=
  pushOp (.vsraI k vd va n) noOpnds noCheck s

/-- The column engine's part of VFMA (R260). -/
def colVfma (u : Nat) (m : Member) (k : VCtl) (vd va vb vc : Reg) : M Bool :=
  elementwise u m k [va, vb, vc] vd anyType fun x h i =>
    fmaVal false x.ty x.rm (srcReg va x h i) (srcReg vb x h i) (srcReg vc x h i)

/-- VFMA (R260). -/
def execVfma (k : VCtl) (vd va vb vc : Reg) (s : State) : Host.Outcome State Fault Refusal :=
  pushOp (.vfma k vd va vb vc) noOpnds noCheck s

/-- The column engine's part of VFMA with a scalar (R260). -/
def colVfmaX (u : Nat) (m : Member) (k : VCtl) (vd va _xb vc : Reg) : M Bool :=
  elementwise u m k [va, vc] vd anyType fun x h i =>
    fmaVal false x.ty x.rm (srcReg va x h i) (srcX x h i) (srcReg vc x h i)

/-- VFMA with a scalar (R260). -/
def execVfmaX (k : VCtl) (vd va xb vc : Reg) (s : State) : Host.Outcome State Fault Refusal :=
  pushOp (.vfmaX k vd va xb vc) (opndB xb) noCheck s

/-- The column engine's part of VFMS (R260). -/
def colVfms (u : Nat) (m : Member) (k : VCtl) (vd va vb vc : Reg) : M Bool :=
  elementwise u m k [va, vb, vc] vd anyType fun x h i =>
    fmaVal true x.ty x.rm (srcReg va x h i) (srcReg vb x h i) (srcReg vc x h i)

/-- VFMS (R260). -/
def execVfms (k : VCtl) (vd va vb vc : Reg) (s : State) : Host.Outcome State Fault Refusal :=
  pushOp (.vfms k vd va vb vc) noOpnds noCheck s

/-- The column engine's part of VFMS with a scalar (R260). -/
def colVfmsX (u : Nat) (m : Member) (k : VCtl) (vd va _xb vc : Reg) : M Bool :=
  elementwise u m k [va, vc] vd anyType fun x h i =>
    fmaVal true x.ty x.rm (srcReg va x h i) (srcX x h i) (srcReg vc x h i)

/-- VFMS with a scalar (R260). -/
def execVfmsX (k : VCtl) (vd va xb vc : Reg) (s : State) : Host.Outcome State Fault Refusal :=
  pushOp (.vfmsX k vd va xb vc) (opndB xb) noCheck s

/-- The column engine's part of VSQRT (R261). -/
def colVsqrt (u : Nat) (m : Member) (k : VCtl) (vd va : Reg) : M Bool :=
  unary u m k vd va floatType (fpVal FFmt.sqrt)

/-- VSQRT (R261). -/
def execVsqrt (k : VCtl) (vd va : Reg) (s : State) : Host.Outcome State Fault Refusal :=
  pushOp (.vsqrt k vd va) noOpnds noCheck s

/-- The column engine's part of VRCP (R261). -/
def colVrcp (u : Nat) (m : Member) (k : VCtl) (vd va : Reg) : M Bool :=
  unary u m k vd va floatType (fpVal FFmt.recip)

/-- VRCP (R261). -/
def execVrcp (k : VCtl) (vd va : Reg) (s : State) : Host.Outcome State Fault Refusal :=
  pushOp (.vrcp k vd va) noOpnds noCheck s

/-- The column engine's part of VRSQ (R261). -/
def colVrsq (u : Nat) (m : Member) (k : VCtl) (vd va : Reg) : M Bool :=
  unary u m k vd va floatType (fpVal FFmt.rsqrt)

/-- VRSQ (R261). -/
def execVrsq (k : VCtl) (vd va : Reg) (s : State) : Host.Outcome State Fault Refusal :=
  pushOp (.vrsq k vd va) noOpnds noCheck s

/-- The column engine's part of VEXP2 (R261). -/
def colVexp2 (u : Nat) (m : Member) (k : VCtl) (vd va : Reg) : M Bool :=
  unary u m k vd va floatType (fpVal FFmt.exp2)

/-- VEXP2 (R261). -/
def execVexp2 (k : VCtl) (vd va : Reg) (s : State) : Host.Outcome State Fault Refusal :=
  pushOp (.vexp2 k vd va) noOpnds noCheck s

/-- The column engine's part of VLOG2 (R261). -/
def colVlog2 (u : Nat) (m : Member) (k : VCtl) (vd va : Reg) : M Bool :=
  unary u m k vd va floatType (fpVal FFmt.log2)

/-- VLOG2 (R261). -/
def execVlog2 (k : VCtl) (vd va : Reg) (s : State) : Host.Outcome State Fault Refusal :=
  pushOp (.vlog2 k vd va) noOpnds noCheck s

/-- The column engine's part of VABS (R261). -/
def colVabs (u : Nat) (m : Member) (k : VCtl) (vd va : Reg) : M Bool :=
  unary u m k vd va anyType (fun ty _ => absVal ty)

/-- VABS (R261). -/
def execVabs (k : VCtl) (vd va : Reg) (s : State) : Host.Outcome State Fault Refusal :=
  pushOp (.vabs k vd va) noOpnds noCheck s

/-- The column engine's part of VNEG (R261). -/
def colVneg (u : Nat) (m : Member) (k : VCtl) (vd va : Reg) : M Bool :=
  unary u m k vd va anyType (fun ty _ => negVal ty)

/-- VNEG (R261). -/
def execVneg (k : VCtl) (vd va : Reg) (s : State) : Host.Outcome State Fault Refusal :=
  pushOp (.vneg k vd va) noOpnds noCheck s

/-- The column engine's part of VMOV (R261). -/
def colVmov (u : Nat) (m : Member) (k : VCtl) (vd va : Reg) : M Bool :=
  unary u m k vd va anyType (fun ty _ => VRes.move ty)

/-- VMOV (R261). -/
def execVmov (k : VCtl) (vd va : Reg) (s : State) : Host.Outcome State Fault Refusal :=
  pushOp (.vmov k vd va) noOpnds noCheck s

/-! ### Conversion, compare, select and move (R262 to R265) -/

/-- The run of an instruction that writes in the layout of another type (R262). -/
def Run.retype (x : Run) (ty : ElemTy) : Run := { x with ty := ty, w := ElemTy.bits ty, epg := groupElems ty x.prot }

/-- The column engine's part of VCVT (R262): written in the layout of type t, whose element groups bound it. Of a
destination bound for appending R332 asks that the instruction runs under the matching vector type; here it is t, the type of
what is appended, that matches the column (DESIGN CHOICE, log 107). -/
def colVcvt (u : Nat) (m : Member) (k : VCtl) (t : ElemTy) (vd va : Reg) : M Bool :=
  do
  let ty ← typeM u m
  let s ← getStrand u
  if t = ty || decide (vlmaxOf s.lanes.length s.protectedMode t < s.vl) then colIllegal m else pure ()
  checkStreams m s t [] (some vd)
  let res (x : Run) (h : Half) (i : Nat) : VRes := convertVal ty t x.rm (h.elem (ElemTy.bits ty) va i)
  if ElemTy.bits ty = ElemTy.bits t then do
    let x ← prepare u m [va] none
    let single := (s.streamOf vd).isSome
    if x.finished && !(single && decide (x.start < x.processed)) then pure true
    else do
      let y := x.retype t
      let s ← getStrand u
      let lo := s.half false
      let hi := s.half true
      let low (i : Nat) : Option VRes := policy k.z (x.active lo k.g k.n i) (res x lo i)
      let high (i : Nat) : Option VRes := if x.prot then policy k.z (x.active hi k.g k.n i) (res x hi i) else low i
      appendM y vd (x.step single) (x.active lo k.g k.n) low high
      commitVec y vd (x.step single) low high
      if single then nextElem x else nextGroup x
  else unlessDone u m (some vd) (do
    let x ← prepare u m [va] none
    let y := x.retype t
    let s ← getStrand u
    let lo := s.half false
    let hi := s.half true
    let low (h : Half) (i : Nat) : Option VRes := policy k.z (x.active h k.g k.n i) (res x h i)
    appendM y vd (y.all.drop y.start) (x.active lo k.g k.n) (low lo) (low (if x.prot then hi else lo))
    commitVec y vd y.all (low lo) (low (if x.prot then hi else lo))
    pure true)

/-- VCVT (R262). -/
def execVcvt (k : VCtl) (t : ElemTy) (vd va : Reg) (s : State) : Host.Outcome State Fault Refusal :=
  pushOp (.vcvt k t vd va) noOpnds noCheck s

/-- VCMP's condition on two elements, with its flags (R263). -/
def cmpVal (c : Cond) (ty : ElemTy) (a b : Nat) : Bool × Flags :=
  match ty.ffmt with
  | some f => f.cond c a b
  | none => (intCond (ElemTy.bits ty) false c (BitVec.ofNat _ a) (BitVec.ofNat _ b), 0)

/-- The column engine's part of VCMP (R263). -/
def colVcmp (u : Nat) (m : Member) (k : VCtl) (c : Cond) (pd pe : PReg) (va vb : Reg) : M Bool :=
  let res (x : Run) (h : Half) (i : Nat) : Bool × Flags := cmpVal c x.ty (srcReg va x h i) (srcReg vb x h i)
  predwise u m k [va, vb] [(pd, fun x h i => (res x h i).1), (pe, fun x h i => !(res x h i).1)] fun x h i => (res x h i).2

/-- VCMP (R263). -/
def execVcmp (k : VCtl) (c : Cond) (pd pe : PReg) (va vb : Reg) (s : State) : Host.Outcome State Fault Refusal :=
  pushOp (.vcmp k c pd pe va vb) noOpnds noCheck s

/-- The column engine's part of VSEL (R264). -/
def colVsel (u : Nat) (m : Member) (k : VCtl) (vd va vb : Reg) (pe : PReg) : M Bool :=
  elementwise u m k [va, vb] vd anyType fun x h i =>
    VRes.move x.ty (if (h.pred pe).getLsbD i then srcReg va x h i else srcReg vb x h i)

/-- VSEL (R264). -/
def execVsel (k : VCtl) (vd va vb : Reg) (pe : PReg) (s : State) : Host.Outcome State Fault Refusal :=
  pushOp (.vsel k vd va vb pe) noOpnds noCheck s

/-- The column engine's part of VMVX to a scalar (R265). -/
def colVmvxToScalar (u : Nat) (m : Member) (k : GCtl) (_xd va : Reg) (i : BitVec 14) : M Bool :=
  scalarResult u m [va] fun x h =>
    (if x.active h k.g k.n i.toNat then scalarOf x.ty (srcReg va x h i.toNat) else 0, 0)

/-- VMVX to a scalar (R265). -/
def execVmvxToScalar (k : GCtl) (xd va : Reg) (i : BitVec 14) (s : State) : Host.Outcome State Fault Refusal :=
  pushOp (.vmvxToScalar k xd va i) noOpnds noCheck s

/-- The column engine's part of VMVX to a vector (R265): no other element changes. -/
def colVmvxToVector (u : Nat) (m : Member) (k : VCtl) (vd _xa : Reg) (i : BitVec 14) : M Bool :=
  let act (x : Run) (h : Half) (j : Nat) : Bool := j = i.toNat && x.active h k.g k.n j
  crossing u m [] vd (fun _ => true)
    (fun x h j => if act x h j then some (VRes.move x.ty (x.m.opa.toNat % 2 ^ x.w)) else none) act

/-- VMVX to a vector (R265). -/
def execVmvxToVector (k : VCtl) (vd xa : Reg) (i : BitVec 14) (s : State) : Host.Outcome State Fault Refusal :=
  pushOp (.vmvxToVector k vd xa i) (opndA xa) noCheck s

/-! ### Reductions and moves across lanes (R266, R267) -/

/-- The active elements of a register, as leaves. -/
def redLeaf (x : Run) (h : Half) (k : GCtl) (va : Reg) (i : Nat) : Option (Nat × Flags) :=
  if x.active h k.g k.n i then some (srcReg va x h i, 0) else none

/-- VRED on one half: ORDSUM or TREESUM (R220). -/
def redVal (x : Run) (h : Half) (k : GCtl) (op : RedOp) (tree : Bool) (va : Reg) : Nat × Flags :=
  if tree then (treeFold (redOp op x.ty x.rm) (redLeaf x h k va) (ceilLog2 x.vl) 0).getD (redIdent op x.ty, 0)
  else ordFold (redOp op x.ty x.rm) (redIdent op x.ty)
    (((List.range x.vl).filterMap (redLeaf x h k va)).map (·.1))

/-- The column engine's part of VRED (R266). -/
def colVred (u : Nat) (m : Member) (k : GCtl) (op : RedOp) (tree : Bool) (_xd va : Reg) : M Bool :=
  scalarResult u m [va] fun x h =>
    (scalarOf x.ty (redVal x h k op tree va).1, (redVal x h k op tree va).2)

/-- VRED (R266). -/
def execVred (k : GCtl) (op : RedOp) (tree : Bool) (xd va : Reg) (s : State) : Host.Outcome State Fault Refusal :=
  pushOp (.vred k op tree xd va) noOpnds noCheck s

/-- An instruction that writes each active element from a source index; an index outside 0 to VL - 1 gives 0 (R267). -/
def permute (u : Nat) (m : Member) (k : VCtl) (srcs : List Reg) (vd va : Reg) (j : Run → Half → Nat → Int) : M Bool :=
  crossing u m srcs vd (fun _ => true)
    (fun x h i => policy k.z (x.active h k.g k.n i) (
      if 0 ≤ j x h i ∧ j x h i < x.vl then VRes.move x.ty (srcReg va x h (j x h i).toNat) else .plain 0))
    (fun x h i => x.active h k.g k.n i)

/-- The column engine's part of VSLIDE (R267). -/
def colVslide (u : Nat) (m : Member) (k : VCtl) (down : Bool) (vd va : Reg) (amt : SlideAmt) : M Bool :=
  permute u m k [va] vd va fun _ _ i =>
    let n : Int := match amt with
      | .imm n => n.toNat
      | .reg _ => m.opb.toNat
    if down then i + n else i - n

/-- VSLIDE (R267). -/
def execVslide (k : VCtl) (down : Bool) (vd va : Reg) (amt : SlideAmt) (s : State) : Host.Outcome State Fault Refusal :=
  pushOp (.vslide k down vd va amt) (fun u => match amt with
    | .imm _ => noOpnds u
    | .reg xb => opndB xb u) noCheck s

/-- The column engine's part of VPERM (R267). -/
def colVperm (u : Nat) (m : Member) (k : VCtl) (vd va vb : Reg) : M Bool :=
  permute u m k [va, vb] vd va fun x h i => srcReg vb x h i

/-- VPERM (R267). -/
def execVperm (k : VCtl) (vd va vb : Reg) (s : State) : Host.Outcome State Fault Refusal :=
  pushOp (.vperm k vd va vb) noOpnds noCheck s

/-- The column engine's part of VIOTA (R267). -/
def colViota (u : Nat) (m : Member) (k : VCtl) (vd : Reg) : M Bool :=
  elementwise u m k [] vd anyType fun x _ i => .plain (i % 2 ^ x.w)

/-- VIOTA (R267). -/
def execViota (k : VCtl) (vd : Reg) (s : State) : Host.Outcome State Fault Refusal :=
  pushOp (.viota k vd) noOpnds noCheck s

/-! ### Predicate instructions (R268) -/

/-- Bit `i` of a predicate. -/
def bitOf (h : Half) (p : PReg) (i : Nat) : Bool := (h.pred p).getLsbD i

/-- The column engine's part of PAND (R268). -/
def colPand (u : Nat) (m : Member) (k : VCtl) (pd pe pf : PReg) : M Bool :=
  predicate u m k pd fun h i => bitOf h pe i && bitOf h pf i

/-- PAND (R268). -/
def execPand (k : VCtl) (pd pe pf : PReg) (s : State) : Host.Outcome State Fault Refusal :=
  pushOp (.pand k pd pe pf) noOpnds noCheck s

/-- The column engine's part of POR (R268). -/
def colPor (u : Nat) (m : Member) (k : VCtl) (pd pe pf : PReg) : M Bool :=
  predicate u m k pd fun h i => bitOf h pe i || bitOf h pf i

/-- POR (R268). -/
def execPor (k : VCtl) (pd pe pf : PReg) (s : State) : Host.Outcome State Fault Refusal :=
  pushOp (.por k pd pe pf) noOpnds noCheck s

/-- The column engine's part of PXOR (R268). -/
def colPxor (u : Nat) (m : Member) (k : VCtl) (pd pe pf : PReg) : M Bool :=
  predicate u m k pd fun h i => bitOf h pe i != bitOf h pf i

/-- PXOR (R268). -/
def execPxor (k : VCtl) (pd pe pf : PReg) (s : State) : Host.Outcome State Fault Refusal :=
  pushOp (.pxor k pd pe pf) noOpnds noCheck s

/-- The column engine's part of PANDN (R268). -/
def colPandn (u : Nat) (m : Member) (k : VCtl) (pd pe pf : PReg) : M Bool :=
  predicate u m k pd fun h i => bitOf h pe i && !bitOf h pf i

/-- PANDN (R268). -/
def execPandn (k : VCtl) (pd pe pf : PReg) (s : State) : Host.Outcome State Fault Refusal :=
  pushOp (.pandn k pd pe pf) noOpnds noCheck s

/-- The column engine's part of PSET (R268). -/
def colPset (u : Nat) (m : Member) (k : VCtl) (pd : PReg) (n : BitVec 16) : M Bool :=
  predicate u m k pd fun _ i => decide (i < n.toNat)

/-- PSET (R268). -/
def execPset (k : VCtl) (pd : PReg) (n : BitVec 16) (s : State) : Host.Outcome State Fault Refusal :=
  pushOp (.pset k pd n) noOpnds noCheck s

/-- The column engine's part of PMOV (R268). -/
def colPmov (u : Nat) (m : Member) (k : VCtl) (pd pe : PReg) : M Bool :=
  predicate u m k pd fun h i => bitOf h pe i

/-- PMOV (R268). -/
def execPmov (k : VCtl) (pd pe : PReg) (s : State) : Host.Outcome State Fault Refusal :=
  pushOp (.pmov k pd pe) noOpnds noCheck s

/-- The active elements at which a predicate holds: the selected ones (R269). -/
def selected (x : Run) (h : Half) (g : PReg) (n : Bool) (pe : PReg) : List Nat :=
  (List.range x.vl).filter fun i => x.active h g n i && bitOf h pe i

/-- The column engine's part of PCNT (R268). -/
def colPcnt (u : Nat) (m : Member) (k : GCtl) (_xd : Reg) (pe : PReg) : M Bool :=
  scalarResult u m [] fun x h => (BitVec.ofNat 64 (selected x h k.g k.n pe).length, 0)

/-- PCNT (R268). -/
def execPcnt (k : GCtl) (xd : Reg) (pe : PReg) (s : State) : Host.Outcome State Fault Refusal :=
  pushOp (.pcnt k xd pe) noOpnds noCheck s

/-- The column engine's part of PFIRST (R268). -/
def colPfirst (u : Nat) (m : Member) (k : GCtl) (_xd : Reg) (pe : PReg) : M Bool :=
  scalarResult u m [] fun x h => (match selected x h k.g k.n pe with
    | i :: _ => BitVec.ofNat 64 i
    | [] => BitVec.allOnes 64, 0)

/-- PFIRST (R268). -/
def execPfirst (k : GCtl) (xd : Reg) (pe : PReg) (s : State) : Host.Outcome State Fault Refusal :=
  pushOp (.pfirst k xd pe) noOpnds noCheck s

/-! ### Irregular primitives (R269 to R274) -/

/-- The column engine's part of VCOMPRESS (R269). -/
def colVcompress (u : Nat) (m : Member) (k : VCtl) (vd va : Reg) (pe : PReg) : M Bool :=
  crossing u m [va] vd (fun _ => true)
    (fun x h p => match (selected x h k.g k.n pe)[p]? with
      | some i => some (VRes.move x.ty (srcReg va x h i))
      | none => policy k.z false (.plain 0))
    (fun x h p => decide (p < (selected x h k.g k.n pe).length))

/-- VCOMPRESS (R269). -/
def execVcompress (k : VCtl) (vd va : Reg) (pe : PReg) (s : State) : Host.Outcome State Fault Refusal :=
  pushOp (.vcompress k vd va pe) noOpnds noCheck s

/-- The column engine's part of VEXPAND (R269). -/
def colVexpand (u : Nat) (m : Member) (k : VCtl) (vd va : Reg) (pe : PReg) : M Bool :=
  let sel (x : Run) (h : Half) (i : Nat) : Bool := x.active h k.g k.n i && bitOf h pe i
  crossing u m [va] vd (fun _ => true)
    (fun x h i => policy k.z (sel x h i)
      (VRes.move x.ty (srcReg va x h ((selected x h k.g k.n pe).filter (· < i)).length))) sel

/-- VEXPAND (R269). -/
def execVexpand (k : VCtl) (vd va : Reg) (pe : PReg) (s : State) : Host.Outcome State Fault Refusal :=
  pushOp (.vexpand k vd va pe) noOpnds noCheck s

/-- The column engine's part of VPCNT (R270). -/
def colVpcnt (u : Nat) (m : Member) (k : VCtl) (vd : Reg) (pe : PReg) : M Bool :=
  crossing u m [] vd (fun _ => true)
    (fun x h i => policy k.z (x.active h k.g k.n i)
      (.plain (((selected x h k.g k.n pe).filter (· < i)).length % 2 ^ x.w)))
    (fun x h i => x.active h k.g k.n i)

/-- VPCNT (R270). -/
def execVpcnt (k : VCtl) (vd : Reg) (pe : PReg) (s : State) : Host.Outcome State Fault Refusal :=
  pushOp (.vpcnt k vd pe) noOpnds noCheck s

/-- The column engine's part of VCONF (R270). -/
def colVconf (u : Nat) (m : Member) (k : VCtl) (vd va : Reg) : M Bool :=
  crossing u m [va] vd (fun _ => true)
    (fun x h i => policy k.z (x.active h k.g k.n i)
      (match ((List.range i).filter fun j => x.active h k.g k.n j && srcReg va x h j = srcReg va x h i).getLast? with
        | some j => .plain (j % 2 ^ x.w)
        | none => .plain (2 ^ x.w - 1)))
    (fun x h i => x.active h k.g k.n i)

/-- VCONF (R270). -/
def execVconf (k : VCtl) (vd va : Reg) (s : State) : Host.Outcome State Fault Refusal :=
  pushOp (.vconf k vd va) noOpnds noCheck s

/-- The reduction operator of a scan. -/
def scanRed : ScanOp → RedOp
  | .sum => .sum
  | .min => .min
  | .max => .max

/-- Segmented scan (R271) from element `i` with accumulator `acc` (none: EMPTY): the result of each element, none where
it is inactive. -/
def scanVals (ty : ElemTy) (op : Nat → Nat → Nat × Flags) (ident : Nat) (excl : Bool) (start active : Nat → Bool)
    (elem : Nat → Nat) : Nat → Nat → Option Nat → List (Option VRes)
  | 0, _, _ => []
  | n + 1, i, acc =>
    let acc := if start i then none else acc
    if active i then
      let (next, fl) := match acc with
        | some a => op a (elem i)
        | none => (elem i, 0)
      let out := if excl then acc.getD ident else next
      some { val := out, fl := fl, poison := (VRes.move ty out).poison }
        :: scanVals ty op ident excl start active elem n (i + 1) (some next)
    else none :: scanVals ty op ident excl start active elem n (i + 1) acc

/-- The column engine's part of VSCAN (R271). -/
def colVscan (u : Nat) (m : Member) (k : VCtl) (op : ScanOp) (excl : Bool) (vd va : Reg) (pe : PReg) : M Bool :=
  let vals (x : Run) (h : Half) : List (Option VRes) :=
    scanVals x.ty (redOp (scanRed op) x.ty x.rm) (redIdent (scanRed op) x.ty) excl (bitOf h pe)
      (x.active h k.g k.n) (srcReg va x h) x.vl 0 none
  crossing u m [va] vd (fun _ => true)
    (fun x h i => match (vals x h).getD i none with
      | some r => some r
      | none => policy k.z false (.plain 0))
    (fun x h i => x.active h k.g k.n i)

/-- VSCAN (R271). -/
def execVscan (k : VCtl) (op : ScanOp) (excl : Bool) (vd va : Reg) (pe : PReg) (s : State) : Host.Outcome State Fault Refusal :=
  pushOp (.vscan k op excl vd va pe) noOpnds noCheck s

/-- The column engine's part of VLUT (R272). -/
def colVlut (u : Nat) (m : Member) (k : VCtl) (vd va vb : Reg) : M Bool :=
  crossing u m [va, vb] vd (fun _ => true)
    (fun x h i => policy k.z (x.active h k.g k.n i)
      (if srcReg vb x h i < x.epg then VRes.move x.ty (srcReg va x h (srcReg vb x h i)) else .plain 0))
    (fun x h i => x.active h k.g k.n i)

/-- VLUT (R272). -/
def execVlut (k : VCtl) (vd va vb : Reg) (s : State) : Host.Outcome State Fault Refusal :=
  pushOp (.vlut k vd va vb) noOpnds noCheck s

/-- The column engine's part of VBFX (R273). R253 names neither VBFX nor VLUT: VBFX, which takes bits out of a pattern, is
treated as a bitwise instruction and sets no PMASK bit (DESIGN CHOICE, log 114). -/
def colVbfx (u : Nat) (m : Member) (k : VCtl) (vd va : Reg) (s w1 : BitVec 6) : M Bool :=
  crossing u m [va] vd (fun ty => decide (w1.toNat + 1 ≤ ElemTy.bits ty))
    (fun x h i =>
      let bits := h.v[va.toNat].toNat % 2 ^ (x.w * x.vlmax)
      policy k.z (x.active h k.g k.n i)
        (.plain (bits / 2 ^ (s.toNat + (w1.toNat + 1) * i) % 2 ^ (w1.toNat + 1))))
    (fun x h i => x.active h k.g k.n i)

/-- VBFX (R273). -/
def execVbfx (k : VCtl) (vd va : Reg) (s w1 : BitVec 6) (st : State) : Host.Outcome State Fault Refusal :=
  pushOp (.vbfx k vd va s w1) noOpnds noCheck st

/-- The column engine's part of VEXIT (R274). -/
def colVexit (u : Nat) (m : Member) (k : VCtl) (pd pe : PReg) : M Bool :=
  unlessDone u m none (do
  let x ← prepare u m [] none
  let t ← getStrand u
  let bit (h : Half) (i : Nat) : Option Bool :=
    if x.active h k.g k.n i then some (match selected x h k.g k.n pe with
      | f :: _ => decide (i < f)
      | [] => true)
    else if k.z then some false else none
  let lo := t.half false
  commitPred x pd x.all (bit lo) (bit (if x.prot then t.half true else lo))
  pure true)

/-- VEXIT (R274). -/
def execVexit (k : VCtl) (pd pe : PReg) (s : State) : Host.Outcome State Fault Refusal :=
  pushOp (.vexit k pd pe) noOpnds noCheck s

end Sys2Proof.Machine
end

