-- ==== Sys2Proof/Machine/VMem.lean ====
section
/-!
DEFINITION. Vector memory instructions (R278 to R292): addresses, formats, faults and replay under FMASK, error-feedback
narrowing (R217), and scatter-add.
-/

namespace Sys2Proof.Machine

/-! ### Formats (R278, R279) -/

/-- Bytes of an element access: 1 for the 4-bit formats. -/
def fmtBytes (f : Fmt) : Nat := if Fmt.bits f < 8 then 1 else Fmt.bits f / 8

/-- A 4-bit memory format. -/
def nibbleFmt (f : Fmt) : Bool := Fmt.bits f = 4

/-- The memory format that equals a type. -/
def fmtOfTy : ElemTy → Fmt
  | .i32 => .i32
  | .i64 => .i64
  | .f32 => .f32
  | .bf16 => .bf16

/-- The formats that a type loads (R279). -/
def loadPair (ty : ElemTy) (f : Fmt) : Bool :=
  match ty with
  | .i32 => [Fmt.i32, .i8, .i4, .e8m0].contains f
  | .i64 => [Fmt.i64, .i32, .i8, .i4].contains f
  | .f32 => [Fmt.f32, .bf16, .f16, .e4m3, .e5m2, .i8, .i4, .i4x, .e8m0].contains f
  | .bf16 => [Fmt.bf16, .f16, .e4m3, .e5m2, .i8, .i4, .i4x].contains f

/-- The formats that a type stores. -/
def storePair (ty : ElemTy) (f : Fmt) : Bool := f != .i4x && loadPair ty f

/-- The formats of a block-scaled instruction (R292). -/
def blockPair (load : Bool) (ty : ElemTy) (f : Fmt) : Bool :=
  ty.ffmt.isSome && ([Fmt.f16, .e4m3, .e5m2, .i8, .i4].contains f || (load && f == .i4x))

/-- DECODE (R222): the exact value of a code. -/
def fmtValue (f : Fmt) (code : Nat) : FVal :=
  match f.ffmt with
  | some g => g.decode code
  | none =>
    let i := sintOf (Fmt.bits f) code
    .fin (decide (i < 0)) i.natAbs 0

/-- A value with its exponent moved: x 2^k. -/
def FVal.scale (k : Int) : FVal → FVal
  | .nan s => .nan s
  | .inf n => .inf n
  | .fin n m e => .fin n m (e + k)

/-- WIDEN: the element that a loaded code becomes (R279, R280). -/
def widen (ty : ElemTy) (f : Fmt) (code : Nat) : VRes :=
  if f = fmtOfTy ty || f = .e8m0 then .plain code
  else
    match ty.ffmt with
    | none => .plain (wrapCode (sintOf (Fmt.bits f) code) (ElemTy.bits ty))
    | some g =>
      match f.ffmt with
      | some h =>
        let (n, fl) := h.convert g 0 code
        ⟨n, fl, false⟩
      | none =>
        let (n, fl) := g.roundVal 0 (fmtValue f code)
        ⟨n, fl, false⟩

/-- ENCODE of an exact value into a narrow format (R216). -/
def encodeValue (f : Fmt) (v : FVal) : Nat × Flags :=
  match f.ffmt with
  | some g =>
    match v with
    | .nan s => g.makeNan s
    | .inf n => if g.ieee then (g.inf n, 0) else ((if n then g.signBit else 0) + g.maxCode, Flags.nv)
    | .fin n m e => g.roundSat (g != .bf16 && g != .f32) 0 n m e
  | none =>
    let (i, fl) := v.toInt 0 (sMin (Fmt.bits f)) (sMax (Fmt.bits f))
    (wrapCode i (Fmt.bits f), fl)

/-- POISON as a code of a narrow format (R215). -/
def poisonIn (f : Fmt) : Nat :=
  match f.ffmt with
  | some g => if g = .bf16 || g = .f32 then g.poison else g.cnan
  | none => 2 ^ (Fmt.bits f - 1)

/-- NARROW: the code that an element is stored as (R279). -/
def narrow (ty : ElemTy) (f : Fmt) (code : Nat) : Nat × Flags :=
  if f = fmtOfTy ty then (code, 0)
  else if f = .e8m0 then (code % 256, 0)
  else
    match ty.ffmt with
    | none =>
      let (i, fl) := satInt (sintOf (ElemTy.bits ty) code) (sMin (Fmt.bits f)) (sMax (Fmt.bits f)) Flags.iov
      (wrapCode i (Fmt.bits f), fl)
    | some g => if g.isPoison code then (poisonIn f, 0) else encodeValue f (g.decode code)

/-! ### Error-feedback narrowing (R217) -/

/-- One step of EFNARROW on an exact value: the code, the flags, and the residual that follows. -/
def efStep (f : Fmt) (v : FVal) (carry : Nat) : Nat × Flags × Nat :=
  let (y, f1) := FFmt.f32.addVal 0 v (FFmt.f32.decode carry)
  let (q, f2) := encodeValue f (FFmt.f32.decode y)
  let (r, f3) := FFmt.f32.addVal 0 (FFmt.f32.decode y) (FVal.neg (fmtValue f q))
  let carry' := match FFmt.f32.decode y, FFmt.f32.decode r with
    | .fin _ _ _, .fin _ _ _ => r
    | _, _ => 0
  (q, f1 ||| f2 ||| f3, carry')

/-- A store narrows by error feedback (R287). -/
def usesFeedback (ty : ElemTy) (c : MCtl) : Bool :=
  c.o && ty.ffmt.isSome && [Fmt.bf16, .f16, .e4m3, .e5m2, .i8, .i4].contains c.fmt && c.fmt != fmtOfTy ty

/-! ### Addresses (R278) -/

/-- x[xa] + sext(offset). -/
def memBase (o : Word) (off : BitVec 21) : Word := o + off.signExtend 64

/-- Element `i` of a unit-stride instruction. -/
def unitAddr (m : Member) (c : MCtl) (off : BitVec 21) (i : Nat) : Word :=
  memBase m.opa off + BitVec.ofNat 64 (i * Fmt.bits c.fmt / 8)

/-- Element `i` of a strided instruction. -/
def strideAddr (m : Member) (off : BitVec 21) (i : Nat) : Word := memBase m.opa off + BitVec.ofNat 64 i * m.opb

/-- Element `i` of a gather or scatter. -/
def indexAddr (m : Member) (c : MCtl) (off : BitVec 21) (vi : Reg) (x : Run) (h : Half) (i : Nat) : Word :=
  memBase m.opa off + BitVec.ofNat 64 (h.elem x.w vi i * fmtBytes c.fmt)

/-- The base is a multiple of the element size, or the instruction takes ALIGN at issue. -/
def baseAligned (c : MCtl) (off : BitVec 21) (_ : Nat) (o : Opnds) : M Unit :=
  needAligned (memBase o.a off) (fmtBytes c.fmt)

/-- The base and the stride are. -/
def strideAligned (c : MCtl) (off : BitVec 21) (u : Nat) (o : Opnds) : M Unit := do
  baseAligned c off u o
  needAligned o.b (fmtBytes c.fmt)

/-! ### One step of a vector memory instruction -/

/-- What became of one element. -/
inductive ElemVal where
  | value (r : VRes)
  | fault (f : AFault)
  /-- a detached range, a consumed error or a remote failure: poison in a load, nothing in a store. -/
  | lost
  deriving DecidableEq, Repr

/-- How the elements of an instruction are accessed: kind and size of the access, address of an element, the fault that
it would meet, whether it can be performed, how many of a list find room in the store queues now, its performance, and
what follows for the elements of a step. -/
structure Plan where
  acc : Acc
  bytes : Nat
  addr : Nat → Word
  fault : Nat → M (Option AFault)
  ready : Nat → M Bool
  fit : List Nat → M Nat
  perform : Nat → M ElemVal
  finish : List Nat → List (Nat × ElemVal) → M Unit

/-- How an instruction goes through its elements: by element groups, one at a time, or all in one step. -/
inductive Pace where
  | groups | single | whole
  deriving DecidableEq, Repr

/-- The element fault that an access would meet; HOST-DETACHED is none (R283). -/
def elemFault (u : Nat) (m : Member) (acc : Acc) (va : Word) (n : Nat) : M (Option AFault) := do
  match ← elemPlace u m acc va n with
  | .error f => pure (if f.cls = 6 then none else some f)
  | .ok _ => pure none

/-- What an access came to, with the records of R98 and R450. -/
def elemVal (u : Nat) (m : Member) (acc : Acc) (va : Word) (n i : Nat) (conv : List Byte → VRes) : Got → M ElemVal
  | .bytes l => pure (.value (conv l))
  | .fault f => pure (.fault f)
  | .detached f => do
    detachedElem u m acc va n i f
    pure .lost
  | .poisoned a lv => do
    consumeElem u m a lv i
    pure .lost
  | .failed _ => pure .lost

/-- The elements of a list that fault. -/
def faultsOf (p : Plan) : List Nat → M (List (Nat × AFault))
  | [] => pure []
  | i :: t => do
    let f ← p.fault i
    let l ← faultsOf p t
    pure (match f with
      | some f => (i, f) :: l
      | none => l)

/-- Faults that answers brought. -/
def lateFaults (vals : List (Nat × ElemVal)) : List (Nat × AFault) := vals.filterMap fun e =>
  match e.2 with
  | .fault f => some (e.1, f)
  | .value _ | .lost => none

/-- Every element of a list finds room: loads need none. -/
def fitAll (l : List Nat) : M Nat := pure l.length

/-- Perform the elements of a list that do not fault, once all of them can be; those that answers say have faulted. Where
`clean`, nothing becomes of the others once there is such a one. -/
def performElems (u : Nat) (m : Member) (p : Plan) (clean : Bool) (elems good : List Nat) : M (List (Nat × AFault)) := do
  let rs ← mapList good fun i => onHold (State.noteElem u i) (p.ready i)
  waitUnless (rs.all id)
  let vals ← mapList good fun i => do
    let r ← p.perform i
    pure (i, r)
  let late := lateFaults vals
  if clean && !late.isEmpty then pure ()
  else p.finish (elems.filter fun i => !late.any (·.1 = i)) vals
  groupDone u m
  pure late

/-- FMASK with the bits of a list set. -/
def maskWith (p : BitVec 1024) (l : List Nat) : BitVec 1024 := l.foldl (fun p i => setBit p i true) p

/-- FMASK with the bits of a list cleared. -/
def maskWithout (p : BitVec 1024) (l : List Nat) : BitVec 1024 := l.foldl (fun p i => setBit p i false) p

/-- A member in replay (R284). -/
def Member.replays (m : Member) : Bool := m.pv && m.idx = 0x3fff

/-- The strand without the faults noted for an instruction. -/
def Strand.dropFaulted (t : Strand) (m : Member) : Strand :=
  { t with kept := { t.kept with faulted := t.kept.faulted.filter fun e => e.1 != m.addr } }

/-- The faults noted for the elements of an instruction that FMASK names, in element order. -/
def Strand.faultsIn (t : Strand) (m : Member) (n : Nat) : List (Nat × AFault) :=
  (List.range n).filterMap fun i =>
    if t.fmask.getLsbD i then (t.kept.faulted.find? fun e => e.1 = m.addr && e.2.1 = i).map (·.2) else none

/-- Elements of an instruction have faulted: FMASK names them, and their faults are noted until it traps (R89, R283). -/
def noteFaults (u : Nat) (m : Member) (l : List (Nat × AFault)) : M Unit := modStrand u fun t =>
  { t with
    fmask := maskWith t.fmask (l.map (·.1))
    kept := { t.kept with faulted := t.kept.faulted ++ l.map fun e => (m.addr, e.1, e.2) } }

/-- FMASK is cleared at the start of an instruction (R283), unless it runs on in a convoy whose older member has
faulted. -/
def startMask (u : Nat) (m : Member) : M Unit := do
  let t ← getStrand u
  if m.pv || t.colTrap.isSome then pure ()
  else do
    modStrand u fun t => { (t.dropFaulted m) with fmask := 0 }
    setIdx u m.iid 0

/-- A member that runs on stops before a group of its own that faults, and so do the younger ones (R283). -/
def stopRunOn (u i : Nat) : M Bool := do
  modStrand u fun t => { t with colTrap := t.colTrap.map fun c => { c with runOn := min c.runOn i } }
  pure false

/-- The faulted elements as records name them. -/
def elemFaults (p : Plan) (l : List (Nat × AFault)) : List ElemFault := l.map fun e => (e.1, p.addr e.1, e.2)

/-- The trap of an instruction whose faulted elements are known (R89). -/
def faultedTrap {α : Type} (x : Run) (p : Plan) (l : List (Nat × AFault)) : M α := do
  modStrand x.u fun t => t.dropFaulted x.m
  elemTrap x.u x.m p.acc p.bytes (elemFaults p l)

/-- The instruction has reached the end of its elements: complete, or it traps for those that have faulted. Elements whose
faults are known no more, since a pre-emption came between, are tried again first. -/
def endElems (x : Run) (g : PReg) (n : Bool) (p : Plan) : M Bool := do
  let t ← getStrand x.u
  if t.fmask = 0 || t.colTrap.isSome then pure true
  else do
    let marked := (List.range x.vl).filter fun i => t.fmask.getLsbD i && x.active (t.half false) g n i
    let known := t.faultsIn x.m x.vl
    if marked.all fun i => known.any (·.1 = i) then faultedTrap x p known
    else do
      setIdx x.u x.m.iid 0x3fff
      pure false

/-- The elements of a list that one step takes: a group, one, or all. -/
def Pace.first (pace : Pace) (x : Run) : List Nat → List Nat
  | [] => []
  | i :: l =>
    match pace with
    | .groups => (i :: l).filter fun j => j / x.epg = i / x.epg
    | .single => [i]
    | .whole => i :: l

/-- A replay stands between two elements of a group (R285). -/
def markMid (u iid : Nat) (b : Bool) : M Unit := modMember u iid fun m => { m with mid := b }

/-- One step of a replay (R284): the elements of FMASK that no longer fault, group by group, and the trap again once
only faulting ones are left. -/
def replayStep (x : Run) (g : PReg) (n : Bool) (pace : Pace) (p : Plan) : M Bool := do
  let t ← getStrand x.u
  let acts := (List.range x.vl).filter fun i => t.fmask.getLsbD i && x.active (t.half false) g n i
  let known := t.faultsIn x.m x.vl
  let todo := acts.filter fun i => !known.any (·.1 = i)
  let flts ← faultsOf p todo
  let good := todo.filter fun i => !flts.any (·.1 = i)
  match pace.first x good with
  | [] =>
    if acts.isEmpty then do
      modStrand x.u fun t => { t with fmask := 0 }
      pure true
    else faultedTrap x p (acts.filterMap fun i => (known ++ flts).find? (·.1 = i))
  | i :: l => do
    let k ← p.fit (i :: l)
    waitUnless (decide (0 < k))
    let now := (i :: l).take k
    let late ← performElems x.u x.m p false now now
    modStrand x.u fun t => { t with fmask := maskWithout t.fmask (now.filter fun j => !late.any (·.1 = j)) }
    noteFaults x.u x.m late
    markMid x.u x.m.iid ((good.drop k).any fun j => j / x.epg = i / x.epg)
    pure false

/-- One step of a vector memory instruction under guard `g` and `n`, whose run has been prepared (R281, R283 to R286). A
step ends at the element whose store finds no room in its queue (R75). Of a store by error feedback with a faulted element
R217 and R287 ask for ascending order, and R284 for a replay of that element alone: the later elements are narrowed first,
and the faulted one, at its replay, with the residual that they leave (DESIGN CHOICE, log 112). -/
def memStep (x : Run) (g : PReg) (n : Bool) (pace : Pace) (p : Plan) : M Bool := do
  if x.m.replays then replayStep x g n pace p
  else do
    startMask x.u x.m
    let t ← getStrand x.u
    let last := if pace = .groups then x.vl else x.processed
    if x.epg = 0 || last ≤ x.start then endElems x g n p
    else do
      let elems := match pace with
        | .groups => x.group
        | .single => [x.start]
        | .whole => x.all.drop x.start
      let acts := elems.filter (x.active (t.half false) g n)
      let flts ← faultsOf p acts
      if t.colTrap.isSome && !flts.isEmpty then stopRunOn x.u x.start
      else do
        let good := acts.filter fun i => !flts.any (·.1 = i)
        let k ← p.fit good
        waitUnless (decide (0 < k) || good.isEmpty)
        let next := match good.drop k with
          | i :: _ => i
          | [] => x.start + elems.length
        let now := elems.filter (· < next)
        let early := flts.filter (·.1 < next)
        let late ← performElems x.u x.m p t.colTrap.isSome (now.filter fun i => !early.any (·.1 = i)) (good.take k)
        if t.colTrap.isSome && !late.isEmpty then stopRunOn x.u x.start
        else do
          noteFaults x.u x.m (early ++ late)
          if next % x.epg = 0 then setIdx x.u x.m.iid next else setMid x.u x.m.iid next
          if last ≤ next then endElems x g n p else pure false

/-! ### Loads -/

/-- The result of a loaded element: poison where it is lost (R98, R111, R450). -/
def loadedRes (ty : ElemTy) (vals : List (Nat × ElemVal)) (i : Nat) : Option VRes :=
  match vals.find? (·.1 = i) with
  | some (_, .value r) => some r
  | some (_, .lost) => some ⟨ty.poison, 0, true⟩
  | some (_, .fault _) | none => none

/-- Loaded elements are written to vd, and inactive ones follow Z. In protected mode both copies receive what was
loaded; a copy whose guard alone selects an element has nothing to write there, and so differs (R276). -/
def loadFinish (x : Run) (k : VCtl) (vd : Reg) (elems : List Nat) (vals : List (Nat × ElemVal)) : M Unit := do
  let t ← getStrand x.u
  let lo := t.half false
  let hi := t.half true
  let res := loadedRes x.ty vals
  let low (i : Nat) : Option VRes := match res i with
    | some r => some r
    | none => policy k.z false (.plain 0)
  let high (i : Nat) : Option VRes :=
    if !x.prot || x.active hi k.g k.n i = x.active lo k.g k.n i then low i
    else if x.active hi k.g k.n i then some (.plain (2 ^ x.w - 1 - elemAt lo.v[vd.toNat] x.w i)) else policy k.z false (.plain 0)
  appendM x vd elems (fun i => (res i).isSome) low high
  commitVec x vd elems low high

/-- The code that loaded bytes hold, of the right nibble where the format has four bits. -/
def loadedCode (f : Fmt) (i : Nat) (l : List Byte) : Nat :=
  if nibbleFmt f then natOfBytes l / 16 ^ (i % 2) % 16 else natOfBytes l

/-- The plan of a plain load: element `i` at `addr i`, converted by `conv`. -/
def loadPlan (x : Run) (k : VCtl) (c : MCtl) (vd : Reg) (addr : Nat → Word) (conv : Nat → Nat → VRes) : Plan :=
  let n := fmtBytes c.fmt
  { acc := .read, bytes := n, addr := addr
    fault := fun i => elemFault x.u x.m .read (addr i) n
    ready := fun i => loadReady x.u x.m c.pol (x.laneGroup i) (addr i) n
    fit := fitAll
    perform := fun i => do
      let g ← loadElem x.u x.m c.pol (addr i) n
      elemVal x.u x.m .read (addr i) n i (fun l => conv i (loadedCode c.fmt i l)) g
    finish := loadFinish x k vd }

/-- An access of an ordered instruction that has all its elements before it goes on: performed at once, and kept until
then (R289). -/
def orderedGet (x : Run) (pol : Pol) (i : Nat) (va : Word) (n : Nat) : M Got := do
  let u := x.u
  let m := x.m
  let op := RemoteOp.load n
  match ← elemPlace u m .read va n with
  | .error f => pure (gotFault f)
  | .ok (.control _) => pure (.fault ⟨3, 2, 7, 1⟩)
  | .ok (.local a) => do
    let s ← getS
    let t := windowTarget m.owner va a
    match s.arrived.find? fun r => r.matches (m.who u) t op with
    | some r => pure (match r.answer with
        | .bytes l => .bytes l
        | .claimed _ _ | .acked | .violation | .unimplemented | .outside | .hostDetached | .poisoned | .remoteFault
        | .failed _ => .poisoned 0 (localLevel a))
    | none => do
      flushOwn u (x.laneGroup i) (localSlice a)
      let s ← getS
      waitUnless (s.localFull a n)
      let ans := (s.localOp m.mode m.owner a op).1
      modS fun s => s.keepAnswer (m.who u) t op ans
      pure (match ans with
        | .bytes l => .bytes l
        | .claimed _ _ | .acked | .violation | .unimplemented | .outside | .hostDetached | .poisoned | .remoteFault
        | .failed _ => .poisoned 0 (localLevel a))
  | .ok (.target t) => do
    let t := { t with pol := pol }
    let s ← getS
    let kept := s.arrived.any fun r => r.matches (m.who u) t op
    match (if kept then none else s.forward (clusterOf u) t n) with
    | some l => do
      modS fun s => (s.readHeld u t l).keepAnswer (m.who u) t op (.bytes (l.map (·.2)))
      pure (stagedGot s u va (l.map (·.2)))
    | none => do
      if kept then pure () else do
        flushBuffer u t
        flushOwn u (x.laneGroup i) (targetSlice t)
      let a ← keepM (m.who u) .read m.addr t op
      let s ← getS
      match gotAnswer s t a with
      | .bytes l => pure (stagedGot s u va l)
      | g => pure g

/-! ### INT4X (R208) -/

/-- What decoding an INT4X array gives an element. -/
inductive X4 where
  | plain (code : Nat)
  | escape
  | carrier
  deriving DecidableEq, Repr

/-- Decode in ascending element order over the elements of one instruction. -/
def x4Walk (n : Nat) (code : Nat → Nat) : Nat → Nat → List X4
  | 0, _ => []
  | fuel + 1, i =>
    if n ≤ i then []
    else if code i = 8 then .escape :: (List.replicate (min 2 (n - i - 1)) .carrier ++ x4Walk n code fuel (i + 3))
    else .plain (code i) :: x4Walk n code fuel (i + 1)

/-- The value of element `i` of an array of `n` elements: an escape whose carriers lie beyond the end is a NaN that
raises NV. -/
def x4Value (n : Nat) (code : Nat → Nat) (i : Nat) : FVal :=
  match (x4Walk n code n 0).getD i .carrier with
  | .plain c => fmtValue .i4 c
  | .carrier => .fin false 0 0
  | .escape => if n ≤ i + 2 then .nan true else FFmt.e4m3.decode (code (i + 1) + 16 * code (i + 2))

/-- The last element whose code decoding element `i` may need. -/
def x4Last (vl i : Nat) : Nat := min (vl - 1) (i + 2)

/-- How an INT4X load gets the codes of its array: one that can be asked for, and its code. -/
structure X4Get where
  ready : Nat → M Bool
  get : Nat → M Got

/-- The codes as accesses that keep no order. -/
def x4Free (x : Run) (pol : Pol) (addr : Nat → Word) : X4Get :=
  { ready := fun j => do
      match ← elemFault x.u x.m .read (addr j) 1 with
      | some _ => pure true
      | none => loadReady x.u x.m pol (x.laneGroup j) (addr j) 1
    get := fun j => loadElem x.u x.m pol (addr j) 1 }

/-- The codes as accesses in ascending element order (R281). -/
def x4Ordered (x : Run) (pol : Pol) (addr : Nat → Word) : X4Get :=
  { ready := fun j => do
      let _ ← orderedGet x pol j (addr j) 1
      pure true
    get := fun j => orderedGet x pol j (addr j) 1 }

/-- Every code that the decoding needs is at hand; an element that faults is passed over. -/
def x4Ready (x : Run) (c : X4Get) (i : Nat) : M Bool := do
  let rs ← mapList (List.range (x4Last x.vl i + 1)) c.ready
  pure (rs.all id)

/-- The code of an element; one that cannot be read does not begin an escape (log 25). -/
def x4Code (l : List Got) (j : Nat) : Nat :=
  match l[j]? with
  | some (.bytes b) => loadedCode .i4x j b
  | some (.fault _) | some (.detached _) | some (.poisoned _ _) | some (.failed _) | none => 0

/-- The first of two carriers that cannot be read. -/
def carrierFault (l : List Got) (i : Nat) : Option Got :=
  ((l.drop (i + 1)).take 2).find? fun g => match g with
    | .bytes _ => false
    | .fault _ | .detached _ | .poisoned _ _ | .failed _ => true

/-- Load element `i` of an INT4X array: an escape needs its carriers too. -/
def x4Load (x : Run) (c : X4Get) (addr : Nat → Word) (conv : Nat → FVal → VRes) (i : Nat) : M ElemVal := do
  let l ← mapList (List.range (x4Last x.vl i + 1)) c.get
  let code := x4Code l
  let own := l.getD i (.failed 0)
  let g := match (x4Walk x.vl code x.vl 0).getD i .carrier with
    | .escape => (carrierFault l i).getD own
    | .plain _ | .carrier => own
  elemVal x.u x.m .read (addr i) 1 i (fun _ => conv i (x4Value x.vl code i)) g

/-- The plan of an INT4X load. -/
def x4Plan (x : Run) (k : VCtl) (c : MCtl) (vd : Reg) (addr : Nat → Word) (conv : Nat → FVal → VRes) : Plan :=
  let get := if c.o then x4Ordered x c.pol addr else x4Free x c.pol addr
  { acc := .read, bytes := 1, addr := addr
    fault := fun i => elemFault x.u x.m .read (addr i) 1
    ready := x4Ready x get
    fit := fitAll
    perform := x4Load x get addr conv
    finish := loadFinish x k vd }

/-- An exact value as an element of a floating-point type, as the memory pipe rounds it. -/
def valueRes (ty : ElemTy) (v : FVal) : VRes :=
  match ty.ffmt with
  | some g =>
    let (n, fl) := g.roundVal 0 v
    ⟨n, fl, false⟩
  | none => .plain 0

/-- The plan of a load at given addresses. -/
def anyLoad (x : Run) (k : VCtl) (c : MCtl) (vd : Reg) (addr : Nat → Word) : Plan :=
  if c.fmt = .i4x then x4Plan x k c vd addr fun _ v => valueRes x.ty v
  else loadPlan x k c vd addr fun _ code => widen x.ty c.fmt code

/-! ### Stores -/

/-- The write of a code: a nibble, or the whole element (R286). -/
def codeWrite (f : Fmt) (i q : Nat) : RemoteOp :=
  if nibbleFmt f then .nibble (i % 2 = 1) (BitVec.ofNat 4 q) else .store (writeAll (bytesOfNat (fmtBytes f) q))

/-- The half-bytes that a store of elements in format `f` writes, by their virtual addresses. -/
def storeHalves (f : Fmt) (addr : Nat → Word) (l : List Nat) : List Nat :=
  l.flatMap fun i =>
    if nibbleFmt f then [2 * (addr i).toNat + i % 2] else (List.range (2 * fmtBytes f)).map (2 * (addr i).toNat + ·)

/-- The elements of a list that are stored. -/
def storedElems (vals : List (Nat × ElemVal)) : List Nat :=
  vals.filterMap fun e => match e.2 with
    | .value _ => some e.1
    | .fault _ | .lost => none

/-- The end of a group of element stores: those of a lane group that a tile holds are one write (R449), and flags that the
elements raise (R212), those of dropped ones included. -/
def storeFinish (x : Run) (f : Fmt) (addr : Nat → Word) (_ : List Nat) (vals : List (Nat × ElemVal)) : M Unit := do
  let stored := storedElems vals
  forList (stored.map x.laneGroup).eraseDups fun g =>
    modS fun s => s.stageTogether x.u (storeHalves f addr (stored.filter fun i => x.laneGroup i = g))
  raiseFlags x.u (vals.foldl (fun fl e => match e.2 with
    | .value r => fl ||| r.fl
    | .fault _ | .lost => fl) 0)

/-- How many elements of a list find room in their queues, in order (R75). -/
def storeFit (x : Run) (acc : Acc) (n : Nat) (addr : Nat → Word) (l : List Nat) : M Nat := do
  let slots ← mapList l fun i => do
    let r ← storeSlot x.u x.m acc (addr i) n
    pure (r.map fun e => (x.laneGroup i, e.1, x.u, x.m.iid, i / max 1 x.epg, e.2))
  let s ← getS
  pure (s.fitting (clusterOf x.u) [] slots)

/-- The plan of a store: `code` gives an element's code, its flags, and the residual that follows it (R217). -/
def storePlan (x : Run) (c : MCtl) (addr : Nat → Word) (code : Strand → Nat → Nat × Flags × Option Nat) : Plan :=
  let n := fmtBytes c.fmt
  { acc := .write, bytes := n, addr := addr
    fault := fun i => elemFault x.u x.m .write (addr i) n
    ready := fun i => do
      if c.o then elemsDone x.u x.m.iid else pure ()
      storeReady x.u x.m .write (addr i) n
    fit := storeFit x .write n addr
    perform := fun i => do
      let t ← getStrand x.u
      let (q, fl, carry) := code t i
      let g ← storeElem x.u x.m .write c.pol (x.laneGroup i) (i / max 1 x.epg) i (addr i) (codeWrite c.fmt i q)
      match g with
      | .bytes _ | .detached _ | .poisoned _ _ | .failed _ =>
        modStrand x.u fun t => match carry with
          | some r => { t with ecarry := BitVec.ofNat 64 r }
          | none => t
      | .fault _ => pure ()
      match ← elemVal x.u x.m .write (addr i) n i (fun _ => ⟨0, fl, false⟩) g with
      | .lost => pure (.value ⟨0, fl, false⟩)
      | v => pure v
    finish := storeFinish x c.fmt addr }

/-- The code of a stored element of register `vs`, narrowed, by error feedback where the instruction asks for it. -/
def storeCode (x : Run) (c : MCtl) (vs : Reg) (t : Strand) (i : Nat) : Nat × Flags × Option Nat :=
  let a := (t.half false).elem x.w vs i
  if usesFeedback x.ty c then
    match x.ty.ffmt with
    | some g =>
      if g.isPoison a then (poisonIn c.fmt, 0, none)
      else
        let (q, fl, r) := efStep c.fmt (g.decode a) (t.ecarry.extractLsb' 0 32).toNat
        (q, fl, some r)
    | none => (a, 0, none)
  else
    let (q, fl) := narrow x.ty c.fmt a
    (q, fl, none)

/-- Whether element accesses go one at a time (R281). -/
def paceOf (ordered : Bool) : Pace := if ordered then .single else .groups

/-- How a load goes through its elements: an ordered one of INT4X has all its codes first. -/
def loadPace (c : MCtl) (appends : Bool) : Pace :=
  if c.o && c.fmt = .i4x then .whole else paceOf (c.o || appends)

/-- The type and format form a pair, or the instruction takes ILLEGAL at execution (R279). -/
def needPair (u : Nat) (m : Member) (legal : ElemTy → Bool) : M Unit := do
  let ty ← typeM u m
  if legal ty then pure () else colIllegal m

/-- The column engine's part of a load: addresses are worked out from the lower copies. -/
def loadInstr (u : Nat) (m : Member) (k : VCtl) (c : MCtl) (vd : Reg) (srcs : List Reg) (whole : Bool)
    (addr : Run → Half → Nat → Word) : M Bool := do
  needPair u m fun ty => loadPair ty c.fmt && (whole || !nibbleFmt c.fmt)
  let x ← prepare u m srcs (some vd)
  let t ← getStrand u
  memStep x k.g k.n (loadPace c (t.streamOf vd).isSome) (anyLoad x k c vd (addr x (t.half false)))

/-- The column engine's part of a store. -/
def storeInstr (u : Nat) (m : Member) (k : GCtl) (c : MCtl) (vs : Reg) (srcs : List Reg) (whole : Bool)
    (addr : Run → Half → Nat → Word) : M Bool := do
  needPair u m fun ty => storePair ty c.fmt && (whole || !nibbleFmt c.fmt)
  let x ← prepare u m (vs :: srcs) none
  let t ← getStrand u
  memStep x k.g k.n (paceOf c.o) (storePlan x c (addr x (t.half false)) (storeCode x c vs))

/-! ### VLD and VST (R286, R287) -/

/-- The column engine's part of VLD, unit stride. -/
def colVld (u : Nat) (m : Member) (k : VCtl) (c : MCtl) (vd _xa : Reg) (off : BitVec 21) : M Bool :=
  loadInstr u m k c vd [] true fun x _ i => unitAddr x.m c off i

/-- VLD (R286). -/
def execVld (k : VCtl) (c : MCtl) (vd xa : Reg) (off : BitVec 21) (s : State) : Host.Outcome State Fault Refusal :=
  pushOp (.vld k c vd xa off) (opndA xa) (baseAligned c off) s

/-- The column engine's part of VLD, strided. -/
def colVldStrided (u : Nat) (m : Member) (k : VCtl) (c : MCtl) (vd _xa _xb : Reg) (off : BitVec 21) : M Bool :=
  loadInstr u m k c vd [] false fun x _ i => strideAddr x.m off i

/-- VLD, strided (R286). -/
def execVldStrided (k : VCtl) (c : MCtl) (vd xa xb : Reg) (off : BitVec 21) (s : State) :
    Host.Outcome State Fault Refusal :=
  pushOp (.vldStrided k c vd xa xb off) (opndAB xa xb) (strideAligned c off) s

/-- The column engine's part of VST, unit stride. -/
def colVst (u : Nat) (m : Member) (k : GCtl) (c : MCtl) (vs _xa : Reg) (off : BitVec 21) : M Bool :=
  storeInstr u m k c vs [] true fun x _ i => unitAddr x.m c off i

/-- VST (R286). -/
def execVst (k : GCtl) (c : MCtl) (vs xa : Reg) (off : BitVec 21) (s : State) : Host.Outcome State Fault Refusal :=
  pushOp (.vst k c vs xa off) (opndA xa) (baseAligned c off) s

/-- The column engine's part of VST, strided. -/
def colVstStrided (u : Nat) (m : Member) (k : GCtl) (c : MCtl) (vs _xa _xb : Reg) (off : BitVec 21) : M Bool :=
  storeInstr u m k c vs [] false fun x _ i => strideAddr x.m off i

/-- VST, strided (R286). -/
def execVstStrided (k : GCtl) (c : MCtl) (vs xa xb : Reg) (off : BitVec 21) (s : State) :
    Host.Outcome State Fault Refusal :=
  pushOp (.vstStrided k c vs xa xb off) (opndAB xa xb) (strideAligned c off) s

/-! ### VLDFF (R288) -/

/-- VLDFF meets a fault at its lowest active element: one record, and it starts again there. -/
def faultFirst {α : Type} (x : Run) (p : Plan) (i : Nat) (f : AFault) : M α := do
  let ag := x.m.agent x.u
  let va := p.addr i
  modS fun s => (s.logIfViolation ag .read va f).queueFault ag (accessOwner ag va) va p.bytes f .read false (some i)
  setIdx x.u x.m.iid i
  groupDone x.u x.m
  trapWith 4 f.cls va

/-- VLDFF stops short at element `j`, which faults: at its lowest active element it traps, otherwise it completes with the
elements from `j` upward inactive and named in FMASK (R288). Where it runs on, it stops before the group instead (R283). -/
def stopFirst (x : Run) (k : VCtl) (p : Plan) (lo j : Nat) (f : AFault) : M Bool := do
  let t ← getStrand x.u
  let act := x.active (t.half false) k.g k.n
  if t.colTrap.isSome then do
    setIdx x.u x.m.iid (alignDown j x.epg)
    stopRunOn x.u (alignDown j x.epg)
  else if (List.range x.vl).find? act = some j then faultFirst x p j f
  else do
    p.finish (x.all.drop lo) []
    groupDone x.u x.m
    modStrand x.u fun t => { t with fmask := maskWith t.fmask (((List.range x.vl).drop j).filter act) }
    setIdx x.u x.m.iid x.processed
    pure true

/-- One step of VLDFF: the next active element, with the inactive ones before it. No element is asked for before those
below it have been loaded, so that none above the first that faults is (R288); in a convoy whose older member has faulted,
none is where its group holds one that faults (R283). -/
def vldffStep (x : Run) (k : VCtl) (p : Plan) : M Bool := do
  startMask x.u x.m
  let t ← getStrand x.u
  let act := x.active (t.half false) k.g k.n
  let first := (List.range x.vl).find? act
  let lo := if first.all fun f => decide (f < x.start) then x.start else 0
  if x.epg = 0 || x.finished then pure true
  else
    match ((List.range x.vl).drop x.start).find? act with
    | none => do
      p.finish (x.all.drop lo) []
      setIdx x.u x.m.iid x.processed
      pure true
    | some j => do
      let group := ((List.range (alignDown j x.epg + x.epg)).drop j).filter act
      let flts ← (if t.colTrap.isSome then faultsOf p group else pure [])
      match flts with
      | _ :: _ => stopRunOn x.u (alignDown j x.epg)
      | [] =>
        match ← p.fault j with
        | some f => stopFirst x k p lo j f
        | none => do
          let r ← onHold (State.noteElem x.u j) (p.ready j)
          waitUnless r
          match ← p.perform j with
          | .fault f => stopFirst x k p lo j f
          | v => do
            let hi := if j + 1 = x.vl then x.processed else j + 1
            p.finish ((List.range hi).drop lo) [(j, v)]
            groupDone x.u x.m
            if hi % x.epg = 0 then setIdx x.u x.m.iid hi else setMid x.u x.m.iid hi
            pure (decide (x.vl ≤ hi))

/-- The column engine's part of VLDFF. -/
def colVldff (u : Nat) (m : Member) (k : VCtl) (c : MCtl) (vd _xa : Reg) (off : BitVec 21) : M Bool := do
  needPair u m fun ty => loadPair ty c.fmt
  let x ← prepare u m [] (some vd)
  vldffStep x k (anyLoad x k c vd (unitAddr m c off))

/-- VLDFF (R288). -/
def execVldff (k : VCtl) (c : MCtl) (vd xa : Reg) (off : BitVec 21) (s : State) : Host.Outcome State Fault Refusal :=
  pushOp (.vldff k c vd xa off) (opndA xa) (baseAligned c off) s

/-! ### Gather and scatter (R289, R290) -/

/-- The plan of an ordered gather: one load for each distinct address, in ascending order of its lowest element. -/
def orderedPlan (x : Run) (k : VCtl) (c : MCtl) (vd : Reg) (addr : Nat → Word) : Plan :=
  let n := fmtBytes c.fmt
  { acc := .read, bytes := n, addr := addr
    fault := fun i => elemFault x.u x.m .read (addr i) n
    ready := fun i => do
      let _ ← orderedGet x c.pol i (addr i) n
      pure true
    fit := fitAll
    perform := fun i => do
      let g ← orderedGet x c.pol i (addr i) n
      elemVal x.u x.m .read (addr i) n i (fun l => widen x.ty c.fmt (natOfBytes l)) g
    finish := loadFinish x k vd }

/-- The column engine's part of VGATH. -/
def colVgath (u : Nat) (m : Member) (k : VCtl) (c : MCtl) (vd _xa vi : Reg) (off : BitVec 21) : M Bool := do
  if c.o then do
    needPair u m fun ty => loadPair ty c.fmt && !nibbleFmt c.fmt
    let x ← prepare u m [vi] (some vd)
    let t ← getStrand u
    memStep x k.g k.n .whole (orderedPlan x k c vd (indexAddr m c off vi x (t.half false)))
  else loadInstr u m k c vd [vi] false fun x h i => indexAddr x.m c off vi x h i

/-- VGATH (R289). -/
def execVgath (k : VCtl) (c : MCtl) (vd xa vi : Reg) (off : BitVec 21) (s : State) :
    Host.Outcome State Fault Refusal :=
  pushOp (.vgath k c vd xa vi off) (opndA xa) (baseAligned c off) s

/-- The column engine's part of VSCAT. -/
def colVscat (u : Nat) (m : Member) (k : GCtl) (c : MCtl) (vs _xa vi : Reg) (off : BitVec 21) : M Bool :=
  storeInstr u m k c vs [vi] false fun x h i => indexAddr x.m c off vi x h i

/-- VSCAT (R290). -/
def execVscat (k : GCtl) (c : MCtl) (vs xa vi : Reg) (off : BitVec 21) (s : State) :
    Host.Outcome State Fault Refusal :=
  pushOp (.vscat k c vs xa vi off) (opndA xa) (baseAligned c off) s

/-! ### VSCADD (R291) -/

/-- The combining network: the values of the elements at one address, in element order. -/
def combine (ty : ElemTy) : List Nat → Nat
  | [] => 0
  | a :: t => t.foldl (fun s v => ElemTy.accumulate ty s v) a

/-- A scatter-add among whose updates it stands keeps the elements still to be done in FMASK, under this index. -/
def addIndex : Nat := 0x3ffd

/-- A unit of this module that an update would read is marked: the update is not applied (R450). -/
def updateMarked (u : Nat) (m : Member) (va : Word) (n : Nat) : M (Option (Nat × Nat)) := do
  match ← elemPlace u m .atomic va n with
  | .error _ | .ok (.control _) => pure none
  | .ok (.local a) => do
    let s ← getS
    pure (if s.localMarked m.mode m.owner a n then some (0, localLevel a) else none)
  | .ok (.target t) => do
    let s ← getS
    pure (if t.module.isNone && s.targetMarked t n then some (t.pa, s.levelOf t) else none)

/-- One step of VSCADD: the distinct addresses among the elements still to be done, by ascending lowest element; all of
them at once, or one after the other where they are ordered. -/
def scatterAdd (x : Run) (k : GCtl) (c : MCtl) (vs : Reg) (addr : Nat → Word) : M Bool := do
  let u := x.u
  let m := x.m
  let n := fmtBytes c.fmt
  let t ← getStrand u
  let lo := t.half false
  let todo := (List.range x.vl).filter fun i => x.active lo k.g k.n i && t.fmask.getLsbD i
  let lowest (i : Nat) : Bool := !todo.any fun j => decide (j < i) && addr j = addr i
  let leads := todo.filter lowest
  let flts ← faultsOf { acc := .atomic, bytes := n, addr := addr
                        fault := fun i => elemFault u m .atomic (addr i) n
                        ready := fun _ => pure true, fit := fitAll, perform := fun _ => pure .lost
                        finish := fun _ _ => pure () } leads
  let good := leads.filter fun i => !flts.any (·.1 = i)
  match good with
  | [] =>
    match todo with
    | [] => do
      modStrand u fun t => { t with fmask := 0 }
      pure true
    | _ :: _ => do
      let all := todo.filterMap fun i => (flts.find? fun e => addr e.1 = addr i).map fun e => (i, addr i, e.2)
      elemTrap u m .atomic n all
  | i :: _ => do
    if c.o then elemsDone u m.iid else pure ()
    let k ← storeFit x .atomic n addr good
    waitUnless (decide (0 < k))
    let now := if c.o then [i] else good.take k
    let rs ← mapList now fun i => onHold (State.noteElem u i) (storeReady u m .atomic (addr i) n)
    waitUnless (rs.all id)
    let marks ← mapList now fun i => do
      let r ← updateMarked u m (addr i) n
      pure (r.map fun e => (e.1, e.2, i))
    match marks.filterMap id with
    | (a, lv, i) :: _ => colMachineCheck u m a lv i
    | [] => pure ()
    let _ ← mapList now fun i => do
      let v := combine x.ty ((todo.filter fun j => addr j = addr i).map fun j => lo.elem x.w vs j)
      let g ← storeElem u m .atomic c.pol (x.laneGroup i) (i / max 1 x.epg) i (addr i) (.addElem x.ty (BitVec.ofNat 64 v))
      elemVal u m .atomic (addr i) n i (fun _ => .plain 0) g
    groupDone u m
    modStrand u fun t =>
      { t with fmask := maskWithout t.fmask (todo.filter fun j => now.any fun i => addr i = addr j) }
    pure false

/-- The column engine's part of VSCADD. -/
def colVscadd (u : Nat) (m : Member) (k : GCtl) (c : MCtl) (vs _xa vi : Reg) (off : BitVec 21) : M Bool := do
  needPair u m fun ty => c.fmt == fmtOfTy ty
  let x ← prepare u m [vs, vi] none
  let t ← getStrand u
  if m.pv && (m.idx.toNat = addIndex || m.replays) then do
    setIdx u m.iid addIndex
    scatterAdd x k c vs (indexAddr m c off vi x (t.half false))
  else if m.pv && decide (0 < m.idx.toNat) then pure true
  else do
    modStrand u fun t =>
      { t with fmask := maskWith 0 ((List.range x.vl).filter (x.active (t.half false) k.g k.n)) }
    setIdx u m.iid addIndex
    pure false

/-- VSCADD (R291). -/
def execVscadd (k : GCtl) (c : MCtl) (vs xa vi : Reg) (off : BitVec 21) (s : State) :
    Host.Outcome State Fault Refusal :=
  pushOp (.vscadd k c vs xa vi off) (opndA xa) (baseAligned c off) s

/-! ### Block-scaled loads and stores (R292) -/

/-- The scale code of element `i`: bits 7:0 of a 32-bit slot, whatever the type (R209). -/
def scaleCode (h : Half) (vsc : Reg) (i : Nat) : Nat := elemAt h.v[vsc.toNat] 32 (i / 32) % 256

/-- A block-scaled element: a scale of 0xFF gives the canonical NaN and raises NV (R210). -/
def scaledRes (ty : ElemTy) (e : Nat) (v : FVal) : VRes :=
  if e = 255 then valueRes ty (.nan true) else valueRes ty (v.scale (e - 127))

/-- The column engine's part of VLDB. -/
def colVldb (u : Nat) (m : Member) (k : VCtl) (c : MCtl) (vd _xa vsc : Reg) (off : BitVec 21) : M Bool := do
  needPair u m fun ty => blockPair true ty c.fmt
  let x ← prepare u m [vsc] (some vd)
  let t ← getStrand u
  let lo := t.half false
  let addr := unitAddr m c off
  let p := if c.fmt = .i4x then x4Plan x k c vd addr fun i v => scaledRes x.ty (scaleCode lo vsc i) v
    else loadPlan x k c vd addr fun i code => scaledRes x.ty (scaleCode lo vsc i) (fmtValue c.fmt code)
  memStep x k.g k.n (loadPace c (t.streamOf vd).isSome) p

/-- VLDB (R292). -/
def execVldb (k : VCtl) (c : MCtl) (vd xa vsc : Reg) (off : BitVec 21) (s : State) :
    Host.Outcome State Fault Refusal :=
  pushOp (.vldb k c vd xa vsc off) (opndA xa) (baseAligned c off) s

/-- The code of an element that VSTB stores: divided by its scale exactly, then narrowed. -/
def blockCode (x : Run) (c : MCtl) (vs vsc : Reg) (t : Strand) (i : Nat) : Nat × Flags × Option Nat :=
  let h := t.half false
  let e := scaleCode h vsc i
  let a := h.elem x.w vs i
  match x.ty.ffmt with
  | none => (a, 0, none)
  | some g =>
    if e = 255 then (match c.fmt.ffmt with
      | some f => f.cnan
      | none => poisonIn c.fmt, Flags.nv, none)
    else if g.isPoison a then (poisonIn c.fmt, 0, none)
    else
      let v := (g.decode a).scale (127 - e)
      if c.o then
        let (q, fl, r) := efStep c.fmt v (t.ecarry.extractLsb' 0 32).toNat
        (q, fl, some r)
      else
        let (q, fl) := encodeValue c.fmt v
        (q, fl, none)

/-- The column engine's part of VSTB. -/
def colVstb (u : Nat) (m : Member) (k : GCtl) (c : MCtl) (vs _xa vsc : Reg) (off : BitVec 21) : M Bool := do
  needPair u m fun ty => blockPair false ty c.fmt
  let x ← prepare u m [vs, vsc] none
  memStep x k.g k.n (paceOf c.o) (storePlan x c (unitAddr m c off) (blockCode x c vs vsc))

/-- VSTB (R292). -/
def execVstb (k : GCtl) (c : MCtl) (vs xa vsc : Reg) (off : BitVec 21) (s : State) :
    Host.Outcome State Fault Refusal :=
  pushOp (.vstb k c vs xa vsc off) (opndA xa) (baseAligned c off) s

end Sys2Proof.Machine
end

