-- ==== Sys2Proof/Machine/ColSync.lean ====
section
/-!
DEFINITION. Instructions of the column queue that order, claim or load tables: LSYNC (R138, R298), BAR (R151, R300), CLAIM
(R302), and the code tables of compressed weights with CTAB and VLDZ (R293 to R295).
-/

namespace Sys2Proof.Machine

/-! ### LSYNC -/

/-- The column engine's part of LSYNC: every element access of older instructions is performed. -/
def colLsync (u : Nat) (m : Member) : M Bool := do
  elemsDone u m.iid
  pure true

/-- LSYNC (R298). -/
def execLsync (s : State) : Host.Outcome State Fault Refusal := pushOp .lsync noOpnds noCheck s

/-! ### BAR -/

/-- The least number of arrivals that a member has fired, where there are several members. -/
def State.lowestFired (s : State) (u : Nat) (gang : Bool) : Option Nat :=
  (s.members u gang).foldl (fun acc g =>
    let f := s.firedOf gang g
    match acc with
    | some a => some (min a f)
    | none => some f) none

/-- BAR stalls while the strand's arrivals exceed the lowest fired count by 15 (R300). -/
def barRoom (gang : Bool) (u : Nat) (_ : Opnds) : M Unit := do
  let s ← getS
  let k := (s.strand u).kept
  match s.lowestFired u gang with
  | none => pure ()
  | some f => waitUnless (decide ((if gang then k.gangA else k.crewA) < f + 15))

/-- One more arrival. -/
def Kept.arrive (k : Kept) (gang : Bool) : Kept :=
  if gang then { k with gangA := k.gangA + 1 } else { k with crewA := k.crewA + 1 }

/-- The marker fires once more. -/
def Kept.fire (k : Kept) (gang : Bool) : Kept :=
  if gang then { k with gangFired := k.gangFired + 1 } else { k with crewFired := k.crewFired + 1 }

/-- The column engine's part of BAR: the marker fires once every older access is performed as a release of its scope
requires. -/
def colBar (u : Nat) (m : Member) (gang : Bool) : M Bool := do
  elemsDone u m.iid
  drainM u
  let s ← getS
  waitUnless (!gang || !s.remoteOut u)
  modStrand u fun t => { t with kept := t.kept.fire gang }
  pure true

/-- BAR (R300). -/
def execBar (gang : Bool) (s : State) : Host.Outcome State Fault Refusal :=
  pushThen (.bar gang) noOpnds (barRoom gang) (fun u => modStrand u fun t => { t with kept := t.kept.arrive gang }) s

/-! ### CLAIM -/

/-- The counter is 16-byte aligned, or CLAIM takes ALIGN at issue. -/
def claimAligned (_ : Nat) (o : Opnds) : M Unit := needAligned o.a 16

/-- What the answer of CLAIM's atomic means: its counts, or the trap of one that did not complete. -/
def claimAnswer (u : Nat) (m : Member) (addr level : Nat) : Answer → M (Word × Word)
  | .claimed next n => pure (next, n)
  | .bytes _ | .acked => pure (0, 0)
  | .violation => colAccessTrap u m .atomic m.opa ⟨3, 5, 7, 1⟩
  | .unimplemented => colAccessTrap u m .atomic m.opa ⟨3, 7, 7, 1⟩
  | .outside => colAccessTrap u m .atomic m.opa ⟨5, 0, 7, 1⟩
  | .hostDetached => colAccessTrap u m .atomic m.opa ⟨6, 0, 7, 1⟩
  | .remoteFault => colAccessTrap u m .atomic m.opa ⟨8, 0, 7, 1⟩
  | .poisoned => colMachineCheck u m addr level 0
  | .failed c => do
    groupDone u m
    trapWith 6 c.toNat m.opa

/-- The column engine's part of CLAIM: one relaxed 16-byte atomic; VL and the reply are its counts. -/
def colClaim (u : Nat) (m : Member) (_ : Scope) (_ _ _ : Reg) : M Bool := do
  let t ← getStrand u
  let op := RemoteOp.claim (BitVec.ofNat 64 (min m.opb.toNat t.vlmax))
  let (next, n) ← onWait (State.noteWait u ⟨none, m.opa, 0, 4⟩) (do
    match ← elemPlace u m .atomic m.opa 16 with
    | .error f => colAccessTrap u m .atomic m.opa f
    | .ok (.control _) => colAccessTrap u m .atomic m.opa ⟨3, 2, 7, 1⟩
    | .ok (.local a) => do
      let s ← getS
      waitUnless (s.localFull a 16)
      let (ans, s') := s.localOp m.mode m.owner a op
      modS fun _ => s'
      claimAnswer u m 0 (localLevel a) ans
    | .ok (.target g) => do
      flushBuffer u g
      let a ← askM (m.who u) .atomic m.addr g op
      let s ← getS
      claimAnswer u m g.pa (s.levelOf g) a)
  modStrand u fun t => ({ t with vl := n.toNat }).consumeStrip m
  replyWord u m next
  pure true

/-- CLAIM (R302). -/
def execClaim (scope : Scope) (xd xa xb : Reg) (s : State) : Host.Outcome State Fault Refusal :=
  pushOp (.claim scope xd xa xb) (opndAB xa xb) claimAligned s

/-! ### Code tables (R293, R294) -/

/-- Bytes `i` to `i + n - 1` of a header as a number. -/
def headerField (l : List Byte) (i n : Nat) : Nat := natOfBytes ((l.drop i).take n)

/-- COUNT[1] to COUNT[12]. -/
def headerCounts (l : List Byte) : List Nat := (List.range 12).map fun j => headerField l (4 + 2 * j) 2

/-- The 32 bytes of a header are valid (R293). -/
def headerValid (l : List Byte) : Bool :=
  let nsym := headerField l 0 2
  let maxlen := headerField l 2 1
  let counts := headerCounts l
  headerField l 3 1 = 0 && headerField l 28 4 = 0 && 1 ≤ nsym && nsym ≤ 256 && 1 ≤ maxlen && maxlen ≤ 12
    && (counts.drop maxlen).all (· = 0) && counts.sum = nsym
    && (counts.zipIdx.map fun e => e.1 * 2 ^ (11 - e.2)).sum ≤ 4096

/-- An element load that CTAB or VLDZ makes: a fault takes a precise access trap at the member, and nothing is written
(R294, R295); it is made under the instruction's cache policy (R281). No element would receive the poison of a failure, which takes FABRIC-ERROR with its code (log 97). -/
def streamBytes (u : Nat) (m : Member) (pol : Pol) (va : Word) (n : Nat) : M (List Byte) := do
  match ← elemFault u m .read va n with
  | some f => colAccessTrap u m .read va f
  | none => do
    waitUnless (← loadReady u m pol 0 va n)
    match ← loadElem u m pol va n with
    | .bytes l => pure l
    | .fault f => colAccessTrap u m .read va f
    | .detached f => colAccessTrap u m .read va f
    | .poisoned a lv => colMachineCheck u m a lv 0
    | .failed c => do
      groupDone u m
      trapWith 6 c.toNat va

/-- The strand's oldest member that has not completed. -/
def Strand.oldest (t : Strand) : Option Member := t.queue.find? fun m => !m.done

/-- The strands of a cluster. -/
def clusterStrands (c : Nat) : List Nat := (List.range 8).map (8 * c + ·)

/-- A member's element accesses are in progress. -/
def State.memberBusy (s : State) (u iid : Nat) : Bool :=
  s.arrived.any (fun a => a.who = .column u iid) || s.outstanding.any (fun o => o.who = .column u iid)
    || s.ports.any (fun p => p.who = .column u iid)

/-- The bank that a word's VLDZ uses. -/
def vldzBank (w : Word) : Option Bool :=
  match decode w with
  | some (.vldz _ _ _ _ _ _ b) => some b
  | _ => none

/-- The bank that a word's CTAB loads. -/
def ctabBank (w : Word) : Option Bool :=
  match decode w with
  | some (.ctab b _ _) => some b
  | _ => none

/-- A VLDZ has started on a bank of the cluster and has not completed. -/
def State.bankUsed (s : State) (c : Nat) (b : Bool) : Bool :=
  (clusterStrands c).any fun u => (s.strand u).queue.any fun m => vldzBank m.word = some b && s.memberBusy u m.iid

/-- A CTAB of the cluster waits for a bank. -/
def State.bankAwaited (s : State) (c : Nat) (b : Bool) : Bool :=
  s.bankUsed c b && (clusterStrands c).any fun u => match (s.strand u).oldest with
    | some m => ctabBank m.word = some b
    | none => false

/-- The number of a bank. -/
def bankIndex (b : Bool) : Nat := if b then 1 else 0

/-- The column engine's part of CTAB. -/
def colCtab (u : Nat) (m : Member) (b : Bool) (_ : Reg) (off : BitVec 32) : M Bool := do
  let base := offsetAddr m.opa off
  let head ← streamBytes u m .default base 32
  if headerValid head then pure () else do
    groupDone u m
    trapWith 1 0 base
  let n := 2 * headerField head 0 2
  let rest ← mapList (List.range ((n + 31) / 32)) fun i =>
    streamBytes u m .default (base + BitVec.ofNat 64 (32 + 32 * i)) (min 32 (n - 32 * i))
  let s ← getS
  waitUnless (!s.bankUsed (clusterOf u) b)
  let values := (List.range (headerField head 0 2)).map fun j => BitVec.ofNat 64 (headerField rest.flatten (2 * j) 2)
  groupDone u m
  modCluster (clusterOf u) fun c =>
    { c with tables := Tab.set c.tables (bankIndex b)
              { nsym := headerField head 0 2, maxlen := headerField head 2 1, count := headerCounts head,
                values := values, owner := m.owner, loaded := true } }
  pure true

/-- CTAB (R294). -/
def execCtab (b : Bool) (xa : Reg) (off : BitVec 32) (s : State) : Host.Outcome State Fault Refusal :=
  pushOp (.ctab b xa off) (opndA xa) (fun _ o => needAligned (offsetAddr o.a off) 64) s

/-! ### VLDZ (R295) -/

/-- A bank that holds no table. -/
def CodeTable.none : CodeTable := { nsym := 0, maxlen := 0, count := [], values := [], owner := 0, loaded := false }

/-- What decoding one code comes to. -/
inductive CodeGot where
  | code (j len : Nat)
  /-- the code would end beyond the budget. -/
  | overrun
  /-- the next MAXLEN bits match no code. -/
  | unmatched
  deriving DecidableEq, Repr

/-- Bit `p` of the stream, counted from bit 7 of its first byte downward. -/
def streamBit (u : Nat) (m : Member) (pol : Pol) (first : Word) (p : Nat) : M Nat := do
  let l ← streamBytes u m pol (first + BitVec.ofNat 64 (p / 8)) 1
  pure (natOfBytes l / 2 ^ (7 - p % 8) % 2)

/-- Decode one canonical code at bit `p`: `len` bits, with value `code`, have matched no code; `first` is first(len + 1)
and `before` the number of shorter codes. -/
def codeAt (bit : Nat → M Nat) (limit p : Nat) : List Nat → Nat → Nat → Nat → Nat → M CodeGot
  | [], _, _, _, _ => pure .unmatched
  | count :: rest, len, code, first, before =>
    if limit ≤ p + len then pure .overrun
    else do
      let b ← bit (p + len)
      let code := 2 * code + b
      if first ≤ code ∧ code < first + count then pure (.code (before + code - first) (len + 1))
      else codeAt bit limit p rest (len + 1) code ((first + count) * 2) (before + count)

/-- Decode up to `n` codes from bit `p` on: the codes, the bit after the last, and whether a pattern matched none. -/
def codesFrom (bit : Nat → M Nat) (limit : Nat) (counts : List Nat) : Nat → Nat → M (List Nat × Nat × Bool)
  | 0, p => pure ([], p, false)
  | n + 1, p => do
    match ← codeAt bit limit p counts 0 0 0 0 with
    | .overrun => pure ([], p, false)
    | .unmatched => pure ([], p, true)
    | .code j len => do
      let (l, q, bad) ← codesFrom bit limit counts n (p + len)
      pure (j :: l, q, bad)

/-- The column engine's part of VLDZ. -/
def colVldz (u : Nat) (m : Member) (k : VCtl) (c : MCtl) (vd _xd _xa _xb : Reg) (b : Bool) : M Bool :=
  unlessDone u m (some vd) (do
    needPair u m fun ty => c.fmt == fmtOfTy ty
    let s ← getS
    let table := Tab.get CodeTable.none (s.cluster (clusterOf u)).tables (bankIndex b)
    if table.loaded && table.owner = m.owner then pure () else trapWith 1 0 (BitVec.ofNat 64 (bankIndex b))
    waitUnless (s.memberBusy u m.iid || !s.bankAwaited (clusterOf u) b)
    let x ← prepare u m [] (some vd)
    let p := (m.opa.extractLsb' 0 3).toNat
    let (codes, q, bad) ← codesFrom (streamBit u m c.pol (m.opa.sshiftRight 3)) (8 * min m.opb.toNat 65536)
      (table.count.take table.maxlen) x.vl p
    let t ← getStrand u
    let lo := t.half false
    let res (h : Half) (i : Nat) : Option VRes := match codes[i]? with
      | some j =>
        if x.active h k.g k.n i then some (widen x.ty .bf16 (table.values.getD j 0).toNat)
        else policy k.z false (.plain 0)
      | none => policy k.z false (.plain 0)
    let hi := if x.prot then t.half true else lo
    appendM x vd (x.all.drop x.start) (fun i => decide (i < codes.length) && x.active lo k.g k.n i) (res lo) (res hi)
    commitVec x vd x.all (res lo) (res hi)
    raiseFlags u (Flags.when bad Flags.nv)
    groupDone u m
    let v := BitVec.ofNat 64 (q - p + codes.length * 2 ^ 32)
    replyM x v v
    pure true)

/-- VLDZ (R295). -/
def execVldz (k : VCtl) (c : MCtl) (vd xd xa xb : Reg) (b : Bool) (s : State) : Host.Outcome State Fault Refusal :=
  pushOp (.vldz k c vd xd xa xb b) (opndAB xa xb) noCheck s

end Sys2Proof.Machine
end

