-- ==== Sys2Proof/Machine/Miller.lean ====
section
/-!
DEFINITION. The arithmetic of the matrix unit and of the Miller: operand values, chunk sums, the decomposition of a tile
into terms and a residual, and the plan of a pass (R208, R209, R218, R219, R336 to R342, R355).
-/

namespace Sys2Proof.Machine

/-! ### Operand values (R355) -/

/-- An operand element: a poisoned one, or its exact value with its block's scale. -/
inductive MVal where
  | poisoned
  | val (v : FVal)
  deriving DecidableEq, Repr

/-- A nonzero value; NaNs, infinities and poison count (R336). -/
def MVal.nonzero : MVal → Bool
  | .poisoned => true
  | .val (.fin _ m _) => m != 0
  | .val (.nan _) | .val (.inf _) => true

/-- The value of a code, poison for the BF16 pattern (R215, R355). -/
def operandOf (f : Fmt) (code : Nat) : MVal := if f = .bf16 && code = 0xfff0 then .poisoned else .val (fmtValue f code)

/-- An element under an E8M0 block scale (R209): 0xFF makes each product a NaN. -/
def MVal.scaled (s : Nat) : MVal → MVal
  | .poisoned => .poisoned
  | .val v => .val (if s = 0xff then .nan false else v.scale ((s : Int) - 127))

/-- Formats that the matrix unit accepts (R190). -/
def matrixFmt (f : Fmt) : Bool := [Fmt.bf16, .f16, .e4m3, .e5m2, .i8, .i4, .i4x, .e2m1].contains f

/-- Bytes of a run of `k` elements: L(k, f) of R350. -/
def runBytes (k : Nat) (f : Fmt) : Nat := (k * Fmt.bits f + 63) / 64 * 8

/-- Bytes of a zero bitmap of a row: Z(k). -/
def bitmapBytes (k : Nat) : Nat := (k + 63) / 64 * 8

/-- Scale codes of a run: KB. -/
def scaleCount (k : Nat) : Nat := (k + 31) / 32

/-- The code of `w` bits at bit `j * w` of bytes that begin at a byte boundary. -/
def codeAtBit (w j : Nat) (l : List (Byte × Bool)) : Nat :=
  if w = 4 then ((l.getD (j / 2) (0, false)).1.toNat / 2 ^ (4 * (j % 2))) % 16
  else natOfBytes (((l.drop (w / 8 * j)).take (w / 8)).map (·.1))

/-- A byte of element `j` carries the mark of a consumed error. -/
def codeMarked (w j : Nat) (l : List (Byte × Bool)) : Bool :=
  if w = 4 then (l.getD (j / 2) (0, false)).2 else ((l.drop (w / 8 * j)).take (w / 8)).any (·.2)

/-- The elements `k0` to `k0 + kt` - 1 of a run of `k` elements, whose bytes from element `first` on are `l`. INT4X is
decoded from the start of the run (R208): there an escape is poisoned with any of its carriers. -/
def runElems (f : Fmt) (k first k0 kt : Nat) (l : List (Byte × Bool)) : List MVal :=
  let w := Fmt.bits f
  (List.range kt).map fun i =>
    let j := k0 + i - first
    if f = .i4x then
      let code (e : Nat) : Nat := codeAtBit 4 e l
      let escape := (x4Walk k code k 0).getD (k0 + i) .carrier = .escape
      if codeMarked 4 j l || (escape && (codeMarked 4 (j + 1) l || codeMarked 4 (j + 2) l)) then .poisoned
      else .val (x4Value k code (k0 + i))
    else if codeMarked w j l then .poisoned
    else operandOf f (codeAtBit w j l)

/-- The first element whose bytes a tile's read needs, and the number of elements (R208, R336). -/
def runSpan (f : Fmt) (k k0 kt : Nat) : Nat × Nat := if f = .i4x then (0, min k (k0 + kt + 2)) else (k0, kt)

/-! ### Chunk sums (R218) -/

/-- The signs of the infinities among values. -/
def infSigns (l : List FVal) : List Bool := l.filterMap fun v => match v with
  | .inf n => some n
  | .nan _ | .fin _ _ _ => none

/-- The exact sum of two finite values; a zero sum is +0. -/
def exactAdd (a b : FVal) : FVal :=
  match a, b with
  | .fin na ma ea, .fin nb mb eb =>
    let e := min ea eb
    let t : Int := signed na (ma * 2 ^ (ea - e).toNat) + signed nb (mb * 2 ^ (eb - e).toNat)
    .fin (decide (t < 0)) t.natAbs e
  | x, _ => x

/-- The exact sum S of a chunk's products (R218). -/
def chunkSum (l : List FVal) : FVal :=
  if l.any FVal.isNan then .nan false
  else
    match (infSigns l).eraseDups with
    | [] => l.foldl exactAdd (.fin false 0 0)
    | [n] => .inf n
    | _ => .nan false

/-- The products of a chunk, or none where an element of it is poisoned. -/
def chunkProducts (l : List (MVal × MVal)) : Option (List FVal) := l.mapM fun e =>
  match e with
  | (.val a, .val b) => some (a.mul b)
  | (.poisoned, _) | (_, .poisoned) => none

/-- One accumulator element after the chunk of products `l` (R218, R355). -/
def accumulate (acc : Nat) (l : List (MVal × MVal)) : Nat :=
  if FFmt.f32.isPoison acc then acc
  else
    match chunkProducts l with
    | none => FFmt.f32.poison
    | some ps => (FFmt.f32.addVal 0 (FFmt.f32.decode acc) (chunkSum ps)).1

/-- One accumulator element after one product is added to it, with one rounding (R219): a product of -0 stays one. -/
def accumulateOne (acc : Nat) (e : MVal × MVal) : Nat :=
  if FFmt.f32.isPoison acc then acc
  else
    match e with
    | (.val a, .val b) => (FFmt.f32.addVal 0 (FFmt.f32.decode acc) (a.mul b)).1
    | (.poisoned, _) | (_, .poisoned) => FFmt.f32.poison

/-- One accumulator element after the tile's positions `ks` have been added chunk by chunk: `pair k` is the product
formed at k, none where none is formed. `k0` is the first position of the tile, a multiple of 64. -/
def accumulateTile (pair : Nat → Option (MVal × MVal)) (kt : Nat) (acc : Nat) : Nat :=
  let chunk (h : Nat) : List (MVal × MVal) :=
    (List.range 32).filterMap fun i => if 32 * h + i < kt then pair (32 * h + i) else none
  (List.range ((kt + 31) / 32)).foldl (fun a h => accumulate a (chunk h)) acc

/-! ### The decomposition (R337, R338) -/

/-- A tile's operands: A rows and B columns, each a list over the tile's positions, and the zero bitmaps of the rows
(true: the element counts as zero). -/
structure TileData where
  a : List (List MVal)
  zero : List (List Bool)
  b : List (List MVal)
  kt : Nat
  deriving DecidableEq, Repr

/-- Element `j` of a list of operands. -/
def opAt (l : List MVal) (j : Nat) : MVal := l.getD j (.val (.fin false 0 0))

/-- N and M of a pattern (R199). -/
def patternN : Pattern → Nat
  | .p1x4 => 1
  | .p2x4 | .p2x8 => 2
  | .p4x8 => 4
/-- M. -/
def patternM : Pattern → Nat
  | .p1x4 | .p2x4 => 4
  | .p2x8 | .p4x8 => 8

/-- The candidate term that position `j` of a column falls in: its rank among the nonzeros of its group, N to a term
(R337). -/
def candOf (p : Pattern) (col : List MVal) (j : Nat) : Nat :=
  let g := j / patternM p * patternM p
  ((List.range (j - g)).filter fun i => (opAt col (g + i)).nonzero).length / patternN p

/-- The nonzeros of a tile with their candidate terms, in ascending order of position, then column. -/
def tileCands (p : Pattern) (t : TileData) : List (Nat × Nat × Nat) :=
  (List.range t.kt).flatMap fun j => t.b.zipIdx.filterMap fun e =>
    if (opAt e.1 j).nonzero then some (candOf p e.1 j, j, e.2) else none

/-- e(T): nonzeros of the candidates from T on (R338). -/
def leftOver (l : List (Nat × Nat × Nat)) (n : Nat) : Nat := (l.filter fun e => n ≤ e.1).length

/-- Twice r, the cycles per row of R338. -/
def rate2 (f : Fmt) : Nat :=
  match f with
  | .bf16 | .f16 => 4
  | .e4m3 | .e5m2 | .i8 => 2
  | .i4 | .i4x | .e2m1 | .i32 | .i64 | .f32 | .e8m0 => 1

/-- The plan of a tile (R338): the number of terms and the entries of the residual, or none for a dense pass. -/
def planOf (p : Pattern) (fa fb : Fmt) (t : TileData) : Option (Nat × List (Nat × Nat)) :=
  let l := tileCands p t
  let n := ((List.range 5).find? fun n => leftOver l n ≤ 256).getD 4
  let r2 := max (rate2 fa) (rate2 fb)
  if n * t.kt * r2 * patternN p + 2 * patternM p * leftOver l n < t.kt * r2 * patternM p then
    some (n, (l.filter fun e => n ≤ e.1).map (·.2))
  else none

/-! ### The loss bound (R339) -/

/-- A value with its sign taken away. -/
def FVal.magnitude : FVal → FVal
  | .nan s => .nan s
  | .inf _ => .inf false
  | .fin _ m e => .fin false m e

/-- The residual is dropped under a bound: L1 is at most the bound. -/
def dropsResidual (bound : Option (BitVec 32)) (res : List MVal) : Bool :=
  match bound with
  | none => false
  | some b =>
    if res.isEmpty || res.contains .poisoned || FFmt.f32.isPoison b.toNat then false
    else
      let l := res.filterMap fun v => match v with
        | .val x => some x.magnitude
        | .poisoned => none
      let limit := FFmt.f32.decode b.toNat
      let negative : Bool := match limit with
        | .nan _ => true
        | .inf n => n
        | .fin n m _ => n && m != 0
      !l.any FVal.isNan && !negative && match (chunkSum l).cmp limit with
        | some .lt | some .eq => true
        | some .gt | none => false

/-! ### A pass -/

/-- What a Miller pass reports (R345): terms, dense, dropped, e(T), slices beyond 48, residual entries applied. -/
structure PassStat where
  terms : Nat
  dense : Bool
  dropped : Bool
  resid : Nat
  beyond : Nat
  applied : Nat
  deriving DecidableEq, Repr

/-- The product at a position of row `q` and column `c`, unless the zero bitmap marks the A element: that one
contributes +0 to every product (R341). -/
def TileData.pair (t : TileData) (q c j : Nat) : Option (MVal × MVal) :=
  if (t.zero.getD q []).getD j false then none else some (opAt (t.a.getD q []) j, opAt (t.b.getD c []) j)

/-- An accumulator element after a dense pass (R218). -/
def densePass (t : TileData) (q c acc : Nat) : Nat := accumulateTile (t.pair q c) t.kt acc

/-- An accumulator element after term `n` (R219): products at the term's nonzeros alone. -/
def termPass (p : Pattern) (t : TileData) (q c n acc : Nat) : Nat :=
  let col := t.b.getD c []
  accumulateTile (fun j => if (opAt col j).nonzero && candOf p col j = n then t.pair q c j else none) t.kt acc

/-- An accumulator element after the residual entries of its column (R219), one rounding each. An element that the zero
bitmap marks contributes +0 (R341). -/
def residualPass (t : TileData) (q c : Nat) (res : List (Nat × Nat)) (acc : Nat) : Nat :=
  let one (a : Nat) (e : Nat × Nat) : Nat :=
    match t.pair q c e.1 with
    | some x => accumulateOne a x
    | none => accumulate a []
  (res.filter fun e => e.2 = c).foldl one acc

/-- The live slices of a tile: positions at which some row's element counts (R342). -/
def liveSlices (t : TileData) : Nat :=
  ((List.range t.kt).filter fun j => t.zero.any fun z => !z.getD j false).length

/-- An accumulator element after a pass under a plan. -/
def plannedPass (p : Pattern) (plan : Option (Nat × List (Nat × Nat))) (drop : Bool) (t : TileData) (q c acc : Nat) :
    Nat :=
  match plan with
  | none => densePass t q c acc
  | some (n, res) =>
    let a := (List.range n).foldl (fun a k => termPass p t q c k a) acc
    if drop then a else residualPass t q c res a

/-- The residual's values. -/
def residualValues (t : TileData) (res : List (Nat × Nat)) : List MVal := res.map fun e => opAt (t.b.getD e.2 []) e.1

/-- The report of a pass under a plan. -/
def passStat (za : Bool) (plan : Option (Nat × List (Nat × Nat))) (drop : Bool) (t : TileData) : PassStat :=
  let beyond := if za then liveSlices t - 48 else 0
  match plan with
  | none => ⟨0, true, false, 0, beyond, 0⟩
  | some (n, res) => ⟨n, false, drop, res.length, beyond, if drop then 0 else res.length⟩

end Sys2Proof.Machine
end

