-- ==== Sys2Proof/Machine/Matrix.lean ====
section
/-!
DEFINITION. The matrix unit (R346 to R360): accumulator rows and their holders, matrix operations and their passes, joins
and pending failures, and the instructions MATTACH, MDETACH, MZERO, MMA, MMAG, MMAS and MEXT.
-/

namespace Sys2Proof.Machine

/-! ### Rows (R346 to R349) -/

/-- A strand as the holder of rows: gang, crew and index in the crew. -/
abbrev Holder := Nat × Nat × Nat

/-- The holder that a strand is. -/
def Strand.holder (t : Strand) : Holder := (t.gang, t.crew, t.pos)

/-- The use of block `b` of a cluster. -/
def Cluster.block (c : Cluster) (b : Nat) : BlockUse := Tab.get .free c.blocks b

/-- A block is held by `h`. -/
def BlockUse.heldBy (h : Holder) : BlockUse → Bool
  | .held g k p _ => (g, k, p) = h
  | .free | .reserved _ _ _ => false

/-- A block is reserved for `h`. -/
def BlockUse.reservedFor (h : Holder) : BlockUse → Bool
  | .reserved g k p => (g, k, p) = h
  | .free | .held _ _ _ _ => false

/-- The eight blocks of a cluster that satisfy `f`, ascending. -/
def Cluster.blocksWhere (c : Cluster) (f : BlockUse → Bool) : List Nat := (List.range 8).filter fun b => f (c.block b)

/-- The blocks that a strand holds, ascending: local row `r` lies in the block of index r / 32 (R346). -/
def Cluster.heldBlocks (c : Cluster) (h : Holder) : List Nat := c.blocksWhere (·.heldBy h)

/-- The rows of a strand's blocks (R346). -/
def Cluster.heldRows (c : Cluster) (h : Holder) : Nat := 32 * (c.heldBlocks h).length

/-- The accumulator element of local row `r` and column `col` of a holder: its place in the store. -/
def Cluster.accIndex (c : Cluster) (h : Holder) (r col : Nat) : Nat :=
  256 * (32 * (c.heldBlocks h).getD (r / 32) 0 + r % 32) + col

/-- The accumulator store with the rows of a list of blocks set to +0. -/
def clearBlocks (acc : Tab (BitVec 32)) (l : List Nat) : Tab (BitVec 32) :=
  acc.filter fun e => !l.contains (e.1 / (256 * 32))

/-- The strand obtains blocks of a cluster (R347): those of its reservation first. -/
def Cluster.takeBlocks (c : Cluster) (h : Holder) (n : Nat) : Cluster :=
  let mine := c.blocksWhere (·.reservedFor h)
  let free := c.blocksWhere (· == .free)
  let l := (mine ++ free).take n
  let use (t : Tab BlockUse) (b : Nat) : Tab BlockUse := Tab.set t b (.held h.1 h.2.1 h.2.2 (mine.contains b))
  { c with blocks := l.foldl use c.blocks, acc := clearBlocks c.acc l }

/-- The strand's blocks are released (R348): those of its reservation are reserved again, unless the strand ends. -/
def Cluster.releaseBlocks (c : Cluster) (h : Holder) (ends : Bool) : Cluster :=
  let use (b : Nat) (u : BlockUse) : BlockUse :=
    match u with
    | .held g k p back => let _ := b; if (g, k, p) = h then (if back && !ends then .reserved g k p else .free) else u
    | .reserved g k p => if ends && decide ((g, k, p) = h) then .free else u
    | .free => u
  { c with blocks := c.blocks.map fun e => (e.1, use e.1 e.2), acc := clearBlocks c.acc (c.heldBlocks h) }

/-- A strand ends, or its task is killed: its rows, its operations and its pending failure go (R348, R354). -/
def Cluster.dropHolder (c : Cluster) (h : Holder) : Cluster :=
  { c.releaseBlocks h true with
    matOps := c.matOps.filter fun o => o.holder != h
    matFail := c.matFail.filter fun e => (e.1, e.2.1, e.2.2.1) != h }

/-- The column engine's part of MATTACH: it obtains what it can at once. -/
def colMattach (u : Nat) (m : Member) (_ : Reg) : M Bool := do
  let t ← getStrand u
  if t.mgrant != 0 || m.opa.toNat % 32 != 0 || 256 < m.opa.toNat then colIllegal m
  else do
    modCluster (clusterOf u) fun c => c.takeBlocks t.holder (m.opa.toNat / 32)
    let c ← getCluster (clusterOf u)
    modStrand u fun t => { t with mgrant := c.heldRows t.holder }
    pure true

/-- MATTACH (R347). -/
def execMattach (xa : Reg) (s : State) : Host.Outcome State Fault Refusal :=
  pushOp (.mattach xa) (opndA xa) noCheck s

/-! ### Joins and failures (R352 to R354) -/

/-- The pending failure of a holder: its tval. -/
def Cluster.pendingFailure (c : Cluster) (h : Holder) : Option Word :=
  (c.matFail.find? fun e => (e.1, e.2.1, e.2.2.1) = h).map fun e => e.2.2.2

/-- The queue without a joining member, and without the younger members of its convoy, which the helm issues again from
epc on (R431): the member before it ends the convoy. -/
def withoutJoin (iid : Nat) : List Member → List Member
  | [] => []
  | m :: t =>
    if m.iid = iid then afterConvoy (m :: t)
    else
      match t with
      | n :: _ => (if n.iid = iid && !m.last then { m with last := true } else m) :: withoutJoin iid t
      | [] => [m]
where
  /-- What follows the convoy of the first member. -/
  afterConvoy : List Member → List Member
    | [] => []
    | m :: t => if m.last then t else afterConvoy t

/-- The strand with a joining member taken out of its queue, and the reply slots and counters of what goes with it given
up. -/
def Strand.removeJoin (t : Strand) (m : Member) : Strand :=
  let q := withoutJoin m.iid t.queue
  let gone (iid : Nat) : Bool := t.queue.any (·.iid = iid) && !q.any (·.iid = iid)
  { t with
    queue := q
    replies := t.replies.filter fun r => !gone r.iid
    kept := t.openInstrs.foldl (fun k o => if gone o.iid then k.lower o.d else k) t.kept
    openInstrs := t.openInstrs.filter fun o => !gone o.iid }

/-- The failure that a holder has pending is taken. -/
def Cluster.takeFailure (c : Cluster) (h : Holder) : Cluster :=
  { c with matFail := c.matFail.filter fun e => (e.1, e.2.1, e.2.2.1) != h }

/-- A pending failure is taken as a MATRIX-ERROR whose epc is `epc` (R353, R354). -/
def takeMatrixError (u : Nat) (epc : Word) (before : M Unit) : M Unit := do
  let t ← getStrand u
  let c ← getCluster (clusterOf u)
  match c.pendingFailure t.holder with
  | none => pure ()
  | some v => do
    before
    modCluster (clusterOf u) (·.takeFailure t.holder)
    throw (.trap ⟨10, 0, v, some epc⟩)

/-- A join (R352): it waits until every older matrix operation of the strand has completed, and takes a pending failure
before any effect of its instruction. -/
def joinM (u : Nat) (m : Member) : M Unit := do
  let t ← getStrand u
  let c ← getCluster (clusterOf u)
  onWait (State.noteWait u ⟨none, 0, 0, 3⟩) (waitUnless (!c.matOps.any fun o => o.holder = t.holder))
  takeMatrixError u m.addr (modStrand u (·.removeJoin m))

/-- The column engine's part of MDETACH. -/
def colMdetach (u : Nat) (m : Member) : M Bool := do
  joinM u m
  let t ← getStrand u
  modCluster (clusterOf u) (·.releaseBlocks t.holder false)
  modStrand u fun t => { t with mgrant := 0 }
  pure true

/-- MDETACH (R348). -/
def execMdetach (s : State) : Host.Outcome State Fault Refusal := pushOp .mdetach noOpnds noCheck s

/-- The column engine's part of MZERO. -/
def colMzero (u : Nat) (m : Member) : M Bool := do
  joinM u m
  let t ← getStrand u
  modCluster (clusterOf u) fun c => { c with acc := clearBlocks c.acc (c.heldBlocks t.holder) }
  pure true

/-- MZERO (R349). -/
def execMzero (s : State) : Host.Outcome State Fault Refusal := pushOp .mzero noOpnds noCheck s

/-! ### Forking a matrix operation (R351, R355, R356, R358) -/

/-- The first byte of a range that lies outside the scratchpad window or in the active staging range (R57, R350). -/
def State.outsideWindow (s : State) (c : Nat) (va n : Nat) : Option Nat :=
  let top := if s.launchActive c then 0x7e00007c0000 else 0x7e0000800000
  if n = 0 then none
  else if va < 0x7e0000000000 || top ≤ va then some va
  else if top < va + n then some top
  else none

/-- A range that must lie in the window, or the instruction takes an access trap of class WINDOW. -/
def needWindow (u : Nat) (va n : Nat) : M Unit := do
  let s ← getS
  match s.outsideWindow (clusterOf u) va n with
  | none => pure ()
  | some a => trapWith 4 5 (BitVec.ofNat 64 a)

/-- Jobs from the first that has rows on: a record with ROWS = 0 performs nothing (R357). -/
def skipEmpty (l : List MatJob) (i : Nat) : List MatJob × Nat :=
  match l with
  | [] => ([], i)
  | j :: t => if j.m = 0 then skipEmpty t (i + 1) else (j :: t, i)

/-- What the fork of a matrix operation comes after: older scalar accesses, and elements of older instructions with the S
bit (R139, R142). -/
def forkReady (u : Nat) (m : Member) : M Unit := do
  settleM u
  let t ← getStrand u
  waitUnless (!t.openInstrs.any fun o => o.s && decide (o.iid < m.iid))
  drainM u

/-- Fork a matrix operation. Behind a failure that is not yet reported it is discarded (R353). -/
def forkMatrix (u : Nat) (m : Member) (jobs : List MatJob) : M Unit := do
  forkReady u m
  let t ← getStrand u
  let c ← getCluster (clusterOf u)
  match skipEmpty jobs 0 with
  | ([], _) => pure ()
  | (l, i) =>
    if (c.pendingFailure t.holder).isSome then pure ()
    else do
      let ident ← drawWord
      let s ← getS
      let op : MatOp :=
        { ident := ident, uid := u, holder := t.holder, owner := m.owner, mode := m.mode, addr := m.addr, jobs := l,
          index := i, tile := 0, serviced := false, consumed := false, since := s.steps, places := [] }
      modCluster (clusterOf u) fun c => { c with matOps := c.matOps ++ [op] }

/-- MMA and MMAS at execution (R355, R356). -/
def multiply (u : Nat) (m : Member) (fa fb : Fmt) (sparse : Option Pattern) (za : Bool) (bound : Option (BitVec 32))
    (row n1 kk : Nat) : M Bool := do
  let t ← getStrand u
  if t.mgrant ≤ row then colIllegal m else pure ()
  let rows := t.mgrant - row
  needWindow u m.opa.toNat (rows * runBytes kk fa + if za then rows * bitmapBytes kk else 0)
  needWindow u m.opb.toNat ((n1 + 1) * runBytes kk fb)
  forkMatrix u m
    [{ row := row, m := rows, n := n1 + 1, kk := kk, fa := fa, fb := fb, sparse := sparse, za := za, bound := bound,
       abase := m.opa.toNat, astride := runBytes kk fa, bbase := m.opb, bhandle := none, bmodule := none,
       scale := none }]
  pure true

/-- The column engine's part of MMA. -/
def colMma (u : Nat) (m : Member) (fa fb : Fmt) (_ _ : Reg) (row n1 : Byte) (kk : BitVec 14) : M Bool :=
  multiply u m fa fb none false none row.toNat n1.toNat kk.toNat

/-- The operand addresses of MMA and MMAS are 8-byte aligned, or it takes ALIGN at issue. -/
def operandsAligned (_ : Nat) (o : Opnds) : M Unit := do
  needAligned o.a 8
  needAligned o.b 8

/-- MMA (R355). -/
def execMma (fa fb : Fmt) (xa xb : Reg) (row n1 : Byte) (kk : BitVec 14) (s : State) :
    Host.Outcome State Fault Refusal :=
  pushOp (.mma fa fb xa xb row n1 kk) (opndAB xa xb) operandsAligned s

/-- The column engine's part of MMAS. -/
def colMmas (u : Nat) (m : Member) (fa fb : Fmt) (pat : Pattern) (za : Bool) (_ _ xc : Reg) (row n1 : Byte)
    (kk : BitVec 14) : M Bool :=
  multiply u m fa fb (some pat) za (if xc = 0 then none else some (m.opc.extractLsb' 0 32)) row.toNat n1.toNat
    kk.toNat

/-- MMAS (R356). -/
def execMmas (fa fb : Fmt) (pat : Pattern) (za : Bool) (xa xb xc : Reg) (row n1 : Byte) (kk : BitVec 14) (s : State) :
    Host.Outcome State Fault Refusal :=
  pushOp (.mmas fa fb pat za xa xb xc row n1 kk) (opndABC xa xb xc) operandsAligned s

/-! ### Tensor shape records (R357, R358) -/

/-- The reserved bits of a record. -/
def recordReserved : Nat :=
  0xff * 2 ^ 8 + 0x7f * 2 ^ 25 + 0xf * 2 ^ 44 + 0xff * 2 ^ 56 + (2 ^ 18 - 1) * 2 ^ 78 + (2 ^ 159 - 1) * 2 ^ 353

/-- The fields of a record `r` of `w` bits at bit `lo`. -/
def recField (r lo w : Nat) : Nat := r / 2 ^ lo % 2 ^ w

/-- The job that a record describes, if its fields are legal for a strand of `mgrant` rows; B is not yet known. -/
def recordJob (r mgrant : Nat) : Option MatJob :=
  match Fmt.ofCode (BitVec.ofNat 4 (recField r 32 4)), Fmt.ofCode (BitVec.ofNat 4 (recField r 36 4)) with
  | some fa, some fb =>
    let kk := recField r 64 14
    let sp := recField r 42 1 = 1
    let za := recField r 43 1 = 1
    let stride := recField r 160 32
    let a := recField r 192 64
    let scale := recField r 256 64
    if r &&& recordReserved != 0 || !matrixFmt fa || !matrixFmt fb || kk = 0 || (za && !sp)
        || mgrant < recField r 0 8 + recField r 16 9 || stride < runBytes kk fa || stride % 8 != 0 || a % 8 != 0
        || scale % 8 != 0 then none
    else some
      { row := recField r 0 8, m := recField r 16 9, n := recField r 48 8 + 1, kk := kk, fa := fa, fb := fb,
        sparse := if sp then some (Pattern.ofCode (BitVec.ofNat 2 (recField r 40 2))) else none, za := za,
        bound := if recField r 352 1 = 1 then some (BitVec.ofNat 32 (recField r 320 32)) else none, abase := a,
        astride := stride, bbase := 0, bhandle := some (BitVec.ofNat 32 (recField r 96 32)), bmodule := none,
        scale := if scale = 0 then none else some scale }
  | _, _ => none

/-- Read and check one record: its job, or its trap (R358). -/
def checkRecord (u : Nat) (m : Member) (va : Word) : M MatJob := do
  needWindow u va.toNat 64
  let ag : Agent := { m.agent u with unit := 3 }
  let a := spadAddr (clusterOf u) (va.toNat - 0x7e0000000000)
  match ← localBytes ag a 64 with
  | .data _ (some (addr, level)) => colMachineCheck u m addr level 0
  | .fault _ | .detached _ | .failed _ => stall
  | .data l none => do
    let t ← getStrand u
    let r := natOfBytes (l.map (·.1))
    match recordJob r t.mgrant with
    | none => trapWith 1 0 va
    | some j => do
      if j.m = 0 then pure () else do
        needWindow u j.abase ((j.m - 1) * j.astride + runBytes j.kk j.fa)
        needWindow u (j.abase + j.m * j.astride) (if j.za then j.m * bitmapBytes j.kk else 0)
      match j.scale with
      | none => pure ()
      | some p => needWindow u p ((j.m + j.n) * scaleCount j.kk)
      let off := recField r 128 32
      let e ← checkHandle ag .read (BitVec.ofNat 32 (recField r 96 32)) .rd off off (off + j.n * runBytes j.kk j.fb : Nat)
      let s ← getS
      pure { j with bbase := entryBase e + BitVec.ofNat 64 off, bmodule := s.entryModule e }

/-- The column engine's part of MMAG: the forked operation reads the records, so that they are read behind what the fork
comes after (R351, R358). -/
def colMmag (u : Nat) (m : Member) (_ _ : Reg) : M Bool := do
  if m.opb = 0 then pure true
  else if 1024 < m.opb.toNat then colIllegal m
  else do
    forkReady u m
    let jobs ← mapList (List.range m.opb.toNat) fun i => checkRecord u m (m.opa + BitVec.ofNat 64 (64 * i))
    forkMatrix u m jobs
    pure true

/-- MMAG (R358). -/
def execMmag (xa xb : Reg) (s : State) : Host.Outcome State Fault Refusal :=
  pushOp (.mmag xa xb) (opndAB xa xb) (fun _ o => needAligned o.a 64) s

/-! ### Passes (R351, R353) -/

/-- Change the first operation of a holder. -/
def Cluster.modOp (c : Cluster) (h : Holder) (f : MatOp → MatOp) : Cluster :=
  match c.matOps.findIdx? fun o => o.holder = h with
  | some i => { c with matOps := c.matOps.modify i f }
  | none => c

/-- The failure of a pass: the MATRIX-ERROR that the next joining instruction takes (R353). -/
def passFails {α : Type} (op : MatOp) (kind : Nat) : M α := throw (.trap ⟨10, 0, BitVec.ofNat 64 (kind + op.index * 2 ^ 16), none⟩)

/-- Where B ends. -/
def MatJob.bEnd (j : MatJob) : Nat := j.bbase.toNat + j.n * runBytes j.kk j.fb

/-- A fault of the serviced classes (R90). -/
def serviced (f : AFault) : Bool := f.cls = 1 || f.cls = 2 || f.cls = 7 || f.cls = 8

/-- Bytes of the missing range of an engine operation: to the end of the page or of the operation (R90). -/
def missingBytes (f : AFault) (va : Word) (fin : Nat) : Nat :=
  min (psizeBytes f.psize - va.toNat % psizeBytes f.psize) (fin - va.toNat)

/-- The pass at hand of a strand's operation is given up or has ended: it wants no more of the reads that it has asked
for, and no operation after it takes their values (R143). -/
def State.endPass (s : State) (c u : Nat) (h : Holder) : State :=
  let s := s.disown u fun
    | .matrix v => v = u
    | .helm _ | .fetch _ | .code _ _ | .store _ | .late _ _ | .column _ _ | .elem _ _ _ | .drayman _ _ | .hint _
    | .stream _ _ | .assayer _ | .cox | .fabric | .remote _ _ => false
  s.setCluster c ((s.cluster c).modOp h fun o => { o with places := [] })

/-- A read of a pass met a fault (R353). FQRESUME repeats the whole pass. -/
def passFault {α : Type} (ag : Agent) (op : MatOp) (fin : Nat) (va : Word) (f : AFault) : M α := do
  let s ← getS
  let o := accessOwner ag va
  if serviced f then do
    let room := s.fqTakes o
    modS fun s => s.queueFault ag o va (missingBytes f va fin) f .read false none
    if room then do
      modS fun s => s.endPass (clusterOf op.uid) op.uid op.holder
      modCluster (clusterOf op.uid) fun c => c.modOp op.holder fun o => { o with serviced := true }
      stall
    else passFails op 3
  else do
    modS fun s => s.logIfViolation ag .read va f
    passFails op 1

/-- The bytes of a read of a pass, or the end of the pass. -/
def passGot (ag : Agent) (op : MatOp) (fin : Nat) (va : Word) : EGot → M (List (Byte × Bool))
  | .data l none => pure l
  | .data l (some (addr, level)) => do
    let c ← getCluster (clusterOf op.uid)
    if c.matOps.any fun o => o.holder = op.holder && o.ident = op.ident && !o.consumed then do
      modS fun s => (s.consume ag addr level 0).1
      modCluster (clusterOf op.uid) fun c => c.modOp op.holder fun o => { o with consumed := true }
    else pure ()
    pure l
  | .fault f => passFault ag op fin va f
  | .detached f => do
    modS fun s => s.queueFault ag (accessOwner ag va) va (missingBytes f va fin) f .read false none
    passFails op 4
  | .failed _ => passFails op 5

/-- Where a piece of B lies. The 256-byte sector that holds it compares the handle and translates as the pass first
reaches it, and keeps its place until the pass ends (R41, R85, R358). -/
def sectorPlace (ag : Agent) (op : MatOp) (h : BitVec 32) (module : Option ModNum) (va : Word) :
    M (Except AFault Place) := do
  let c := clusterOf op.uid
  let k := va.toNat / 256
  let off := va.toNat % 256
  let ops ← getCluster c
  match (ops.matOps.find? fun o => o.holder = op.holder).bind fun o => o.places.find? fun e => e.1 = k with
  | some e => pure (.ok (e.2.shift off))
  | none => do
    let s ← getS
    if !s.handleLive op.owner h then passFails op 2
    else
      match ← engPlace ag .read module (va - BitVec.ofNat 64 off) 256 with
      | .error f => pure (.error f)
      | .ok p => do
        modCluster c fun q => q.modOp op.holder fun o => { o with places := o.places ++ [(k, p)] }
        pure (.ok (p.shift off))

/-- Read bytes of an operand: of B through its handle and module, or of the scratchpad. -/
def passRead (ag : Agent) (op : MatOp) (b : Option (BitVec 32 × Option ModNum)) (fin : Nat) (va : Word) (n : Nat) :
    M (List (Byte × Bool)) := do
  let l ← mapList (unitPieces 64 va n) fun p => do
    let place ← (match b with
      | some (h, module) => sectorPlace ag op h module p.1
      | none => engPlace ag .read none p.1 p.2)
    let g ← (match place with
      | .error f => pure (engFault f)
      | .ok q => engRead ag (.matrix op.uid) .read p.2 q)
    passGot ag op fin p.1 g
  pure l.flatten

/-- The tile's elements of a run at `va`, with its block scales. -/
def passRun (ag : Agent) (op : MatOp) (b : Option (BitVec 32 × Option ModNum)) (fin : Nat) (f : Fmt) (k k0 kt : Nat) (va : Nat)
    (scale : Option Nat) : M (List MVal) := do
  let (first, n) := runSpan f k k0 kt
  let w := Fmt.bits f
  let lo := first * w / 8
  let l ← passRead ag op b fin (BitVec.ofNat 64 (va + lo)) (((if first = 0 then n else first + n) * w + 7) / 8 - lo)
  let es := runElems f k first k0 kt l
  match scale with
  | none => pure es
  | some p => do
    let sc ← passRead ag op none 0 (BitVec.ofNat 64 (p + k0 / 32)) ((kt + 31) / 32)
    pure (es.zipIdx.map fun e =>
      let (s, bad) := sc.getD (e.2 / 32) (0, false)
      if bad then .poisoned else e.1.scaled s.toNat)

/-- A row of A with its zero bitmap: elements, and whether each counts as zero (R341, R350). -/
def passRow (ag : Agent) (op : MatOp) (j : MatJob) (k0 kt q : Nat) : M (List MVal × List Bool) := do
  let es ← passRun ag op none 0 j.fa j.kk k0 kt (j.abase + q * j.astride)
    (j.scale.map fun p => p + q * scaleCount j.kk)
  if j.za then do
    let z ← passRead ag op none 0
      (BitVec.ofNat 64 (j.abase + j.m * j.astride + q * bitmapBytes j.kk + k0 / 8)) ((kt + 7) / 8)
    let bad (i : Nat) : Bool := (z.getD (i / 8) (0, false)).2
    let bit (i : Nat) : Bool := !bad i && (z.getD (i / 8) (0, false)).1.getLsbD (i % 8)
    pure (es.zipIdx.map fun e => if bad e.2 then .poisoned else e.1, (List.range kt).map bit)
  else pure (es, List.replicate kt false)

/-- The operands of a pass, each read once (R343). -/
def passData (ag : Agent) (op : MatOp) (j : MatJob) : M TileData := do
  let k0 := 64 * op.tile
  let kt := min 64 (j.kk - k0)
  let rows ← mapList (List.range j.m) (passRow ag op j k0 kt)
  let cols ← mapList (List.range j.n) fun c =>
    passRun ag op (j.bhandle.map fun h => (h, j.bmodule)) j.bEnd j.fb j.kk k0 kt (j.bbase.toNat + c * runBytes j.kk j.fb)
      (j.scale.map fun p => p + (j.m + c) * scaleCount j.kk)
  pure { a := rows.map (·.1), zero := rows.map (·.2), b := cols, kt := kt }

/-- The accumulator store after `f` has been applied to the elements that a job names. -/
def Cluster.updateAcc (c : Cluster) (h : Holder) (j : MatJob) (f : Nat → Nat → Nat → Nat) : Cluster :=
  let upd (t : Tab (BitVec 32)) (q col : Nat) : Tab (BitVec 32) :=
    let i := c.accIndex h (j.row + q) col
    Tab.set t i (BitVec.ofNat 32 (f q col (Tab.get 0 t i).toNat))
  { c with acc := (List.range j.m).foldl (fun t q => (List.range j.n).foldl (fun t col => upd t q col) t) c.acc }

/-- A counter raised by `n`, saturating (R344). -/
def satAdd (w : Word) (n : Nat) : Word := BitVec.ofNat 64 (min (w.toNat + n) (2 ^ 64 - 1))

/-- A Miller pass counts when it completes (R344, R345). -/
def Cluster.countPass (c : Cluster) (p : PassStat) : Cluster :=
  { c with
    mlstat := BitVec.ofNat 64 (record [(p.terms, 0), (p.dense.toNat, 3), (p.dropped.toNat, 4), (p.resid, 8), (p.beyond, 17)])
    mlpass := satAdd c.mlpass 1
    mldense := satAdd c.mldense p.dense.toNat
    mldrop := satAdd c.mldrop p.dropped.toNat
    mlresent := satAdd c.mlresent p.applied
    mlovb := satAdd c.mlovb p.beyond }

/-- The operation after a pass: its next tile, the next record that has rows, or none (R351). -/
def MatOp.advance (op : MatOp) (now : Nat) : Option MatOp :=
  match op.jobs with
  | [] => none
  | j :: rest =>
    if 64 * (op.tile + 1) < j.kk then some { op with tile := op.tile + 1, since := now }
    else
      match skipEmpty rest (op.index + 1) with
      | ([], _) => none
      | (l, i) => some { op with jobs := l, index := i, tile := 0, since := now }

/-- The cluster after a pass of a holder's first operation. The strand waits for its next pass, of this operation or of
the one after it, from now on (R351). -/
def Cluster.passDone (c : Cluster) (h : Holder) (now : Nat) : Cluster :=
  match c.matOps.findIdx? fun o => o.holder = h with
  | none => c
  | some i =>
    match (c.matOps[i]?).bind (·.advance now) with
    | some o => { c with matOps := c.matOps.set i o }
    | none => { c with matOps := c.matOps.eraseIdx i }.modOp h fun o => { o with since := now }

/-- One pass, whole: operands, plan, sums, counters (R343, R351). -/
def passM (op : MatOp) : M Unit := do
  match op.jobs with
  | [] => pure ()
  | j :: _ => do
    let s ← getS
    let ag : Agent := ⟨op.uid, op.mode, op.owner, 3, j.bhandle.getD 0, op.ident⟩
    let t ← passData ag op j
    modCluster (clusterOf op.uid) fun c =>
      match j.sparse with
      | none => c.updateAcc op.holder j (densePass t)
      | some p =>
        let plan := planOf p j.fa j.fb t
        let drop := match plan with
          | some (_, res) => dropsResidual j.bound (residualValues t res)
          | none => false
        (c.updateAcc op.holder j (plannedPass p plan drop t)).countPass (passStat j.za plan drop t)
    modS fun s => (s.endPass (clusterOf op.uid) op.uid op.holder)
    modCluster (clusterOf op.uid) fun c => c.passDone op.holder s.steps

/-- A holder's operations fail: they are discarded, and the failure is pending (R353). -/
def Cluster.fail (c : Cluster) (h : Holder) (tval : Word) : Cluster :=
  { c with matOps := c.matOps.filter fun o => o.holder != h, matFail := c.matFail ++ [(h.1, h.2.1, h.2.2, tval)] }

/-- The operations of a holder on a cluster fail. -/
def State.failMatrix (s : State) (c : Nat) (h : Holder) (tval : Word) : State :=
  s.setCluster c ((s.cluster c).fail h tval)

/-- The strand of a cluster that a holder is now. -/
def State.holderUid (s : State) (c : Nat) (h : Holder) : Option Nat :=
  (clusterStrands c).find? fun u => (s.strand u).resident && (s.strand u).holder = h

/-- The first operation of each holder, in the order of the list. -/
def firstOps : List MatOp → List Holder → List MatOp
  | [], _ => []
  | o :: t, seen => if seen.contains o.holder then firstOps t seen else o :: firstOps t (o.holder :: seen)

/-- Put an operation in its place among waiting ones: the longest wait first, then the lower strand index (R351). -/
def insertOp (o : MatOp) : List MatOp → List MatOp
  | [] => [o]
  | p :: t => if o.since < p.since || (o.since = p.since && o.uid < p.uid) then o :: p :: t else p :: insertOp o t

/-- The strand has taken PREEMPT, and its handler has not returned (R441). -/
def Strand.inPreempt (t : Strand) : Bool :=
  match t.preempted with
  | some m => t.mode != m || !t.held.isEmpty
  | none => false

/-- Operations that may run a pass, in the order in which the array takes them: a strand's operations one after another,
none of a strand that is pre-empted (R351). -/
def State.readyOps (s : State) (c : Nat) : List MatOp :=
  let l := (firstOps (s.cluster c).matOps []).filterMap fun o =>
    if o.serviced then none
    else ((s.holderUid c o.holder).filter fun u => !(s.strand u).inPreempt).map fun u => { o with uid := u }
  l.foldr insertOp []

/-- The first operation that can runs a pass; one whose operands are not there waits. -/
def runFirstPass (c : Nat) : List MatOp → State → State
  | [], s => s
  | op :: rest, s =>
    match passM op s with
    | .ok _ s => s
    | .error .wait s => runFirstPass c rest s
    | .error (.trap t) s => (s.endPass c op.uid op.holder).failMatrix c op.holder t.tval

/-- The array of a cluster runs one pass. -/
def State.matrixPass (s : State) (c : Nat) : State := runFirstPass c (s.readyOps c) s

/-- Matrix operations in the serviced state under an identity, by cluster. -/
def State.servicedOp (s : State) (ident : Word) : Option (Nat × MatOp) :=
  s.clusters.findSome? fun e => (e.2.matOps.find? fun o => o.serviced && o.ident = ident).map fun o => (e.1, o)

/-! ### MEXT (R359) -/

/-- What MEXT takes from an accumulator element: the code, its flags, and the residual that follows. -/
def extracted (b e : Bool) (a carry : Nat) : Nat × Flags × Nat :=
  if !b then (a, 0, carry)
  else if FFmt.f32.isPoison a then (FFmt.bf16.poison, 0, carry)
  else if e then efStep .bf16 (FFmt.f32.decode a) carry
  else
    let (q, fl) := FFmt.f32.convert .bf16 0 a
    (q, fl, carry)

/-- MEXT's results for the active elements from `start` to VL, in element order, each with the residual after it. -/
def extractAll (b e : Bool) (acc : Nat → Nat) (active : Nat → Bool) (start vl carry : Nat) : List (VRes × Nat) :=
  ((List.range vl).foldl (fun (r : List (VRes × Nat) × Nat) i =>
    if decide (start ≤ i) && active i then
      let (q, fl, c) := extracted b e (acc i) r.2
      (r.1 ++ [(⟨q, fl &&& (Flags.of ||| Flags.uf ||| Flags.nx), FFmt.f32.isPoison (acc i)⟩, c)], c)
    else (r.1 ++ [(.plain 0, r.2)], r.2)) ([], carry)).1

/-- Bits 64w to 64w + 63 of the zero bitmap of `vl` elements. -/
def zeroWord (ty : ElemTy) (val : Nat → Nat) (vl : Nat) (active : Nat → Bool) (w : Nat) : Nat :=
  (List.range 64).foldl (fun n i =>
    let e := 64 * w + i
    if decide (e < vl) && active e && val e % 2 ^ (ElemTy.bits ty - 1) = 0 then n + 2 ^ i else n) 0

/-- MEXT's bitmap words can be stored, and their queues have room (R75); a fault takes a precise access trap before any
effect. -/
def bitmapReady (x : Run) (words : Nat) : M Unit := do
  forList (List.range words) fun w => do
    let va := x.m.opa + BitVec.ofNat 64 (8 * w)
    match ← elemFault x.u x.m .write va 8 with
    | some f => colAccessTrap x.u x.m .write va f
    | none => do
      let r ← storeReady x.u x.m .write va 8
      waitUnless r
  let room ← storeFit x .write 8 (fun i => x.m.opa + BitVec.ofNat 64 (i / 8)) ((List.range words).map (64 * ·))
  waitUnless (room = words)

/-- Store MEXT's bitmap, each 8-byte word at once. -/
def bitmapStore (x : Run) (words : Nat) (word : Nat → Nat) : M Unit :=
  forList (List.range words) fun w => do
    let va := x.m.opa + BitVec.ofNat 64 (8 * w)
    match ← storeElem x.u x.m .write .default (x.laneGroup (64 * w)) 0 (64 * w) va
        (.store (writeAll (bytesOfNat 8 (word w)))) with
    | .detached f => detachedElem x.u x.m .write va 8 (64 * w) f
    | .bytes _ | .fault _ | .poisoned _ _ | .failed _ => pure ()

/-- The column engine's part of MEXT. Appended elements commit one by one, each with the residual after it (R217, R332). -/
def colMext (u : Nat) (m : Member) (k : VCtl) (b e mz : Bool) (vd _ : Reg) (row col : Byte) : M Bool :=
  unlessDone u m (some vd) (do
    joinM u m
    let ty ← typeM u m
    let t ← getStrand u
    if (ty == if b then ElemTy.bf16 else .f32) && decide (row.toNat < t.mgrant) && decide (col.toNat + t.vl ≤ 256) then pure ()
    else colIllegal m
    let x ← prepare u m [] (some vd)
    let t ← getStrand u
    let c ← getCluster (clusterOf u)
    let acc (i : Nat) : Nat := (Tab.get 0 c.acc (c.accIndex t.holder row.toNat (col.toNat + i))).toNat
    let lo := t.half false
    let hi := if x.prot then t.half true else lo
    let carry := (t.ecarry.extractLsb' 0 32).toNat
    let res := extractAll b e acc (x.active lo k.g k.n) x.start x.vl carry
    let resHi := extractAll b e acc (x.active hi k.g k.n) x.start x.vl carry
    let words := if mz then (x.vl + 63) / 64 else 0
    bitmapReady x words
    let put (h : Half) (r : List (VRes × Nat)) (i : Nat) : Option VRes :=
      policy k.z (x.active h k.g k.n i) (r.getD i (.plain 0, 0)).1
    let keepCarry (c : Nat) : M Unit :=
      if b && e then modStrand u fun t => { t with ecarry := BitVec.ofNat 64 c } else pure ()
    appendThen x vd (x.all.drop x.start) (x.active lo k.g k.n) (put lo res) (put hi resHi) fun i => do
      commitVec x vd [i] (put lo res) (put hi resHi)
      keepCarry (res.getD i (.plain 0, carry)).2
    let val (i : Nat) : Nat := if i < x.start then lo.elem x.w vd i else (res.getD i (.plain 0, 0)).1.val
    bitmapStore x words (zeroWord ty val x.vl (x.active lo k.g k.n))
    commitVec x vd (x.all.drop x.start) (put lo res) (put hi resHi)
    keepCarry ((res.getLast?.map (·.2)).getD carry)
    pure true)

/-- MEXT with a zero bitmap takes ALIGN at issue where its address is misaligned. -/
def bitmapAligned (mz : Bool) (_ : Nat) (o : Opnds) : M Unit := if mz then needAligned o.a 8 else pure ()

/-- MEXT (R359). -/
def execMext (k : VCtl) (b e m : Bool) (vd xa : Reg) (row col : Byte) (s : State) : Host.Outcome State Fault Refusal :=
  pushOp (.mext k b e m vd xa row col) (if m then opndA xa else noOpnds) (bitmapAligned m) s

end Sys2Proof.Machine
end

