-- ==== Sys2Proof/Machine/Drayman.lean ====
section
/-!
DEFINITION. The Drayman, the copy engine of a cluster (R362 to R387): operations sector by sector, their faults and
completion, prefetch hints, strip-configured fetch, and the instructions DCFG, DCOPY, DCOPY.2d, DRED, DPREF, DSTAT and
DCANCEL.
-/

namespace Sys2Proof.Machine

/-! ### Operations of a strand -/

/-- The context where a strand runs, if it is resident. -/
def State.whereIs (s : State) (h : Holder) : Option Nat :=
  (s.strands.find? fun e => e.2.resident && e.2.holder = h).map (·.1)

/-- A stopped strand of a gang. -/
def GangStrand.isHolder (g : Gang) (h : Holder) (m : GangStrand) : Bool := (g.serial, m.crew, m.pos) = h

/-- Change the kept state of a strand, resident or stopped (R370, R438). -/
def State.modKept (s : State) (h : Holder) (f : Kept → Kept) : State :=
  match s.whereIs h with
  | some u => s.setStrand u { s.strand u with kept := f (s.strand u).kept }
  | none =>
    let upd (g : Gang) : Gang :=
      { g with strands := g.strands.map fun m => if m.isHolder g h then { m with kept := f m.kept } else m }
    { s with cox := { s.cox with gangs := s.cox.gangs.map upd } }

/-- The operations of a strand that are in flight, those in the serviced state included (R363), by cluster. -/
def State.opsOf (s : State) (h : Holder) : List (Nat × DOp) :=
  s.clusters.flatMap fun e => (e.2.ops.filter fun o => o.holder = h).map fun o => (e.1, o)

/-- Change an operation of a cluster. -/
def modDOp (c : Nat) (ident : Word) (f : DOp → DOp) : M Unit :=
  modCluster c fun k => { k with ops := k.ops.map fun o => if o.ident = ident then f o else o }

/-- The requester of an operation's accesses. -/
def DOp.who (c : Nat) (o : DOp) : Who := .drayman c o.ident

/-- The agent of an operation's accesses (R28, R46). -/
def DOp.agent (o : DOp) : Agent := ⟨o.uid, o.mode, o.owner, 2, o.handle, o.ident⟩

/-- The identity of the next operation of a strand (R362). -/
def nextIdent (u seq : Nat) : Word := BitVec.ofNat 64 (seq + u * 2 ^ 32)

/-- The sequence number after one. -/
def seqAfter (n : Nat) : Nat := if n = 2 ^ 32 - 1 then 1 else n + 1

/-! ### Rows and sectors (R366, R373) -/

/-- Bytes that an operation asks for. -/
def DOp.bytes (o : DOp) : Nat := o.rows * o.rbytes

/-- The operation is an ordered DRED. -/
def DOp.ordered (o : DOp) : Bool :=
  match o.kind with
  | .reduce _ b => b
  | .copy | .strip => false

/-- The handle side of row `r`. -/
def DOp.bufAt (o : DOp) (r : Nat) : Word := o.buf + BitVec.ofInt 64 (r * o.hstride)

/-- The local side of row `r`. -/
def DOp.locAt (o : DOp) (r : Nat) : Word := o.loc + BitVec.ofInt 64 (r * o.lstride)

/-- The source side of row `r`. -/
def DOp.srcAt (o : DOp) (r : Nat) : Word := if o.put then o.locAt r else o.bufAt r
/-- The destination side of row `r`. -/
def DOp.dstAt (o : DOp) (r : Nat) : Word := if o.put then o.bufAt r else o.locAt r

/-- The first source byte of the next sector. -/
def DOp.srcVa (o : DOp) : Word := o.srcAt o.row + BitVec.ofNat 64 o.off
/-- The first destination byte. -/
def DOp.dstVa (o : DOp) : Word := if o.ordered then o.buf else o.dstAt o.row + BitVec.ofNat 64 o.off

/-- The destination ranges from the next sector on: rows, or the one element of an ordered DRED (R377). -/
def DOp.destLeft (o : DOp) : List (Word × Nat) :=
  match o.kind with
  | .reduce op true => [(o.buf, op.bytes)]
  | .reduce _ false | .copy | .strip =>
    ((List.range o.rows).drop o.row).map fun r =>
      let off := if r = o.row then o.off else 0
      (o.dstAt r + BitVec.ofNat 64 off, o.rbytes - off)

/-- The length of the next sector: to the next 256-byte-aligned address of the destination, or, for an ordered DRED, of
the source (R41, R377). -/
def DOp.sectorLen (o : DOp) : Nat :=
  let a := if o.ordered then o.srcVa else o.dstVa
  min (o.rbytes - o.off) (256 - a.toNat % 256)

/-- No sector is left. -/
def DOp.exhausted (o : DOp) : Bool := o.rows ≤ o.row || o.rbytes = 0

/-- The operation past `n` more bytes of its row. -/
def DOp.advance (o : DOp) (n : Nat) : DOp :=
  let o := { o with sector := o.sector + 1, moving := none, held := false }
  if o.rbytes ≤ o.off + n then { o with row := o.row + 1, off := 0 } else { o with off := o.off + n }

/-- The end of the last row on a side: the end of the operation, for missing ranges (R90). -/
def sideEnd (base : Word) (stride : Int) (rows rbytes : Nat) : Nat :=
  ((base.toNat : Int) + max 0 ((rows - 1 : Nat) * stride)).toNat + rbytes

/-- The local address that a window address of strand `u` names (R21). -/
def windowAddr (u : Nat) (va : Word) : Option Nat :=
  match regionOf va with
  | .spad o => some (spadAddr (clusterOf u) o)
  | .tcm o => some (tcmAddr u o)
  | .user | .hole | .nonCanonical | .kernelHalf => none

/-- The local lines of the `n` bytes at `va` that lie in a window. -/
def windowLines (u : Nat) (va : Word) (n : Nat) : List Nat :=
  (unitPieces 128 va n).filterMap fun p => (windowAddr u p.1).map (· / 128)

/-- The destination lies on this module. -/
def DOp.destHere (o : DOp) : Bool := !o.put || o.module.isNone

/-- The local destination lines of the operation's remaining sectors (R54), on the local side, or where a handle's BASE
names a window. -/
def DOp.linesLeft (o : DOp) : List Nat :=
  if o.void || !o.destHere then [] else o.destLeft.flatMap fun e => windowLines o.uid e.1 e.2

/-- Lines become full. -/
def State.fill (s : State) (l : List Nat) : State := { s with empties := s.empties.filter fun n => !l.contains n }

/-- Lines become empty. -/
def State.drainLines (s : State) (l : List Nat) : State := { s with empties := l.foldl keyInsert s.empties }

/-- An address lies in one of a list of ranges. -/
def inRanges (l : List (Word × Nat)) (va : Word) : Bool :=
  l.any fun e => decide (e.1.toNat ≤ va.toNat ∧ va.toNat < e.1.toNat + e.2)

/-- A destination address lies in the operation's source range: both sides are on this module. -/
def DOp.inSource (o : DOp) (va : Word) : Bool :=
  o.module.isNone && inRanges ((List.range o.rows).map fun r => (o.srcAt r, o.rbytes)) va

/-- An address of this module lies in the operation's destination range. -/
def DOp.inDest (o : DOp) (va : Word) : Bool :=
  o.destHere && inRanges { o with row := 0, off := 0 }.destLeft va

/-! ### Places of an operation -/

/-- The places of several pieces, or the first fault with its address. -/
def piecePlaces (o : DOp) (module : Option ModNum) (acc : Acc) :
    List (Word × Nat) → M (Except (Word × AFault) (List (Place × Nat)))
  | [] => pure (.ok [])
  | (va, n) :: t => do
    match ← engPlace o.agent acc module va n with
    | .error f => pure (.error (va, f))
    | .ok p =>
      match ← piecePlaces o module acc t with
      | .error e => pure (.error e)
      | .ok l => pure (.ok ((p, n) :: l))

/-- A read of an operation at a place: it waits for full lines of others (R55), and takes its own destination's lines as
they stand. -/
def readPlace (c : Nat) (o : DOp) (n : Nat) : Place → M EGot
  | .local a => do
    let s ← getS
    waitUnless ((unitsOf 128 a n).all fun l => !s.empties.contains l || o.linesLeft.contains l)
    pure (s.localGet o.agent a n)
  | .control x => engRead o.agent (o.who c) .copySource n (.control x)
  | .target t => engRead o.agent (o.who c) .copySource n (.target t)

/-- The whole source of a sector from `va` on, or the address of the first piece that could not be read, and why. -/
def readPieces (c : Nat) (o : DOp) (va : Word) : List (Place × Nat) → M (Word × EGot)
  | [] => pure (va, .data [] none)
  | (p, n) :: t => do
    match ← readPlace c o n p with
    | .data l _ =>
      match ← readPieces c o (va + BitVec.ofNat 64 n) t with
      | (_, .data l' _) => pure (va, .data (l ++ l') none)
      | r => pure r
    | g => pure (va, g)

/-- The operation's strips go to another module, which may hold a fold entry for it from then on (R378). -/
def DOp.sendsTo (o : DOp) (t : Target) : DOp :=
  if o.stripsAt.any (·.module = t.module) then o else { o with stripsAt := o.stripsAt ++ [t] }

/-- Ask once for a remote strip, under its identity, index and count (R378). -/
def keepStrip (who : Who) (ident : Word) (t : Target) (op : RemoteOp) (strip : Word × Nat × Nat) : M Answer := fun s =>
  match s.arrived.find? fun a => a.matches who t op with
  | some a => .ok a.answer s
  | none =>
    match t.module with
    | some m =>
      if s.asked who t op then .error .wait s
      else match s.sendRemote who m t op .reduce ident (some strip) [] with
        | (some a, s) => .ok a (s.keepAnswer who t op a)
        | (none, s) => .error .wait s
    | none =>
      match s.access who .reduce ident t op with
      | (some a, s) => .ok a (s.keepAnswer who t op a)
      | (none, s) => .error .wait s

/-- Perform operations at a place, each at its offset: the first answer that is no completion, or the last. -/
def writePlace (c : Nat) (o : DOp) (acc : Acc) (p : Place) : List (Nat × RemoteOp) → M Answer
  | [] => pure .acked
  | (off, op) :: t => do
    let a ← (match p with
      | .control _ => pure .violation
      | .local a => fun s =>
        let (ans, s) := s.localOp o.mode o.owner (a + off) op
        .ok ans s
      | .target g =>
        keepM (o.who c) acc o.ident { g with pa := g.pa + off, va := g.va + BitVec.ofNat 64 off } op)
    match a with
    | .acked | .bytes _ | .claimed _ _ => writePlace c o acc p t
    | .violation | .unimplemented | .outside | .hostDetached | .poisoned | .remoteFault | .failed _ => pure a

/-- How long the pieces are that a place takes at once: a request to another module or to the host carries a sector,
module SRAM and windows take any, and a pool cache takes 64 bytes, which it never turns away. A sector that something can
keep from landing so goes as one (R366). -/
def placeUnit : Place → Nat
  | .target t => if t.module.isNone && kindOf t.pa = 1 then 64 else 256
  | .local _ | .control _ => 256

/-- Bytes and their marks as one write. -/
def copiedOp (l : List (Byte × Bool)) : RemoteOp :=
  .copied (l.map fun e => if e.2 then none else some e.1)
    ((List.range l.length).filter fun i => (l[i]?.map (·.2)) = some true)

/-- An element that carries a mark, as a write of the mark. -/
def markElem (op : FoldOp) : RemoteOp := .copied (List.replicate op.bytes none) (List.range op.bytes)

/-- A copied sector as operations on its destination at `va`: the marks move with the bytes (R449). -/
def copyWrites (unit : Nat) (va : Word) (l : List (Byte × Bool)) : List (Nat × RemoteOp) :=
  (unitPieces unit va l.length).map fun p =>
    let off := p.1.toNat - va.toNat
    (off, copiedOp ((l.drop off).take p.2))

/-- The elements of a source sector: none for one that carries a mark. -/
def sectorElems (esz : Nat) (l : List (Byte × Bool)) : List (Option Word) :=
  (List.range (l.length / esz)).map fun i =>
    let b := (l.drop (esz * i)).take esz
    if b.any (·.2) then none else some (BitVec.ofNat 64 (natOfBytes (b.map (·.1))))

/-- Folds of a sector on this module, element by element, each at its atomic unit (R376). -/
def foldWritesOf (op : FoldOp) (l : List (Option Word)) : List (Nat × RemoteOp) :=
  l.zipIdx.map fun e => (op.bytes * e.2, match e.1 with
    | some v => .fold op v
    | none => markElem op)

/-- The destination bytes of a sector of `n` bytes that lie in the operation's source too. -/
def DOp.overlapped (o : DOp) (n : Nat) : List Nat :=
  (List.range n).filter fun i => o.inSource (o.dstVa + BitVec.ofNat 64 i)

/-- A strip on this module as operations on a place. The host port takes it as one (R366). An element whose destination
lies in the source is undefined: it takes the free bytes that stand in its place (R365). -/
def DOp.stripWrites (o : DOp) (op : FoldOp) (p : Place) (l : List (Byte × Bool)) : List (Nat × RemoteOp) :=
  let folds := foldWritesOf op (sectorElems op.bytes l)
  match o.overlapped l.length with
  | [] =>
    match p with
    | .target t => if kindOf t.pa = 2 then [(0, .folds op (sectorElems op.bytes l))] else folds
    | .local _ | .control _ => folds
  | free =>
    folds.map fun e =>
      if free.contains e.1 then (e.1, .store (writeAll (((l.drop e.1).take op.bytes).map (·.1)))) else e

/-- The unit of a place: its physical address, 0 for a local one, and its level (R455). -/
def State.placeUnitOf (s : State) (p : Place) (off : Nat) : Nat × Nat :=
  match p with
  | .target t => (t.pa + off, s.levelOf t)
  | .local a => (0, localLevel (a + off))
  | .control _ => (0, 2)

/-- The number of the element at offset `off` of the sector at hand: of a strip's in its row, of an ordered DRED 0. -/
def DOp.elemAt (o : DOp) (off : Nat) : Nat :=
  match o.kind with
  | .reduce op false => (o.off + off) / op.bytes
  | .reduce _ true | .copy | .strip => 0

/-- A fold of an operation meets a mark: the error is consumed, with one record for the operation (R450, log 44). -/
def foldConsumed (c : Nat) (o : DOp) (p : Place) (off : Nat) : M Unit := do
  let s ← getS
  if (s.cluster c).ops.any fun q => q.ident = o.ident && q.consumed then pure ()
  else do
    let (addr, level) := s.placeUnitOf p off
    modS fun s => (s.consume o.agent addr level (o.elemAt off)).1
    modDOp c o.ident fun q => { q with consumed := true }

/-- Perform folds: an element whose unit is marked is not applied, and the error is consumed (R450). -/
def foldPlace (c : Nat) (o : DOp) (p : Place) : List (Nat × RemoteOp) → M Answer
  | [] => pure .acked
  | e :: t => do
    match ← writePlace c o .reduce p [e] with
    | .poisoned => do
      foldConsumed c o p e.1
      foldPlace c o p t
    | .acked | .bytes _ | .claimed _ _ => foldPlace c o p t
    | a => pure a

/-! ### How an operation stops -/

/-- A final status (R368): what has landed stays, and the completion is written next. -/
def endWith (c : Nat) (o : DOp) (status : Nat) (stripFailed : Bool) : M Unit :=
  modDOp c o.ident fun o =>
    { o with
      state := .ending status
      moving := none
      fstrip := if stripFailed && o.put && o.kind != .copy && (!o.ordered || o.exhausted) then
          some (if o.ordered then 0 else o.sector) else o.fstrip }

/-- A fault-queue record of an operation, which its completion record counts where the queue takes it (R94, R367). The
destination side has code 5 in it, for a DRED too (R374). -/
def queueOpFault (c : Nat) (o : DOp) (acc : Acc) (va : Word) (n : Nat) (f : AFault) : M Unit := do
  let s ← getS
  let own := accessOwner o.agent va
  let room := s.fqTakes own
  modS fun s => s.queueFault o.agent own va n f (if acc = .reduce then .copyDest else acc) false none
  modDOp c o.ident fun o => { o with faults := if room && o.faults < 65535 then o.faults + 1 else o.faults }

/-- A sector, or the final update, met a fault on a side (R45, R90, R98, R374). One whose cancellation is pending ends
there, at the boundary before that sector (R386). -/
def sectorFault (c : Nat) (o : DOp) (acc : Acc) (fin : Nat) (va : Word) (f : AFault) : M Unit := do
  modS (·.forget (o.who c))
  let s ← getS
  let room := s.fqTakes (accessOwner o.agent va)
  if serviced f then do
    if o.cancel then endWith c o 11 true
    else do
      queueOpFault c o acc va (missingBytes f va fin) f
      if room then modDOp c o.ident fun o => { o with state := .faulted none, moving := none, held := true }
      else endWith c o 3 true
  else if f.cls = 6 then do
    queueOpFault c o acc va (missingBytes f va fin) f
    endWith c o 6 true
  else do
    modS fun s => s.logIfViolation o.agent acc va f
    endWith c o 5 true

/-- The level of the leaf that a place was reached through (R94): 7 where there was none. -/
def Place.level : Place → Nat
  | .target t => t.level
  | .local _ | .control _ => 7

/-- An access of an operation ended in a fabric failure (R111). -/
def fabricFailed (c : Nat) (o : DOp) (k : BitVec 4) : M Unit := do
  modS (·.forget (o.who c))
  endWith c o (6 + k.toNat) true

/-- A write at a place did not complete. -/
def writeFailed (c : Nat) (o : DOp) (acc : Acc) (fin : Nat) (va : Word) (p : Place) (a : Answer) : M Unit :=
  match engAnswer 0 0 0 p.level a with
  | .fault f | .detached f => sectorFault c o acc fin va f
  | .failed k => fabricFailed c o k
  | .data _ _ => pure ()

/-- The access code of an operation's destination. -/
def DOp.destAcc (o : DOp) : Acc :=
  match o.kind with
  | .copy | .strip => .copyDest
  | .reduce _ _ => .reduce

/-- The ends of the source and of the destination. -/
def DOp.srcEnd (o : DOp) : Nat :=
  if o.put then sideEnd o.loc o.lstride o.rows o.rbytes else sideEnd o.buf o.hstride o.rows o.rbytes
/-- The end of the destination. -/
def DOp.dstEnd (o : DOp) : Nat :=
  if o.put then sideEnd o.buf o.hstride o.rows o.rbytes else sideEnd o.loc o.lstride o.rows o.rbytes

/-! ### One sector -/

/-- A sector has landed (R41, R54, R374): its lines become full where no later sector writes into them. -/
def sectorLanded (c : Nat) (o : DOp) (n : Nat) : M Unit := do
  let o' := o.advance n
  modDOp c o.ident fun q =>
    { o' with landed := if o.ordered then o.landed else o.landed + n, consumed := q.consumed, stripsAt := q.stripsAt }
  let mine := if o.destHere && !o.ordered then windowLines o.uid o.dstVa n else []
  modS fun s => (s.fill (mine.filter fun l => !o'.linesLeft.contains l)).forget (o.who c)

/-- Bytes of a sector, undefined where its destination lies in the operation's source (R365). -/
def undefinedOverlap (o : DOp) (l : List (Byte × Bool)) : M (List (Byte × Bool)) :=
  mapList l.zipIdx fun e =>
    if o.inSource (o.dstVa + BitVec.ofNat 64 e.2) then do
      let w ← drawWord
      pure (w.extractLsb' 0 8, e.1.2)
    else pure e.1

/-- The partial sum after the elements of a source strip (R377). -/
def foldInto (op : FoldOp) (p : Option Word) (l : List (Option Word)) : Option Word :=
  l.foldl (fun p e =>
    let v := e.getD 0
    match p with
    | none => some v
    | some q => some (BitVec.ofNat 64 (op.apply (q.toNat % 2 ^ (8 * op.bytes)) (v.toNat % 2 ^ (8 * op.bytes))))) p

/-- Strips of an unordered DRED: its destination sectors. -/
def DOp.stripCount (o : DOp) : Nat :=
  if o.ordered then 1 else (unitsOf 256 o.buf.toNat o.rbytes).length

/-- Write a sector whose source bytes are at hand. -/
def writeSector (c : Nat) (o : DOp) (dst : Place) (l : List (Byte × Bool)) : M Unit := do
  match o.kind with
  | .copy | .strip => do
    match ← writePlace c o .copyDest dst (copyWrites (placeUnit dst) o.dstVa l) with
    | .acked | .bytes _ | .claimed _ _ | .poisoned => sectorLanded c o l.length
    | a => writeFailed c o .copyDest o.dstEnd o.dstVa dst a
  | .reduce op true => do
    let es := sectorElems op.bytes l
    modDOp c o.ident fun q =>
      { q with partialSum := foldInto op q.partialSum es, partialBad := q.partialBad || es.contains none }
    let s ← getS
    match (s.cluster c).ops.find? fun q => q.ident = o.ident with
    | some q => sectorLanded c q l.length
    | none => pure ()
  | .reduce op false => do
    let a ← (match dst with
      | .target t =>
        if t.module.isSome then do
          modDOp c o.ident (·.sendsTo t)
          keepStrip (o.who c) o.ident t (.folds op (sectorElems op.bytes l)) (o.ident, o.sector, o.stripCount)
        else foldPlace c o dst (o.stripWrites op dst l)
      | .local _ | .control _ => foldPlace c o dst (o.stripWrites op dst l))
    match a with
    | .acked | .bytes _ | .claimed _ _ | .poisoned => sectorLanded c o l.length
    | a => writeFailed c o .reduce o.dstEnd o.dstVa dst a

/-- Move a sector that has started: its source is read once, and then written, whole (R366, R376). -/
def moveSector (c : Nat) (o : DOp) (mv : SectorMove) : M Unit := do
  match mv.data with
  | some l => writeSector c o mv.dst l
  | none =>
    match ← readPieces c o o.srcVa mv.srcs with
    | (va, .fault f) | (va, .detached f) => sectorFault c o .copySource o.srcEnd va f
    | (_, .failed k) => fabricFailed c o k
    | (_, .data l _) => do
      let l ← (if o.ordered then pure l else undefinedOverlap o l)
      modDOp c o.ident fun q => { q with moving := some { mv with data := some l } }
      writeSector c o mv.dst l

/-- Start the next sector: compare the handle, translate both sides (R41, R85, R366). -/
def startSector (c : Nat) (o : DOp) : M Unit := do
  let s ← getS
  if !s.handleLive o.owner o.handle then endWith c o 4 o.held
  else do
    let n := o.sectorLen
    match ← piecePlaces o (if o.put then none else o.module) .copySource (unitPieces 64 o.srcVa n) with
    | .error (va, f) => sectorFault c o .copySource o.srcEnd va f
    | .ok srcs =>
      let dst ← (if o.ordered then pure (.ok (.control 0))
        else engPlace o.agent o.destAcc (if o.put then o.module else none) o.dstVa n)
      match dst with
      | .error f => sectorFault c o o.destAcc o.dstEnd o.dstVa f
      | .ok d => do
        modDOp c o.ident fun o => { o with moving := some ⟨srcs, d, none⟩ }
        moveSector c o ⟨srcs, d, none⟩

/-- Perform the final update of an ordered DRED at its place (R377); `free` stands there instead where the destination
lies in the source (R365). -/
def finalAt (c : Nat) (o : DOp) (op : FoldOp) (p : Word) (d : Place) (free : Option (List (Byte × Bool))) : M Unit := do
  let w : RemoteOp := match free with
    | some l => .store (writeAll (l.map (·.1)))
    | none => if o.partialBad then markElem op else .fold op p
  let a ← (match d with
    | .target t =>
      if t.module.isSome then do
        modDOp c o.ident (·.sendsTo t)
        keepStrip (o.who c) o.ident t (.folds op [if o.partialBad then none else some p]) (o.ident, 0, 1)
      else foldPlace c o d [(0, w)]
    | .local _ | .control _ => foldPlace c o d [(0, w)])
  match a with
  | .acked | .bytes _ | .claimed _ _ | .poisoned => do
    modDOp c o.ident fun o => { o with landed := o.bytes, final := true }
    modS (·.forget (o.who c))
    endWith c o 1 false
  | a => writeFailed c o .reduce (o.buf.toNat + op.bytes) o.buf d a

/-- The final update of an ordered DRED: it compares and translates like a sector. -/
def finalUpdate (c : Nat) (o : DOp) (op : FoldOp) (p : Word) : M Unit := do
  match o.moving with
  | some mv => finalAt c o op p mv.dst mv.data
  | none => do
    let s ← getS
    if !s.handleLive o.owner o.handle then endWith c o 4 o.held
    else
      match ← engPlace o.agent .reduce o.module o.buf op.bytes with
      | .error f => sectorFault c o .reduce (o.buf.toNat + op.bytes) o.buf f
      | .ok d => do
        let w ← drawWord
        let free := if (o.overlapped op.bytes).isEmpty then none
          else some ((bytesOfNat op.bytes w.toNat).map fun b => (b, false))
        modDOp c o.ident fun o => { o with moving := some ⟨[], d, free⟩ }
        finalAt c o op p d free

/-- A step of a running operation (R366, R386). -/
def runOp (c : Nat) (o : DOp) : M Unit := do
  match o.moving, o.exhausted with
  | some mv, false => moveSector c o mv
  | none, false => if o.cancel then endWith c o 11 o.held else startSector c o
  | _, true =>
    match o.kind, o.partialSum with
    | .reduce op true, some p => if o.cancel && o.moving.isNone then endWith c o 11 o.held else finalUpdate c o op p
    | _, _ => endWith c o (if o.cancel && !o.final && o.bytes != 0 && o.landed != o.bytes then 11 else 1) false

/-! ### Completion (R367 to R371) -/

/-- The completion record of an operation with a status (R367). -/
def State.opRecord (s : State) (o : DOp) (status : Nat) : Nat :=
  record [(o.landed, 0), (status, 64), (o.faults, 80), (o.fstrip.getD 0xffffffff, 96), (o.ident.toNat, 128),
    (o.bytes, 192), (s.tick.toNat % 2 ^ 32, 256)]

/-- A record that overlaps the operation's own destination is undefined (R369). -/
def recordBytes (o : DOp) (a : Word) (r : Nat) : M (List Byte) :=
  if (List.range 64).any fun i => o.inDest (a + BitVec.ofNat 64 i) then
    mapList (List.range 64) fun _ => do
      let w ← drawWord
      pure (w.extractLsb' 0 8)
  else pure (bytesOfNat 64 r)

/-- Write an operation's record, as one write; a fault there leaves one fault-queue record, and a violation is logged too
(R46, R369). -/
def writeRecord (c : Nat) (o : DOp) (status : Nat) : M Unit := do
  match o.recordAddr with
  | none => pure ()
  | some a => do
    let ag := o.agent
    let miss (f : AFault) : M Unit := do
      modS fun s => s.logIfViolation ag .copyDest a f
      queueOpFault c o .copyDest a 64 f
    match ← resolveM ag .copyDest a 64 with
    | .error f => miss f
    | .ok (.control _) => miss ⟨3, 2, 7, 1⟩
    | .ok p => do
      let s ← getS
      let asked := s.arrived.any (fun e => e.who = o.who c) || s.ports.any (fun e => e.who = o.who c)
        || s.outstanding.any (fun e => e.who = o.who c)
      let l ← (if asked then pure [] else recordBytes o a (s.opRecord o status))
      match p with
      | .local la => modS fun s => (s.localOp o.mode o.owner la (.store (writeAll l))).2
      | .control _ => pure ()
      | .target t => do
        let op ← (fun (s : State) =>
          let pending := (s.arrived.find? fun e => e.who = o.who c).map (·.op)
          let port := (s.ports.find? fun e => e.who = o.who c).map (·.op)
          let remote := (s.outstanding.find? fun e => e.who = o.who c).map (·.op)
          .ok ((pending.or (port.or remote)).getD (.store (writeAll l))) s)
        match engAnswer 0 0 0 t.level (← keepM (o.who c) .copyDest o.ident t op) with
        | .fault f | .detached f => miss f
        | .data _ _ | .failed _ => pure ()
    modS (·.forget (o.who c))

/-- The requester of a DRED releases the fold entry that each other module which its strips have gone to may hold for it
(R378). -/
def releaseEntry (c : Nat) (o : DOp) : M Unit :=
  forList o.stripsAt fun t =>
    match t.module with
    | some m => modS fun s => (s.sendRemote (o.who c) m t (.release o.ident) .reduce o.ident none []).2
    | none => pure ()

/-- An identity at the tail of an interrupt queue, which holds 64 (R371). One that finds it full is lost (log 101). -/
def Kept.queueIdent (k : Kept) (ident : Word) : Kept :=
  if k.intq.length < 64 then { k with intq := k.intq ++ [ident] } else k

/-- A DCFG configuration notes a strip fetch that ended with a status other than OK (R383). -/
def Strand.stripFailed (t : Strand) : Strand := { t with cfg := t.cfg.map fun k => { k with err := true } }

/-- An operation completes: its lines become full, its record is written, its counter falls, its identity is queued
(R41, R145, R369 to R371). -/
def completeOp (c : Nat) (o : DOp) (status : Nat) : M Unit := do
  modS fun s => s.fill o.linesLeft
  writeRecord c o status
  releaseEntry c o
  modS fun s => s.modKept o.holder fun k =>
    let k := k.lower o.counter
    if o.ui then k.queueIdent o.ident else k
  if o.kind = .strip && status != 1 then
    modS fun s => match s.whereIs o.holder with
      | some u => s.setStrand u (s.strand u).stripFailed
      | none => s
  else pure ()
  modCluster c fun k => { k with ops := k.ops.filter fun q => q.ident != o.ident }

/-- What an operation does next: a sector, or the record of its serviced state. -/
def sectorStep (c : Nat) (o : DOp) : M Unit := do
  match o.state with
  | .running => runOp c o
  | .faulted next => do
    writeRecord c o 2
    modDOp c o.ident fun o => { o with state := match next with
      | none => .serviced
      | some 0 => .running
      | some n => .ending n }
  | .serviced | .ending _ => stall

/-- The completion of an operation that has ended. -/
def completeStep (c : Nat) (o : DOp) : M Unit := do
  match o.state with
  | .ending status => completeOp c o status
  | .running | .faulted _ | .serviced => stall

/-- The first operation of a list that can take the step takes it; it then stands behind the others. -/
def firstOp (c : Nat) (f : DOp → M Unit) : List DOp → State → State
  | [], s => s
  | o :: t, s =>
    match f o s with
    | .ok _ s =>
      let l := (s.cluster c).ops
      s.setCluster c { s.cluster c with ops := l.filter (fun q => q.ident != o.ident) ++ l.filter fun q => q.ident = o.ident }
    | .error .wait s => firstOp c f t s
    | .error (.trap _) s => firstOp c f t s

/-- The Drayman of a cluster moves one sector of one operation. -/
def State.draymanSector (s : State) (c : Nat) : State := firstOp c (sectorStep c) (s.cluster c).ops s

/-- The Drayman of a cluster completes one operation that has ended. -/
def State.draymanComplete (s : State) (c : Nat) : State := firstOp c (completeStep c) (s.cluster c).ops s

/-! ### Resuming, aborting, cancelling (R92, R374, R386) -/

/-- An operation under `f`, wherever its Drayman is. -/
def State.modOpWhere (s : State) (ident : Word) (f : DOp → DOp) : State :=
  let upd (e : Nat × Cluster) : Nat × Cluster :=
    ⟨e.1, { e.2 with ops := e.2.ops.map fun o => if o.ident = ident then f o else o }⟩
  { s with clusters := s.clusters.map upd }

/-- FQRESUME on a Drayman operation: a serviced one runs again. -/
def DOp.resume (o : DOp) : DOp :=
  match o.state with
  | .serviced => { o with state := .running }
  | .faulted none => { o with state := .faulted (some 0) }
  | .running | .faulted (some _) | .ending _ => o

/-- The operation ends with a status at once where it is serviced; the held strip then ends in failure (R378). -/
def DOp.stopServiced (o : DOp) (status : Nat) : DOp :=
  let strip : Option Nat := if o.put && o.kind != .copy && (!o.ordered || o.exhausted) then
    some (if o.ordered then 0 else o.sector) else o.fstrip
  match o.state with
  | .serviced => { o with state := .ending status, fstrip := strip }
  | .faulted _ => { o with state := .faulted (some status), fstrip := strip }
  | .running | .ending _ => o

/-- DCANCEL on an operation: a running one stops at its next sector boundary (R386). -/
def DOp.cancelled (o : DOp) : DOp :=
  match o.state with
  | .running => { o with cancel := true }
  | .serviced | .faulted _ => o.stopServiced 11
  | .ending _ => o

/-! ### Issue (R365, R372, R375, R387) -/

/-- A local range that completes at issue with status VIOLATION (R17, R57, R365). -/
def State.localBad (s : State) (u : Nat) (va : Word) (n : Nat) : Bool :=
  let a := va.toNat
  let top := if s.launchActive (clusterOf u) then 0x7e00007c0000 else 0x7e0000800000
  !canonical va || (n != 0 &&
    (!canonical (va + BitVec.ofNat 64 (n - 1)) ||
      (decide (0x7e0000000000 < a + n ∧ a < 0x800000000000) &&
        !(decide (0x7e0000000000 ≤ a ∧ a + n ≤ top) || decide (0x7f0000000000 ≤ a ∧ a + n ≤ 0x7f0000020000)))))

/-- An operation waits at issue while its strand has 64 in flight or its Drayman 256, or its counter is full (R363,
R370); younger than accesses that it must follow, it comes after them (R139, R142). -/
def issueRoom (u : Nat) (d : BitVec 3) : M Unit := do
  sHold u
  let s ← getS
  let t ← getStrand u
  waitUnless (decide ((s.opsOf t.holder).length < 64) && decide ((s.cluster (clusterOf u)).ops.length < 256))
  waitUnless (d = 0 || t.kept.dctr[d.toNat] != BitVec.allOnes 16)
  drainM u

/-- The record's address is aligned (R369). -/
def recordAligned (a : Option Word) : M Unit :=
  match a with
  | some r => needAligned r 64
  | none => pure ()

/-- The record's page grants W (R369). -/
def recordPage (u : Nat) (a : Option Word) : M Unit :=
  match a with
  | none => pure ()
  | some r => do
    let s ← getS
    match ← placeM (s.scalarAgent u) .write r 64 with
    | .control _ => controlTrap (s.scalarAgent u) .write r
    | .local _ | .target _ => pure ()

/-- The address of a completion record: none for x0. -/
def recordOperand (u : Nat) (xc : Reg) : M (Option Word) := do
  let v ← readX u xc
  pure (if xc = 0 then none else some v)

/-- A record that the helm reads at issue. -/
def readRecord (u : Nat) (va : Word) (n : Nat) : M Nat := do
  let l ← readArea u va n
  modS (·.forget (.helm u))
  pure (natOfBytes l)

/-- Inside a surrogate tile the instruction is refused (R416). -/
def notInTile (u : Nat) : M Unit := do
  let s ← getS
  if (s.tileOf u).isSome then illegal u else pure ()

/-- Fork an operation (R54, R362, R370). -/
def forkOp (u : Nat) (o : DOp) : M Unit := do
  let c := clusterOf u
  let k ← getCluster c
  let s ← getS
  let ident := nextIdent u k.nextSeq
  let bad := (List.range o.rows).any fun r => s.localBad u (o.locAt r) o.rbytes
  let o := { o with ident := ident, state := if bad then .ending 5 else .running, void := bad }
  modCluster c fun k => { k with nextSeq := seqAfter k.nextSeq, ops := k.ops ++ [o] }
  modStrand u fun t => { t with kept := { t.kept.raise o.counter with lastIdent := ident } }
  modS fun s => s.drainLines o.linesLeft

/-- The agent of a Drayman instruction's checks. -/
def State.draymanAgent (s : State) (u : Nat) : Agent := { s.scalarAgent u with unit := 2 }

/-- An operation as its instruction describes it, before it is forked. -/
def newOp (t : Strand) (u : Nat) (s : State) (kind : CopyKind) (h : BitVec 32) (e : BitVec 256) (hoff : Nat) (loc : Word)
    (put : Bool) (rows rbytes : Nat) (hs ls : Int) (rec : Option Word) (d : BitVec 3) (ui : Bool) : DOp :=
  { ident := 0, uid := u, holder := t.holder, owner := t.owner, mode := t.mode, kind := kind, handle := h,
    buf := entryBase e + BitVec.ofNat 64 hoff, module := s.entryModule e, loc := loc, put := put, rows := rows,
    rbytes := rbytes, hstride := hs, lstride := ls, recordAddr := rec, counter := d, ui := ui, state := .running,
    row := 0, off := 0, sector := 0, moving := none, landed := 0, faults := 0, partialSum := none, partialBad := false,
    final := false, fstrip := none, cancel := false, void := false, held := false,
    consumed := false, stripsAt := [] }

/-- The handle of a handle operand (R200). -/
def operandHandle (x : Word) : BitVec 32 := x.extractLsb' 0 32
/-- The offset of a handle operand. -/
def operandOff (x : Word) : Nat := (x.extractLsb' 32 32).toNat

/-- The shape of a copy: rows, bytes of a row, and the two strides. -/
abbrev Shape := Nat × Nat × Int × Int

/-- Copy instructions, once their shape is known (R372, R387 points 3 and 5). -/
def issueCopy (u : Nat) (a : CopyArgs) (rec : Option Word) (shape : Shape) : M Unit := do
  let xa ← readX u a.xa
  let xd ← readX u a.xd
  let (rows, rb, hs, ls) := shape
  if 2 ^ 32 < rows * rb then illegal u else pure ()
  if a.put then notInTile u else pure ()
  let s ← getS
  let span : Int := (rows - 1 : Nat) * hs
  let hoff := operandOff xa
  let e ← checkHandle (s.draymanAgent u) (if a.put then .copyDest else .copySource) (operandHandle xa)
    (if a.put then .wr else .rd) hoff (hoff + min 0 span) (hoff + max 0 span + rb)
  let t ← getStrand u
  let s ← getS
  forkOp u (newOp t u s .copy (operandHandle xa) e hoff (xd + a.off.signExtend 64) a.put rows rb hs ls rec a.d a.u)

/-- DCOPY (R372). -/
def execDcopy (a : CopyArgs) (s : State) : Host.Outcome State Fault Refusal :=
  helmOp (fun u => do
    let rec' ← recordOperand u a.xc
    let n ← readX u a.xb
    recordAligned rec'
    issueRoom u a.d
    recordPage u rec'
    issueCopy u a rec' (1, n.toNat, 0, 0)) s

/-- The shape record of DCOPY.2d (R373). -/
def shapeOf (u : Nat) (va : Word) : M Shape := do
  let r ← readRecord u va 32
  let rows := recField r 0 32
  let rb := recField r 32 32
  if recField r 192 64 != 0 || rows = 0 || rb = 0 then trapWith 1 0 va
  else pure (rows, rb, (BitVec.ofNat 64 (recField r 64 64)).toInt, (BitVec.ofNat 64 (recField r 128 64)).toInt)

/-- DCOPY.2d (R372, R373). -/
def execDcopy2d (a : CopyArgs) (s : State) : Host.Outcome State Fault Refusal :=
  helmOp (fun u => do
    let rec' ← recordOperand u a.xc
    let b ← readX u a.xb
    recordAligned rec'
    needAligned b 32
    issueRoom u a.d
    recordPage u rec'
    let shape ← shapeOf u b
    issueCopy u a rec' shape) s

/-- DRED (R375). -/
def execDred (op : FoldOp) (ordered : Bool) (xd xa xb xc : Reg) (d : BitVec 3) (ui : Bool) (off : BitVec 21) (s : State) :
    Host.Outcome State Fault Refusal :=
  helmOp (fun u => do
    let rec' ← recordOperand u xc
    let n ← readX u xb
    let h ← readX u xa
    let base ← readX u xd
    let loc := base + off.signExtend 64
    recordAligned rec'
    needAligned loc op.bytes
    issueRoom u d
    recordPage u rec'
    if n.toNat % op.bytes != 0 || 2 ^ 24 < n.toNat then illegal u else pure ()
    notInTile u
    let s ← getS
    let t ← getStrand u
    let hoff := operandOff h
    let entry := s.handleEntry t.owner (handleSlot (operandHandle h))
    if s.handleLive t.owner (operandHandle h) then needAligned (entryBase entry + BitVec.ofNat 64 hoff) op.bytes else pure ()
    let e ← checkHandle (s.draymanAgent u) .reduce (operandHandle h) .red hoff hoff
      (hoff + if ordered then op.bytes else n.toNat : Nat)
    let s ← getS
    forkOp u (newOp t u s (.reduce op ordered) (operandHandle h) e hoff loc true 1 n.toNat 0 0 rec' d ui)) s

/-! ### Hints (R380, R381) -/

/-- A 32-bit count raised by 1, saturating. -/
def satCount (n : Nat) : Nat := min (n + 1) (2 ^ 32 - 1)

/-- DPREF (R380). -/
def execDpref (xa xb xc : Reg) (s : State) : Host.Outcome State Fault Refusal :=
  helmOp (fun u => do
    let h ← readX u xa
    let n ← readX u xb
    let deadline ← readX u xc
    sHold u
    if 2 ^ 32 < n.toNat then illegal u else pure ()
    let s ← getS
    let hoff := operandOff h
    let e ← checkHandle (s.draymanAgent u) .hint (operandHandle h) .pf hoff hoff (hoff + n.toNat : Nat)
    let t ← getStrand u
    let s ← getS
    if n = 0 then pure ()
    else modCluster (clusterOf u) fun c =>
      if 64 ≤ c.hints.length then { c with hintsRefused := satCount c.hintsRefused }
      else { c with
        hints := c.hints ++ [{ seq := 0, uid := u, owner := t.owner, mode := t.mode, handle := operandHandle h,
                               ident := t.pc, module := s.entryModule e, deadline := deadline,
                               addr := entryBase e + BitVec.ofNat 64 hoff, bytes := n.toNat }] }) s

/-- The place in the list of the hint that is served: the first of those with the earliest deadline (R381). -/
def nextHint : List Hint → Option Hint
  | [] => none
  | h :: t =>
    match nextHint t with
    | some g => if g.deadline.ult h.deadline then some g else some h
    | none => some h

/-- The list with the hint at hand replaced, or taken out. -/
def replaceHint (h : Hint) (g : Option Hint) (l : List Hint) : List Hint :=
  match l.findIdx? (· == h) with
  | some i => match g with
    | some g => l.set i g
    | none => l.eraseIdx i
  | none => l

/-- The rest of a hint is given up (R381). -/
def dropHint (c : Nat) (h : Hint) : M Unit :=
  modCluster c fun k => { k with hints := replaceHint h none k.hints, hintsDropped := satCount k.hintsDropped }

/-- A line of a hint has been handled. -/
def lineHandled (c : Nat) (h : Hint) : M Unit := do
  let n := 128 - h.addr.toNat % 128
  let rest : Option Hint :=
    if h.bytes ≤ n then none else some { h with addr := h.addr + BitVec.ofNat 64 n, bytes := h.bytes - n }
  modCluster c fun k => { k with hints := replaceHint h rest k.hints }
  modS (·.forget (.hint h.uid))

/-- The agent of a hint's accesses. -/
def Hint.agent (h : Hint) : Agent := ⟨h.uid, h.mode, h.owner, 2, h.handle, h.ident⟩

/-- Ask for the parts of a line from `offs` on: the first that is not obtained ends the hint (R381). -/
def warmParts (c : Nat) (h : Hint) (t : Target) : List Nat → M Unit
  | [] => lineHandled c h
  | o :: rest => do
    let t' := { t.lineOf with pa := t.lineOf.pa + o, va := t.lineOf.va + BitVec.ofNat 64 o, pol := .keep }
    match engAnswer 1 0 0 t.level (← keepM (.hint h.uid) .hint h.ident t' (.load 1)) with
    | .data _ _ => warmParts c h t rest
    | .fault f => do
      modS fun s => (s.logIfViolation h.agent .hint h.addr f).forget (.hint h.uid)
      dropHint c h
    | .detached _ | .failed _ => do
      modS (·.forget (.hint h.uid))
      dropHint c h

/-- Warm a line at a target: a pooled line fills the pool cache, and both host lines fill the host-line cache, here or on
another module. -/
def warmLine (c : Nat) (h : Hint) (t : Target) : M Unit :=
  if t.module.isSome || kindOf t.pa = 2 then warmParts c h t [0, 64]
  else if kindOf t.pa = 1 then warmParts c h t [0]
  else lineHandled c h

/-- One line of a hint (R381). -/
def hintStep (c : Nat) (h : Hint) : M Unit := do
  match windowAddr h.uid h.addr, h.module with
  | some _, none => lineHandled c h
  | _, some m => warmLine c h (globalTarget m h.owner h.addr)
  | none, none => do
    match ← resolveM h.agent .hint h.addr 1 with
    | .error f => do
      modS fun s => s.logIfViolation h.agent .hint h.addr f
      dropHint c h
    | .ok (.local _) | .ok (.control _) => lineHandled c h
    | .ok (.target t) => warmLine c h t

/-- The Drayman of a cluster handles one line of its hints. -/
def State.hintLine (s : State) (c : Nat) : State :=
  match nextHint (s.cluster c).hints with
  | none => s
  | some h =>
    match hintStep c h s with
    | .ok _ s => s
    | .error _ s => s

/-! ### DCFG (R382 to R384) -/

/-- The streams of a configuration record. -/
def cfgStreams (r : Nat) : Nat := recField r 0 2 + 1
/-- DEPTH. -/
def cfgDepth (r : Nat) : Nat := recField r 2 2 + 1
/-- SLEN. -/
def cfgLen (r : Nat) : Nat := recField r 16 16
/-- HOP of stream `s`. -/
def cfgHop (r s : Nat) : Word := BitVec.ofNat 64 (recField r (64 + 96 * s) 64)
/-- RING. -/
def cfgRing (r s : Nat) : Nat := recField r (64 + 96 * s + 64) 23
/-- Bytes of an element. -/
def cfgElem (r s : Nat) : Nat := 2 ^ recField r (64 + 96 * s + 87) 2
/-- Bytes of a slot. -/
def cfgSlot (r s : Nat) : Nat := alignUp (cfgLen r * cfgElem r s) 128

/-- A record is valid (R382). -/
def cfgValid (r : Nat) : Bool :=
  recField r 4 12 = 0 && recField r 32 32 = 0 && recField r 448 64 = 0 && 1 ≤ cfgLen r && cfgLen r ≤ 16384
    && (List.range 4).all fun s =>
      if s < cfgStreams r then recField r (64 + 96 * s + 89) 7 = 0 && cfgRing r s % 128 = 0
      else recField r (64 + 96 * s) 96 = 0

/-- Elements of strip `j`: R383. -/
def stripElems (r length j : Nat) : Nat := min length ((j + 1) * cfgLen r) - j * cfgLen r

/-- The fetch of strip `j` of stream `s`: a DCOPY without record or counter. It carries the mode of the DCFG, and the
owner that the strand has as the fetch is forked, which may be a handler's (log 100). -/
def stripOp (t : Strand) (u : Nat) (s : State) (mode : Mode) (r length j k : Nat) : DOp :=
  let hop := cfgHop r k
  let h := operandHandle hop
  let e := s.handleEntry t.owner (handleSlot h)
  let off := operandOff hop + j * cfgLen r * cfgElem r k
  let loc := BitVec.ofNat 64 (0x7e0000000000 + cfgRing r k + j % cfgDepth r * cfgSlot r k)
  { newOp t u s .strip h e off loc false 1 (stripElems r length j * cfgElem r k) 0 0 none 0 false with mode := mode }

/-- How many of the `n` strips from `j` on lie within the length. -/
def StripCfg.within (k : StripCfg) (j n : Nat) : Nat := min n (k.strips - j)

/-- Fork the fetches of strips `j` to `j + n` - 1 that lie within the length, of every stream (R383). -/
def forkStrips (u : Nat) (k : StripCfg) (j n : Nat) : M Unit :=
  forList (List.range n) fun i => forList (List.range (cfgStreams k.record.toNat)) fun x => do
    let t ← getStrand u
    let s ← getS
    if k.strips ≤ j + i then pure ()
    else forkOp u (stripOp t u s k.mode k.record.toNat k.length (j + i) x)

/-- Fetches of an old configuration complete as copies (R383). -/
def detachStrips (h : Holder) (s : State) : State :=
  let det (o : DOp) : DOp := if o.holder = h && o.kind = .strip then { o with kind := .copy } else o
  let upd (e : Nat × Cluster) : Nat × Cluster := ⟨e.1, { e.2 with ops := e.2.ops.map det }⟩
  { s with clusters := s.clusters.map upd }

/-- Room for the fetches of `n` strips of a configuration from `j` on, as far as they lie within its length (R363). The
forks come after older scalar accesses, whose stores leave the write buffer first (R142). -/
def stripRoom (u : Nat) (k : StripCfg) (j n : Nat) : M Unit := do
  let n := cfgStreams k.record.toNat * k.within j n
  let s ← getS
  let t ← getStrand u
  waitUnless (decide ((s.opsOf t.holder).length + n ≤ 64) && decide ((s.cluster (clusterOf u)).ops.length + n ≤ 256))
  drainM u

/-- The lines of every slot of a configuration's rings. -/
def ringLines (u r : Nat) : List Nat :=
  (List.range (cfgStreams r)).flatMap fun k =>
    windowLines u (BitVec.ofNat 64 (0x7e0000000000 + cfgRing r k)) (cfgDepth r * cfgSlot r k)

/-- A configuration whose first `c` strips are consumed. -/
def newCfg (mode : Mode) (r length c : Nat) : StripCfg :=
  { record := BitVec.ofNat 512 r, length := length, mode := mode, consumed := c, due := [], err := false }

/-- Install a configuration whose first `c` strips are consumed, and fork its fetches (R383, R384). -/
def installCfg (u : Nat) (mode : Mode) (r length c : Nat) : M Unit := do
  let t ← getStrand u
  modS (detachStrips t.holder)
  let k := newCfg mode r length c
  modStrand u fun t => { t with cfg := some k, dcfgr := k.record, dcfgl := BitVec.ofNat 32 c ++ BitVec.ofNat 32 length }
  forkStrips u k c (cfgDepth r)

/-- The checks of a configuration's streams: rings, then handles. Of the handles, what is checked first is checked of
every stream first: that it is live, its right, its bounds (R382, R387). -/
def checkCfg (u r length : Nat) : M Unit := do
  forList (List.range (cfgStreams r)) fun k =>
    needWindow u (0x7e0000000000 + cfgRing r k) (cfgDepth r * cfgSlot r k)
  let s ← getS
  let ag := s.draymanAgent u
  let handle (k : Nat) : BitVec 32 := operandHandle (cfgHop r k)
  forList (List.range (cfgStreams r)) fun k =>
    if s.handleLive ag.owner (handle k) then pure () else trapWith 5 0 ((handle k).setWidth 64)
  forList (List.range (cfgStreams r)) fun k => do
    let off := operandOff (cfgHop r k)
    let _ ← checkHandle ag .copySource (handle k) .rd off off off
    pure ()
  forList (List.range (cfgStreams r)) fun k => do
    let off := operandOff (cfgHop r k)
    let _ ← checkHandle ag .copySource (handle k) .rd off off (off + length * cfgElem r k : Nat)
    pure ()

/-- DCFG (R382). -/
def execDcfg (xa xb : Reg) (s : State) : Host.Outcome State Fault Refusal :=
  helmOp (fun u => do
    let a ← readX u xa
    let length ← readX u xb
    needAligned a 64
    if length = 0 then do
      let t ← getStrand u
      modS (detachStrips t.holder)
      modStrand u fun t => { t with cfg := none, dcfgr := 0, dcfgl := 0 }
    else do
      issueRoom u 0
      let r ← readRecord u a 64
      if 2 ^ 32 ≤ length.toNat then illegal u else pure ()
      if cfgValid r then pure () else trapWith 1 0 a
      checkCfg u r length.toNat
      let t ← getStrand u
      stripRoom u (newCfg t.mode r length.toNat 0) 0 (cfgDepth r)
      modStrand u fun t => { t with kept := { t.kept with cfgStarted := false, cfgMode := t.mode } }
      installCfg u t.mode r length.toNat 0) s

/-- A consumed strip's successor is forked, once the element accesses older than its SETVL are performed (R383). -/
def dueFetch (u : Nat) : M Unit := do
  let s ← getS
  let t ← getStrand u
  match t.cfg with
  | none => stall
  | some k =>
    match k.due with
    | [] => stall
    | (strip, iid) :: rest => do
      waitUnless (!s.elemsOut u (iid - 1))
      stripRoom u k (strip + cfgDepth k.record.toNat) 1
      modStrand u fun t => { t with cfg := t.cfg.map fun k => { k with due := rest } }
      forkStrips u k (strip + cfgDepth k.record.toNat) 1

/-- The Drayman forks a strip fetch that is due. -/
def State.stripFetch (s : State) (u : Nat) : State :=
  match dueFetch u s with
  | .ok _ s => s
  | .error _ s => s

/-! ### DSTAT and DCANCEL (R385, R386) -/

/-- Strips of a configuration that are not yet consumed. -/
def Strand.stripsLeft (t : Strand) : Nat :=
  match t.cfg with
  | some k => min 65535 (k.strips - k.consumed)
  | none => 0

/-- The state of an operation counts as serviced. -/
def DOp.isServiced (o : DOp) : Bool :=
  match o.state with
  | .serviced | .faulted _ => true
  | .running | .ending _ => false

/-- DSTAT.inflt (R385). -/
def State.inFlight (s : State) (u : Nat) : Word :=
  let t := s.strand u
  let l := s.opsOf t.holder
  let err := match t.cfg with
    | some k => k.err
    | none => false
  BitVec.ofNat 64 (record [(l.length, 0), ((l.filter fun e => e.2.isServiced).length, 16), (t.stripsLeft, 32), (err.toNat, 63)])

/-- DSTAT (R385). -/
def execDstat (sel : DstatSel) (xd : Reg) (s : State) : Host.Outcome State Fault Refusal :=
  helmOp (fun u => do
    let s ← getS
    let t ← getStrand u
    let c ← getCluster (clusterOf u)
    match sel with
    | .last => writeX u xd t.kept.lastIdent
    | .int => do
      writeX u xd (t.kept.intq.headD 0)
      modStrand u fun t => { t with kept := { t.kept with intq := t.kept.intq.tail } }
    | .inflt => writeX u xd (s.inFlight u)
    | .hint => writeX u xd (BitVec.ofNat 64 (record [(c.hintsRefused, 0), (c.hintsDropped, 32)]))) s

/-- An operation that DCANCEL may end (R386). -/
def State.cancellable (s : State) (u : Nat) (ident : Word) : Bool :=
  match (s.strand u).mode with
  | .user => (s.opsOf (s.strand u).holder).any fun e => e.2.ident = ident
  | .kernel | .firmware => (s.cluster (clusterOf u)).ops.any fun o => o.ident = ident

/-- DCANCEL (R386). -/
def execDcancel (xa : Reg) (s : State) : Host.Outcome State Fault Refusal :=
  helmOp (fun u => do
    let ident ← readX u xa
    modS fun s => if s.cancellable u ident then s.modOpWhere ident DOp.cancelled else s) s

end Sys2Proof.Machine
end

