-- ==== Sys2Proof/Machine/Tasks.lean ====
section
/-!
DEFINITION. Task records (R391, R392), the Cox's hardware queues (R390), and how it finds room for a gang (R396, R399,
R402).
-/

namespace Sys2Proof.Machine

/-! ### Task records (R391) -/

/-- PC. -/
def taskPc (r : BitVec 512) : Word := r.extractLsb' 0 64
/-- ARG. -/
def taskArg (r : BitVec 512) : Word := r.extractLsb' 64 64
/-- CTGT. -/
def taskCtgt (r : BitVec 512) : Word := r.extractLsb' 128 64
/-- Crews of the gang. -/
def taskCrews (r : BitVec 512) : Nat := (r.extractLsb' 192 9).toNat + 1
/-- Strands of a crew. -/
def taskStrands (r : BitVec 512) : Nat := (r.extractLsb' 201 3).toNat + 1
/-- Lane groups of a strand. -/
def taskLanes (r : BitVec 512) : Nat := 2 ^ (r.extractLsb' 204 2).toNat
/-- MROWS: matrix rows of a strand in blocks of 32. -/
def taskMrows (r : BitVec 512) : Nat := (r.extractLsb' 208 4).toNat
/-- SPAD: 4 KiB units of a crew. -/
def taskSpad (r : BitVec 512) : Nat := (r.extractLsb' 212 12).toNat
/-- SHARE, where 0 gives 16. -/
def taskShare (r : BitVec 512) : Byte := if r.extractLsb' 224 8 = 0 then 16 else r.extractLsb' 224 8
/-- TB: tick-bound. -/
def taskTb (r : BitVec 512) : Bool := r.getLsbD 232
/-- TPRE. -/
def taskTpre (r : BitVec 512) : Bool := r.getLsbD 233
/-- The wait words that are named: WAIT0 to WAIT3 where not 0. -/
def taskWaits (r : BitVec 512) : List Word :=
  ((List.range 4).map fun i => r.extractLsb' (256 + 64 * i) 64).filter (· != 0)

/-- A record that R392 refuses. -/
def taskBad (r : BitVec 512) : Bool :=
  r.extractLsb' 206 2 != 0 || r.extractLsb' 234 22 != 0 || r.extractLsb' 0 3 != 0 || r.extractLsb' 128 4 != 0
    || (taskWaits r).any (fun w => w.toNat % 8 != 0) || decide (8 < taskMrows r) || decide (2048 < taskSpad r)
    || decide (32 < taskStrands r * taskLanes r) || decide (8 < taskStrands r * taskMrows r)

/-- The record with ARG replaced (R414). -/
def withArg (r : BitVec 512) (a : Word) : BitVec 512 :=
  r.extractLsb' 128 384 ++ a ++ r.extractLsb' 0 64

/-! ### Queues (R390) -/

/-- Queue `q`. -/
def Cox.queueOf (c : Cox) (q : Nat) : Queue := Tab.get Queue.empty c.queues q

/-- The Cox with queue `q` changed. -/
def Cox.modQueue (c : Cox) (q : Nat) (f : Queue → Queue) : Cox := { c with queues := Tab.set c.queues q (f (c.queueOf q)) }

/-- The queue accepts launches and is selected from: EN, with a LEVEL of 0 to 11 and a SIZE of 4 to 12. -/
def Queue.on (q : Queue) : Bool := q.en && decide (q.level.toNat ≤ 11) && decide (4 ≤ q.size.toNat ∧ q.size.toNat ≤ 12)

/-- The records of a queue that wait: TAIL - HEAD. -/
def Queue.length (q : Queue) : Nat := (q.tail - q.head).toNat

/-- The address of the ring slot of a record. -/
def Queue.slot (q : Queue) (i : BitVec 32) : Nat := q.ring.toNat % 2 ^ 52 + 64 * (i.toNat % 2 ^ q.size.toNat)

/-- The mode in which the tasks of a LEVEL start (R394). -/
def levelMode (level : Nat) : Mode := if 10 ≤ level then .kernel else .user

/-- Change the Cox. -/
def State.modCox (s : State) (f : Cox → Cox) : State := { s with cox := f s.cox }

/-- Count a dropped write in QERR (R409, R422). -/
def Queue.countError (q : Queue) : Queue := { q with qerr := satInc32 q.qerr }

/-- The record at a ring slot. -/
def State.ringRecord (s : State) (q : Nat) (i : BitVec 32) : BitVec 512 :=
  BitVec.ofNat 512 (s.deviceRead ((s.cox.queueOf q).slot i) 64)

/-! ### Gangs -/

/-- The gang of a serial number. -/
def Cox.gang (c : Cox) (n : Nat) : Option Gang := c.gangs.find? fun g => g.serial = n

/-- The Cox with a gang changed. -/
def Cox.modGang (c : Cox) (n : Nat) (f : Gang → Gang) : Cox :=
  { c with gangs := c.gangs.map fun g => if g.serial = n then f g else g }

/-- The gang with one of its strands changed. -/
def Gang.modStrand (g : Gang) (crew pos : Nat) (f : GangStrand → GangStrand) : Gang :=
  { g with strands := g.strands.map fun m => if m.crew = crew && m.pos = pos then f m else m }

/-- The gang is on its helms, running or stopping. -/
def Gang.placed (g : Gang) : Bool := g.state != .stopped

/-- The strand as the holder of rows and operations. -/
def Gang.holderOf (g : Gang) (m : GangStrand) : Holder := (g.serial, m.crew, m.pos)

/-- Crews of the gang whose strands run, or last ran, on cluster `c`. -/
def Gang.crewsOn (g : Gang) (c : Nat) : List Nat :=
  ((g.strands.filter fun m => clusterOf m.uid = c).map (·.crew)).eraseDups

/-! ### Room (R396) -/

/-- The clusters in service, ascending. -/
def State.inService (s : State) : List Nat := (List.range 512).filter fun c => !s.fenced.contains c

/-- An operation's local side lies in a window (R364). -/
def DOp.windowed (o : DOp) : Bool :=
  !o.void && (List.range o.rows).any fun r => o.rbytes != 0 && (windowAddr o.uid (o.locAt r)).isSome

/-- A strand has an operation in flight whose local side lies in a window (R364). -/
def State.tied (s : State) (h : Holder) : Bool := (s.opsOf h).any fun e => e.2.windowed

/-- What a cluster has free. -/
structure Room where
  ctx : List Nat
  /-- free register sets of each lane group. -/
  sets : List Nat
  blocks : Nat
  spad : Nat
  deriving DecidableEq, Repr

/-- A strand runs in context `u` and does not belong to one of the gangs taken as removed. -/
def State.runsIn (s : State) (gone : List Nat) (u : Nat) : Bool :=
  (s.strand u).resident && !gone.contains (s.strand u).gang

/-- A context that R364 keeps for a strand that is not on it: of a gang other than `self`. -/
def State.keptContext (s : State) (gone : List Nat) (self u : Nat) : Bool :=
  (s.cluster (clusterOf u)).ops.any fun o =>
    o.uid = u && o.windowed && o.holder.1 != self
      && !(s.runsIn gone u && decide ((s.strand u).holder = o.holder))

/-- What other candidates' victims have freed or will free on cluster `c`: reserved (R399). -/
def State.reservedOn (s : State) (gone : List Nat) (key : Option CandKey) (c : Nat) : List Reserved :=
  (s.cox.candidates.filter fun e => some e.key != key).flatMap fun e =>
    e.reserved.filter fun r =>
      r.cluster = c && !r.ctx.any fun u => s.runsIn gone u && decide ((s.strand u).holder = r.holder)

/-- Crew `k` of a gang holds its SPAD units: while the gang is placed, or while R364 keeps them. -/
def State.spadHeld (s : State) (gone : List Nat) (g : Gang) (k : Nat) : Bool :=
  (g.placed && !gone.contains g.serial) || g.strands.any fun m => m.crew = k && s.tied (g.holderOf m)

/-- SPAD units that a gang's crews hold on cluster `c`. -/
def State.spadOf (s : State) (gone : List Nat) (c : Nat) (g : Gang) : Nat :=
  taskSpad g.record * ((g.crewsOn c).filter (s.spadHeld gone g)).length

/-- SPAD units that are reserved with a victim's strand (R399), beyond those that its crew still holds. -/
def State.spadKept (s : State) (gone : List Nat) (r : Reserved) : Nat :=
  if (s.cox.gang r.holder.1).any fun g => s.spadHeld gone g r.holder.2.1 then 0 else r.spad

/-- A block counts as taken: rows that a strand holds stay with it (R346), unless its task is killed. -/
def State.blockTaken (s : State) (gone : List Nat) : BlockUse → Bool
  | .free => false
  | .reserved g _ _ => !gone.contains g
  | .held g _ _ _ => !(gone.contains g && (s.cox.gang g).any (·.killed))

/-- The room of cluster `c` for the candidate `key` of gang `self`, with some gangs taken as removed. -/
def State.roomOf (s : State) (gone : List Nat) (key : Option CandKey) (self c : Nat) : Room :=
  let kept := s.reservedOn gone key c
  let free (u : Nat) : Bool := !s.runsIn gone u && !s.keptContext gone self u && !kept.any fun r => r.ctx = some u
  let ctx := (clusterStrands c).filter free
  let used (g : Nat) : Nat :=
    ((clusterStrands c).filter fun u => s.runsIn gone u && (s.strand u).lanes.contains g).length
      + (kept.filter fun r => r.lanes.contains g).length
  let k := s.cluster c
  { ctx := ctx
    sets := (List.range 8).map fun g => 4 - used g
    blocks := 8 - (k.blocksWhere (s.blockTaken gone)).length - (kept.map (·.blocks)).foldl (· + ·) 0
    spad := 2048 - ((s.cox.gangs.filter fun g => g.serial != self).map (s.spadOf gone c)).foldl (· + ·) 0
      - (kept.map (s.spadKept gone)).foldl (· + ·) 0 - if s.launchActive c then 64 else 0 }

/-! ### What a candidate asks for -/

/-- A strand to be placed: its index, its lane groups, and the context that it must have. -/
structure StrandWant where
  pos : Nat
  lanes : Nat
  ctx : Option Nat
  deriving DecidableEq, Repr

/-- A crew to be placed: the cluster that it must have, its strands, blocks and SPAD units. -/
structure CrewWant where
  crew : Nat
  cluster : Option Nat
  strands : List StrandWant
  blocks : Nat
  spad : Nat
  deriving DecidableEq, Repr

/-- A strand placed in a context with lane groups. -/
structure Placed where
  crew : Nat
  pos : Nat
  uid : Nat
  lanes : List Nat
  deriving DecidableEq, Repr

/-- The lane group with the most free sets, the lowest of several, among those not yet taken. -/
def bestGroup (sets : List Nat) (taken : List Nat) : Option Nat :=
  (List.range 8).foldl (fun b g =>
    if taken.contains g || sets.getD g 0 = 0 then b
    else match b with
      | none => some g
      | some h => if sets.getD h 0 < sets.getD g 0 then some g else b) none

/-- `n` distinct lane groups with a free set each. -/
def pickGroups (sets : List Nat) : Nat → List Nat → Option (List Nat)
  | 0, taken => some taken
  | n + 1, taken =>
    match bestGroup sets taken with
    | some g => pickGroups sets n (keyInsert taken g)
    | none => none

/-- Strands placed one after another, ascending, each in the lowest free context (R396) but one kept for the kernel
(R457). -/
def placeStrands (crew : Nat) (bar : Option Nat) : List StrandWant → List Nat → List Nat → Option (List Placed)
  | [], _, _ => some []
  | w :: t, ctx, sets =>
    let free := ctx.filter fun u => some u != bar
    let u := match w.ctx with
      | some c => if free.contains c then some c else none
      | none => free.head?
    match u, pickGroups sets w.lanes [] with
    | some u, some l =>
      (placeStrands crew bar t (ctx.filter (· != u))
        (sets.zipIdx.map fun e => if l.contains e.2 then e.1 - 1 else e.1)).map fun r => ⟨crew, w.pos, u, l⟩ :: r
    | _, _ => none

/-- A crew fits a cluster with this room. -/
def fitCrew (r : Room) (bar : Option Nat) (w : CrewWant) : Option (List Placed) :=
  if r.blocks < w.blocks || r.spad < w.spad then none else placeStrands w.crew bar w.strands r.ctx r.sets

/-- The first cluster of a list that the crew fits. -/
def firstFit (room : Nat → Room) (bar : Option Nat) (w : CrewWant) : List Nat → Option (Nat × List Placed)
  | [] => none
  | c :: t =>
    match fitCrew (room c) bar w with
    | some l => some (c, l)
    | none => firstFit room bar w t

/-- Crews placed in ascending crew index on different clusters; a cluster that a crew must have is left to it. -/
def placeCrews (room : Nat → Room) (bar : Option Nat) (service : List Nat) : List CrewWant → List Nat → Option (List Placed)
  | [], _ => some []
  | w :: t, used =>
    let l := match w.cluster with
      | some c => if service.contains c then [c] else []
      | none => service.filter fun c => !used.contains c && !t.any fun v => v.cluster = some c
    match firstFit room bar w l with
    | some (c, p) => (placeCrews room bar service t (c :: used)).map fun r => p ++ r
    | none => none

/-- The context that MCTGT names (R454). -/
def State.mctgtUid (s : State) : Nat :=
  64 * (s.mctgt.toNat % 64) + 8 * (s.mctgt.toNat / 64 % 8) + s.mctgt.toNat / 512 % 8

/-- The crews of a new gang. -/
def newWants (r : BitVec 512) (cluster : Option Nat) : List CrewWant :=
  (List.range (taskCrews r)).map fun k =>
    { crew := k, cluster := cluster, blocks := taskStrands r * taskMrows r, spad := taskSpad r
      strands := (List.range (taskStrands r)).map fun i => ⟨i, taskLanes r, none⟩ }

/-- Blocks of its reservation that a strand holds. -/
def Cluster.heldBack (c : Cluster) (h : Holder) : Nat :=
  (c.blocksWhere fun b => match b with
    | .held g k p back => back && decide ((g, k, p) = h)
    | .free | .reserved _ _ _ => false).length

/-- The crews of a stopped gang: those whose strands are to be resumed. A crew that holds rows, or has an operation in
flight in a window, or runs a surrogate tile, must have the cluster that it left; with such an operation each strand must
have its context (R402). -/
def State.resumeWants (s : State) (g : Gang) : List CrewWant :=
  (List.range (taskCrews g.record)).filterMap fun k =>
    let l := g.strands.filter fun m => m.crew = k && m.saved
    match l.head? with
    | none => none
    | some m0 =>
      let c := clusterOf m0.uid
      let tied := l.any fun m => s.tied (g.holderOf m)
      let rows := l.any fun m => (s.cluster c).heldRows (g.holderOf m) != 0
      let surrogate := match g.tile with
        | some (_, _, _, exact) => !exact
        | none => false
      some
        { crew := k, cluster := if tied || rows || surrogate then some c else none
          blocks := (l.map fun m => taskMrows g.record - (s.cluster c).heldBack (g.holderOf m)).foldl (· + ·) 0
          spad := taskSpad g.record
          strands := l.map fun m => ⟨m.pos, m.lanes, if tied then some m.uid else none⟩ }

end Sys2Proof.Machine
end

