-- ==== Sys2Proof/Machine/Tiles.lean ====
section
/-!
DEFINITION. The tiles of guarded launches as data (R414 to R423): staging parts, judgement, discards, the end of a launch,
and outcome records. What places tiles and what runs them follows in Cox.lean and Assayer.lean.
-/

namespace Sys2Proof.Machine

/-! ### Launches -/

/-- The launch of a cluster with a serial number. -/
def State.launchAt (s : State) (c serial : Nat) : Option Guarded :=
  (s.cluster c).launches.find? fun l => l.serial = serial

/-- The identity under which a record names a gang that has ended: its task, or, for a tile run, the task that executed
GLAUNCH (R414). -/
def State.taskOf (s : State) (g : Gang) : Word :=
  match g.tile with
  | none => g.task
  | some (c, l, _, _) => ((s.launchAt c l).map (·.task)).getD 0

/-- Change a cluster. -/
def State.modCluster (s : State) (c : Nat) (f : Cluster → Cluster) : State := s.setCluster c (f (s.cluster c))

/-- The cluster with a launch changed. -/
def Cluster.modLaunch (k : Cluster) (serial : Nat) (f : Guarded → Guarded) : Cluster :=
  { k with launches := k.launches.map fun l => if l.serial = serial then f l else l }

/-- The LEVEL of a tile (R415). -/
def Guarded.tileLevel (l : Guarded) (exact : Bool) : Nat :=
  if exact then min (l.level + 1) (if l.level ≤ 9 then 9 else 11) else l.level

/-- The record of tile `t` (R414). -/
def Guarded.tileRecord (l : Guarded) (t : Nat) (exact : Bool) : BitVec 512 :=
  let r := if exact then l.exact else l.surrogate
  withArg r (taskArg r + BitVec.ofNat 64 (64 * t))

/-- The staging parts that a launch's tiles hold (R416). -/
def Guarded.parts (l : Guarded) : List Nat := l.tiles.filterMap (·.part) ++ l.judged.filterMap (·.part)

/-- The lowest free part of an active launch. -/
def Guarded.freePart (l : Guarded) : Option Nat := (List.range 8).find? fun p => !l.parts.contains p

/-- The staging lines in use. -/
def Guarded.linesUsed (l : Guarded) : Nat :=
  (l.tiles.map fun t => t.lines.length).foldl (· + ·) 0
    + ((l.judged.filter fun j => j.part.isSome).map fun j => j.lines).foldl (· + ·) 0

/-- ASTAT (R427). -/
def Cluster.astat (k : Cluster) : Word :=
  match k.launches.find? (·.active) with
  | none => 0
  | some l => BitVec.ofNat 64 (record [(1, 0), (l.parts.length, 1), (l.linesUsed, 8), (l.left, 32)])

/-! ### The end of a launch (R415) -/

/-- The staging range of a cluster: first local address. -/
def stagingBase (c : Nat) : Nat := spadAddr c 0x7c0000

/-- The staging lines return to the window: full, tagged 0, with undefined contents (R7, R415). -/
def State.returnStaging (s : State) (c : Nat) : State :=
  let line0 := stagingBase c / 128
  let word0 := stagingBase c / 8
  let bytes := (List.range 0x8000).flatMap fun i => bytesOfNat 8 (Config.freeWord (s.draws + i)).toNat
  { s with
    draws := s.draws + 0x8000
    lmem := storeBytes s.lmem (stagingBase c) (writeAll bytes)
    tags := s.tags.filter fun e => !(line0 ≤ e.1 && e.1 < line0 + 2048)
    empties := s.empties.filter fun l => !(line0 ≤ l && l < line0 + 2048)
    localMarks := s.localMarks.filter fun w => !(word0 ≤ w && w < word0 + 0x8000) }

/-- A surrogate tile of an active launch has committed or been discarded; the last one ends the launch. -/
def State.tileLeft (s : State) (c serial : Nat) : State :=
  match s.launchAt c serial with
  | none => s
  | some l =>
    let ends := l.active && l.left ≤ 1
    let s := s.modCluster c fun k => k.modLaunch serial fun l => { l with left := l.left - 1, active := l.active && !ends }
    if ends then s.returnStaging c else s

/-! ### Outcomes (R422, R423) -/

/-- The outcome record of a tile, but for its TICK, which is set as the record is written. -/
def outcomeRecord (l : Guarded) (j : Judged) (exact exit : Nat) : Nat :=
  record [(j.index, 0), (j.outcome, 32), (exact, 36), (j.cstat, 40), (j.ec.toNat, 48), (j.residual.toNat, 64),
    (l.tol.toNat, 96), (j.held, 128), (j.committed, 160), (j.lines, 192), (exit, 256)]

/-- A launch has nothing left to run, commit or report. -/
def Guarded.finished (l : Guarded) : Bool := l.nextTile = l.n && l.tiles.isEmpty && l.judged.isEmpty

/-- A tile ends: its outcome record and its counter are to be written (R422). -/
def State.tileOutcome (s : State) (c serial : Nat) (j : Judged) (exact exit : Nat) : State :=
  match s.launchAt c serial with
  | none => s
  | some l =>
    let ctgt := taskCtgt l.surrogate
    let e : Completion :=
      { queue := l.queue, owner := l.owner, mode := l.mode, addr := ctgt + BitVec.ofNat 64 (64 + 64 * j.index)
        data := bytesOfNat 64 (outcomeRecord l j exact exit), counter := ctgt + 8, untimed := true }
    let s := s.modCox fun x => { x with completions := x.completions ++ [e] }
    s.modCluster c fun k =>
      let k := k.modLaunch serial fun l =>
        { l with judged := l.judged.filter (fun i => i.index != j.index)
                 exactWaiting := l.exactWaiting.filter fun i => i.1 != j.index }
      { k with launches := k.launches.filter fun l => !(l.serial = serial && l.finished) }

/-! ### Judgement (R420) -/

/-- The counter of R426 that a judgement raises. -/
def Cluster.countJudged (k : Cluster) (outcome committed : Nat) : Cluster :=
  let k := { k with acommit := satAdd k.acommit committed }
  match outcome with
  | 1 => { k with apass := satAdd k.apass 1 }
  | 2 => { k with aredo := satAdd k.aredo 1 }
  | 3 => { k with aovf := satAdd k.aovf 1 }
  | 4 => { k with acfail := satAdd k.acfail 1 }
  | _ => k

/-- A tile is judged: it ends, or its exact tile becomes a candidate (R415, R420, R422). -/
def State.settleTile (s : State) (c serial : Nat) (j : Judged) : State :=
  let s := s.modCluster c (·.countJudged j.outcome j.committed)
  let j : Judged := { j with part := none, pending := [] }
  let again := decide (2 ≤ j.outcome) && decide (j.outcome ≤ 4)
  let exact := if again then [(j.index, s.tick.toNat, s.steps)] else []
  let s := s.modCluster c fun k => k.modLaunch serial fun l =>
    { l with judged := l.judged.filter (fun i => i.index != j.index) ++ [j], exactWaiting := l.exactWaiting ++ exact }
  let s := s.tileLeft c serial
  if again then s else s.tileOutcome c serial j 0 0

/-- An uncorrectable error lies in a staging line that a tile has used (R420). -/
def State.stagingBad (s : State) (c : Nat) (t : Tile) : Bool :=
  match t.part with
  | none => false
  | some p => t.lines.zipIdx.any fun e =>
      (List.range 16).any fun k => s.localMarks.contains (stagingAddr c p e.2 (8 * k) / 8)

/-- A tile that has run, before its judgement. -/
def Tile.judged (t : Tile) (outcome : Nat) (ec : Bool) : Judged :=
  { index := t.index, outcome := outcome, residual := t.residual, ec := ec
    held := (t.lines.map fun e => e.2.length).foldl (· + ·) 0, lines := t.lines.length, cstat := 0, committed := 0
    pending := [], exactGang := 0, part := none }

/-- The residual is numerically at or below the tolerance: false where either is a NaN. -/
def withinTol (residual tol : BitVec 32) : Bool := (FFmt.f32.cond .le residual.toNat tol.toNat).1

/-- The last strand of a surrogate tile has ended: the judgement (R420). `ended`: every strand ended by GEND; otherwise the
tile was stopped, by an overflow or a kill (R418, R425). -/
def State.judgeTile (s : State) (c serial gang : Nat) (ended : Bool) : State :=
  match s.launchAt c serial with
  | none => s
  | some l =>
    match l.tiles.find? fun t => t.gang = gang with
    | none => s
    | some t =>
      let ec := s.stagingBad c t
      let s := s.modCluster c fun k => k.modLaunch serial fun l => { l with tiles := l.tiles.filter fun e => e.gang != gang }
      if !ended then s.settleTile c serial (t.judged (if t.overflow then 3 else 5) false)
      else if !ec && withinTol t.residual l.tol then
        s.modCluster c fun k => k.modLaunch serial fun l =>
          { l with judged := l.judged ++ [{ t.judged 1 false with pending := t.lines, part := t.part }] }
      else s.settleTile c serial (t.judged 2 ec)

/-- An exact tile has ended (R422, R425): status 1 OK, 2 KILLED, 3 NOFIT. -/
def State.exactEnded (s : State) (c serial index status exit : Nat) : State :=
  match (s.launchAt c serial).bind fun l => l.judged.find? fun j => j.index = index with
  | none => s
  | some j => s.tileOutcome c serial (if status = 2 then { j with outcome := 5 } else j) status exit

/-! ### Kills (R425) -/

/-- A surrogate tile that was never placed ends KILLED. -/
def unplacedKilled (t : Nat) : Judged :=
  { index := t, outcome := 5, residual := 0, ec := false, held := 0, lines := 0, cstat := 0, committed := 0, pending := [],
    exactGang := 0, part := none }

/-- Tiles of a launch that no gang runs end KILLED: unplaced ones, those whose commit is not over, and those whose exact
tile waits. -/
def State.killTiles (s : State) (c serial : Nat) : State :=
  match s.launchAt c serial with
  | none => s
  | some l =>
    let unplaced := (List.range l.n).drop l.nextTile
    let s := s.modCluster c fun k => k.modLaunch serial fun l =>
      { l with nextTile := l.n, tiles := l.tiles.map fun t => { t with overflow := false } }
    let s := unplaced.foldl (fun s t => s.settleTile c serial (unplacedKilled t)) s
    (l.judged.filter fun j => j.exactGang = 0).foldl (fun s j =>
      if l.exactWaiting.any fun e => e.1 = j.index then s.exactEnded c serial j.index 2 0
      else s.settleTile c serial { j with outcome := 5 }) s

/-- The gangs that run a launch's tiles. -/
def Guarded.gangs (l : Guarded) : List Nat :=
  l.tiles.map (·.gang) ++ (l.judged.map (·.exactGang)).filter (· != 0)

end Sys2Proof.Machine
end

