-- ==== Sys2Proof/Machine/Cox.lean ====
section
/-!
DEFINITION. The Cox (R389 to R411): ends and stops of gangs, reports, candidates and their wait words, placement, selection,
pre-emption, and tick starts.
-/

namespace Sys2Proof.Machine

/-! ### Stopping strands and gangs (R401, R408, R441) -/

/-- A pre-emption request reaches a strand; a kill replaces another request. -/
def State.requestStop (s : State) (u reason : Nat) : State :=
  let t := s.strand u
  if t.preempt.isSome && reason != 2 then s
  else s.setStrand u { t with preempt := some ⟨reason, reason = 0 && s.rbound != 0⟩ }

/-- The contexts in which a gang's strands run. -/
def State.uidsOf (s : State) (g : Gang) : List Nat :=
  (g.strands.filter fun m => !m.ended && !m.saved && (s.strand m.uid).resident
    && decide ((s.strand m.uid).holder = g.holderOf m)).map (·.uid)

/-- The gang holds the helm context that MCTGT names, so that the Cox never pre-empts it (R457). -/
def State.holdsMctgt (s : State) (g : Gang) : Bool := (s.uidsOf g).contains s.mctgtUid

/-- The Cox stops a running gang (R401). -/
def State.stopGang (s : State) (n : Nat) : State :=
  match s.cox.gang n with
  | none => s
  | some g =>
    if g.state = .running && !s.holdsMctgt g then
      let s := s.modCox (·.modGang n fun g => { g with state := .stopping })
      (s.uidsOf g).foldl (fun s u => s.requestStop u 0) s
    else s

/-! ### Ends (R407 to R409) -/

/-- A status word (R409). -/
def statusWord9 (s : State) (status : Nat) (late : Bool) (exit : Word) : Nat :=
  record [(status, 0), (late.toNat, 8), (s.tick.toNat % 2 ^ 16, 16), (exit.toNat % 2 ^ 32, 32)]

/-- The completion block of a task is to be written (R409). -/
def State.reportTask (s : State) (q : Nat) (r : BitVec 512) (status : Nat) (late : Bool) (exit : Word) : State :=
  let e := s.cox.queueOf q
  if taskCtgt r = 0 then s
  else s.modCox fun x => { x with completions := x.completions ++
    [{ queue := q, owner := e.owner, mode := levelMode e.level.toNat, addr := taskCtgt r
       data := bytesOfNat 8 (statusWord9 s status late exit), counter := taskCtgt r + 8, untimed := false }] }

/-- A candidate is no longer waiting. -/
def Cox.dropCandidate (x : Cox) (k : CandKey) : Cox := { x with candidates := x.candidates.filter fun c => c.key != k }

/-- The operations of a gang's strands are cancelled as DCANCEL cancels them, and its matrix operations discarded (R386,
R408). -/
def State.cancelGang (s : State) (g : Gang) : State :=
  let s := g.strands.foldl (fun s m =>
    (s.opsOf (g.holderOf m)).foldl (fun s o => s.modOpWhere o.2.ident DOp.cancelled) s) s
  let drop (e : Nat × Cluster) : Nat × Cluster :=
    ⟨e.1, { e.2 with matOps := e.2.matOps.filter fun o => o.holder.1 != g.serial
                     matFail := e.2.matFail.filter fun f => f.1 != g.serial }⟩
  { s with clusters := s.clusters.map drop }

/-- The rows and reservations of a gang's strands are released (R348). -/
def State.dropRows (s : State) (g : Gang) : State :=
  let drop (e : Nat × Cluster) : Nat × Cluster := ⟨e.1, g.strands.foldl (fun k m => k.dropHolder (g.holderOf m)) e.2⟩
  { s with clusters := s.clusters.map drop }

/-- The exit code of a gang: that of strand 0 of crew 0 (R407). -/
def Gang.exit (g : Gang) : Word :=
  match g.strands.find? fun m => m.crew = 0 && m.pos = 0 && m.ended with
  | some m => m.exit
  | none => 0

/-- A strand leaves its context: its lane sets and its context are free. -/
def Strand.leave (t : Strand) : Strand :=
  { t with resident := false, lanes := [], queue := [], assembling := [], held := [], replies := [], owed := 0, openInstrs := [],
           bound := false, preempt := none, colTrap := none, issue := .running, late := [] }

/-- A strand leaves context `u`. Its reads that are under way are wanted no more, those of its matrix operations included
(R351). -/
def State.leaves (s : State) (u : Nat) : State :=
  let s := (s.endPass (clusterOf u) u (s.strand u).holder).disown u fun
    | .helm v | .fetch v | .column v _ | .stream v _ | .late v _ => v = u
    | .code _ _ | .store _ | .elem _ _ _ | .drayman _ _ | .hint _ | .matrix _ | .assayer _ | .cox | .fabric | .remote _ _ => false
  s.setStrand u (s.strand u).leave

/-- A gang ends with a status, and its task or tile with it. The operations that a killed gang has forked since its kill are
cancelled too (R408). -/
def State.finishGang (s : State) (n status : Nat) : State :=
  match s.cox.gang n with
  | none => s
  | some g =>
    let s := (s.uidsOf g).foldl State.leaves s
    let s := if g.killed then s.cancelGang g else s
    let s := s.dropRows g
    let s := s.modCox fun x =>
      { x.dropCandidate (.gang n) with
        gangs := x.gangs.filter fun h => h.serial != n
        resume := x.resume.map fun e => ⟨e.1, e.2.filter (· != n)⟩ }
    match g.tile with
    | none => s.reportTask g.queue g.record status g.late g.exit
    | some (c, l, i, true) => s.exactEnded c l i status (g.exit.toNat % 2 ^ 32)
    | some (c, l, _, false) => s.judgeTile c l n (status = 1)

/-- Every strand of a gang has ended or has been saved: it completes, or it has stopped and enters the resume list of its
queue (R402, R407, R408). -/
def State.gangCheck (s : State) (n : Nat) : State :=
  match s.cox.gang n with
  | none => s
  | some g =>
    if !g.strands.all fun m => m.ended || m.saved then s
    else if g.killed then s.finishGang n 2
    else if g.strands.any (·.saved) then
      s.modCox fun x =>
        { x.modGang n fun g => { g with state := .stopped } with
          resume := Tab.set x.resume g.queue (Tab.get [] x.resume g.queue ++ [n]) }
    else s.finishGang n 1

/-- A strand ends (R348, R407, R420). -/
def State.strandEnds (s : State) (u : Nat) (exit : Word) : State :=
  let t := s.strand u
  let s := s.modCluster (clusterOf u) (·.dropHolder t.holder)
  let s := s.leaves u
  let upd (m : GangStrand) : GangStrand := { m with ended := true, exit := exit, kept := t.kept }
  (s.modCox (·.modGang t.gang fun g => g.modStrand t.crew t.pos upd)).gangCheck t.gang

/-- A pre-empted strand ends: it keeps its rows, and the Cox records what it needs to resume it (R438, R442). -/
def State.strandSaved (s : State) (u : Nat) : State :=
  let t := s.strand u
  let narrow := t.rlanes.getLsbD 2 && t.wfree && t.mgrant = 0
  let upd (m : GangStrand) : GangStrand :=
    { m with saved := true, ctxptr := t.ctxptr, kept := t.kept, mode := t.preempted.getD .user
             lanes := if narrow then 2 ^ (t.rlanes.extractLsb' 0 2).toNat else t.lanes.length }
  let s := s.modCluster (clusterOf u) fun k =>
    { k with blocks := k.blocks.map fun e => ⟨e.1, if e.2.reservedFor t.holder then .free else e.2⟩ }
  let s := s.leaves u
  (s.modCox (·.modGang t.gang fun g => g.modStrand t.crew t.pos upd)).gangCheck t.gang

/-! ### Kills (R408, R425, R458) -/

/-- The launches that a gang's strands started: cluster and serial number. -/
def State.launchesOf (s : State) (n : Nat) : List (Nat × Guarded) :=
  s.clusters.flatMap fun e => (e.2.launches.filter fun l => l.launcher = n).map fun l => (e.1, l)

/-- Strands of a gang on fenced clusters end at once (R408, R458). -/
def State.endFenced (s : State) (g : Gang) : State :=
  (s.uidsOf g).foldl (fun s u => if s.fenced.contains (clusterOf u) then s.strandEnds u 0 else s) s

/-- A gang is killed. A stopped one ends now; a running one stops, and its strands on fenced clusters end at once, those of
one that is being killed already among them. The gangs that run tiles of its launches are to be killed too. -/
def State.killOne (s : State) (n : Nat) : State × List Nat :=
  match s.cox.gang n with
  | none => (s, [])
  | some g =>
    if g.killed then (s.endFenced g, [])
    else
      let s := s.modCox (·.modGang n fun g => { g with killed := true })
      let s := s.cancelGang g
      let l := s.launchesOf n
      let s := l.foldl (fun s e => s.killTiles e.1 e.2.serial) s
      let more := l.flatMap fun e => e.2.gangs
      match g.state with
      | .stopped => (s.finishGang n 2, more)
      | .running | .stopping =>
        let s := s.modCox (·.modGang n fun g => { g with state := .stopping })
        ((s.uidsOf g).foldl (fun s u =>
          if s.fenced.contains (clusterOf u) then s.strandEnds u 0 else s.requestStop u 2) s, more)

/-- Gangs are killed, and those that run tiles of their launches. -/
def killGangs : Nat → List Nat → State → State
  | 0, _, s => s
  | _ + 1, [], s => s
  | k + 1, n :: t, s =>
    let (s, more) := s.killOne n
    killGangs k (t ++ more) s

/-- A gang is killed. -/
def State.killGang (s : State) (n : Nat) : State := killGangs 8192 [n] s

/-- The place of a task among the waiting records of a queue. -/
def Cox.waitingAt (x : Cox) (q : Nat) (task : Word) : Option Nat := (Tab.get [] x.waiting q).findIdx? (· == task)

/-- The records before place `i` move up by one ring slot. -/
def State.closeRing (s : State) (q : Nat) : Nat → State
  | 0 => s
  | i + 1 =>
    let e := s.cox.queueOf q
    let s := s.deviceLog (e.slot (e.head + BitVec.ofNat 32 i)) 64
    let r := s.deviceRead (e.slot (e.head + BitVec.ofNat 32 i)) 64
    (s.deviceWrite (e.slot (e.head + BitVec.ofNat 32 (i + 1))) 64 r).closeRing q i

/-- A waiting record leaves its queue: HEAD rises by 1 (R390). -/
def State.removeRecord (s : State) (q i : Nat) : State :=
  (s.closeRing q i).modCox fun x =>
    { x.modQueue q fun e => { e with head := e.head + 1 } with
      waiting := Tab.set x.waiting q ((Tab.get [] x.waiting q).eraseIdx i) }

/-- A waiting task ends with a status and is never placed. -/
def State.finishRecord (s : State) (q : Nat) (task : Word) (status : Nat) : State :=
  match s.cox.waitingAt q task with
  | none => s
  | some i =>
    let r := s.ringRecord q ((s.cox.queueOf q).head + BitVec.ofNat 32 i)
    let late := s.cox.candidates.any fun c => c.key = .record task && c.late
    ((s.removeRecord q i).modCox (·.dropCandidate (.record task))).reportTask q r status late 0

/-! ### Reports (R409, R422) -/

/-- The agent of the Cox's accesses. -/
def coxAgent (owner : Owner) (mode : Mode) : Agent := ⟨0, mode, owner, 0, 0, 0⟩

/-- Where an access of the Cox goes: translated storage alone. -/
def State.coxPlace (s : State) (owner : Owner) (mode : Mode) (acc : Acc) (va : Word) (n : Nat) : Option Target × State :=
  match s.resolve (coxAgent owner mode) acc va n with
  | (.ok (.target t), s) => (some t, s)
  | (.ok (.local _), s) | (.ok (.control _), s) => (none, s)
  | (.error f, s) => (none, s.logIfViolation (coxAgent owner mode) acc va f)

/-- One access of the Cox: its answer is used up. A refusal by its home is logged (R46). -/
def State.coxAsk (s : State) (mode : Mode) (acc : Acc) (t : Target) (op : RemoteOp) : Option Answer × State :=
  match s.access .cox acc 0 t op with
  | (some a, s) =>
    let s : State := { s with arrived := s.arrived.filter fun e => !e.matches .cox t op }
    (some a, match a with
      | .violation => s.logViolation (coxAgent t.owner mode) s.modnum t.va false acc 5
      | .unimplemented => s.logViolation (coxAgent t.owner mode) s.modnum t.va false acc 7
      | .bytes _ | .claimed _ _ | .acked | .outside | .hostDetached | .poisoned | .remoteFault | .failed _ => s)
  | r => r

/-- How a write of a report has gone. -/
inductive Posted where
  | done
  | dropped
  | waits
  deriving DecidableEq, Repr

/-- What an answer means to a report. -/
def postedOf : Option Answer → Posted
  | none => .waits
  | some (.bytes _) | some (.claimed _ _) | some .acked => .done
  | some .violation | some .unimplemented | some .outside | some .hostDetached | some .poisoned | some .remoteFault
  | some (.failed _) => .dropped

/-- Targets of a report's pieces: none where one of them cannot be written. -/
def State.reportTargets (s : State) (e : Completion) : List (Word × Nat) → Option (List (Target × Nat)) × State
  | [] => (some [], s)
  | p :: l =>
    match s.coxPlace e.owner e.mode .write p.1 p.2 with
    | (none, s) => (none, s)
    | (some t, s) =>
      match s.reportTargets e l with
      | (some r, s) => (some ((t, p.2) :: r), s)
      | (none, s) => (none, s)

/-- Write the pieces of a report, in order, as far as they go at once: the number of bytes written, and how it went. -/
def State.writeReport (s : State) (mode : Mode) (data : List Byte) : List (Target × Nat) → Nat × Posted × State
  | [] => (0, .done, s)
  | (t, n) :: l =>
    match s.coxAsk mode .write t (.store (writeAll (data.take n))) with
    | (a, s) =>
      match postedOf a with
      | .done =>
        let (k, p, s) := s.writeReport mode (data.drop n) l
        (n + k, p, s)
      | p => (0, p, s)

/-- An outcome record as it is written: its TICK, bits 255:224, is the low 32 bits of `tick` then (R423). -/
def Completion.timed (e : Completion) (tick : Word) : Completion :=
  if e.untimed then
    { e with data := e.data.take 28 ++ bytesOfNat 4 (tick.toNat % 2 ^ 32) ++ e.data.drop 32, untimed := false }
  else e

/-- The requests that carry a piece of a report: one, but for a piece on another module that crosses a granule boundary,
which no request does (R101). -/
def reportRequests (e : Target × Nat) : List (Target × Nat) :=
  let t := e.1
  let part (p : Word × Nat) : Target × Nat :=
    ({ t with pa := p.1.toNat, va := t.va + BitVec.ofNat 64 (p.1.toNat - t.pa) }, p.2)
  if t.module.isNone then [e] else (unitPieces 256 (BitVec.ofNat 64 t.pa) e.2).map part

/-- The data of a report: what is left of it, and the state. It is one write where it lies in one page (R409, R422; log 108
where it does not). -/
def State.postData (s : State) (e : Completion) : Completion × State :=
  match s.reportTargets e (unitPieces 4096 e.addr e.data.length) with
  | (none, s) => ({ e with data := [] }, s.modCox (·.modQueue e.queue Queue.countError))
  | (some l, s) =>
    let l := l.flatMap reportRequests
    let e := e.timed s.tick
    let (k, p, s) := s.writeReport e.mode e.data l
    match p with
    | .done => ({ e with data := [] }, s)
    | .waits => ({ e with addr := e.addr + BitVec.ofNat 64 k, data := e.data.drop k }, s)
    | .dropped => ({ e with data := [] }, s.modCox (·.modQueue e.queue Queue.countError))

/-- The counter of a report: none once it is lowered or dropped. -/
def State.postCounter (s : State) (e : Completion) : Option Completion × State :=
  match s.coxPlace e.owner e.mode .atomic e.counter 8 with
  | (none, s) => (none, s.modCox (·.modQueue e.queue Queue.countError))
  | (some t, s) =>
    match s.coxAsk e.mode .atomic t (.amo .add .d (2 ^ 64 - 1)) with
    | (a, s) =>
      match postedOf a with
      | .done => (none, s)
      | .waits => (some e, s)
      | .dropped => (none, s.modCox (·.modQueue e.queue Queue.countError))

/-- Reports go on as far as they can: those that are left, whether a counter has fallen, and the state. -/
def State.postAll (s : State) : List Completion → List Completion × Bool × State
  | [] => ([], false, s)
  | e :: l =>
    let (e, s) := if e.data.isEmpty then (e, s) else s.postData e
    if !e.data.isEmpty then
      let (r, b, s) := s.postAll l
      (e :: r, b, s)
    else
      let (left, s) := s.postCounter e
      let (r, b, s) := s.postAll l
      (left.toList ++ r, left.isNone || b, s)

/-! ### Candidates (R395, R398, R404, R415) -/

/-- The key with the least number, the first of them. -/
def leastKey (l : List (Nat × CandKey)) : Option CandKey :=
  (l.foldl (fun (b : Option (Nat × CandKey)) e => match b with
    | none => some e
    | some f => if e.1 < f.1 then some e else b) none).map (·.2)

/-- The exact tile of a queue that was discarded first (R415). -/
def State.exactHead (s : State) (q : Nat) : Option CandKey :=
  leastKey (s.clusters.flatMap fun e => (e.2.launches.filter fun l => l.queue = q).flatMap fun l =>
    l.exactWaiting.map fun w => (w.2.2, CandKey.tile e.1 l.serial w.1 true))

/-- The surrogate tile of a queue with the least number that is not yet placed (R415). -/
def State.surrogateHead (s : State) (q : Nat) : Option CandKey :=
  leastKey (s.clusters.flatMap fun e => (e.2.launches.filter fun l => l.queue = q && decide (l.nextTile < l.n)).map fun l =>
    (l.nextTile, CandKey.tile e.1 l.serial l.nextTile false))

/-- The candidate of a queue (R395, R415). -/
def State.headOf (s : State) (q : Nat) : Option CandKey :=
  (s.exactHead q).or ((s.surrogateHead q).or
    (((Tab.get [] s.cox.resume q).head?.map CandKey.gang).or ((Tab.get [] s.cox.waiting q).head?.map CandKey.record)))

/-- The record of a candidate of queue `q`. -/
def State.recordOf (s : State) (q : Nat) : CandKey → BitVec 512
  | .record _ => s.ringRecord q (s.cox.queueOf q).head
  | .gang n => ((s.cox.gang n).map (·.record)).getD 0
  | .tile c l i exact => ((s.launchAt c l).map fun l => l.tileRecord i exact).getD 0

/-- The LEVEL of a gang: of its queue, as it now stands, or of a tile (R398, R401, R415). -/
def State.gangLevel (s : State) (g : Gang) : Nat :=
  if g.tile.isSome then g.level else (s.cox.queueOf g.queue).level.toNat

/-- The LEVEL of a candidate (R398, R415). -/
def State.levelOf? (s : State) (q : Nat) : CandKey → Nat
  | .record _ => (s.cox.queueOf q).level.toNat
  | .gang n => ((s.cox.gang n).map s.gangLevel).getD 0
  | .tile c l _ exact => ((s.launchAt c l).map fun l => l.tileLevel exact).getD 0

/-- The tick from which a tile ages (R415). -/
def State.tileSince (s : State) : CandKey → Option Nat
  | .record _ | .gang _ => none
  | .tile c l i exact =>
    (s.launchAt c l).map fun l =>
      if exact then ((l.exactWaiting.find? fun e => e.1 = i).map (·.2.1)).getD s.tick.toNat else l.since

/-- Whether a key names a tile run, whose record has no wait words and is not tick-bound (R413). -/
def State.isTile (s : State) : CandKey → Bool
  | .record _ => false
  | .gang n => (s.cox.gang n).any fun g => g.tile.isSome
  | .tile _ _ _ _ => true

/-- The wait words of a candidate. -/
def State.waitsOf (s : State) (q : Nat) (k : CandKey) : List Word := if s.isTile k then [] else taskWaits (s.recordOf q k)

/-- A candidate as it first becomes one, at a tick start or not: its wait words are to be read. -/
def State.newCandidate (s : State) (start : Bool) (q : Nat) (k : CandKey) : Candidate :=
  let e := s.cox.queueOf q
  let g := match k with
    | .gang n => s.cox.gang n
    | .record _ | .tile _ _ _ _ => none
  { queue := q, key := k, unread := s.waitsOf q k, above := false, atTick := start && e.on && !e.stop, early := false
    satisfied := (s.waitsOf q k).isEmpty
    since := s.tileSince k, skips := 0, startLevel := none, blocker := none, released := g.any (·.released)
    late := g.any (·.late), victims := [], reserved := [] }

/-- The candidate of a key. -/
def Cox.candidate (x : Cox) (k : CandKey) : Option Candidate := x.candidates.find? fun c => c.key = k

/-- The Cox with a candidate changed. -/
def Cox.modCandidate (x : Cox) (k : CandKey) (f : Candidate → Candidate) : Cox :=
  { x with candidates := x.candidates.map fun c => if c.key = k then f c else c }

/-- How a reading of wait words has gone. -/
inductive WaitRead where
  /-- all have been read; `above`: one of them stands above 0. -/
  | read (above : Bool)
  | bad
  | waits (above : Bool) (left : List Word)
  deriving DecidableEq, Repr

/-- Read wait words as signed 64-bit values under the queue's owner, every one of them (R395). One that cannot be read, and
meets no fault, counts as above 0. -/
def State.readWaits (s : State) (owner : Owner) (mode : Mode) (above : Bool) : List Word → WaitRead × State
  | [] => (.read above, s)
  | va :: l =>
    match s.coxPlace owner mode .read va 8 with
    | (none, s) => (.bad, s)
    | (some t, s) =>
      match s.coxAsk mode .read t (.load 8) with
      | (none, s) => (.waits above (va :: l), s)
      | (some (.bytes b), s) => s.readWaits owner mode (above || decide (0 < (BitVec.ofNat 64 (natOfBytes b)).toInt)) l
      | (some .violation, s) | (some .unimplemented, s) | (some .outside, s) | (some .hostDetached, s)
      | (some .remoteFault, s) => (.bad, s)
      | (some .poisoned, s) =>
        (s.consume (coxAgent owner mode) t.pa (s.levelOf t) 0).1.readWaits owner mode true l
      | (some (.claimed _ _), s) | (some .acked, s) | (some (.failed _), s) => s.readWaits owner mode true l

/-- A candidate after a reading: tick-bound ones are released by a reading that began at a tick start (R404). -/
def Candidate.haveRead (c : Candidate) (b : Bool) : Candidate :=
  { c with unread := [], above := false, satisfied := b, released := if c.atTick then b else c.released, atTick := false }

/-- A candidate that cannot go on ends with a status (R395, R397). -/
def State.finishKey (s : State) (q : Nat) (k : CandKey) (status : Nat) : State :=
  match k with
  | .record task => s.finishRecord q task status
  | .gang n =>
    match s.cox.gang n with
    | some g => (s.cancelGang g).finishGang n status
    | none => s
  | .tile c l i true => (s.exactEnded c l i status 0).modCox (·.dropCandidate k)
  | .tile c l _ false => (s.killTiles c l).modCox (·.dropCandidate k)

/-- A candidate would be eligible as the one of its queue: the queue is selected from, its wait words are satisfied, and a
tick-bound one is released (R395, R404). -/
def State.allows (s : State) (c : Candidate) : Bool :=
  let e := s.cox.queueOf c.queue
  e.on && !e.stop && c.satisfied && (c.released || s.isTile c.key || !taskTb (s.recordOf c.queue c.key))

/-- A candidate is eligible: it is its queue's candidate, and nothing holds it back (R395, R404). -/
def State.eligible (s : State) (c : Candidate) : Bool := s.headOf c.queue = some c.key && s.allows c

/-- The effective level of a candidate (R398). -/
def State.effLevel (s : State) (c : Candidate) : Nat :=
  let level := s.levelOf? c.queue c.key
  let w := s.tick.toNat - c.since.getD s.tick.toNat
  if 9 ≤ level then level else min (level + w / 8) 9

/-- The candidate is a record that has not started. -/
def CandKey.isRecord : CandKey → Bool
  | .record _ => true
  | .gang _ | .tile _ _ _ _ => false

/-- The reading of a candidate that began at a tick start has ended: whether it was eligible then, and with what level
(R400). -/
def State.markStart (s : State) (k : CandKey) : State :=
  match s.cox.candidate k with
  | none => s
  | some c =>
    if s.allows c && (c.early || s.headOf c.queue = some k) then
      s.modCox fun x =>
        { x.modCandidate k (fun c => { c with startLevel := some (s.effLevel c) }) with topLevel := max x.topLevel (s.effLevel c) }
    else s

/-- The wait words of a candidate have been read: `b` says whether all are at or below 0. -/
def State.endReading (s : State) (c : Candidate) (b : Bool) : State :=
  let s := s.modCox (·.modCandidate c.key (·.haveRead b))
  if c.atTick then s.markStart c.key else s

/-- A gang that was being stopped as its wait words were read is its queue's candidate now, for which they are read again
(R395). -/
def Candidate.arrives (c : Candidate) (waits : List Word) : Candidate :=
  if c.early && c.unread.isEmpty then { c with early := false, unread := waits, above := false } else c

/-- The reading of a candidate's wait words goes on: whether the candidate has ended, and the state. One that is still being
stopped ends no more than its reading where a word cannot be read. -/
def State.readOn (s : State) (c : Candidate) : Bool × State :=
  let e := s.cox.queueOf c.queue
  if c.unread.isEmpty then (false, if c.atTick then s.endReading c c.satisfied else s)
  else
    match s.readWaits e.owner (levelMode e.level.toNat) c.above c.unread with
    | (.read above, s) => (false, s.endReading c !above)
    | (.waits above l, s) => (false, s.modCox (·.modCandidate c.key fun c => { c with unread := l, above := above }))
    | (.bad, s) => if c.early then (false, s.endReading c false) else (true, s.finishKey c.queue c.key 4)

/-- The Cox considers the candidate of a queue, at a tick start or not: whether it has ended, and the state. Its wait words
are read whether or not the queue is selected from (R395); that it can never fit is found where it is (R397, log 109). -/
def State.considerHead (s : State) (start : Bool) (q : Nat) : Bool × State :=
  let e := s.cox.queueOf q
  match s.headOf q with
  | none => (false, s)
  | some k =>
    if e.on && !e.stop && decide (s.inService.length < taskCrews (s.recordOf q k)) then (true, s.finishKey q k 3)
    else
      match s.cox.candidate k with
      | some c =>
        let go (s : State) (c : Candidate) : Bool × State :=
          let c := c.arrives (s.waitsOf q k)
          (s.modCox (·.modCandidate k fun _ => c)).readOn c
        let (a, s) := go s c
        match s.cox.candidate k with
        | some d => if a || !d.early || !d.unread.isEmpty then (a, s) else go s d
        | none => (a, s)
      | none =>
        let s := if k.isRecord then s.deviceLog (e.slot e.head) 64 else s
        let c := s.newCandidate start q k
        (s.modCox fun x => { x with candidates := x.candidates ++ [c] }).readOn c

/-- A queue is considered: its candidate, and the gangs of its own that are being stopped and are to be candidates. -/
def State.consider (s : State) (start : Bool) (q : Nat) : Bool × State :=
  let (a, s) := s.considerHead start q
  let early := s.cox.candidates.filter fun c => c.queue = q && c.early && s.headOf q != some c.key
  (a, early.foldl (fun s c => (s.readOn c).2) s)

/-- The candidates are considered, queue by queue: whether one has ended. -/
def considerAll (start : Bool) : List Nat → State → Bool × State
  | [], s => (false, s)
  | q :: l, s =>
    let (a, s) := s.consider start q
    let (b, s) := considerAll start l s
    (a || b, s)

/-- The candidates at a tick start: where one has ended, the next of its queue is the candidate at that start too. -/
def considerStart : Nat → State → State
  | 0, s => s
  | n + 1, s =>
    match considerAll true (List.range 64) s with
    | (true, s) => considerStart n s
    | (false, s) => s

/-- Eligible candidates begin to age. -/
def State.startAging (s : State) : State :=
  let upd (c : Candidate) : Candidate :=
    if s.eligible c && c.since.isNone then { c with since := some s.tick.toNat } else c
  s.modCox fun x => { x with candidates := x.candidates.map upd }

/-! ### Placement (R396, R402, R414) -/

/-- The crews that a candidate asks for: none while a surrogate tile finds no part. -/
def State.wantsOf (s : State) (c : Candidate) : Option (List CrewWant) :=
  match c.key with
  | .record _ => some (newWants (s.recordOf c.queue c.key) none)
  | .gang n => (s.cox.gang n).map s.resumeWants
  | .tile _ _ _ true => some (newWants (s.recordOf c.queue c.key) none)
  | .tile k l _ false =>
    if ((s.launchAt k l).bind (·.freePart)).isSome then some (newWants (s.recordOf c.queue c.key) (some k)) else none

/-- The gang that a candidate already is. -/
def CandKey.self : CandKey → Nat
  | .gang n => n
  | .record _ | .tile _ _ _ _ => 0

/-- Where a candidate would be placed, with some gangs taken as removed. -/
def State.fits (s : State) (gone : List Nat) (c : Candidate) : Option (List Placed) :=
  let bar := if (s.cox.queueOf c.queue).level.toNat < 10 then some s.mctgtUid else none
  (s.wantsOf c).bind fun w =>
    placeCrews (s.roomOf gone (some c.key) c.key.self) bar s.inService w (w.filterMap (·.cluster))

/-- The least charge among the other resident strands of a cluster, 0 where there are none (R411). -/
def State.leastCharge (s : State) (u : Nat) : Nat :=
  let l := ((clusterStrands (clusterOf u)).filter fun v => v != u && (s.strand v).resident).map fun v =>
    Tab.get 0 (s.cluster (clusterOf u)).charge v
  (l.foldl (fun (b : Option Nat) v => some (match b with
    | none => v
    | some w => min v w)) none).getD 0

/-- Reserve blocks of a cluster for a strand (R347, R392). -/
def Cluster.reserve (k : Cluster) (h : Holder) (n : Nat) : Cluster :=
  let l := (k.blocksWhere (· == .free)).take n
  { k with blocks := l.foldl (fun t b => Tab.set t b (.reserved h.1 h.2.1 h.2.2)) k.blocks }

/-- The strand of a gang as it starts (R177, R241, R394). -/
def startStrand (s : State) (g : Gang) (p : Placed) : Strand :=
  { Strand.empty with
    resident := true, gang := g.serial, crew := p.crew, pos := p.pos, pc := codeAddr (taskPc g.record)
    x := ((Vector.replicate 32 (0 : Word)).set 1 (taskArg g.record)).set 2 (BitVec.ofNat 64 (p.pos + 8 * p.crew))
    lanes := p.lanes, mode := levelMode (s.cox.queueOf g.queue).level.toNat, owner := g.owner
    share := taskShare g.record, tvec := s.fwTvec, ftvec := codeAddr Config.romFtvec }

/-- The strand of a gang as it resumes (R442). -/
def resumedStrand (s : State) (g : Gang) (p : Placed) (m : GangStrand) : Strand :=
  { startStrand s g p with
    x := Vector.replicate 32 0, mode := .kernel, pc := s.fwTvec, cause := causeWord 129 0 0, tval := m.ctxptr
    kept := m.kept, mgrant := (s.cluster (clusterOf p.uid)).heldRows (g.holderOf m), resumeMode := some m.mode }

/-- A strand starts or resumes in its context: the acquire of R393, the charge of R411, the reservation of R347. -/
def State.putStrand (s : State) (g : Gang) (p : Placed) (t : Strand) : State :=
  let c := clusterOf p.uid
  let v := s.leastCharge p.uid
  let h : Holder := (g.serial, p.crew, p.pos)
  let s := s.setStrand p.uid t
  let s := s.modCluster c fun k =>
    { k.reserve h (taskMrows g.record - k.heldBack h) with
      charge := Tab.set k.charge p.uid v
      matOps := k.matOps.map fun o => if o.holder = h then { o with uid := p.uid } else o }
  s.dropData (helmOf p.uid) noLine

/-- A gang's strand before it has run. -/
def newGangStrand (p : Placed) : GangStrand :=
  { crew := p.crew, pos := p.pos, uid := p.uid, ended := false, saved := false, ctxptr := 0, lanes := p.lanes.length,
    mode := .user, kept := Kept.start, exit := 0 }

/-- A new gang runs. -/
def State.startGang (s : State) (g : Gang) (plan : List Placed) : State :=
  let s := s.modCox fun x => { x with gangs := x.gangs ++ [g], nextGang := x.nextGang + 1, nextStart := x.nextStart + 1 }
  plan.foldl (fun s p => s.putStrand g p (startStrand s g p)) s

/-- The gang of a candidate that starts. -/
def State.gangOf (s : State) (c : Candidate) (plan : List Placed) : Gang :=
  let q := s.cox.queueOf c.queue
  let l := match c.key with
    | .tile k l _ _ => s.launchAt k l
    | .record _ | .gang _ => none
  { serial := s.cox.nextGang
    task := match c.key with
      | .record t => t
      | .gang _ | .tile _ _ _ _ => 0
    queue := c.queue, level := s.levelOf? c.queue c.key, owner := (l.map (·.owner)).getD q.owner
    record := s.recordOf c.queue c.key, state := .running, strands := plan.map newGangStrand
    started := s.cox.nextStart, released := c.released, late := c.late, killed := false
    tile := match c.key with
      | .tile k l i e => some (k, l, i, e)
      | .record _ | .gang _ => none }

/-- A stopped gang resumes. -/
def State.resumeGang (s : State) (n : Nat) (released : Bool) (plan : List Placed) : State :=
  match s.cox.gang n with
  | none => s
  | some g =>
    let s := s.modCox fun x =>
      { x.modGang n (fun g =>
          { g with
            state := .running, started := x.nextStart, released := released
            strands := g.strands.map fun m =>
              match plan.find? fun p => p.crew = m.crew && p.pos = m.pos with
              | some p => if m.saved then { m with uid := p.uid, saved := false } else m
              | none => m }) with
        nextStart := x.nextStart + 1
        resume := x.resume.map fun e => ⟨e.1, e.2.filter (· != n)⟩ }
    plan.foldl (fun s p =>
      match g.strands.find? fun m => m.crew = p.crew && m.pos = p.pos with
      | some m => s.putStrand g p (resumedStrand s g p m)
      | none => s) s

/-- Place a candidate. -/
def State.place (s : State) (c : Candidate) (plan : List Placed) : State :=
  let g := s.gangOf c plan
  let s := s.modCox (·.dropCandidate c.key)
  match c.key with
  | .record _ => (s.removeRecord c.queue 0).startGang g plan
  | .gang n => s.resumeGang n c.released plan
  | .tile k l i false =>
    let s := s.modCluster k fun x => x.modLaunch l fun y =>
      { y with
        nextTile := y.nextTile + 1
        tiles := y.tiles ++ [{ index := i, gang := g.serial, part := y.freePart, residual := 0, lines := [], overflow := false }] }
    s.startGang g plan
  | .tile k l i true =>
    let s := s.modCluster k fun x => x.modLaunch l fun y =>
      { y with
        exactWaiting := y.exactWaiting.filter fun e => e.1 != i
        judged := y.judged.map fun j => if j.index = i then { j with exactGang := g.serial } else j }
    s.startGang g plan

/-! ### Selection (R399 to R401) -/

/-- A gang may be a victim sooner: lower LEVEL, or, at equal LEVEL, a later start. -/
def State.sooner (s : State) (g h : Gang) : Bool :=
  s.gangLevel g < s.gangLevel h || (s.gangLevel g = s.gangLevel h && h.started < g.started)

/-- Insert a gang in the order of victims. -/
def State.insertGang (s : State) (g : Gang) : List Gang → List Gang
  | [] => [g]
  | h :: t => if s.sooner g h then g :: h :: t else h :: s.insertGang g t

/-- The shortest prefix of a list of gangs after whose removal the candidate fits. -/
def State.victimPrefix (s : State) (c : Candidate) (stopping : List Nat) : List Nat → List Nat → Option (List Nat)
  | l, [] => if (s.fits (stopping ++ l) c).isSome then some l else none
  | l, g :: t => if (s.fits (stopping ++ l) c).isSome then some l else s.victimPrefix c stopping (l ++ [g]) t

/-- The victims of a candidate (R401). -/
def State.victims (s : State) (c : Candidate) : Option (List Nat) :=
  let level := s.levelOf? c.queue c.key
  let stopping := (s.cox.gangs.filter fun g => g.state = .stopping).map (·.serial)
  let l := (s.cox.gangs.filter fun g => g.state = .running && s.gangLevel g < level && !s.holdsMctgt g).foldr s.insertGang []
  s.victimPrefix c stopping [] (l.map (·.serial))

/-- What a gang holds (R399): what each of its strands that run has, and the SPAD units of each of its crews. -/
def State.reservedBy (s : State) (n : Nat) : List Reserved :=
  match s.cox.gang n with
  | none => []
  | some g =>
    let strand (u : Nat) : Reserved :=
      let t := s.strand u
      { cluster := clusterOf u, ctx := some u, holder := t.holder, lanes := t.lanes
        blocks := ((s.cluster (clusterOf u)).blocksWhere (·.reservedFor t.holder)).length, spad := 0 }
    let crew (m : GangStrand) : Reserved :=
      { cluster := clusterOf m.uid, ctx := none, holder := g.holderOf m, lanes := [], blocks := 0, spad := taskSpad g.record }
    (s.uidsOf g).map strand ++ (g.strands.filter (·.pos = 0)).map crew

/-- Stop the victims of a candidate. -/
def State.takeVictims (s : State) (c : Candidate) (l : List Nat) : State :=
  let r := l.flatMap s.reservedBy
  let s := s.modCox (·.modCandidate c.key fun c => { c with victims := l, reserved := r })
  l.foldl (fun s n => s.stopGang n) s

/-- The candidates of a level, by queue number, starting after the queue that was served last. -/
def State.levelOrder (s : State) (cs : List Candidate) (level : Nat) : List Candidate :=
  let last := Tab.get 63 s.cox.last level
  ((List.range 64).map fun i => (last + 1 + i) % 64).flatMap fun q =>
    cs.filter fun c => c.queue = q && s.effLevel c = level

/-- The Cox with last[L] set. -/
def Cox.served (x : Cox) (level q : Nat) : Cox := { x with last := Tab.set x.last level q }

/-- What selection does at one level: place the first candidate that fits, or stop victims for the first that can have
them. -/
def State.selectLevel (s : State) (cs : List Candidate) (level : Nat) : Option State :=
  let order := s.levelOrder cs level
  match order.findSome? fun c => (s.fits [] c).map fun p => (c, p) with
  | some (c, p) => some ((s.place c p).modCox (·.served level c.queue))
  | none =>
    let can (c : Candidate) : Option (Candidate × List Nat) :=
      if 6 ≤ s.levelOf? c.queue c.key && c.victims.isEmpty then
        match s.victims c with
        | some (g :: l) => some (c, g :: l)
        | some [] | none => none
      else none
    (order.findSome? can).map fun e => (s.takeVictims e.1 e.2).modCox (·.served level e.1.queue)

/-- Selection from level `n` - 1 down to 0. -/
def State.select (s : State) (cs : List Candidate) : Nat → Option State
  | 0 => none
  | n + 1 =>
    match s.selectLevel cs n with
    | some s => some s
    | none => s.select cs n

/-- The oldest blocker among candidates (R400). -/
def oldestBlocker (cs : List Candidate) : Option Candidate :=
  cs.foldl (fun (b : Option Candidate) c => match c.blocker, b with
    | none, _ => b
    | some _, none => some c
    | some n, some d => if n < d.blocker.getD 0 then some c else b) none

/-- A candidate whose victims have all stopped is placed before any other decision (R399). -/
def State.claimed (s : State) : Option State :=
  let ready (c : Candidate) : Bool :=
    !c.victims.isEmpty && !c.victims.any fun n => (s.cox.gang n).any (·.placed)
  match s.cox.candidates.find? ready with
  | none => none
  | some c =>
    let s' := s.modCox (·.modCandidate c.key fun c => { c with victims := [], reserved := [] })
    some (if s.eligible c then
      match s.fits [] c with
      | some p => s'.place c p
      | none => s'
    else s')

/-- A candidate still waits. -/
def State.stillWaits (s : State) (c : Candidate) : Bool :=
  match c.key with
  | .record t => (s.cox.waitingAt c.queue t).isSome
  | .gang n => (s.cox.gang n).any fun g => g.state = .stopped || (c.early && g.state = .stopping)
  | .tile k l i true => (s.launchAt k l).any fun l => l.exactWaiting.any fun e => e.1 = i
  | .tile k l i false => (s.launchAt k l).any fun l => decide (l.nextTile ≤ i)

/-- One decision of the Cox: whether it goes on. -/
def State.decideOnce (s : State) : Bool × State :=
  let (ended, s) := considerAll false (List.range 64) s
  if ended then (true, s)
  else
    let s := (s.modCox fun x => { x with candidates := x.candidates.filter s.stillWaits }).startAging
    match s.claimed with
    | some s => (true, s)
    | none =>
      let cs := s.cox.candidates.filter s.eligible
      let cs := match oldestBlocker s.cox.candidates with
        | none => cs
        | some b => (cs.filter fun c => s.effLevel b < s.effLevel c || c.key = b.key)
      match s.select cs 12 with
      | some s => (true, s)
      | none => (false, s)

/-- The Cox decides until nothing more is placed or pre-empted (R399). -/
def decide9 : Nat → State → State
  | 0, s => s
  | n + 1, s =>
    match s.decideOnce with
    | (true, s) => decide9 n s
    | (false, s) => s

/-- The wait words of every candidate are to be read again (R395). -/
def State.readAgain (s : State) : State :=
  s.modCox fun x =>
    { x with candidates := x.candidates.map fun c => { c with unread := s.waitsOf c.queue c.key, above := false } }

/-- The Cox goes on: reports, then decisions. A counter that a report has lowered makes it read the wait words again
(R409). -/
def coxRunFrom : Nat → State → State
  | 0, s => s
  | n + 1, s =>
    let (l, fell, s') := ({ s with cox := { s.cox with completions := [] } }).postAll s.cox.completions
    let s' := s'.modCox fun x => { x with completions := l ++ x.completions }
    let s' := decide9 8192 (if fell then s'.readAgain else s')
    if s'.cox.completions.length = l.length then s' else coxRunFrom n s'

/-- The Cox goes on at an event. -/
def State.coxRun (s : State) : State := coxRunFrom 64 s

/-- The Cox is notified that a word has changed (R303, R395). -/
def State.coxNotify (s : State) : State := s.readAgain.coxRun

/-! ### Ticks (R400, R403, R404) -/

/-- A task is LATE for the first time: its queue counts it. -/
def State.countLate (s : State) (q : Nat) : State :=
  s.modCox (·.modQueue q fun e => { e with late := satInc32 e.late })

/-- A gang that is being stopped will be its queue's candidate: nothing stands ahead of the resume list, and no gang is in
the list or enters it before this one (R402, R415). -/
def State.willHead (s : State) (g : Gang) : Bool :=
  (s.exactHead g.queue).isNone && (s.surrogateHead g.queue).isNone && (Tab.get [] s.cox.resume g.queue).isEmpty
    && !s.cox.gangs.any fun h => h.queue = g.queue && h.state = .stopping && h.serial != g.serial

/-- A gang that is being stopped and will be its queue's candidate is considered at this tick start (R404): its wait words
are to be read. -/
def State.earlyCandidate (s : State) (g : Gang) : State :=
  let e := s.cox.queueOf g.queue
  let s := s.modCox (·.dropCandidate (.gang g.serial))
  if e.on && !e.stop && s.willHead g then
    s.modCox fun x =>
      { x with candidates := x.candidates ++ [{ s.newCandidate true g.queue (.gang g.serial) with early := true, released := false }] }
  else s

/-- A gang at the end of a tick (R404). One with TPRE is stopped. A stopped gang's release ends: it is released again where
it is its queue's candidate, which one that is still stopping becomes as it stops. -/
def State.gangTick (s : State) (g : Gang) : State :=
  if !taskTb g.record || g.tile.isSome then s
  else
    let s := if g.late then s else s.countLate g.queue
    let stops := g.state = .running && taskTpre g.record && !s.holdsMctgt g
    let s := if stops then s.stopGang g.serial else s
    let s := s.modCox (·.modGang g.serial fun h =>
      { h with late := true, released := g.state = .running && !stops && g.released })
    if stops || g.state = .stopping then s.earlyCandidate { g with late := true, released := false } else s

/-- A waiting candidate at the end of a tick: LATE where it was released, and skipped where it had the highest effective
level. The next tick start releases it only where it is its queue's candidate, and the queue is selected from (R404). A gang
that is being stopped waits for no place yet. -/
def State.candidateTick (s : State) (c : Candidate) : State :=
  if c.early then s
  else
  let e := s.cox.queueOf c.queue
  let start := e.on && !e.stop && s.headOf c.queue = some c.key
  let lateNow := c.key.isRecord && taskTb (s.recordOf c.queue c.key) && c.released && !c.late
  let s := if lateNow then s.countLate c.queue else s
  let skips := if c.startLevel = some s.cox.topLevel then c.skips + 1 else c.skips
  let blocks := 8 ≤ skips && c.blocker.isNone
  s.modCox fun x =>
    { x.modCandidate c.key (fun c =>
        { c with late := c.late || lateNow, skips := skips, released := false, atTick := start, startLevel := none
                 blocker := if blocks then some x.nextBlocker else c.blocker }) with
      nextBlocker := x.nextBlocker + blocks.toNat }

/-- A tick ends and the next starts. -/
def State.tickStart (s : State) : State :=
  let s := s.cox.gangs.foldl (fun s g => s.gangTick g) s
  let s := s.cox.candidates.foldl (fun s c => s.candidateTick c) s
  let fresh (e : Nat × Cluster) : Nat × Cluster := ⟨e.1, { e.2 with rebuilds := [] }⟩
  let s := { s with tick := s.tick + 1, tperiod := s.tperiodNext.getD s.tperiod, tperiodNext := none
                    clusters := s.clusters.map fresh }
  let s := s.modCox fun x => { x with topLevel := 0 }
  let s := (considerStart 8192 s.readAgain).startAging
  s.coxRun

end Sys2Proof.Machine
end

