-- ==== Sys2Proof/Machine/Sched.lean ====
section
/-!
DEFINITION. The scheduling instructions LAUNCH (R393), YIELD (R410), TICKW (R405) and TQCTL (R406 to R408).
-/

namespace Sys2Proof.Machine

/-- The queue of the task that a strand belongs to. -/
def State.queueOfStrand (s : State) (u : Nat) : Nat := ((s.cox.gang (s.strand u).gang).map (·.queue)).getD 0

/-! ### LAUNCH -/

/-- The page of a task's completion block grants W (R393). -/
def ctgtPage (u : Nat) (va : Word) : M Unit := do
  let s ← getS
  match ← placeM (s.scalarAgent u) .write va 16 with
  | .control _ => controlTrap (s.scalarAgent u) .write va
  | .local _ | .target _ => pure ()

/-- The refusal code of a LAUNCH, if it is refused (R393). -/
def State.launchRefused (s : State) (u : Nat) (r : BitVec 512) (q : Word) : Option Nat :=
  let t := s.strand u
  let e := s.cox.queueOf q.toNat
  if 63 < q.toNat then some 7
  else if !e.on then some 3
  else if t.mode = .user && t.owner != e.owner then some 2
  else if s.inService.length < taskCrews r then some 4
  else if 2 ^ e.size.toNat ≤ e.length then some 1
  else none

/-- A record is queued: the identity of its task, and the state (R393). -/
def State.enqueueTask (s : State) (q : Nat) (r : BitVec 512) : Word × State :=
  let e := s.cox.queueOf q
  let task := BitVec.ofNat 64 (s.cox.nextSeq * 64 + q)
  let s := s.deviceWrite (e.slot e.tail) 64 r.toNat
  (task, s.modCox fun x =>
    { x.modQueue q fun e => { e with tail := e.tail + 1 } with
      nextSeq := x.nextSeq + 1
      waiting := Tab.set x.waiting q (Tab.get [] x.waiting q ++ [task]) })

/-- LAUNCH (R393). An accepted one is a release at module scope. -/
def execLaunch (xd xa xb : Reg) (s : State) : Host.Outcome State Fault Refusal :=
  helmOp (fun u => do
    let a ← readX u xa
    let q ← readX u xb
    notInTile u
    needAligned a 64
    let n ← readArea u a 64
    let r := BitVec.ofNat 512 (natOfBytes n)
    if taskBad r then do
      modS (·.forget (.helm u))
      trapWith 1 0 a
    else pure ()
    if taskCtgt r != 0 then ctgtPage u (taskCtgt r) else pure ()
    let s ← getS
    match s.launchRefused u r q with
    | some code => do
      writeX u xd (BitVec.ofNat 64 code)
      modS (·.coxRun)
    | none => do
      releaseM u .module
      let s ← getS
      let (task, s') := s.enqueueTask q.toNat r
      modS fun _ => s'
      writeX u xd task
      modS (·.coxRun)
    modS (·.forget (.helm u))) s

/-! ### YIELD -/

/-- An eligible candidate that is unplaced would fit once the gang were removed (R410). -/
def State.yieldsTo (s : State) (g : Gang) : Bool :=
  let level := (s.cox.queueOf g.queue).level.toNat
  s.cox.candidates.any fun c => s.eligible c && decide (level ≤ s.effLevel c) && (s.fits [g.serial] c).isSome

/-- YIELD (R410): a decision of the Cox (R399), which pre-empts the strand's gang where a candidate would take its place. -/
def execYield (s : State) : Host.Outcome State Fault Refusal :=
  helmOp (fun u => do
    modS (·.coxRun)
    let s ← getS
    match s.cox.gang (s.strand u).gang with
    | none => pure ()
    | some g => if s.yieldsTo g then modS (·.stopGang g.serial) else pure ()) s

/-! ### TICKW -/

/-- TICKW (R405): it completes at the first tick start after the one at which it began to wait. -/
def execTickw (xd : Reg) (s : State) : Host.Outcome State Fault Refusal :=
  helmOp (fun u => do
    let t ← getStrand u
    let s ← getS
    match t.issue with
    | .tickw since =>
      if s.tick = since then stall
      else do
        modStrand u fun t => { t with issue := .running }
        writeX u xd s.tick
    | .running | .idle => do
      modStrand u fun t => { t with issue := .tickw s.tick }
      stall) s

/-! ### TQCTL -/

/-- Run `body` as an instruction of the strand that issues, after which the strand issues nothing: it has ended. -/
def helmEnd (body : Nat → M Unit) (s : State) : Host.Outcome State Fault Refusal :=
  conclude s.cur s ((do
    noChain s.cur
    body s.cur) s)

/-- The waits with which a strand ends (R354, R363, R407): its column queue is empty, its operations have completed, a
pending matrix failure is taken, and a release of module scope is performed. -/
def endWaits (u : Nat) (epc : Word) : M Unit := do
  queueEmptyM u
  let s ← getS
  let t ← getStrand u
  let c ← getCluster (clusterOf u)
  waitUnless ((s.opsOf t.holder).isEmpty && !c.matOps.any fun o => o.holder = t.holder)
  takeMatrixError u epc (pure ())
  releaseM u .module

/-- TQCTL.exit (R407, R416). -/
def execTqctlExit (_xd xa _xb : Reg) (s : State) : Host.Outcome State Fault Refusal :=
  helmEnd (fun u => do
    notInTile u
    let code ← readX u xa
    let t ← getStrand u
    endWaits u t.pc
    modS fun s => (s.strandEnds u code).coxRun) s

/-- The strand may act on a queue (R406). -/
def State.queuePermits (s : State) (u q : Nat) : Bool :=
  (s.strand u).mode != .user || (s.strand u).owner = (s.cox.queueOf q).owner

/-- TQCTL.stat: the state of a queue (R406). -/
def State.queueStat (s : State) (q : Nat) : Word :=
  let e := s.cox.queueOf q
  BitVec.ofNat 64 (record [(min e.length 65535, 0), (e.level.toNat, 16), (e.en.toNat, 20), (e.stop.toNat, 21),
    (e.owner.toNat, 32)])

/-- TQCTL.stat (R406). -/
def execTqctlStat (xd xa _xb : Reg) (s : State) : Host.Outcome State Fault Refusal :=
  helmOp (fun u => do
    let q ← readX u xa
    let s ← getS
    writeX u xd (if 63 < q.toNat || !s.queuePermits u q.toNat then BitVec.allOnes 64 else s.queueStat q.toNat)) s

/-- TQCTL.stop and TQCTL.start: STOP of a queue is set (R406). -/
def setStop (xd xa : Reg) (b : Bool) (u : Nat) : M Unit := do
  let q ← readX u xa
  let s ← getS
  if 63 < q.toNat then writeX u xd 7
  else if !s.queuePermits u q.toNat then writeX u xd 2
  else do
    modS (·.modCox (·.modQueue q.toNat fun e => { e with stop := b }))
    writeX u xd 0

/-- TQCTL.stop (R406). -/
def execTqctlStop (xd xa _xb : Reg) (s : State) : Host.Outcome State Fault Refusal := helmOp (setStop xd xa true) s

/-- TQCTL.start (R406). -/
def execTqctlStart (xd xa _xb : Reg) (s : State) : Host.Outcome State Fault Refusal := helmOp (setStop xd xa false) s

/-- TQCTL.kill (R406, R408). -/
def execTqctlKill (xd xa _xb : Reg) (s : State) : Host.Outcome State Fault Refusal :=
  helmOp (fun u => do
    let task ← readX u xa
    let s ← getS
    let q := task.toNat % 64
    let gang := s.cox.gangs.find? fun g => g.task = task && g.tile.isNone
    if task = 0 || (gang.isNone && (s.cox.waitingAt q task).isNone) then writeX u xd 6
    else if !s.queuePermits u q then writeX u xd 2
    else do
      match gang with
      | some g => modS fun s => (s.killGang g.serial).coxRun
      | none => modS fun s => (s.finishRecord q task 2).coxRun
      writeX u xd 0) s

/-- A write to TPERIOD (R389): below 1,100,000 it is ignored; it takes effect at the next tick start. -/
def State.setTperiod (s : State) (v : Word) : State :=
  if (v.extractLsb' 0 32).toNat < 1100000 then s else { s with tperiodNext := some (v.extractLsb' 0 32) }

/-- The value that TPERIOD reads as. -/
def State.tperiodReg (s : State) : Word := (s.tperiodNext.getD s.tperiod).setWidth 64

/-- TQCTL.period (R406). -/
def execTqctlPeriod (xd xa _xb : Reg) (s : State) : Host.Outcome State Fault Refusal :=
  helmOp (fun u => do
    let v ← readX u xa
    let s ← getS
    let t ← getStrand u
    match t.mode with
    | .user => writeX u xd (BitVec.allOnes 64)
    | .kernel | .firmware => do
      let old := s.tperiodReg
      if v = 0 then pure () else modS (·.setTperiod v)
      writeX u xd old) s

end Sys2Proof.Machine
end

