-- ==== Sys2Proof/Machine/Assayer.lean ====
section
/-!
DEFINITION. The Assayer (R412 to R428): GLAUNCH, ASSAY, GEND, and the commit of a tile's held writes.
-/

namespace Sys2Proof.Machine

/-! ### GLAUNCH (R412, R413) -/

/-- A record that a guarded launch refuses (R413, step 4). -/
def launchRecordBad (r : BitVec 512) (exact : Bool) : Bool :=
  taskBad r || !(taskWaits r).isEmpty || taskTb r || taskTpre r
    || (if exact then taskCtgt r != 0 else taskCtgt r = 0 || taskCrews r != 1 || decide (1984 < taskSpad r))

/-- Every page of the outcome area grants W (R413, step 6). -/
def outcomePages (u : Nat) (m : Member) (base : Word) (n : Nat) : M Unit :=
  forList (unitPieces 4096 base (64 + 64 * n)) fun p => do
    match ← resolveM (m.agent u) .write p.1 1 with
    | .error f => colAccessTrap u m .write p.1 f
    | .ok (.control _) => colAccessTrap u m .write p.1 ⟨3, 2, 7, 1⟩
    | .ok (.local _) | .ok (.target _) => pure ()

/-- A serial number that no launch of a cluster has. -/
def Cluster.nextLaunch (k : Cluster) : Nat := (k.launches.map (·.serial)).foldl max 0 + 1

/-- The launch becomes active (R413, step 7): the operands are taken from the member. Where the strand's task is being
killed, its tiles end KILLED (R425). -/
def State.startLaunch (s : State) (u : Nat) (m : Member) (sur ex : BitVec 512) : State :=
  let t := s.strand u
  let q := s.queueOfStrand u
  let c := clusterOf u
  let l : Guarded :=
    { serial := (s.cluster c).nextLaunch, owner := m.owner, mode := m.mode, tol := m.opd.extractLsb' 0 32
      level := (s.cox.queueOf q).level.toNat, n := m.opc.toNat, surrogate := sur, exact := ex, queue := q
      task := ((s.cox.gang t.gang).map s.taskOf).getD 0, launcher := t.gang, nextTile := 0, tiles := [], judged := []
      exactWaiting := [], left := m.opc.toNat, active := true, since := s.tick.toNat }
  let s := s.modCluster c fun k => { k with launches := k.launches ++ [l] }
  if (s.cox.gang t.gang).any (·.killed) then s.killTiles c l.serial else s

/-- The column engine's part of GLAUNCH (R413, R428). -/
def colGlaunch (u : Nat) (m : Member) (_ _ _ : Reg) : M Bool := do
  let s ← getS
  let c := clusterOf u
  if (s.tileOf u).isSome then trapWith 1 0 0 else pure ()
  if s.launchActive c then trapWith 1 0 1 else pure ()
  if (s.roomOf [] none 0 c).spad < 64 then trapWith 1 0 2 else pure ()
  let a ← streamBytes u m .default m.opa 64
  let b ← streamBytes u m .default m.opb 64
  groupDone u m
  let sur := BitVec.ofNat 512 (natOfBytes a)
  let ex := BitVec.ofNat 512 (natOfBytes b)
  if launchRecordBad sur false then trapWith 1 0 m.opa else pure ()
  if launchRecordBad ex true then trapWith 1 0 m.opb else pure ()
  if 65536 < m.opc.toNat then trapWith 1 0 m.opc else pure ()
  if m.opc = 0 then pure true
  else do
    outcomePages u m (taskCtgt sur) m.opc.toNat
    modS fun s => (s.startLaunch u m sur ex).coxRun
    pure true

/-- What GLAUNCH reads at issue: its three operands and `tol` (R412). -/
def glaunchOpnds (xa xb xc : Reg) (u : Nat) : M Opnds := do
  let o ← opndABC xa xb xc u
  let t ← getStrand u
  pure { o with d := t.tol.setWidth 64 }

/-- The record addresses are aligned, or GLAUNCH takes ALIGN at issue. -/
def glaunchAligned (_ : Nat) (o : Opnds) : M Unit := do
  needAligned o.a 64
  needAligned o.b 64

/-- GLAUNCH (R412). -/
def execGlaunch (xa xb xc : Reg) (s : State) : Host.Outcome State Fault Refusal :=
  pushOp (.glaunch xa xb xc) (glaunchOpnds xa xb xc) glaunchAligned s

/-! ### ASSAY (R419) -/

/-- The residual after a report. -/
def residualAfter (r v : BitVec 32) : BitVec 32 :=
  let f := FFmt.f32
  if (f.decode r.toNat).isNan then r
  else if (f.decode v.toNat).isNan then BitVec.ofNat 32 f.cnan
  else if (f.cond .gt v.toNat r.toNat).1 || (v = 0 && r = 0x80000000) then v
  else r

/-- The column engine's part of ASSAY. -/
def colAssay (u : Nat) (m : Member) (_ : Reg) : M Bool := do
  let s ← getS
  match s.tileOf u with
  | none => colIllegal m
  | some ix => do
    modCluster (clusterOf u) fun c => match c.tile ix with
      | some t => c.setTile ix { t with residual := residualAfter t.residual (m.opa.extractLsb' 0 32) }
      | none => c
    pure true

/-- ASSAY (R419). -/
def execAssay (xa : Reg) (s : State) : Host.Outcome State Fault Refusal := pushOp (.assay xa) (opndA xa) noCheck s

/-! ### GEND (R420) -/

/-- The column engine's part of GEND: the waits of R407, the pending matrix failure of R354, and the end of the strand. -/
def colGend (u : Nat) (m : Member) : M Bool := do
  let s ← getS
  if (s.tileOf u).isNone then colIllegal m else pure ()
  let t ← getStrand u
  let c ← getCluster (clusterOf u)
  waitUnless (t.queue.all fun q => q.iid = m.iid || q.done)
  waitUnless ((s.opsOf t.holder).isEmpty && !c.matOps.any fun o => o.holder = t.holder)
  match c.pendingFailure t.holder with
  | some v => do
    modCluster (clusterOf u) (·.takeFailure t.holder)
    trapWith 10 0 v
  | none => pure ()
  waitUnless (s.elemsClear u && !s.remoteOut u)
  drainM u
  modS fun s => (s.strandEnds u 0).coxRun
  pure true

/-- GEND (R420). -/
def execGend (s : State) : Host.Outcome State Fault Refusal := pushOp .gend noOpnds noCheck s

/-! ### The commit (R421) -/

/-- The first tile of a cluster whose commit is not over: launch and tile. -/
def Cluster.committing (k : Cluster) : Option (Guarded × Judged) :=
  k.launches.findSome? fun l => (l.judged.find? fun j => j.part.isSome).map fun j => (l, j)

/-- Change a judged tile. -/
def modJudged (c serial i : Nat) (f : Judged → Judged) : M Unit :=
  modCluster c fun k => k.modLaunch serial fun l =>
    { l with judged := l.judged.map fun j => if j.index = i then f j else j }

/-- The commit is over: the tile is judged PASS or CFAIL with a status of R368. -/
def commitEnds (c : Nat) (l : Guarded) (j : Judged) (status : Nat) : M Unit := do
  modS (·.forget (.assayer c))
  modS fun s => (s.settleTile c l.serial { j with outcome := if status = 1 then 1 else 4, cstat := status }).coxRun

/-- The masked bytes of a staging line as one write, at one instant, of its 128-byte line: the marks of its staging words
move with the bytes (R421, R449). -/
def lineWrite (bytes : Tab Byte) (marked : Nat → Bool) : RemoteOp :=
  let byte (i : Nat) : Option Byte :=
    if marked i then none else (bytes.find? fun b => b.1 = i).map (·.2)
  .copied ((List.range 128).map byte) ((bytes.map (·.1)).filter marked)

/-- The agent of a tile's commit: it has no issuing strand and the manual lays out no identity for it, so that its
records name strand 0 of the cluster and the tile's index (log 90). -/
def commitAgent (c : Nat) (l : Guarded) (j : Judged) : Agent := ⟨8 * c, l.mode, l.owner, 4, 0, BitVec.ofNat 64 j.index⟩

/-- A line of a commit met a fault: its record, and the status of the commit. A violation is logged; WINDOW and
NON-CANONICAL leave no record (R45, R421). -/
def commitFault (c : Nat) (l : Guarded) (j : Judged) (va : Word) (f : AFault) : M Unit := do
  let ag := commitAgent c l j
  let fin := alignDown va.toNat 128 + 128
  if serviced f || f.cls = 6 then do
    modS fun s => s.queueFault ag (accessOwner ag va) va (missingBytes f va fin) f .write false none
    commitEnds c l j (if f.cls = 6 then 6 else 3)
  else do
    modS fun s => s.logIfViolation ag .write va f
    commitEnds c l j 5

/-- One staging line of a tile's commit. -/
def commitLine (c : Nat) (l : Guarded) (j : Judged) (line : Nat) (bytes : Tab Byte) : M Unit := do
  let s ← getS
  let ag := commitAgent c l j
  let base := BitVec.ofNat 64 (128 * line)
  let first := base + BitVec.ofNat 64 ((bytes.head?.map (·.1)).getD 0)
  match ← resolveM ag .write base 128 with
  | .error f => commitFault c l j first f
  | .ok (.local _) => commitFault c l j first ⟨5, 0, 7, 1⟩
  | .ok (.control _) => commitFault c l j first ⟨3, 2, 7, 1⟩
  | .ok (.target t) => do
    let marked (i : Nat) : Bool :=
      s.localMarks.contains (stagingAddr c (j.part.getD 0) (j.lines - j.pending.length) i / 8)
    let a ← keepM (.assayer c) .write ag.ident t (lineWrite bytes marked)
    match engAnswer 0 0 0 t.level a with
    | .fault f | .detached f => commitFault c l j first f
    | .failed k => commitEnds c l j (6 + k.toNat)
    | .data _ _ => do
      modS (·.forget (.assayer c))
      modJudged c l.serial j.index fun j => { j with pending := j.pending.tail, committed := j.committed + bytes.length }

/-- One step of a commit: its next staging line, or its end. R149 and R421 give the lines no order: here they go in the order of
their first held writes (DESIGN CHOICE, log 111). -/
def commitStep (c : Nat) : M Unit := do
  let k ← getCluster c
  match k.committing with
  | none => stall
  | some (l, j) =>
    match j.pending with
    | [] => commitEnds c l j 1
    | (line, bytes) :: _ => commitLine c l j line bytes

/-- The Assayer of a cluster performs one step of a commit. -/
def State.assayerStep (s : State) (c : Nat) : State :=
  match commitStep c s with
  | .ok _ s => s
  | .error _ s => s

end Sys2Proof.Machine
end

