-- ==== Sys2Proof/Machine/Columns.lean ====
section
/-!
DEFINITION. Columns and relational instructions (R304 to R334): element access, destinations, steps with their stops and
continuation records, the key store, and each instruction. A step processes one row, builds one entry or emits one
element (R319 allows up to 512).
-/

namespace Sys2Proof.Machine

/-! ### Descriptors and keys (R304 to R307, R311) -/

/-- ETYPE codes (R305). -/
def etUint32 : Nat := 1
/-- FP32. -/
def etFp32 : Nat := 3
/-- POS32. -/
def etPos32 : Nat := 5

/-- The floating-point format of an ETYPE. -/
def etypeFmt (e : Nat) : Option FFmt := (etypeVector e).ffmt

/-- Keys of an ETYPE compare unsigned. -/
def etypeUnsigned (e : Nat) : Bool := e = 1 || e = 5

/-- A poisoned row: a floating-point element equal to POISON of its type (R311). -/
def poisonedKey (e key : Nat) : Bool :=
  match etypeFmt e with
  | some f => f.isPoison key
  | none => false

/-- The place of a key in the key order (R311): NaNs, poison included, after every number and equal among themselves. -/
def keyRank (e key : Nat) : Int :=
  match etypeFmt e with
  | some f =>
    if (f.decode key).isNan then 2 ^ 70
    else if key / f.signBit % 2 = 1 then -((key % f.signBit : Nat) : Int) - 1 else (key % f.signBit : Nat)
  | none => if etypeUnsigned e then (key : Int) else sintOf (8 * etypeBytes e) key

/-- The hash that fixes bucket order (R311). -/
def keyHash (v : Nat) : Nat := v * 0x9e3779b97f4a7c15 % 2 ^ 64 / 2 ^ 44

/-- A comparison of KSEL or KSELP (R321): the truth and the flags. -/
def keyCond (e : Nat) (c : Cond) (a b : Nat) : Bool × Flags :=
  match etypeFmt e with
  | some f => f.cond c a b
  | none =>
    let w := 8 * etypeBytes e
    (intCond w (etypeUnsigned e) c (BitVec.ofNat w a) (BitVec.ofNat w b), 0)

/-! ### Work in progress -/

/-- Change the work of a member that has started. -/
def modWork (u : Nat) (m : Member) (f : ColWork → ColWork) : M Unit :=
  modMember u m.iid fun m => { m with work := m.work.map f }

/-- The instruction stops: its record is pending, its destinations hold the lengths written, and the member will
continue from the record (R314, R319). -/
def stopWork (u : Nat) (m : Member) (w : ColWork) (dest : Nat) : M Unit := do
  modStrand u fun t => t.saveRecord m w dest
  modMember u m.iid fun m => { m with pv := true, idx := 0x3ffe, work := none }
  groupDone u m

/-- An element fault stops the instruction: one fault-queue record, and a precise access trap (R319). -/
def columnFault {α : Type} (u : Nat) (m : Member) (w : ColWork) (acc : Acc) (va : Word) (n : Nat) (f : AFault) :
    M α := do
  let ag := m.agent u
  modS fun s => (s.logIfViolation ag acc va f).queueFault ag (accessOwner ag va) va n f acc false none
  stopWork u m w 0
  trapWith 4 f.cls va

/-- A destination is full (R314). -/
def columnFull {α : Type} (u : Nat) (m : Member) (w : ColWork) (dest : Nat) (k : PReg) : M α := do
  stopWork u m w dest
  trapWith 8 0 (k.setWidth 64)

/-- An integer element that consumes an error stops the instruction, and MACHINE-CHECK is taken at its member (R450). -/
def columnMark {α : Type} (u : Nat) (m : Member) (w : ColWork) (addr level : Nat) : M α := do
  stopWork u m w 0
  colMachineCheck u m addr level 0

/-! ### Elements -/

/-- The lane group through which a column instruction's accesses go. -/
def colLane (u : Nat) : M Nat := do
  let t ← getStrand u
  pure (t.lanes.headD 0)

/-- Read an array element of an ETYPE (R308): a detached range, a remote failure or a consumed error gives poison, except
that an error consumed under an integer type stops the instruction (R98, R111, R450). -/
def colRead (u : Nat) (m : Member) (w : ColWork) (e : Nat) (va : Word) : M Nat := do
  let n := etypeBytes e
  match ← elemFault u m .read va n with
  | some f => columnFault u m w .read va n f
  | none => do
    waitUnless (← loadReady u m .default (← colLane u) va n)
    match ← loadElem u m .default va n with
    | .bytes l => pure (natOfBytes l)
    | .fault f => columnFault u m w .read va n f
    | .detached f => do
      detachedAccess u m .read va n f none
      pure (etypeVector e).poison
    | .poisoned a lv =>
      match etypeFmt e with
      | some _ => do
        consumeElem u m a lv 0
        pure (etypeVector e).poison
      | none => columnMark u m w a lv
    | .failed _ => pure (etypeVector e).poison

/-- The physical position of logical element `i` (R306). -/
def physPos (u : Nat) (m : Member) (w : ColWork) (d : BitVec 256) (i : Nat) : M Nat :=
  if descHaspos d then colRead u m w etPos32 (descPbase d + BitVec.ofNat 64 (4 * i)) else pure i

/-- The element at a physical position. -/
def elemAtPos (u : Nat) (m : Member) (w : ColWork) (d : BitVec 256) (p : Nat) : M Nat :=
  colRead u m w (descType d) (descBase d + BitVec.ofNat 64 (p * etypeBytes (descType d)))

/-- Row `i` of a source: its physical position and its key. -/
def rowAt (u : Nat) (m : Member) (w : ColWork) (d : BitVec 256) (i : Nat) : M KeyRow := do
  let p ← physPos u m w d i
  let k ← elemAtPos u m w d p
  pure ⟨i, p, k⟩

/-- The arrays whose extent a descriptor fixes: the elements of a column without positions, or the position list. -/
def descRange (d : BitVec 256) : Nat × Nat :=
  if descHaspos d then ((descPbase d).toNat, 4 * descLen d)
  else ((descBase d).toNat, etypeBytes (descType d) * descLen d)

/-- The bytes of this module at an address, without an access: in a window, in its SRAM or in its pooled memory. -/
def State.peek (s : State) (ag : Agent) (va : Word) (n : Nat) : Option (List Byte) :=
  match (s.resolve ag .read va n).1 with
  | .ok (.local a) => some (s.localRead ag.mode ag.owner a n)
  | .ok (.target t) =>
    if t.module.isSome || kindOf t.pa = 2 then none
    else
      match (s.poolLines (homeDie t.pa)).find? fun e => kindOf t.pa = 1 && e.line = t.pa / 128 with
      | some e => some ((e.data.drop (t.pa % 128)).take n)
      | none => some (s.physRead (s.encOf t.owner t.clear t.pa) t.pa n)
  | .ok (.control _) | .error _ => none

/-- The addresses of the elements that a view's positions name, where its list can be seen (log 21). -/
def State.viewElems (s : State) (ag : Agent) (d : BitVec 256) : List Nat :=
  if descHaspos d then
    (List.range (descLen d)).filterMap fun i =>
      (s.peek ag (descPbase d + BitVec.ofNat 64 (4 * i)) 4).map fun l =>
        (descBase d + BitVec.ofNat 64 (natOfBytes l * etypeBytes (descType d))).toNat
  else []

/-- The array or list that a destination is written to. -/
def destRange (d : BitVec 256) : Nat × Nat :=
  if descHaspos d then ((descPbase d).toNat, 4 * descCap d)
  else ((descBase d).toNat, etypeBytes (descType d) * descCap d)

/-- Bytes `a` to `a + n - 1` meet a range. -/
def meets (a n : Nat) (r : Nat × Nat) : Bool := decide (a < r.1 + r.2) && decide (r.1 < a + n)

/-- What an output element receives: a free value where its bytes lie in a source's array, in its position list or in
another destination (R313, log 21). -/
def outputValue (u : Nat) (m : Member) (w : ColWork) (va : Word) (n : Nat) (other : Option PReg) (v : Nat) : M Nat := do
  let t ← getStrand u
  let ranges := w.srcs.map descRange ++ (match other with
    | some r => [destRange t.k[r.toNat]]
    | none => [])
  let s ← getS
  let elems := w.srcs.flatMap fun d => (s.viewElems (m.agent u) d).map fun a => (a, etypeBytes (descType d))
  if (ranges ++ elems).any (meets va.toNat n) then do
    let f ← drawWord
    pure (f.toNat % 2 ^ (8 * n))
  else pure v

/-- Write an output element (R308). -/
def colWrite (u : Nat) (m : Member) (w : ColWork) (va : Word) (n v : Nat) : M Unit := do
  match ← elemFault u m .write va n with
  | some f => columnFault u m w .write va n f
  | none => do
    let lg ← colLane u
    waitUnless (← storeReady u m .write va n)
    let slot ← storeSlot u m .write va n
    let s ← getS
    waitUnless (slot.all fun e => decide (0 < s.queueSpace (clusterOf u) lg e.1))
    match ← storeElem u m .write .default lg w.outn 0 va (.store (writeAll (bytesOfNat n v))) with
    | .bytes _ | .failed _ | .poisoned _ _ => pure ()
    | .fault f => columnFault u m w .write va n f
    | .detached f => detachedAccess u m .write va n f none

/-- Output element `j` of destination `k`: a position of a view, or an element of a value column. -/
def outputAt (u : Nat) (m : Member) (w : ColWork) (k : PReg) (other : Option PReg) (j v : Nat) : M Unit := do
  let t ← getStrand u
  let d := t.k[k.toNat]
  let n := if descHaspos d then 4 else etypeBytes (descType d)
  let va := (if descHaspos d then descPbase d else descBase d) + BitVec.ofNat 64 (n * j)
  let v ← outputValue u m w va n other v
  colWrite u m w va n v

/-! ### Starting and ending -/

/-- What a column instruction asks for at its start: sources, destinations with the source that each is a view of, or
with the ETYPE of a value column, further conditions, the size that must not exceed the key store, and whether it uses
the store. -/
structure ColSpec where
  srcs : List PReg
  views : List (PReg × PReg)
  values : List (PReg × Nat)
  legal : Bool
  limit : Nat
  store : Bool
  aux : Word
  deriving DecidableEq, Repr

/-- Entries of the key store (R312). -/
def storeEntries : Nat := 1048576

/-- A column register is bound to a stream. -/
def Strand.colBound (t : Strand) (k : PReg) : Bool := t.streams.toList.any fun st => st.bound && st.col = k

/-- A destination meets its requirement (R307), and no stream names it (R334). -/
def ColSpec.destsOk (c : ColSpec) (t : Strand) : Bool :=
  c.views.all (fun v =>
    descHaspos t.k[v.1.toNat] && (descPbase t.k[v.1.toNat]).toNat % 4 = 0 && !t.colBound v.1)
  && c.values.all (fun v =>
    !descHaspos t.k[v.1.toNat] && (descBase t.k[v.1.toNat]).toNat % etypeBytes v.2 = 0 && !t.colBound v.1)
  && ((c.views.map (·.1)) ++ (c.values.map (·.1))).Nodup

/-- The fields of R307, written at the start. -/
def ColSpec.setFields (c : ColSpec) (t : Strand) : Strand :=
  let old := t.k
  let t := c.views.foldl (fun (t : Strand) v =>
    let s := old[v.2.toNat]
    let d := descSet (descSet t.k[v.1.toNat] 0 64 (descBase s).toNat) 128 4 (descType s)
    { t with k := t.k.set v.1.toNat d }) t
  c.values.foldl (fun (t : Strand) v => { t with k := t.k.set v.1.toNat (descSet t.k[v.1.toNat] 128 4 v.2) }) t

/-- The pending record continues this member (R317). -/
def recordMatches (t : Strand) (m : Member) : Bool :=
  m.pv && m.idx = 0x3ffe && t.pendingRec.getLsbD 72 && t.pendingRec.extractLsb' 64 8 = m.word.extractLsb' 56 8
    && t.pendingRec.extractLsb' 0 64 = m.addr

/-- The work that a record describes. -/
def workOfRecord (r : BitVec 512) (srcs : List (BitVec 256)) : ColWork :=
  { phase := (r.extractLsb' 76 4).toNat, cura := (r.extractLsb' 96 32).toNat, curb := (r.extractLsb' 128 32).toNat,
    curc := (r.extractLsb' 160 32).toNat, outn := (r.extractLsb' 192 32).toNat, outn2 := (r.extractLsb' 224 32).toNat,
    aux := r.extractLsb' 256 64, flags := r.extractLsb' 80 6, srcs := srcs, built := 0, resumed := true }

/-- Another strand's instruction holds the key store. -/
def State.storeHeld (s : State) (u : Nat) : Bool :=
  match (s.cluster (clusterOf u)).keyStore with
  | some k => k.uid != u && (s.strand k.uid).queue.any fun m => m.iid = k.iid && m.work.isSome
  | none => false

/-- Start a column instruction, or continue one that a record describes (R308, R312, R317, R329): its work. Where its
sources were changed while it was stopped, it goes on with what they hold now (log 99). -/
def beginWork (u : Nat) (m : Member) (spec : Strand → ColSpec) : M ColWork := do
  let t ← getStrand u
  match (t.queue.find? fun q => q.iid = m.iid).bind (·.work) with
  | some w => pure w
  | none => do
    elemsDone u m.iid
    let c := spec t
    if c.legal && c.destsOk t then pure () else colIllegal m
    if storeEntries < c.limit then trapWith 9 0 (BitVec.ofNat 64 storeEntries) else pure ()
    let s ← getS
    waitUnless (!c.store || !s.storeHeld u)
    let srcs := c.srcs.map fun k => t.k[k.toNat]
    let w : ColWork := if recordMatches t m then workOfRecord t.pendingRec srcs
      else { phase := 0, cura := 0, curb := 0, curc := 0, outn := 0, outn2 := 0, aux := c.aux, flags := 0, srcs := srcs,
             built := 0, resumed := false }
    if c.store then modCluster (clusterOf u) fun c => { c with keyStore := some ⟨u, m.iid, []⟩ } else pure ()
    modStrand u c.setFields
    modMember u m.iid fun m => { m with work := some w }
    pure w

/-- A column's SORTED and UNIQUE. -/
def setFlagsOf (k : PReg) (sorted unique : Bool) (t : Strand) : Strand :=
  let d := descSet (descSet t.k[k.toNat] 132 1 (if sorted then 1 else 0)) 134 1 (if unique then 1 else 0)
  { t with k := t.k.set k.toNat d }

/-- Complete a column instruction (R309): once every access of it is performed, the lengths, flags and yield. `dests` are
the destinations with their SORTED and UNIQUE. -/
def endWork (u : Nat) (m : Member) (w : ColWork) (dests : List (PReg × Nat × Bool × Bool)) (yield : Nat) : M Bool := do
  elemsDone u m.iid
  groupDone u m
  forList dests fun d => modStrand u fun t => setFlagsOf d.1 d.2.2.1 d.2.2.2 (t.setLen (some d.1) d.2.1)
  raiseFlags u w.flags
  if w.resumed then modStrand u fun t => { t with pendingRec := t.pendingRec &&& ~~~((1 : BitVec 512) <<< 72) } else pure ()
  modCluster (clusterOf u) fun c => match c.keyStore with
    | some k => if k.uid = u && k.iid = m.iid then { c with keyStore := none } else c
    | none => c
  modMember u m.iid fun m => { m with work := none }
  replyWord u m (BitVec.ofNat 64 yield)
  pure true

/-- A step is over. -/
def stepped (u : Nat) (m : Member) (f : ColWork → ColWork) : M Bool := do
  modWork u m f
  groupDone u m
  pure false

/-- Source `i` of the work. -/
def ColWork.src (w : ColWork) (i : Nat) : BitVec 256 := w.srcs.getD i 0

/-- The destination's CAP, as it is now defined. -/
def capOf (u : Nat) (k : PReg) : M Nat := do
  let t ← getStrand u
  pure (descCap t.k[k.toNat])

/-- The entries of the key store. -/
def storeRows (u : Nat) : M (List KeyRow) := do
  let c ← getCluster (clusterOf u)
  pure (match c.keyStore with
    | some k => k.rows
    | none => [])

/-- Change the entries of the key store. -/
def modRows (u : Nat) (f : List KeyRow → List KeyRow) : M Unit :=
  modCluster (clusterOf u) fun c => { c with keyStore := c.keyStore.map fun k => { k with rows := f k.rows } }

/-! ### KDEF and KLEN (R320) -/

/-- The address of KDEF's image. -/
def imageAddr (a : Word) (off : BitVec 26) : Word := a + off.signExtend 64

/-- A descriptor image is refused (R320). -/
def imageBad (d : BitVec 256) : Bool :=
  d.extractLsb' 135 57 != 0 || decide (5 < descType d) || decide (descCap d < descLen d)
    || (descBase d).toNat % etypeBytes (descType d) != 0 || (descHaspos d && (descPbase d).toNat % 4 != 0)

/-- The column engine's part of KDEF. -/
def colKdef (u : Nat) (m : Member) (kd : PReg) (_ : Reg) (off : BitVec 26) : M Bool := do
  elemsDone u m.iid
  let a := imageAddr m.opa off
  let t ← getStrand u
  if t.streams.toList.any fun st => st.bound && !st.append && st.col = kd then trapWith 1 0 a else pure ()
  let l ← streamBytes u m .default a 32
  groupDone u m
  let d := BitVec.ofNat 256 (natOfBytes l)
  if imageBad d then trapWith 1 0 a else pure ()
  modStrand u fun t => { t with k := t.k.set kd.toNat d }
  pure true

/-- KDEF (R320). -/
def execKdef (kd : PReg) (xa : Reg) (off : BitVec 26) (s : State) : Host.Outcome State Fault Refusal :=
  pushOp (.kdef kd xa off) (opndA xa) (fun _ o => needAligned (imageAddr o.a off) 32) s

/-- The column engine's part of KLEN. -/
def colKlen (u : Nat) (m : Member) (_ : Reg) (ka : PReg) : M Bool := do
  elemsDone u m.iid
  let t ← getStrand u
  replyWord u m (BitVec.ofNat 64 (descLen t.k[ka.toNat]))
  pure true

/-- KLEN (R320). -/
def execKlen (xd : Reg) (ka : PReg) (s : State) : Host.Outcome State Fault Refusal :=
  pushOp (.klen xd ka) noOpnds noCheck s

/-- The column engine's part of KLEN.set. -/
def colKlenSet (u : Nat) (m : Member) (kd : PReg) (_ : Reg) : M Bool := do
  elemsDone u m.iid
  let t ← getStrand u
  if t.colBound kd || decide (descCap t.k[kd.toNat] < m.opa.toNat) then colIllegal m else pure ()
  modStrand u (·.setLen (some kd) m.opa.toNat)
  pure true

/-- KLEN.set (R320). -/
def execKlenSet (kd : PReg) (xa : Reg) (s : State) : Host.Outcome State Fault Refusal :=
  pushOp (.klenSet kd xa) (opndA xa) noCheck s

/-! ### Selection (R321) -/

/-- The specification of an instruction that makes one view of its first source. -/
def viewSpec (srcs : List PReg) (kd ka : PReg) (legal : Bool) (limit : Nat) (store : Bool) (aux : Word) : ColSpec :=
  { srcs := srcs, views := [(kd, ka)], values := [], legal := legal, limit := limit, store := store, aux := aux }

/-- Both columns have one element type. -/
def sameType (t : Strand) (a b : PReg) : Bool := descType t.k[a.toNat] = descType t.k[b.toNat]

/-- Emit one position into a view, or stop where it is full. -/
def emitOne (u : Nat) (m : Member) (w : ColWork) (kd : PReg) (p : Nat) : M Unit := do
  if (← capOf u kd) ≤ w.outn then columnFull u m w 1 kd else outputAt u m w kd none w.outn p

/-- One row of a selection, which raises no flag where it is poisoned (R321): `b` is the value it is compared with. -/
def selectRow (u : Nat) (m : Member) (w : ColWork) (c : Cond) (kd : PReg) (b : Nat) : M Bool := do
  let d := w.src 0
  let r ← rowAt u m w d w.cura
  let (h, fl) := keyCond (descType d) c r.key b
  let fl := if poisonedKey (descType d) r.key || poisonedKey (descType d) b then 0 else fl
  if h then emitOne u m w kd r.pos else pure ()
  stepped u m fun w => { w with cura := w.cura + 1, outn := if h then w.outn + 1 else w.outn, flags := w.flags ||| fl }

/-- The column engine's part of KSEL. -/
def colKsel (u : Nat) (m : Member) (c : Cond) (kd : PReg) (_ : Reg) (ka : PReg) (_ : Reg) : M Bool := do
  let w ← beginWork u m fun _ => viewSpec [ka] kd ka true 0 false m.opa
  let d := w.src 0
  if descLen d ≤ w.cura then endWork u m w [(kd, w.outn, descSorted d, descUnique d)] w.outn
  else selectRow u m w c kd (w.aux.toNat % 2 ^ (8 * etypeBytes (descType d)))

/-- KSEL (R321). -/
def execKsel (c : Cond) (kd : PReg) (xd : Reg) (ka : PReg) (xa : Reg) (s : State) : Host.Outcome State Fault Refusal :=
  pushOp (.ksel c kd xd ka xa) (opndA xa) noCheck s

/-- The column engine's part of KSELP. -/
def colKselp (u : Nat) (m : Member) (c : Cond) (kd : PReg) (_ : Reg) (ka kb : PReg) : M Bool := do
  let w ← beginWork u m fun t => viewSpec [ka, kb] kd ka (sameType t ka kb) 0 false 0
  let d := w.src 0
  if min (descLen d) (descLen (w.src 1)) ≤ w.cura then
    endWork u m w [(kd, w.outn, descSorted d, descUnique d)] w.outn
  else do
    let b ← rowAt u m w (w.src 1) w.cura
    selectRow u m w c kd b.key

/-- KSELP (R321). -/
def execKselp (c : Cond) (kd : PReg) (xd : Reg) (ka kb : PReg) (s : State) : Host.Outcome State Fault Refusal :=
  pushOp (.kselp c kd xd ka kb) noOpnds noCheck s

/-! ### Joins (R322, R323) -/

/-- Build one entry of the key store from row `built` of a source; a poisoned row makes none. -/
def buildRow (u : Nat) (m : Member) (w : ColWork) (d : BitVec 256) : M Bool := do
  let r ← rowAt u m w d w.built
  if poisonedKey (descType d) r.key then pure () else modRows u fun l => l ++ [r]
  stepped u m fun w => { w with built := w.built + 1 }

/-- The bucket chain of a key: its entries in ascending build index. -/
def bucket (rows : List KeyRow) (key : Nat) : List KeyRow := rows.filter fun r => keyHash r.key = keyHash key

/-- Emit a pair, both halves or neither (R314). -/
def emitPair (u : Nat) (m : Member) (w : ColWork) (kd kc : PReg) (pa pb : Nat) : M Unit := do
  if (← capOf u kd) ≤ w.outn then columnFull u m w 1 kd
  else if (← capOf u kc) ≤ w.outn2 then columnFull u m w 2 kc
  else do
    outputAt u m w kd (some kc) w.outn pa
    outputAt u m w kc (some kd) w.outn2 pb

/-- The specification of a join. -/
def joinSpec (kd kc ka kb : PReg) (sorted : Bool) (t : Strand) : ColSpec :=
  { srcs := [ka, kb], views := [(kd, ka), (kc, kb)], values := []
    legal := sameType t ka kb && (!sorted || (descSorted t.k[ka.toNat] && descSorted t.k[kb.toNat]))
    limit := if sorted then 0 else descLen t.k[kb.toNat]
    store := !sorted, aux := 0 }

/-- The flags and lengths of a completed join. -/
def endJoin (u : Nat) (m : Member) (w : ColWork) (kd kc : PReg) : M Bool :=
  endWork u m w [(kd, w.outn, descSorted (w.src 0), false), (kc, w.outn2, false, false)] w.outn

/-- One probe step of KJOIN: the next candidate of the probe row, or the next probe row. -/
def probeRow (u : Nat) (m : Member) (w : ColWork) (kd kc : PReg) : M Bool := do
  let d := w.src 0
  let r ← rowAt u m w d w.cura
  let rows ← storeRows u
  let chain := if poisonedKey (descType d) r.key then [] else bucket rows r.key
  match ((chain.drop w.curc).findIdx? fun e => e.key = r.key) with
  | none => stepped u m fun w => { w with phase := 1, cura := w.cura + 1, curb := 0, curc := 0 }
  | some k => do
    let w' := { w with phase := 1, curc := w.curc + k }
    emitPair u m w' kd kc r.pos ((chain[w.curc + k]?.map (·.pos)).getD 0)
    stepped u m fun w => { w with phase := 1, curb := w.curb + 1, curc := w.curc + k + 1, outn := w.outn + 1,
                                  outn2 := w.outn2 + 1 }

/-- The column engine's part of KJOIN. -/
def colKjoin (u : Nat) (m : Member) (kd kc : PReg) (_ : Reg) (ka kb : PReg) : M Bool := do
  let w ← beginWork u m (joinSpec kd kc ka kb false)
  if w.built < descLen (w.src 1) && decide (0 < descLen (w.src 0)) then buildRow u m w (w.src 1)
  else if descLen (w.src 0) ≤ w.cura || descLen (w.src 1) = 0 then endJoin u m w kd kc
  else probeRow u m w kd kc

/-- KJOIN (R322). -/
def execKjoin (kd kc : PReg) (xd : Reg) (ka kb : PReg) (s : State) : Host.Outcome State Fault Refusal :=
  pushOp (.kjoin kd kc xd ka kb) noOpnds noCheck s

/-- One turn of KMJOIN's loop (R322). A turn that emits moves j past the emitted row; the inner loop ends at a turn
whose row kb[j] is not identical or does not exist, and `inner` says that it has emitted from row j0 on. -/
def mergeTurn (u : Nat) (m : Member) (w : ColWork) (kd kc : PReg) : M Bool := do
  let da := w.src 0
  let db := w.src 1
  let e := descType da
  let a ← rowAt u m w da w.cura
  let inner := decide (w.curc < w.curb)
  let b ← if w.curb < descLen db then some <$> rowAt u m w db w.curb else pure none
  let same := match b with
    | some b => b.key = a.key
    | none => false
  if !inner && poisonedKey e a.key then stepped u m fun w => { w with cura := w.cura + 1, curc := w.curb }
  else
    match b with
    | some b =>
      if same && !poisonedKey e a.key then do
        emitPair u m w kd kc a.pos b.pos
        stepped u m fun w => { w with curb := w.curb + 1, outn := w.outn + 1, outn2 := w.outn2 + 1 }
      else if inner then leave a.key
      else if poisonedKey e b.key then stepped u m fun w => { w with curb := w.curb + 1, curc := w.curb + 1 }
      else if keyRank e a.key < keyRank e b.key then stepped u m fun w => { w with cura := w.cura + 1, curc := w.curb }
      else if keyRank e b.key < keyRank e a.key then
        stepped u m fun w => { w with curb := w.curb + 1, curc := w.curb + 1 }
      else leave a.key
    | none => leave a.key
where
  /-- The inner loop has ended: i moves on, and j returns to j0 for an identical key. -/
  leave (key : Nat) : M Bool := do
    let da := w.src 0
    let again ← if w.cura + 1 < descLen da then do
        let n ← rowAt u m w da (w.cura + 1)
        pure (n.key == key)
      else pure false
    stepped u m fun w =>
      let j := if again then w.curc else if w.curb = w.curc then w.curb + 1 else w.curb
      { w with cura := w.cura + 1, curb := j, curc := j }

/-- The column engine's part of KMJOIN. -/
def colKmjoin (u : Nat) (m : Member) (kd kc : PReg) (_ : Reg) (ka kb : PReg) : M Bool := do
  let w ← beginWork u m (joinSpec kd kc ka kb true)
  if descLen (w.src 0) ≤ w.cura || (decide (descLen (w.src 1) ≤ w.curb) && w.curb = w.curc) then endJoin u m w kd kc
  else mergeTurn u m w kd kc

/-- KMJOIN (R322). -/
def execKmjoin (kd kc : PReg) (xd : Reg) (ka kb : PReg) (s : State) : Host.Outcome State Fault Refusal :=
  pushOp (.kmjoin kd kc xd ka kb) noOpnds noCheck s

/-- A semi-join: probe rows that have a match, or that have none (R323). -/
def semiJoin (u : Nat) (m : Member) (anti : Bool) (kd ka kb : PReg) : M Bool := do
  let w ← beginWork u m fun t =>
    viewSpec [ka, kb] kd ka (sameType t ka kb) (descLen t.k[kb.toNat]) true 0
  let d := w.src 0
  if w.built < descLen (w.src 1) && decide (0 < descLen d) then buildRow u m w (w.src 1)
  else if descLen d ≤ w.cura || (!anti && descLen (w.src 1) = 0) then
    endWork u m w [(kd, w.outn, descSorted d, descUnique d)] w.outn
  else do
    let r ← rowAt u m w d w.cura
    let rows ← storeRows u
    let found := !poisonedKey (descType d) r.key && rows.any fun e => e.key = r.key
    let out := found != anti
    let w' := { w with phase := 1 }
    if out then emitOne u m w' kd r.pos else pure ()
    stepped u m fun w =>
      { w with phase := 1, cura := w.cura + 1, outn := if out then w.outn + 1 else w.outn }

/-- The column engine's part of KSEMI. -/
def colKsemi (u : Nat) (m : Member) (kd : PReg) (_ : Reg) (ka kb : PReg) : M Bool := semiJoin u m false kd ka kb

/-- KSEMI (R323). -/
def execKsemi (kd : PReg) (xd : Reg) (ka kb : PReg) (s : State) : Host.Outcome State Fault Refusal :=
  pushOp (.ksemi kd xd ka kb) noOpnds noCheck s

/-- The column engine's part of KSEMI.anti. -/
def colKsemiAnti (u : Nat) (m : Member) (kd : PReg) (_ : Reg) (ka kb : PReg) : M Bool := semiJoin u m true kd ka kb

/-- KSEMI.anti (R323). -/
def execKsemiAnti (kd : PReg) (xd : Reg) (ka kb : PReg) (s : State) : Host.Outcome State Fault Refusal :=
  pushOp (.ksemiAnti kd xd ka kb) noOpnds noCheck s

/-! ### KGROUP (R324) -/

/-- The group of a key: the entries of the store are the first rows of the groups, in order. -/
def groupOf (rows : List KeyRow) (key : Nat) : Option Nat := rows.findIdx? fun r => r.key = key

/-- Rebuild the groups of the rows that were processed before a stop. -/
def regroupRow (u : Nat) (m : Member) (w : ColWork) : M Bool := do
  let d := w.src 0
  let r ← rowAt u m w d w.built
  let rows ← storeRows u
  if poisonedKey (descType d) r.key || (groupOf rows r.key).isSome then pure () else modRows u fun l => l ++ [r]
  stepped u m fun w => { w with built := w.built + 1 }

/-- A group beyond the key store: the instruction stops with no record pending, to start again (R312). -/
def groupLimit (u : Nat) (m : Member) (w : ColWork) : M Bool := do
  stopWork u m w 0
  modStrand u fun t => { t with pendingRec := 0 }
  trapWith 9 0 (BitVec.ofNat 64 storeEntries)

/-- One row of KGROUP: kd is checked first. Where a row both needs a group beyond the limit and finds kc full, which R329 puts at
one place in its order, COLUMN-LIMIT is taken (DESIGN CHOICE, log 116). -/
def groupRow (u : Nat) (m : Member) (w : ColWork) (kd kc : PReg) : M Bool := do
  let d := w.src 0
  if (← capOf u kd) ≤ w.cura then columnFull u m w 1 kd
  else do
    let r ← rowAt u m w d w.cura
    let rows ← storeRows u
    let next (w : ColWork) : ColWork :=
      { w with cura := w.cura + 1, built := w.built + 1, outn := w.outn + 1 }
    if poisonedKey (descType d) r.key then do
      outputAt u m w kd (some kc) w.cura 0xffffffff
      stepped u m next
    else
      match groupOf rows r.key with
      | some g => do
        outputAt u m w kd (some kc) w.cura g
        stepped u m next
      | none =>
        if storeEntries ≤ rows.length then groupLimit u m w
        else if (← capOf u kc) ≤ w.outn2 then columnFull u m w 2 kc
        else do
          outputAt u m w kc (some kd) w.outn2 r.pos
          outputAt u m w kd (some kc) w.cura w.outn2
          modRows u fun l => l ++ [r]
          stepped u m fun w => { next w with outn2 := w.outn2 + 1 }

/-- The column engine's part of KGROUP. -/
def colKgroup (u : Nat) (m : Member) (kd kc : PReg) (_ : Reg) (ka : PReg) : M Bool := do
  let w ← beginWork u m fun _ =>
    { srcs := [ka], views := [(kc, ka)], values := [(kd, etUint32)], legal := true, limit := 0, store := true, aux := 0 }
  let d := w.src 0
  if w.built < w.cura then regroupRow u m w
  else if descLen d ≤ w.cura then
    endWork u m w [(kd, w.outn, false, false), (kc, w.outn2, descSorted d, true)] w.outn2
  else groupRow u m w kd kc

/-- KGROUP (R324). -/
def execKgroup (kd kc : PReg) (xd : Reg) (ka : PReg) (s : State) : Host.Outcome State Fault Refusal :=
  pushOp (.kgroup kd kc xd ka) noOpnds noCheck s

/-! ### KAGG (R325) -/

/-- The ETYPE that KAGG writes. -/
def aggType (op : AggOp) (e : Nat) : Nat :=
  match op with
  | .count => etUint32
  | .sum | .min | .max => if (etypeFmt e).isSome then etFp32 else e

/-- The identity of an aggregate. -/
def aggIdent (op : AggOp) (e : Nat) : Nat :=
  let w := 8 * etypeBytes e
  match op, etypeFmt e with
  | .count, _ | .sum, _ => 0
  | .min, some _ => FFmt.f32.inf false
  | .max, some _ => FFmt.f32.inf true
  | .min, none => if etypeUnsigned e then 2 ^ w - 1 else 2 ^ (w - 1) - 1
  | .max, none => if etypeUnsigned e then 0 else 2 ^ (w - 1)

/-- A floating-point value as FP32, exactly. -/
def asFp32 (f : FFmt) (v : Nat) : Nat := if f = .bf16 then v * 2 ^ 16 else v

/-- One aggregation step: the accumulator and the flags. -/
def aggStep (op : AggOp) (e acc v : Nat) : Nat × Flags :=
  let w := 8 * etypeBytes e
  let uns := etypeUnsigned e
  match op, etypeFmt e with
  | .count, _ => ((acc + 1) % 2 ^ 32, 0)
  | .sum, some f => FFmt.f32.add 0 acc (asFp32 f v)
  | .min, some f => FFmt.f32.minNum acc (asFp32 f v)
  | .max, some f => FFmt.f32.maxNum acc (asFp32 f v)
  | .sum, none =>
    let n := readInt w uns acc + readInt w uns v
    let lo : Int := if uns then 0 else sMin w
    let hi : Int := if uns then (2 ^ w : Nat) - 1 else sMax w
    (wrapCode n w, Flags.when (decide (n < lo) || decide (hi < n)) Flags.iov)
  | .min, none => (if readInt w uns v < readInt w uns acc then v else acc, 0)
  | .max, none => (if readInt w uns acc < readInt w uns v then v else acc, 0)

/-- Row `i` with its identity where it is counted. -/
def countedRow (u : Nat) (m : Member) (w : ColWork) (op : AggOp) (i : Nat) : M (Option (Nat × Nat)) := do
  let g ← rowAt u m w (w.src 1) i
  if g.key = 0xffffffff then pure none
  else
    match op with
    | .count => pure (some (g.key, 0))
    | .sum | .min | .max => do
      let r ← rowAt u m w (w.src 0) i
      pure (if poisonedKey (descType (w.src 0)) r.key then none else some (g.key, r.key))

/-- Phase 0 is over: the groups fit, or the instruction stops with nothing written. -/
def startGroups (u : Nat) (m : Member) (w : ColWork) (kd : PReg) : M Bool := do
  let cap ← capOf u kd
  if cap < w.aux.toNat then do
    stopWork u m w 1
    modStrand u (·.setLen (some kd) cap)
    trapWith 8 0 (kd.setWidth 64)
  else stepped u m fun w => { w with phase := 1, cura := 0, outn := 0 }

/-- One counted row of phase 2. The accumulators in kd's array are undefined to any other observer until completion: the
model lets it see the running values (log 98). -/
def accumulateRow (u : Nat) (m : Member) (w : ColWork) (op : AggOp) (kd : PReg) : M Bool := do
  match ← countedRow u m w op w.cura with
  | none => stepped u m fun w => { w with cura := w.cura + 1 }
  | some (g, v) => do
    let t ← getStrand u
    let d := t.k[kd.toNat]
    let acc ← elemAtPos u m w d g
    let (n, fl) := aggStep op (descType (w.src 0)) acc v
    outputAt u m w kd none g n
    stepped u m fun w => { w with cura := w.cura + 1, flags := w.flags ||| fl }

/-- The column engine's part of KAGG. -/
def colKagg (u : Nat) (m : Member) (op : AggOp) (kd : PReg) (_ : Reg) (ka kb : PReg) : M Bool := do
  let w ← beginWork u m fun t =>
    { srcs := [ka, kb], views := [], values := [(kd, aggType op (descType t.k[ka.toNat]))]
      legal := etypeUnsigned (descType t.k[kb.toNat]), limit := 0, store := false, aux := 0 }
  let n := min (descLen (w.src 0)) (descLen (w.src 1))
  match w.phase with
  | 0 =>
    if n ≤ w.cura then startGroups u m w kd
    else do
      let r ← countedRow u m w op w.cura
      stepped u m fun w =>
        { w with cura := w.cura + 1, aux := match r with
            | some (g, _) => BitVec.ofNat 64 (max w.aux.toNat (g + 1))
            | none => w.aux }
  | 1 =>
    if w.aux.toNat ≤ w.outn then stepped u m fun w => { w with phase := 2, cura := 0 }
    else do
      outputAt u m w kd none w.outn (aggIdent op (descType (w.src 0)))
      stepped u m fun w => { w with outn := w.outn + 1 }
  | _ =>
    if n ≤ w.cura then endWork u m w [(kd, w.aux.toNat, false, false)] w.aux.toNat
    else accumulateRow u m w op kd

/-- KAGG (R325). -/
def execKagg (op : AggOp) (kd : PReg) (xd : Reg) (ka kb : PReg) (s : State) : Host.Outcome State Fault Refusal :=
  pushOp (.kagg op kd xd ka kb) noOpnds noCheck s

/-! ### Sorting (R326, R327) -/

/-- The place of a row: descending order for KTOPK.max, NaNs and poison last in any case. -/
def sortRank (desc : Bool) (e key : Nat) : Int :=
  let r := keyRank e key
  if desc && r != 2 ^ 70 then -r else r

/-- A row into a sorted list, after its equals. -/
def insertRow (desc : Bool) (e : Nat) (r : KeyRow) : List KeyRow → List KeyRow
  | [] => [r]
  | s :: t => if sortRank desc e r.key < sortRank desc e s.key then r :: s :: t else s :: insertRow desc e r t

/-- A sort that emits the first `n` rows of an order. -/
def sortRows (u : Nat) (m : Member) (w : ColWork) (desc : Bool) (kd : PReg) (n : Nat) : M Bool := do
  let d := w.src 0
  if w.built < descLen d && decide (0 < n) then do
    let r ← rowAt u m w d w.built
    modRows u fun l => (insertRow desc (descType d) r l).take n
    stepped u m fun w => { w with built := w.built + 1 }
  else if n ≤ w.outn then endWork u m w [(kd, n, !desc, descUnique d)] n
  else do
    let rows ← storeRows u
    emitOne u m w kd ((rows[w.outn]?.map (·.pos)).getD 0)
    stepped u m fun w => { w with outn := w.outn + 1 }

/-- The column engine's part of KSORT. -/
def colKsort (u : Nat) (m : Member) (kd : PReg) (_ : Reg) (ka : PReg) : M Bool := do
  let w ← beginWork u m fun t => viewSpec [ka] kd ka true (descLen t.k[ka.toNat]) true 0
  sortRows u m w false kd (descLen (w.src 0))

/-- KSORT (R326). -/
def execKsort (kd : PReg) (xd : Reg) (ka : PReg) (s : State) : Host.Outcome State Fault Refusal :=
  pushOp (.ksort kd xd ka) noOpnds noCheck s

/-- The column engine's part of KTOPK. -/
def colKtopk (u : Nat) (m : Member) (least : Bool) (kd : PReg) (_ : Reg) (ka : PReg) (_ : Reg) : M Bool := do
  let w ← beginWork u m fun t =>
    let k := if recordMatches t m then t.pendingRec.extractLsb' 256 64 else m.opa
    viewSpec [ka] kd ka true k.toNat true k
  sortRows u m w (!least) kd (min w.aux.toNat (descLen (w.src 0)))

/-- KTOPK (R327). -/
def execKtopk (least : Bool) (kd : PReg) (xd : Reg) (ka : PReg) (xa : Reg) (s : State) :
    Host.Outcome State Fault Refusal :=
  pushOp (.ktopk least kd xd ka xa) (opndA xa) noCheck s

/-! ### Materialising (R328) -/

/-- The specification of an instruction that copies elements into a value column. -/
def copySpec (srcs : List PReg) (kd ka : PReg) (legal : Bool) (t : Strand) : ColSpec :=
  { srcs := srcs, views := [], values := [(kd, descType t.k[ka.toNat])], legal := legal, limit := 0, store := false,
    aux := 0 }

/-- Copy one element of a source, or stop where the destination is full: where it is, the source row is not read, so that a fault
which R329 would put first is not met (DESIGN CHOICE, log 116). -/
def copyRow (u : Nat) (m : Member) (w : ColWork) (kd : PReg) (d : BitVec 256) (i : Nat) : M Unit := do
  if (← capOf u kd) ≤ w.outn then columnFull u m w 1 kd
  else do
    let r ← rowAt u m w d i
    outputAt u m w kd none w.outn r.key

/-- The column engine's part of KGATH. -/
def colKgath (u : Nat) (m : Member) (kd : PReg) (_ : Reg) (ka : PReg) : M Bool := do
  let w ← beginWork u m fun t => copySpec [ka] kd ka true t
  let d := w.src 0
  if descLen d ≤ w.cura then endWork u m w [(kd, w.outn, descSorted d, descUnique d)] w.outn
  else do
    copyRow u m w kd d w.cura
    stepped u m fun w => { w with cura := w.cura + 1, outn := w.outn + 1 }

/-- KGATH (R328). -/
def execKgath (kd : PReg) (xd : Reg) (ka : PReg) (s : State) : Host.Outcome State Fault Refusal :=
  pushOp (.kgath kd xd ka) noOpnds noCheck s

/-- The column engine's part of KCAT. -/
def colKcat (u : Nat) (m : Member) (kd : PReg) (_ : Reg) (ka kb : PReg) : M Bool := do
  let w ← beginWork u m fun t => copySpec [ka, kb] kd ka (sameType t ka kb) t
  if w.cura < descLen (w.src 0) then do
    copyRow u m w kd (w.src 0) w.cura
    stepped u m fun w => { w with cura := w.cura + 1, outn := w.outn + 1 }
  else if w.curb < descLen (w.src 1) then do
    copyRow u m w kd (w.src 1) w.curb
    stepped u m fun w => { w with curb := w.curb + 1, outn := w.outn + 1 }
  else endWork u m w [(kd, w.outn, false, false)] w.outn

/-- KCAT (R328). -/
def execKcat (kd : PReg) (xd : Reg) (ka kb : PReg) (s : State) : Host.Outcome State Fault Refusal :=
  pushOp (.kcat kd xd ka kb) noOpnds noCheck s

/-! ### Stream bindings (R330, R333) -/

/-- The accesses of the fills of a stream are wanted no more: a fill is performed after the KBIND that binds it (R146). -/
def State.dropStream (s : State) (u n : Nat) : State := s.disown u fun
  | .stream v k => v = u && k = n
  | .column _ _ | .fetch _ | .helm _ | .code _ _ | .store _ | .elem _ _ _ | .drayman _ _ | .hint _ | .late _ _ | .matrix _
  | .assayer _ | .cox | .fabric | .remote _ _ => false

/-- The column engine's part of a KBIND. -/
def bindStream (u : Nat) (m : Member) (n : BitVec 3) (ka : PReg) (append : Bool) : M Bool := do
  elemsDone u m.iid
  let t ← getStrand u
  let others := t.streams.toList.filter fun st => st.bound && st.col = ka
  let d := t.k[ka.toNat]
  if t.streams[n.toNat].bound || others.any (·.append) || (append && (descHaspos d || !others.isEmpty)) then colIllegal m
  else do
    let st : Stream := { col := ka, bound := true, append := append,
                         delivered := if append then BitVec.ofNat 32 (descLen d) else 0, buffer := []
                         filled := 0, mode := m.mode, stuck := none, detached := false, consumed := false }
    modS fun s => s.dropStream u n.toNat
    modStrand u fun t => { t with streams := t.streams.set n.toNat st }
    pure true

/-- The column engine's part of KBIND. -/
def colKbind (u : Nat) (m : Member) (n : BitVec 3) (ka : PReg) : M Bool := bindStream u m n ka false

/-- KBIND (R330). -/
def execKbind (n : BitVec 3) (ka : PReg) (s : State) : Host.Outcome State Fault Refusal :=
  pushOp (.kbind n ka) noOpnds noCheck s

/-- The column engine's part of KBIND.a. -/
def colKbindAppend (u : Nat) (m : Member) (n : BitVec 3) (ka : PReg) : M Bool := bindStream u m n ka true

/-- KBIND.a (R330). -/
def execKbindAppend (n : BitVec 3) (ka : PReg) (s : State) : Host.Outcome State Fault Refusal :=
  pushOp (.kbindAppend n ka) noOpnds noCheck s

/-- The column engine's part of KUNBIND. -/
def colKunbind (u : Nat) (m : Member) (n : BitVec 3) : M Bool := do
  elemsDone u m.iid
  modS fun s => s.dropStream u n.toNat
  modStrand u fun t => { t with streams := t.streams.set n.toNat { t.streams[n.toNat] with bound := false, buffer := [] } }
  pure true

/-- KUNBIND (R333). -/
def execKunbind (n : BitVec 3) (s : State) : Host.Outcome State Fault Refusal :=
  pushOp (.kunbind n) noOpnds noCheck s

end Sys2Proof.Machine
end

