-- ==== Sys2Proof/Machine/Footprint.lean ====
section
/-!
DEFINITION. Which instructions run by element groups (R255, R285), what registers and memory a group of one touches, and
which element groups hold which others back (R128, R167).
-/

namespace Sys2Proof.Machine

/-! ### What an element group touches -/

/-- The memory that an element-wise instruction touches: none; that of a load or store, with the address of each element,
whose elements keep no order among themselves, or ascending order under the O bit; or that of any other. -/
inductive MemFoot where
  | none
  | plain (acc : Acc) (bytes : Nat) (addr : Nat → Word)
  | ordered (acc : Acc) (bytes : Nat) (addr : Nat → Word)
  | other

/-- The registers that the groups of an element-wise instruction write and read, and its memory. -/
structure Foot where
  vw : List Reg
  vr : List Reg
  pw : List PReg
  pr : List PReg
  mem : MemFoot

/-- An instruction that computes vector register `vd` from others. -/
def Foot.vec (k : VCtl) (vd : Reg) (vr : List Reg) : Foot := ⟨[vd], vr, [], [k.g], .none⟩

/-- An instruction that writes predicates. -/
def Foot.bits (k : VCtl) (pw : List PReg) (vr : List Reg) (pr : List PReg) : Foot := ⟨[], vr, pw, k.g :: pr, .none⟩

/-- The memory of a load or store; the codes of an INT4X array are read from its start on. -/
def memFoot (c : MCtl) (acc : Acc) (addr : Nat → Word) : MemFoot :=
  if c.fmt = .i4x then .other
  else if c.o then .ordered acc (fmtBytes c.fmt) addr
  else .plain acc (fmtBytes c.fmt) addr

/-- Element `i` of a gather or scatter under a type, as its index register stands. -/
def Strand.gatherAddr (t : Strand) (ty : ElemTy) (m : Member) (c : MCtl) (off : BitVec 21) (vi : Reg) (i : Nat) : Word :=
  memBase m.opa off + BitVec.ofNat 64 (elemAt t.v[vi.toNat] (ElemTy.bits ty) i * fmtBytes c.fmt)

/-- What the groups of an instruction touch under a type; none for one that is not element-wise (R255, R285). -/
def footOf (t : Strand) (ty : ElemTy) (m : Member) : Instr → Option Foot
  | .vadd k _ _ vd va vb | .vsub k _ _ vd va vb | .vmul k _ _ vd va vb => some (.vec k vd [va, vb])
  | .vaddX k _ _ vd va _ | .vaddI k _ _ vd va _ | .vsubX k _ _ vd va _ | .vmulX k _ _ vd va _ => some (.vec k vd [va])
  | .vfma k vd va vb vc | .vfms k vd va vb vc => some (.vec k vd [vd, va, vb, vc])
  | .vfmaX k vd va _ vc | .vfmsX k vd va _ vc => some (.vec k vd [vd, va, vc])
  | .vdiv k _ vd va vb | .vmin k _ vd va vb | .vmax k _ vd va vb => some (.vec k vd [va, vb])
  | .vminX k _ vd va _ | .vmaxX k _ vd va _ => some (.vec k vd [va])
  | .vsqrt k vd va | .vrcp k vd va | .vrsq k vd va | .vexp2 k vd va | .vlog2 k vd va | .vabs k vd va | .vneg k vd va
  | .vmov k vd va => some (.vec k vd [va])
  | .vand k vd va vb | .vor k vd va vb | .vxor k vd va vb | .vshl k vd va vb | .vshr k vd va vb | .vsra k vd va vb =>
    some (.vec k vd [va, vb])
  | .vandX k vd va _ | .vorX k vd va _ | .vxorX k vd va _ | .vshlX k vd va _ | .vshrX k vd va _ | .vsraX k vd va _ =>
    some (.vec k vd [va])
  | .vandI k vd va _ | .vorI k vd va _ | .vxorI k vd va _ | .vshlI k vd va _ | .vshrI k vd va _ | .vsraI k vd va _ =>
    some (.vec k vd [va])
  | .viota k vd => some (.vec k vd [])
  | .vcvt k d vd va => if ElemTy.bits d = ElemTy.bits ty then some (.vec k vd [va]) else none
  | .vsel k vd va vb pe => some { Foot.vec k vd [va, vb] with pr := [k.g, pe] }
  | .vcmp k _ pd pe va vb => some (.bits k [pd, pe] [va, vb] [])
  | .pand k pd pe pf | .por k pd pe pf | .pxor k pd pe pf | .pandn k pd pe pf => some (.bits k [pd] [] [pe, pf])
  | .pset k pd _ => some (.bits k [pd] [] [])
  | .pmov k pd pe => some (.bits k [pd] [] [pe])
  | .vld k c vd _ off => some { Foot.vec k vd [] with mem := memFoot c .read (unitAddr m c off) }
  | .vldStrided k c vd _ _ off => some { Foot.vec k vd [] with mem := memFoot c .read (strideAddr m off) }
  | .vst k c vs _ off => some ⟨[], [vs], [], [k.g], memFoot c .write (unitAddr m c off)⟩
  | .vstStrided k c vs _ _ off => some ⟨[], [vs], [], [k.g], memFoot c .write (strideAddr m off)⟩
  | .vldff k _ vd _ _ => some { Foot.vec k vd [] with mem := .other }
  | .vgath k c vd _ vi off => some { Foot.vec k vd [vi] with mem := memFoot c .read (t.gatherAddr ty m c off vi) }
  | .vscat k c vs _ vi off => some ⟨[], [vs, vi], [], [k.g], memFoot c .write (t.gatherAddr ty m c off vi)⟩
  | .vldb k c vd _ vsc off => some { Foot.vec k vd [vsc] with mem := memFoot c .read (unitAddr m c off) }
  | .vstb k c vs _ vsc off => some ⟨[], [vs, vsc], [], [k.g], memFoot c .write (unitAddr m c off)⟩
  | _ => none

/-- The memory of an instruction that writes the registers `vw`: elements that it appends to a column are element accesses
too, in ascending order from the column's end on (R332). -/
def Strand.appendFoot (t : Strand) (m : Member) (vw : List Reg) (mem : MemFoot) : MemFoot :=
  match (vw.filterMap t.streamOf).find? (·.2.append) with
  | none => mem
  | some (_, st) =>
    let d := t.k[st.col.toNat]
    let sz := etypeBytes (descType d)
    match mem with
    | .none => .plain .write sz fun i => descBase d + BitVec.ofNat 64 ((descLen d + i - m.nextElem) * sz)
    | .plain _ _ _ | .ordered _ _ _ | .other => .other

/-- What the groups of a member touch under the type in force. -/
def Strand.foot (t : Strand) (m : Member) : Option Foot :=
  match t.elemTy, decode m.word with
  | some ty, some i => (footOf t ty m i).map fun f => { f with mem := t.appendFoot m f.vw f.mem }
  | _, _ => none

/-- A member that goes through its elements by groups, and which a stop between groups leaves where it is (R255, R285). -/
def Strand.runsOn (t : Strand) (m : Member) : Bool := (t.foot m).isSome

/-! ### What holds a group back -/

/-- A register that a group names is bound to a stream: its elements come and go in order (R331, R332). -/
def Strand.footBound (t : Strand) (f : Foot) : Bool := (f.vw ++ f.vr).any fun r => (t.streamOf r).isSome

/-- The registers that a member touches, the streams that it reads delivered into theirs. -/
def Strand.footWrites (t : Strand) (f : Foot) : List Reg := f.vw ++ f.vr.filter fun r => (t.streamOf r).isSome

/-- Two members name a common register that one of them writes; p0 is no register that is written. -/
def Strand.footsMeet (t : Strand) (a b : Foot) : Bool :=
  (t.footWrites a).any (fun r => (t.footWrites b ++ b.vr).contains r) || (t.footWrites b).any a.vr.contains
    || a.pw.any (fun p => p != 0 && (b.pw ++ b.pr).contains p) || b.pw.any fun p => p != 0 && a.pr.contains p

/-- The slices that elements `lo` to `hi` - 1 of a plain load or store reach: none where one of them would fault or reaches
no storage. -/
def slicesOf (u : Nat) (m : Member) (acc : Acc) (bytes : Nat) (addr : Nat → Word) : List Nat → M (Option (List Nat))
  | [] => pure (some [])
  | i :: rest => do
    match ← elemPlace u m acc (addr i) bytes with
    | .error _ | .ok (.control _) => pure none
    | .ok (.local a) => do
      let r ← slicesOf u m acc bytes addr rest
      pure (r.map (localSlice a :: ·))
    | .ok (.target t) => do
      let r ← slicesOf u m acc bytes addr rest
      pure (r.map (targetSlice t :: ·))

/-- The element accesses of an older member to a group, as they hold those of a younger one with slices `mine` back: they
use another slice and would not fault (R128, R283). -/
def olderClear (u : Nat) (elems mine : List Nat) (o : Member) : MemFoot → M Bool
  | .none => pure true
  | .other => pure false
  | .plain acc bytes addr | .ordered acc bytes addr => do
    let r ← slicesOf u o acc bytes addr elems
    pure (match r with
      | some l => !l.any mine.contains
      | none => false)

/-- The convoy that each member of a queue belongs to, counted from its head. -/
def convoysOf : Nat → List Member → List (Member × Nat)
  | _, [] => []
  | n, m :: t => (m, n) :: convoysOf (if m.last then n + 1 else n) t

/-- An instruction that touches no memory. -/
def MemFoot.isNone : MemFoot → Bool
  | .none => true
  | .plain _ _ _ | .ordered _ _ _ | .other => false

/-- VLDFF, which completes with bits of FMASK set that the next vector memory instruction clears at its start (R288). -/
def setsMask (m : Member) : Bool := opcodeOf m.word = 0x84

/-- An older member has done its part in a group of elements, from `lo` to `hi` - 1: it has gone past the group or has
processed it ahead, and none of the group's elements has faulted in it (R283). -/
def Strand.pastGroup (t : Strand) (o : Member) (f : Foot) (lo hi : Nat) : Bool :=
  !o.replays && (decide (hi ≤ o.nextElem) || o.ahead.contains (lo / max 1 t.groupSize))
    && (f.mem.isNone || ((List.range hi).drop lo).all fun i => !t.fmask.getLsbD i)

/-- The elements below `hi` that a member has still to process. -/
def Strand.pending (t : Strand) (o : Member) (hi : Nat) : List Nat :=
  ((List.range hi).drop o.nextElem).filter fun i => !o.ahead.contains (i / max 1 t.groupSize)

/-- The addresses of a member's elements are known: no older member has still to write what they are computed from. -/
def Strand.addrsKnown (t : Strand) (before : List Member) (g : Foot) : Bool :=
  before.all fun q => q.done || match t.foot q with
    | none => false
    | some h => !h.vw.any g.vr.contains

/-- No element of an older member of the same convoy faults up to the group that ends at `hi`: the younger member would stop
before that group (R283). -/
def noFaultBelow (t : Strand) (u hi : Nat) (o : Member) (g : Foot) : M Bool :=
  if ((List.range hi).any fun i => t.fmask.getLsbD i) && !g.mem.isNone then pure false
  else match g.mem with
    | .none => pure true
    | .other => pure (decide (hi ≤ o.nextElem))
    | .plain acc bytes addr | .ordered acc bytes addr => do
      let r ← slicesOf u o acc bytes addr (t.pending o hi)
      pure r.isSome

/-- An older member lets a younger one process the group of elements `lo` to `hi` - 1: a crossing one does not; a common
register is written by then, in the same convoy where the older one has done its part in the group, or else where it has
completed (R167); in the same convoy none of its elements up to there faults (R283); and its own accesses of that group use
other slices (R128). No vector memory instruction starts before a VLDFF has completed (R288). -/
def lets (t : Strand) (u lo hi : Nat) (elems mine : List Nat) (f : Foot) (same : Bool) (before : List Member) (o : Member) :
    M Bool :=
  if o.done then pure true
  else
    match t.foot o with
    | none => pure false
    | some g => do
      let past := t.pastGroup o g lo hi
      let sound ← (if same then noFaultBelow t u hi o g else pure true)
      if (t.footsMeet f g && !(same && past)) || (setsMask o && !f.mem.isNone) || !sound then pure false
      else if past then pure true
      else if g.mem.isNone || t.addrsKnown before g then olderClear u elems mine o g.mem
      else pure false

/-- A member has started: it has an index, or has read ahead. -/
def Member.started (m : Member) : Bool := m.done || m.pv || m.mid || m.work.isSome || !m.ahead.isEmpty

/-- The convoy of number `n` has started, or waits at its start for nothing that an older convoy owes it: convoys start in
queue order (R165, R167). -/
def Strand.convoyStarted (t : Strand) (l : List (Member × Nat)) (n : Nat) : Bool :=
  (l.any fun e => e.2 = n && e.1.started) ||
    match l.find? fun e => e.2 = n with
    | none => true
    | some (m, _) =>
      match t.foot m with
      | none => false
      | some f => l.all fun e => decide (n ≤ e.2) || e.1.done || match t.foot e.1 with
        | none => false
        | some g => !t.footsMeet f g

/-- With every older member before it: the members of a queue below `place`, each with those before it. -/
def withBefore (l : List (Member × Nat)) (place : Nat) : List (List Member × Member × Nat) :=
  (l.take place).zipIdx.map fun e => ((l.take e.2).map (·.1), e.1)

/-- The member's own older elements let the group from `lo` on go before them: none is one of its stores to a slice that the
group stores to, and those of an instruction with O come first (R128). -/
def ownClear (t : Strand) (u lo : Nat) (mine : List Nat) (m : Member) (f : Foot) : M Bool :=
  match f.mem with
  | .none => pure true
  | .other | .ordered _ _ _ => pure (decide (lo ≤ m.nextElem))
  | .plain .write bytes addr => do
    let r ← slicesOf u m .write bytes addr (t.pending m lo)
    pure (match r with
      | some l => !l.any mine.contains
      | none => false)
  | .plain _ _ _ => pure true

/-- A member may process the group of elements `lo` to `hi` - 1 ahead of every older member, or every lower group of its
own, that has still to do so: none of those holds it back, and none of its own elements would fault. In protected mode
convoys follow one another (R276). -/
def mayGoAhead (u place lo hi : Nat) : M Bool := do
  let t ← getStrand u
  let l := convoysOf 0 t.queue
  match l[place]? with
  | none => pure false
  | some (m, n) =>
    match t.foot m with
    | none => pure false
    | some f =>
      let elems := (List.range hi).drop lo
      let next := decide (m.nextElem = lo)
      let mine ← (match f.mem with
        | .none => pure (some [])
        | .other => pure none
        | .plain acc bytes addr | .ordered acc bytes addr => slicesOf u m acc bytes addr elems)
      match mine with
      | none => pure false
      | some mine => do
        let own ← ownClear t u lo mine m f
        let rs ← mapList (withBefore l place) fun o => lets t u lo hi elems mine f (o.2.2 = n) o.1 o.2.1
        pure ((next || !t.footBound f) && !(t.protectedMode && n != 0) && (List.range n).all (t.convoyStarted l) && own
          && rs.all id)

/-- A load, whose groups may be read again: a stop may find it below a group that it has read ahead. -/
def Strand.plainLoad (t : Strand) (m : Member) : Bool :=
  match t.foot m with
  | some ⟨_, _, _, _, .plain .read _ _⟩ => true
  | _ => false

end Sys2Proof.Machine
end

