-- ==== Sys2Proof/Machine/Convoys.lean ====
section
/-!
DEFINITION. The column engine at work (R165 to R176): which meaning a member of the queue has, one step of the oldest
member, traps of pushed instructions (R431), retirement, binding (R172, R411), replies (R169) and stream fills (R175).
-/

namespace Sys2Proof.Machine

/-! ### The meaning of a member -/

/-- One step of member `m` as instruction `i`. A word that the helm executes has no meaning in a column queue: such a word,
put into a parked queue, takes ILLEGAL (log 27). -/
def memberStep (u : Nat) (m : Member) (i : Instr) : M Bool :=
  match i with
  | .setvl t xd src => colSetvl u m t xd src
  | .setvt t => colSetvt u m t
  | .vfold vd va f => colVfold u m vd va f
  | .vadd k u1 sat vd va vb => colVadd u m k u1 sat vd va vb
  | .vaddX k u1 sat vd va xb => colVaddX u m k u1 sat vd va xb
  | .vaddI k u1 sat vd va imm => colVaddI u m k u1 sat vd va imm
  | .vsub k u1 sat vd va vb => colVsub u m k u1 sat vd va vb
  | .vsubX k u1 sat vd va xb => colVsubX u m k u1 sat vd va xb
  | .vmul k u1 h vd va vb => colVmul u m k u1 h vd va vb
  | .vmulX k u1 h vd va xb => colVmulX u m k u1 h vd va xb
  | .vfma k vd va vb vc => colVfma u m k vd va vb vc
  | .vfmaX k vd va xb vc => colVfmaX u m k vd va xb vc
  | .vfms k vd va vb vc => colVfms u m k vd va vb vc
  | .vfmsX k vd va xb vc => colVfmsX u m k vd va xb vc
  | .vdiv k u1 vd va vb => colVdiv u m k u1 vd va vb
  | .vsqrt k vd va => colVsqrt u m k vd va
  | .vrcp k vd va => colVrcp u m k vd va
  | .vrsq k vd va => colVrsq u m k vd va
  | .vexp2 k vd va => colVexp2 u m k vd va
  | .vlog2 k vd va => colVlog2 u m k vd va
  | .vmin k u1 vd va vb => colVmin u m k u1 vd va vb
  | .vminX k u1 vd va xb => colVminX u m k u1 vd va xb
  | .vmax k u1 vd va vb => colVmax u m k u1 vd va vb
  | .vmaxX k u1 vd va xb => colVmaxX u m k u1 vd va xb
  | .vabs k vd va => colVabs u m k vd va
  | .vneg k vd va => colVneg u m k vd va
  | .vand k vd va vb => colVand u m k vd va vb
  | .vandX k vd va xb => colVandX u m k vd va xb
  | .vandI k vd va imm => colVandI u m k vd va imm
  | .vor k vd va vb => colVor u m k vd va vb
  | .vorX k vd va xb => colVorX u m k vd va xb
  | .vorI k vd va imm => colVorI u m k vd va imm
  | .vxor k vd va vb => colVxor u m k vd va vb
  | .vxorX k vd va xb => colVxorX u m k vd va xb
  | .vxorI k vd va imm => colVxorI u m k vd va imm
  | .vshl k vd va vb => colVshl u m k vd va vb
  | .vshlX k vd va xb => colVshlX u m k vd va xb
  | .vshlI k vd va n => colVshlI u m k vd va n
  | .vshr k vd va vb => colVshr u m k vd va vb
  | .vshrX k vd va xb => colVshrX u m k vd va xb
  | .vshrI k vd va n => colVshrI u m k vd va n
  | .vsra k vd va vb => colVsra u m k vd va vb
  | .vsraX k vd va xb => colVsraX u m k vd va xb
  | .vsraI k vd va n => colVsraI u m k vd va n
  | .vcvt k t vd va => colVcvt u m k t vd va
  | .vcmp k c pd pe va vb => colVcmp u m k c pd pe va vb
  | .vsel k vd va vb pe => colVsel u m k vd va vb pe
  | .vmov k vd va => colVmov u m k vd va
  | .vmvxToScalar k xd va i => colVmvxToScalar u m k xd va i
  | .vmvxToVector k vd xa i => colVmvxToVector u m k vd xa i
  | .vred k op tree xd va => colVred u m k op tree xd va
  | .vslide k down vd va amt => colVslide u m k down vd va amt
  | .vperm k vd va vb => colVperm u m k vd va vb
  | .viota k vd => colViota u m k vd
  | .pand k pd pe pf => colPand u m k pd pe pf
  | .por k pd pe pf => colPor u m k pd pe pf
  | .pxor k pd pe pf => colPxor u m k pd pe pf
  | .pandn k pd pe pf => colPandn u m k pd pe pf
  | .pset k pd n => colPset u m k pd n
  | .pcnt k xd pe => colPcnt u m k xd pe
  | .pfirst k xd pe => colPfirst u m k xd pe
  | .pmov k pd pe => colPmov u m k pd pe
  | .vld k m1 vd xa off => colVld u m k m1 vd xa off
  | .vldStrided k m1 vd xa xb off => colVldStrided u m k m1 vd xa xb off
  | .vst k m1 vs xa off => colVst u m k m1 vs xa off
  | .vstStrided k m1 vs xa xb off => colVstStrided u m k m1 vs xa xb off
  | .vldff k m1 vd xa off => colVldff u m k m1 vd xa off
  | .vgath k m1 vd xa vi off => colVgath u m k m1 vd xa vi off
  | .vscat k m1 vs xa vi off => colVscat u m k m1 vs xa vi off
  | .vscadd k m1 vs xa vi off => colVscadd u m k m1 vs xa vi off
  | .vldb k m1 vd xa vsc off => colVldb u m k m1 vd xa vsc off
  | .vstb k m1 vs xa vsc off => colVstb u m k m1 vs xa vsc off
  | .vldz k m1 vd xd xa xb bank => colVldz u m k m1 vd xd xa xb bank
  | .ctab bank xa off => colCtab u m bank xa off
  | .vcompress k vd va pe => colVcompress u m k vd va pe
  | .vexpand k vd va pe => colVexpand u m k vd va pe
  | .vpcnt k vd pe => colVpcnt u m k vd pe
  | .vconf k vd va => colVconf u m k vd va
  | .vscan k op excl vd va pe => colVscan u m k op excl vd va pe
  | .vlut k vd va vb => colVlut u m k vd va vb
  | .vbfx k vd va s w1 => colVbfx u m k vd va s w1
  | .vexit k pd pe => colVexit u m k pd pe
  | .lsync => colLsync u m
  | .bar gang => colBar u m gang
  | .claim scope xd xa xb => colClaim u m scope xd xa xb
  | .kdef kd xa off => colKdef u m kd xa off
  | .klen xd ka => colKlen u m xd ka
  | .klenSet kd xa => colKlenSet u m kd xa
  | .ksel c kd xd ka xa => colKsel u m c kd xd ka xa
  | .kselp c kd xd ka kb => colKselp u m c kd xd ka kb
  | .kjoin kd kc xd ka kb => colKjoin u m kd kc xd ka kb
  | .kmjoin kd kc xd ka kb => colKmjoin u m kd kc xd ka kb
  | .ksemi kd xd ka kb => colKsemi u m kd xd ka kb
  | .ksemiAnti kd xd ka kb => colKsemiAnti u m kd xd ka kb
  | .kgroup kd kc xd ka => colKgroup u m kd kc xd ka
  | .kagg op kd xd ka kb => colKagg u m op kd xd ka kb
  | .ksort kd xd ka => colKsort u m kd xd ka
  | .ktopk least kd xd ka xa => colKtopk u m least kd xd ka xa
  | .kgath kd xd ka => colKgath u m kd xd ka
  | .kcat kd xd ka kb => colKcat u m kd xd ka kb
  | .kbind n ka => colKbind u m n ka
  | .kbindAppend n ka => colKbindAppend u m n ka
  | .kunbind n => colKunbind u m n
  | .mattach xa => colMattach u m xa
  | .mdetach => colMdetach u m
  | .mzero => colMzero u m
  | .mma fa fb xa xb row n1 kk => colMma u m fa fb xa xb row n1 kk
  | .mmag xa xb => colMmag u m xa xb
  | .mmas fa fb pat za xa xb xc row n1 kk => colMmas u m fa fb pat za xa xb xc row n1 kk
  | .mext k b e m1 vd xa row col => colMext u m k b e m1 vd xa row col
  | .glaunch xa xb xc => colGlaunch u m xa xb xc
  | .assay xa => colAssay u m xa
  | .gend => colGend u m
  | .add _ _ _ | .sub _ _ _ | .mul _ _ _ | .mulh _ _ _ | .mulhu _ _ _ | .div _ _ _ | .divu _ _ _ | .rem _ _ _
  | .remu _ _ _ | .and _ _ _ | .or _ _ _ | .xor _ _ _ | .shl _ _ _ | .shr _ _ _ | .sra _ _ _ | .slt _ _ _
  | .sltu _ _ _ | .min _ _ _ | .max _ _ _ | .clz _ _ | .popc _ _ | .csel _ _ _ _ | .addi _ _ _ | .andi _ _ _
  | .ori _ _ _ | .xori _ _ _ | .shli _ _ _ | .shri _ _ _ | .srai _ _ _ | .limm _ _ | .addpc _ _ | .fadd _ _ _ _
  | .fsub _ _ _ _ | .fmul _ _ _ _ | .fma _ _ _ _ _ | .fdiv _ _ _ _ | .fsqrt _ _ _ | .fmin _ _ _ _ | .fmax _ _ _ _
  | .fcmp _ _ _ _ _ | .fcvt _ _ _ _ | .br _ | .bcmp _ _ _ _ | .call _ _ | .ret _ | .jmp _ _ | .ld _ _ _ _ _
  | .ldIndexed _ _ _ _ _ | .st _ _ _ _ | .stIndexed _ _ _ _ | .amo _ _ _ _ _ _ _ | .cas _ _ _ _ _ _ | .fence _ _
  | .pfence | .barw _ | .waitd _ _ | .signal _ _ | .dcfg _ _ | .dcopy _ | .dcopy2d _ | .dred _ _ _ _ _ _ _ _ _
  | .dpref _ _ _ | .dstat _ _ | .dcancel _ | .launch _ _ _ | .yield | .tickw _ | .tqctlExit _ _ _
  | .tqctlStat _ _ _ | .tqctlStop _ _ _ | .tqctlStart _ _ _ | .tqctlKill _ _ _ | .tqctlPeriod _ _ _ | .trap _
  | .eret | .uiret | .csrr _ _ | .csrw _ _ _ | .csrs _ _ _ | .csrc _ _ _ | .fencei | .ipref _ _ _ | .ipin _ _ _
  | .iunpin _ _ _ | .tlbinv _ _ _ _ | .idle | .savev _ _ | .restv _ _ | .savek _ _ | .restk _ _
  | .controlRegisterWrite _ _ _ | .keygo _ _ | .poolcszWrite _ _ | .pcflush _ | .pcflushOwner _ _ | .fqresume _ _
  | .fqabort _ _ | .plctlGo _ _ _ | .grantWindowLive _ _ | .grantWindowFree _ _ | .hevack _ _ | .fenceCluster _ _
  | .pdone _ _ | .reshape _ _ _ | .boot | .attest _ _ _ _ | .idkey | .grant _ _ | .withdraw _ | .queue _ _
  | .mailboxUnknown _ | .bootWindowAccess _ _ | .moduleReset | .hostPortReset | .hostLinkUp | .hostSnoop _
  | .flitCrcRetry _ _ | .linkDown _ _ | .replay _ _ _ | .planeLost _ | .remoteRequest _ | .remoteResponse _ _ _ _
  | .redrawn _ _ _ | .returnUndelivered _ _ _ | .probeRetry _ _ | .groupUnreachable _ | .responseDrop _ _
  | .easyallEnd | .foldStrip _ | .foldRelease _ _ | .foldEntryTimeout _ | .foldStripRetry _ | .tick
  | .victimsStopped | .preempt _ _ | .stripStopBound _ | .reshapeExpire _ | .resume _ | .progress _
  | .userInterrupt _ | .hostEvent _ | .machineCheck _ | .evwaitExpire | .writeBufferDrain _ | .dataCacheExpire _ _
  | .scrub _ _ | .thermal _ | .shutdown | .poolPortFailure _ | .draymanSector _ | .draymanComplete _
  | .dcfgStripFetch _ | .hintLine _ | .matrixPass _ | .streamFill _ _ | .arbiterBind _ | .convoyRetire _
  | .replyWrite _ | .lineFullWake _ | .barrierFire _ | .assayerCommit _ | .frozenRecordRelease _ _ | .linkUp _ _
  | .hostResponse _ _ | .poolPortResponse _ => colIllegal m

/-- One step of member `m`; a word that R202 refuses traps when its member reaches execution (R437). -/
def runMember (u : Nat) (m : Member) : M Bool :=
  match decode m.word with
  | some i => memberStep u m i
  | none => colIllegal m

/-! ### Charges (R411) -/

/-- Element groups of a member that its progress index counts as processed. -/
def groupsAt (t : Strand) (m : Member) : Nat :=
  match t.elemTy with
  | none => 0
  | some ty =>
    let e := groupElems ty t.protectedMode
    if m.done then (t.vl + e - 1) / e else if m.pv && m.idx.toNat < 0x3ffd then m.idx.toNat / e else 0

/-- The charge of one element group: 65,536 / share, rounded up. -/
def beatCharge (share : Byte) : Nat := (65536 + share.toNat - 1) / share.toNat

/-- The charge of strand `u` rises with the groups that a step of member `iid` has processed. -/
def State.chargeStep (s : State) (u iid : Nat) (before : Nat) : State :=
  let t := s.strand u
  match t.queue.find? fun m => m.iid = iid with
  | none => s
  | some m =>
    let k := s.cluster (clusterOf u)
    let n := if needsType m.word then groupsAt t m - before else 0
    let v := (Tab.get 0 k.charge u + n * beatCharge t.share) % 2 ^ 64
    if n = 0 then s else s.setCluster (clusterOf u) { k with charge := Tab.set k.charge u v }

/-! ### Traps of pushed instructions (R431, R283) -/

/-- The lowest set bit of a mask. -/
def lowestBit (p : BitVec 1024) : Nat := ((List.range 1024).find? fun i => p.getLsbD i).getD 1024

/-- First element of the group that holds element `i`. -/
def groupStart (t : Strand) (i : Nat) : Nat :=
  match t.elemTy with
  | some ty => i / groupElems ty t.protectedMode * groupElems ty t.protectedMode
  | none => 0

/-- The element below which the younger members of the convoy run on: they stop before the group of the lowest faulted
element of a vector memory instruction (R283), and do not run on after any other trap. -/
def runOnLimit (t : Strand) (iid code : Nat) : Nat :=
  if code = 4 && t.fmask != 0 && t.queue.any (fun m => m.iid = iid && m.replays) then groupStart t (lowestBit t.fmask)
  else 0

/-- A member stands inside an element group, a lane-crossing instruction or a scatter-add. -/
def Member.inside (m : Member) : Bool := !m.done && (m.mid || (m.pv && m.idx = 0x3ffd))

/-- The members that may still take a step before the trap is taken: the younger ones of the convoy up to the group of the
faulted element (R283), and those that are to come to their next boundary (R254, R431). -/
def Strand.runOns (t : Strand) : List Member :=
  match t.colTrap with
  | none => []
  | some c =>
    ((firstConvoy t.queue).filter fun m => !m.done && decide (m.nextElem < c.runOn) && t.runsOn m)
      ++ t.queue.filter (·.inside)

/-- The member that a trap which is to be taken names (R431). -/
def Strand.trapMember (t : Strand) : Option Member :=
  t.colTrap.bind fun c => (firstConvoy t.queue)[c.cause.toNat / 2 ^ 20]?

/-- A member that goes on before a trap is taken, so that those which have gone ahead stand below no group that they are not
to repeat: the oldest that nothing holds back (R254, R431). -/
def State.catchUp (s : State) (u : Nat) : Option Member :=
  let t := s.strand u
  let top := (t.queue.filter (·.partWay)).foldl (fun n m => max n m.reach) 0
  let size := max 1 t.groupSize
  if t.colTrap.isNone || top = 0 then none
  else t.queue.zipIdx.findSome? fun e =>
    let lo := e.1.nextElem
    if e.1.done || e.1.replays || !t.runsOn e.1 || decide (top ≤ lo) || (t.trapMember.any fun o => o.iid = e.1.iid) then none
    else match mayGoAhead u e.2 lo (min t.vl (lo / size * size + size)) s with
      | .ok true _ => some e.1
      | .ok false _ | .error _ _ => none

/-- Something of the strand's element accesses is still under way. -/
def State.columnOut (s : State) (u : Nat) : Bool :=
  let mine : Who → Bool
    | .column v _ => v = u
    | .helm _ | .fetch _ | .code _ _ | .store _ | .late _ _ | .elem _ _ _ | .drayman _ _ | .hint _ | .matrix _
    | .stream _ _ | .assayer _ | .cox | .fabric | .remote _ _ => false
  s.ports.any (fun p => mine p.who) || s.outstanding.any (fun o => mine o.who)
    || (s.cluster (clusterOf u)).storeQueue.any fun e => e.uid = u

/-- A member stops where it stands. -/
def Strand.stopMember (t : Strand) (iid : Nat) : Strand :=
  { t with queue := t.queue.map fun m => if m.iid = iid then { m with mid := false, reach := 0 } else m }

/-- The members run on no more. -/
def Strand.endRunOn (t : Strand) : Strand := { t with colTrap := t.colTrap.map fun c => { c with runOn := 0 } }

/-- The trap of a pushed instruction is taken (R431). -/
def State.takeColTrap (s : State) (u : Nat) : State :=
  match (s.strand u).colTrap with
  | some c => (s.discardColumn u).setStrand u ((s.strand u).takeColumn c)
  | none => s

/-- A trap that a pushed instruction has raised is taken once no member runs on and no access of the helm's own
instruction is under way. -/
def State.settleTrap (s : State) (u : Nat) : State :=
  let t := s.strand u
  if t.colTrap.isSome && t.runOns.isEmpty && (s.catchUp u).isNone && !s.midAccess u then s.takeColTrap u else s

/-- A step of a member that has trapped: the trap waits to be taken. `number` is the member's place in its convoy. -/
def State.raiseColumn (s : State) (u iid number : Nat) (tr : Trap) : State :=
  let t := s.strand u
  let c : ColTrap := ⟨causeWord tr.code tr.cls number, tr.tval, tr.epc, runOnLimit t iid tr.code⟩
  let stop (m : Member) : Member := if m.iid = iid then { m with mid := false, reach := 0 } else m
  s.setStrand u { t with colTrap := some c, queue := t.queue.map stop }

/-! ### Steps -/

/-- The strand's members may take steps: it is resident, its cluster in service, its strip bound, nothing held, and its
tile not stopped. -/
def State.engineRuns (s : State) (u : Nat) : Bool :=
  let t := s.strand u
  t.resident && t.bound && t.held.isEmpty && !s.fenced.contains (clusterOf u) && !s.tileStopped u

/-- Mark a member as completed, where it is still in the queue; its counter falls once its accesses are performed too
(R282). -/
def State.markDone (s : State) (u iid : Nat) : State :=
  let t := s.strand u
  (s.setStrand u { t with
    queue := t.queue.map fun m => if m.iid = iid then { m with done := true, work := none } else m
    openInstrs := t.openInstrs.map fun o => if o.iid = iid then { o with executed := true } else o }).settle u

/-- The group in which a member stands has been processed ahead. -/
def Strand.readAhead (t : Strand) (m : Member) : Bool :=
  t.runsOn m && !m.replays && m.nextElem % max 1 t.groupSize = 0 && m.ahead.contains (m.nextElem / max 1 t.groupSize)

/-- The member accesses vector memory, and so clears FMASK at its start (R283). -/
def Strand.clearsMask (t : Strand) (m : Member) : Bool := (t.foot m).any fun f => !f.mem.isNone

/-- A member moves past a group that it has processed ahead. -/
def skipGroup (u : Nat) (m : Member) : M Bool := do
  let t ← getStrand u
  if m.pv || t.colTrap.isSome || !t.clearsMask m then pure () else modStrand u fun t => { t with fmask := 0 }
  setIdx u m.iid (m.nextElem + t.groupSize)
  pure false

/-- One step of a member of the queue. -/
def queueStep (u : Nat) (m : Member) : M Bool := do
  let t ← getStrand u
  if t.readAhead m then skipGroup u m else runMember u m

/-- A step of a younger member that runs on (R283): it stops at a trap of its own, and where nothing that it waits for is
under way. -/
def State.runOnStep (s : State) (u : Nat) (m : Member) : State :=
  match queueStep u m s with
  | .ok true s' => (s'.markDone u m.iid).chargeStep u m.iid (groupsAt (s.strand u) m)
  | .ok false s' => s'.chargeStep u m.iid (groupsAt (s.strand u) m)
  | .error .wait s' => if m.partWay || s'.columnOut u then s' else s'.setStrand u (s'.strand u).endRunOn
  | .error (.trap _) _ => s.setStrand u ((s.strand u).endRunOn.stopMember m.iid)

/-- A step of the oldest member that has not completed. -/
def State.oldestStep (s : State) (u : Nat) (m : Member) : State :=
  match queueStep u m (s.setStrand u { s.strand u with waitsOn := none }) with
  | .ok true s' => (s'.markDone u m.iid).chargeStep u m.iid (groupsAt (s.strand u) m)
  | .ok false s' => s'.chargeStep u m.iid (groupsAt (s.strand u) m)
  | .error .wait s' => s'
  | .error (.trap tr) s' => s'.raiseColumn u m.iid (memberNumber (s.strand u) m) tr

/-- The oldest member that has not completed, in the convoy at the head of the queue. -/
def Strand.headMember (t : Strand) : Option Member := (firstConvoy t.queue).find? fun m => !m.done

/-- The column engine processes an element group, or takes a step, of the convoy at the head of the queue. -/
def State.columnStep (s : State) (u : Nat) : State :=
  if !s.engineRuns u then s
  else
    let t := s.strand u
    let s :=
      match t.colTrap, t.runOns, t.headMember with
      | some _, m :: _, _ => s.runOnStep u m
      | some _, [], _ => (s.catchUp u).elim s (s.runOnStep u)
      | none, _, some m => s.oldestStep u m
      | none, _, none => s
    s.settleTrap u

/-! ### Groups ahead of older members (R128, R167, R175) -/

/-- No older trap is at hand, and none is: the mark under which a group goes ahead, as a member runs on (R283). Its limit
lies beyond every element; a group that faults lowers it. -/
def aheadMark : ColTrap := ⟨0, 0, none, 2 ^ 14⟩

/-- The strand after a group has gone ahead, or while it waits. What the oldest member waits on stands. -/
def Strand.afterAhead (t old : Strand) : Strand := { t with colTrap := none, waitsOn := old.waitsOn }

/-- The state in which a member processes group `g` ahead, with the member as it stands there. Where no older load or store
is in progress, FMASK is cleared at the start of the member (R283). -/
def State.beforeAhead (s : State) (u : Nat) (m : Member) (older : List Member) (lo : Nat) : Member × State :=
  let t := s.strand u
  let m' := { m with idx := BitVec.ofNat 14 lo, pv := m.pv || lo != 0 }
  let fresh := !m.pv && t.clearsMask m && older.all fun o => o.done || !t.clearsMask o
  (m', s.setStrand u { t with
    colTrap := some aheadMark, fmask := if fresh then 0 else t.fmask
    queue := t.queue.map fun q => if q.iid = m.iid then m' else q })

/-- A member that has processed group `g` stands where it stood, and goes past the group later; unless it is a load, no
stop finds it below the group's end `hi`. -/
def Strand.noteAhead (t : Strand) (m : Member) (hi : Nat) (g : Option Nat) : Strand :=
  let reach := if g.isSome && !t.plainLoad m then max m.reach hi else m.reach
  { t with queue := t.queue.map fun q =>
      if q.iid = m.iid then { q with idx := m.idx, pv := m.pv, mid := m.mid, ahead := m.ahead ++ g.toList, reach := reach }
      else q }

/-- A member stands inside a group. -/
def Strand.inGroup (t : Strand) (iid : Nat) : Bool := t.queue.any fun m => m.iid = iid && m.mid

/-- A member processes group `g` of its elements, from element `lo` on, ahead: the next one, or one of another lane group.
Nothing happens where it
would fault, or would not come to the end of a group that is not the next: the member does so in its turn. -/
def State.aheadStep (s : State) (u : Nat) (m : Member) (older : List Member) (g lo : Nat) : State :=
  let t := s.strand u
  let hi := min t.vl (g * t.groupSize + t.groupSize)
  let next := m.nextElem = lo
  let (m', s0) := s.beforeAhead u m older lo
  let back (s : State) : State := s.setStrand u ((s.strand u).afterAhead t)
  let stands (s : State) (g : Option Nat) : State :=
    if next then s else s.setStrand u ((s.strand u).noteAhead m hi g)
  match (if next && t.readAhead m then skipGroup u m else runMember u m') s0 with
  | .ok done s' =>
    if (s'.strand u).colTrap != some aheadMark || (!next && (s'.strand u).inGroup m.iid) then s
    else
      let s := stands (back s') (some g)
      (if done && next then s.markDone u m.iid else s).chargeStep u m.iid (groupsAt t m)
  | .error .wait s' => stands (back s') none
  | .error (.trap _) _ => s

/-- A member at a place of the queue processes group `g` ahead, where nothing holds it back (R128, R167, R175; log 96). -/
def State.columnAhead (s : State) (u place g : Nat) : State :=
  let t := s.strand u
  match t.queue[place]? with
  | none => s
  | some m =>
    let inside := m.mid && t.runsOn m && decide (g = m.nextElem / max 1 t.groupSize)
    let lo := if inside then m.nextElem else g * t.groupSize
    let hi := min t.vl (g * t.groupSize + t.groupSize)
    let next := m.nextElem = lo && (place != 0 || m.ahead.contains g)
    if !s.engineRuns u || t.colTrap.isSome || m.done || (m.mid && !inside) || m.replays || hi ≤ lo then s
    else if !(next || (t.runsOn m && decide (m.nextElem < lo) && !m.ahead.contains g)) then s
    else
      match mayGoAhead u place lo hi s with
      | .ok true s => s.aheadStep u m (t.queue.take place) g lo
      | .ok false s => s
      | .error _ s => s

/-- Every younger member of the queue goes one group ahead where it may (log 96). -/
def State.goAhead (s : State) (u : Nat) : State :=
  let t := s.strand u
  (List.range t.queue.length).foldl (fun s i =>
    match (s.strand u).queue[i]? with
    | some m => if i = 0 then s else s.columnAhead u i (m.nextElem / max 1 t.groupSize)
    | none => s) s

/-! ### Retirement (R165, R276) -/

/-- The strip at the head of the queue is at its end: the queue is empty, or its head starts a strip (R172). -/
def stripEnds : List Member → Bool
  | [] => true
  | m :: _ => startsStrip m.word

/-- The DIVERGE trap that follows a convoy: the one noted in its mode (R276). -/
def Strand.divergence (t : Strand) (c : List Member) : Option ColTrap :=
  (t.kept.diverge.filter fun d => c.any fun m => m.mode = d.1).map (·.2)

/-- The convoy at the head of the queue retires. -/
def Strand.retire (t : Strand) : Strand :=
  let c := firstConvoy t.queue
  let rest := t.queue.drop c.length
  let d := t.divergence c
  { t with
    queue := rest
    bound := t.bound && !stripEnds rest
    colTrap := d
    kept := if d.isSome then { t.kept with diverge := none } else t.kept }

/-- The convoy at the head of the queue is complete. -/
def Strand.retires (t : Strand) : Bool := !t.queue.isEmpty && t.colTrap.isNone && (firstConvoy t.queue).all (·.done)

/-- The error record of a DIVERGE trap that follows the convoy at the head of the queue (R455, R456). -/
def State.logDiverge (s : State) (u : Nat) (d : ColTrap) : State :=
  let t := s.strand u
  let m := (firstConvoy t.queue)[d.cause.toNat / 2 ^ 20]?
  let lg := if d.elem = 0x3fff then 0 else t.lanes.getD (d.elem / max 1 t.groupSize) 0
  (s.logError 0 5 6 u lg ((m.map (·.owner)).getD 0) d.elem ((m.map (·.addr)).getD 0)).1

/-- Retire the convoy at the head of the queue, if all its members have completed; a DIVERGE trap follows (R276). -/
def State.convoyRetire (s : State) (u : Nat) : State :=
  let t := s.strand u
  if t.held.isEmpty && t.retires && !s.fenced.contains (clusterOf u) then
    let s := match t.divergence (firstConvoy t.queue) with
      | some d => s.logDiverge u d
      | none => s
    ((s.setStrand u t.retire).settle u).settleTrap u
  else s

/-- CONVOY_RETIRE (R165). -/
def execConvoyRetire (uid : Uid) (s : State) : Host.Outcome State Fault Refusal := .next (s.convoyRetire uid.toNat)

/-- BARRIER_FIRE (R151): the marker at the head of the queue fires, if the older accesses are performed. -/
def execBarrierFire (uid : Uid) (s : State) : Host.Outcome State Fault Refusal :=
  .next (match (s.strand uid.toNat).headMember.bind fun m => decode m.word with
    | some (.bar _) => s.columnStep uid.toNat
    | _ => s)

/-- LINE_FULL_WAKE (R55): the element group that waits for a line goes on. The helm tries an access of its own again when
it issues. -/
def execLineFullWake (uid : Uid) (s : State) : Host.Outcome State Fault Refusal := .next (s.columnStep uid.toNat)

/-- REPLY_WRITE (R168, R169): the replies whose values are known are written, in the order of their slots. -/
def execReplyWrite (uid : Uid) (s : State) : Host.Outcome State Fault Refusal :=
  .next (s.setStrand uid.toNat (s.strand uid.toNat).reply)

/-! ### Binding (R172, R411) -/

/-- Lane groups that strips of other strands of the cluster are bound to. -/
def State.lanesBound (s : State) (c : Nat) : List Nat :=
  ((clusterStrands c).filter fun u => (s.strand u).bound).flatMap fun u => (s.strand u).lanes

/-- The strand's strip waits to be bound, and its lane groups are all free. -/
def State.bindable (s : State) (u : Nat) : Bool :=
  let t := s.strand u
  t.resident && !t.bound && !t.queue.isEmpty && t.held.isEmpty
    && !t.lanes.any (s.lanesBound (clusterOf u)).contains

/-- The strand with the least charge; ties go to the lower index. -/
def leastCharged (k : Cluster) : List Nat → Option Nat
  | [] => none
  | u :: t =>
    match leastCharged k t with
    | none => some u
    | some v => if Tab.get 0 k.charge v < Tab.get 0 k.charge u then some v else some u

/-- The arbiters of cluster `c` bind one strip. -/
def State.arbiterBind (s : State) (c : Nat) : State :=
  if s.fenced.contains c then s
  else
    match leastCharged (s.cluster c) ((clusterStrands c).filter s.bindable) with
    | some u => s.setStrand u { s.strand u with bound := true }
    | none => s

/-- ARBITER_BIND (R172). -/
def execArbiterBind (cid : Cid) (s : State) : Host.Outcome State Fault Refusal := .next (s.arbiterBind cid.toNat)

/-! ### Stream fills (R146, R175, R176) -/

/-- The agent of a fill. -/
def fillAgent (t : Strand) (u : Nat) : Agent := ⟨u, t.mode, t.owner, 1, 0, 0⟩

/-- A fill that meets a fault stops there (log 26). -/
def stickStream (u : Nat) (n : Fin 8) (va : Word) (f : AFault) : M Unit := do
  let t ← getStrand u
  modS fun s => s.logIfViolation (fillAgent t u) .read va f
  modStrand u fun t => { t with streams := t.streams.set n { t.streams[n] with stuck := some (va, f.cls) } }

/-- A value that a fill reads, with the mark of a consumed error: a detached range or a remote failure gives one too (R98,
R111). The binding's first of a kind leaves a record. none: it faults. -/
def fillRead (u : Nat) (n : Fin 8) (va : Word) (size : Nat) : M (Option (Nat × Bool)) := do
  let t ← getStrand u
  match ← engPiece (fillAgent t u) (.stream u n) .read none va size with
  | .data l none => pure (some (natOfBytes (l.map (·.1)), false))
  | .data _ (some (a, lv)) => do
    if t.streams[n].consumed then pure ()
    else modS fun s => (s.consume (fillAgent t u) a lv (t.streams[n].filled % 2 ^ 14)).1
    modStrand u fun t => { t with streams := t.streams.set n { t.streams[n] with consumed := true } }
    pure (some (0, true))
  | .detached f => do
    if t.streams[n].detached then pure ()
    else modS fun s => s.queueFault (fillAgent t u) (accessOwner (fillAgent t u) va) va size f .read false none
    modStrand u fun t => { t with streams := t.streams.set n { t.streams[n] with detached := true } }
    pure (some (0, true))
  | .failed _ => pure (some (0, true))
  | .fault f => do
    stickStream u n va f
    pure none

/-- The next element of a stream joins its buffer. -/
def fillOne (u : Nat) (n : Fin 8) : M Unit := do
  let t ← getStrand u
  let st := t.streams[n]
  let d := t.k[st.col.toNat]
  let size := etypeBytes (descType d)
  waitUnless (t.resident && st.bound && !st.append && st.stuck.isNone && t.mode = st.mode)
  waitUnless (decide (st.filled < descLen d) && decide (st.buffer.length < 4 * t.vlmax))
  let pos ← if descHaspos d then fillRead u n (descPbase d + BitVec.ofNat 64 (4 * st.filled)) 4
    else pure (some (st.filled, false))
  let got ← match pos with
    | none => pure none
    | some (_, true) => pure (some (0, true))
    | some (p, false) => fillRead u n (descBase d + BitVec.ofNat 64 (p * size)) size
  match got with
  | none => pure ()
  | some (v, bad) => do
    let put (st : Stream) : Stream := { st with buffer := st.buffer ++ [(BitVec.ofNat 64 v, bad)], filled := st.filled + 1 }
    modStrand u fun t => { t with streams := t.streams.set n (put t.streams[n]) }
    modS (·.forget (.stream u n))

/-- Up to `k` elements of a stream are filled. -/
def fillMany (u : Nat) (n : Fin 8) : Nat → M Unit
  | 0 => pure ()
  | k + 1 => do
    fillOne u n
    fillMany u n k

/-- The stream-load unit fills up to a strip of a stream. -/
def State.streamFill (s : State) (u : Nat) (n : Fin 8) : State :=
  if s.fenced.contains (clusterOf u) then s
  else
    match fillMany u n (s.strand u).vlmax s with
    | .ok _ s' => s'
    | .error _ s' => s'

/-- STREAM_FILL (R175). -/
def execStreamFill (uid : Uid) (n : BitVec 3) (s : State) : Host.Outcome State Fault Refusal :=
  .next (s.streamFill uid.toNat n.toFin)

/-! ### The other engines' steps -/

/-- A step of a unit of cluster `c`: none once the cluster is fenced (R458). -/
def State.unitStep (s : State) (c : Nat) (f : State → State) : State := if s.fenced.contains c then s else f s

/-- MATRIX_PASS (R351). -/
def execMatrixPass (cid : Cid) (s : State) : Host.Outcome State Fault Refusal :=
  .next (s.unitStep cid.toNat (·.matrixPass cid.toNat))

/-- DRAYMAN_SECTOR (R366). -/
def execDraymanSector (cid : Cid) (s : State) : Host.Outcome State Fault Refusal :=
  .next (s.unitStep cid.toNat (·.draymanSector cid.toNat))

/-- DRAYMAN_COMPLETE (R369): operations of a fenced cluster complete too (R458). -/
def execDraymanComplete (cid : Cid) (s : State) : Host.Outcome State Fault Refusal := .next (s.draymanComplete cid.toNat)

/-- DCFG_STRIP_FETCH (R383). -/
def execDcfgStripFetch (uid : Uid) (s : State) : Host.Outcome State Fault Refusal :=
  .next (s.unitStep (clusterOf uid.toNat) (·.stripFetch uid.toNat))

/-- HINT_LINE (R381). -/
def execHintLine (cid : Cid) (s : State) : Host.Outcome State Fault Refusal :=
  .next (s.unitStep cid.toNat (·.hintLine cid.toNat))

/-- ASSAYER_COMMIT (R421). -/
def execAssayerCommit (cid : Cid) (s : State) : Host.Outcome State Fault Refusal :=
  .next (s.unitStep cid.toNat (·.assayerStep cid.toNat))

end Sys2Proof.Machine
end

