-- ==== Sys2Proof/Machine/Ports.lean ====
section
/-!
DEFINITION. Answers that come from outside: how an answer reaches the access that waits for it, and what a pool port
(R62, R63, R456) and the host (R66, R67, R98) answer.
-/

namespace Sys2Proof.Machine

/-! ### Answers -/

/-- An answer reaches its requester: a store learns what became of it, a prefetched line fills the instruction cache, a
load that was discarded is forgotten (R440), and any other access finds the answer when it runs again. Nothing waits for
the release of a fold entry (R378). -/
def State.deliver (s : State) (who : Who) (t : Target) (op : RemoteOp) (parts : List StorePart) (a : Answer) : State :=
  match op, who with
  | .probe, _ | .release _, _ => s
  | _, .store u => s.storeAnswered u 0 t op parts a
  | _, .elem u _ _ => (s.storeAnswered u 1 t op parts a).reportDetached u
  | _, .late u seq => s.lateAnswer u seq a
  | _, .code u pin =>
    match a with
    | .bytes l => s.fillCode (helmOf u) (t.cacheLine l) pin
    | .claimed _ _ | .acked | .violation | .unimplemented | .outside | .hostDetached | .poisoned | .remoteFault
    | .failed _ => s
  | _, .column _ 0 => s
  | _, .cox => (s.keepAnswer .cox t op a).coxRun
  | _, .helm _ | _, .fetch _ | _, .column _ _ | _, .drayman _ _ | _, .hint _ | _, .matrix _ | _, .stream _ _
  | _, .assayer _ | _, .fabric | _, .remote _ _ =>
    s.keepAnswer who t op a

/-- A request leaves its port. -/
def State.dropPort (s : State) (id : Nat) : State := { s with ports := s.ports.filter fun p => p.id != id }

/-- A request that waits at a port. -/
def State.portRequest (s : State) (host : Bool) (id : Nat) : Option PortRequest :=
  s.ports.find? fun p => p.id = id && p.host == host

/-! ### Pool ports (R62, R63, R456) -/

/-- The identity of the operation, or the address of the instruction, that a request comes from (R455). -/
def PortRequest.ident (p : PortRequest) : Word :=
  match p.who with
  | .drayman _ i => i
  | .helm _ | .fetch _ | .code _ _ | .store _ | .column _ _ | .elem _ _ _ | .hint _ | .late _ _ | .matrix _ | .stream _ _
  | .assayer _ | .cox | .fabric | .remote _ _ => (p.parts.head?.map (·.ident)).getD 0

/-- What a failed pool port answers: reads are poisoned, and dropped writes are logged (R456). -/
def State.failedPort (s : State) (p : PortRequest) : Answer × State :=
  if opReads p.op || opAtomic p.op then (.poisoned, s)
  else
    (.acked, (s.logError p.target.pa 6 4 p.who.place.1 0 p.target.owner ((p.parts.head?.bind (·.elem)).getD 0) p.ident).1)

/-- A pool cache takes a missing line; with no pool cache, and for a miss under STREAM, the access passes to the port
(R62, R76). -/
def State.allocates (s : State) (p : PortRequest) : Bool :=
  s.poolcsz != 0 && match p.target.pol with
    | .stream => false
    | .default | .keep => true

/-- What a pool port answers to a request that lies in one line. -/
def State.poolLine (s : State) (p : PortRequest) : Answer × State :=
  if s.allocates p then
    let die := homeDie p.target.pa
    let s := s.fillPool (p.target.pa / 128) p.target.owner p.enc (p.target.pol = .keep)
    match (s.poolLines die).find? fun e => e.line = p.target.pa / 128 with
    | some l => s.poolHit die l p.target.pa p.op (p.target.pol = .keep)
    | none => (.acked, s)
  else s.physOp p.enc p.target.pa p.op

/-- One line of a write that lies in two: in the line that the pool cache holds, or as a miss. -/
def State.poolPart (s : State) (p : PortRequest) (pa : Nat) (w : List (Option Byte)) : State :=
  let die := homeDie pa
  let p := { p with target := { p.target with pa := pa }, op := .store w }
  match (s.poolLines die).find? fun e => e.line = pa / 128 with
  | some l =>
    if l.owner = p.target.owner then (s.poolHit die l pa p.op (p.target.pol = .keep)).2 else ((s.dropPool die l).poolLine p).2
  | none => (s.poolLine p).2

/-- What a pool port answers. A write that lies in two lines is performed in both at one instant (R422). -/
def State.poolServe (s : State) (p : PortRequest) : Answer × State :=
  if s.portFailed p.target.pa then s.failedPort p
  else
    let k := 128 - p.target.pa % 128
    match p.op with
    | .store w =>
      if w.length ≤ k then s.poolLine p
      else (.acked, (s.poolPart p p.target.pa (w.take k)).poolPart p (p.target.pa + k) (w.drop k))
    | _ => s.poolLine p

/-- A pool port answers a request that is outstanding at it. -/
def State.poolResponse (s : State) (id : Nat) : State :=
  match s.portRequest false id with
  | none => s
  | some p =>
    let (a, s) := (s.dropPort id).poolServe p
    s.deliver p.who p.target p.op p.parts a

/-! ### The host (R66, R67) -/

/-- The host holds other bytes in a line than the port last knew: they stand in its memory as they are. -/
def State.hostWrote (s : State) (a : Nat) (l : List Byte) : State :=
  let s : State := { s with pmem := storeBytes s.pmem a (writeAll l) }
  let clear (s : State) (u : Nat) : State := { s with units := Tab.set s.units u .clear }
  (unitsOf 64 a l.length).foldl clear s

/-- The bytes of the lines of a host access, as a length. -/
def hostSpan (pa n : Nat) : Nat := 64 * (unitsOf 64 pa n).length

/-- A line in the host-line cache of 65,536 lines, in the state Shared, for an owner (R66). A full cache gives up any line:
R66 names neither sets nor a policy, and the choice is free (log 84). -/
def State.fillHost (s : State) (p : PortRequest) (line : Nat) : State :=
  let data := s.physRead p.enc (64 * line) 64
  let others := s.hostCache.filter fun e => e.line != line
  let kept := p.target.pol = .keep || s.hostCache.any fun e => e.line = line && e.owner = p.target.owner && e.keep
  let v := cacheVictim 1 65536 (Config.freeVictim s.draws) (fun _ => 0) hostOldest 0 others
  { s.drawn with hostCache := ⟨line, p.target.owner, kept, data⟩ :: dropVictim v others }
where
  /-- What the cache may give up: a line that KEEP did not place, while there is one (R76). -/
  hostOldest (l : List HostLine) : List HostLine :=
    match l.filter fun e => !e.keep with
    | [] => l
    | l => l

/-- A host access leaves its lines in the host-line cache: a load or an operation of the port as Shared lines of its
owner; a store updates the copies of its owner, and those of others leave (R66, R67, R76, R482). -/
def State.hostFills (s : State) (p : PortRequest) : State :=
  let lines := unitsOf 64 p.target.pa (opSize p.op)
  let cached (line : Nat) : Bool := s.hostCache.any fun e => e.line = line && e.owner = p.target.owner
  let keep (line : Nat) : Bool := cached line || ((opReads p.op || opAtUnit p.op) && p.target.pol != .stream)
  let step (s : State) (line : Nat) : State :=
    if keep line then s.fillHost p line else { s with hostCache := s.hostCache.filter fun e => e.line != line }
  lines.foldl step s

/-- An operation on lines that the host port has obtained (R67). Of a strip of folds each element is applied but one whose
unit is marked, whose error is consumed (R450). -/
def State.hostOp (s : State) (e : Enc) (pa : Nat) (op : RemoteOp) : Answer × State :=
  match op with
  | .folds f l => (foldWritesOf f l).foldl (fun (r : Answer × State) w =>
      let (a, s) := r.2.physOp e (pa + w.1) w.2
      (if a = .poisoned then a else r.1, s)) (.acked, s)
  | .load _ | .store _ | .amo _ _ _ | .cas _ _ _ | .claim _ | .addElem _ _ | .nibble _ _ | .fold _ _ | .copied _ _ | .probe
  | .invalidate _ _ _ | .release _ => s.physOp e pa op

/-- The host answers a request: a read, or the line that an operation of the port obtains, with the bytes that its lines
hold, where they are not those that the port last knew; or the acknowledgement of a write. -/
def State.hostServe (s : State) (p : PortRequest) (data : Option (List Byte)) : Answer × State :=
  let s := match data with
    | some l =>
      if (opReads p.op || opAtUnit p.op) && l.length = hostSpan p.target.pa (opSize p.op) then
        s.hostWrote (p.target.pa / 64 * 64) l
      else s
    | none => s
  let (a, s) := s.hostOp p.enc p.target.pa p.op
  (a, s.hostFills p)

/-- The host answers a request that is outstanding at it. -/
def State.hostResponse (s : State) (id : Nat) (data : Option (List Byte)) : State :=
  match s.portRequest true id with
  | none => s
  | some p =>
    let (a, s) := (s.dropPort id).hostServe p data
    s.deliver p.who p.target p.op p.parts a

/-- HOST_SNOOP (R66): the line leaves the host-line cache. -/
def execHostSnoop (line : BitVec 44) (s : State) : Host.Outcome State Fault Refusal :=
  .next { s with hostCache := s.hostCache.filter fun e => e.line != 2 ^ 45 + line.toNat }

end Sys2Proof.Machine
end

