-- ==== Sys2Proof/Machine/Fabric.lean ====
section
/-!
DEFINITION. The fabric as this module sees it (R100 to R123): what it does with responses, refusals, returns and probes
to its own requests, how it serves the requests and strips of other modules, and its own switch points.
-/

namespace Sys2Proof.Machine

/-! ### Outstanding requests -/

/-- How this module sends to a target. -/
def State.peer (s : State) (m : ModNum) : PeerState := Tab.get .running s.peers m.toNat

/-- The state with a target's sending state set. Probes end with the probing (R116). -/
def State.setPeer (s : State) (m : ModNum) (p : PeerState) : State :=
  match p with
  | .running =>
    { s with peers := Tab.erase s.peers m.toNat, learned := Tab.erase s.learned m.toNat,
             outstanding := s.outstanding.filter fun o => !(o.target = m && o.op = .probe) }
  | .stopped _ | .probing => { s with peers := Tab.set s.peers m.toNat p }

/-- Planes that this module and a target both use: bothmask (R103). -/
def State.bothMask (s : State) (m : ModNum) : BitVec 4 := s.live &&& (s.peerView m).mask

/-- An outstanding request by its tag. -/
def State.request (s : State) (tag : Nat) : Option Outstanding := s.outstanding.find? fun o => o.tag = tag

/-- Change one outstanding request. -/
def State.modRequest (s : State) (tag : Nat) (f : Outstanding → Outstanding) : State :=
  { s with outstanding := s.outstanding.map fun o => if o.tag = tag then f o else o }

/-- An outstanding request is outstanding no more. -/
def State.dropRequest (s : State) (o : Outstanding) : State :=
  { s with outstanding := s.outstanding.filter fun r => r.tag != o.tag }

/-- The number of an access code (R46). -/
def Acc.ofCode (c : BitVec 3) : Acc :=
  match c.toNat with
  | 0 => .read
  | 1 => .write
  | 2 => .atomic
  | 3 => .fetch
  | 4 => .copySource
  | 5 => .copyDest
  | 6 => .reduce
  | _ => .hint

/-- The agent that a violation record names for a request that no instruction waits for. -/
def Outstanding.agent (o : Outstanding) : Agent := ⟨o.who.place.1, .user, o.owner, o.who.place.2, 0, o.ident⟩

/-- The target has refused a request that no instruction waits for, a prefetched line or a load that was discarded: the
violation is logged here all the same (R46). -/
def State.refusedUnheard (s : State) (o : Outstanding) (a : Answer) : State :=
  match a with
  | .violation =>
    if o.who.isUnheard then s.logIfViolation o.agent (.ofCode o.acc) o.va ⟨3, 5, 7, 1⟩ else s
  | .bytes _ | .claimed _ _ | .acked | .unimplemented | .outside | .hostDetached | .poisoned | .remoteFault | .failed _ => s

/-- An outstanding request ends with its final response or failure (R106). -/
def State.finish (s : State) (o : Outstanding) (a : Answer) : State :=
  ((s.dropRequest o).refusedUnheard o a).deliver o.who o.at o.op o.parts a

/-- An outstanding request ends in a failure, which the fabric error log records (R111, R112); a probe is no access. -/
def State.failRequest (s : State) (o : Outstanding) (code : Nat) : State :=
  if o.op = .probe then s.dropRequest o
  else
    let (u, unit) := o.who.place
    (s.logFabric o code u unit).finish o (.failed (BitVec.ofNat 4 code))

/-- Fail every request of a list that is still outstanding. -/
def State.failAll (s : State) (code : Nat) : List Outstanding → State
  | [] => s
  | o :: t => ((match s.request o.tag with
    | some r => s.failRequest r code
    | none => s)).failAll code t

/-- Requests to a target, its probes aside. -/
def State.requestsTo (s : State) (m : ModNum) : List Outstanding :=
  s.outstanding.filter fun o => o.target = m && o.op != .probe

/-- A probe of a target is on its way. -/
def State.probeOut (s : State) (m : ModNum) : Bool := s.outstanding.any fun o => o.target = m && o.op = .probe

/-- Send a probe to a target, on the first plane of bothmask from `plane` on (R116 step 3): none is left to try where
there is no such plane. -/
def State.sendProbe (s : State) (m : ModNum) (plane : Nat) : State :=
  match (planesOf (s.bothMask m)).find? fun p => plane ≤ p with
  | none => s
  | some p =>
    let o : Outstanding :=
      { tag := s.nextTag, who := .fabric, target := m, pa := 0, va := 0, owner := 0, op := .probe, acc := 0, ident := 0,
        state := .sent, plane := BitVec.ofNat 2 p, link := BitVec.ofNat 3 (s.linkOf p 0), view := s.peerView m,
        replay := false, returned := 0, failure := 0, strip := none, level := 7, parts := [] }
    { s with outstanding := s.outstanding ++ [o], nextTag := s.nextTag + 1 }

/-- Requests to targets that no plane reaches end with NO-PLANE (R112 (a)). -/
def State.sweepPlanes (s : State) : State := s.failAll 4 (s.outstanding.filter fun o => s.bothMask o.target = 0)

/-- The request as it is sent now: on the plane and link of R103, with the view of the target (R115). -/
def State.sendNow (s : State) (replay : Bool) (o : Outstanding) : Outstanding :=
  let plane := planeOf (s.bothMask o.target) o.pa
  { o with state := .sent, plane := BitVec.ofNat 2 plane, link := BitVec.ofNat 3 (s.linkOf plane o.pa),
           view := s.peerView o.target, replay := o.replay || replay }

/-- Resume sending to a target: first what came back is reissued in its issue order, then what was held is sent (R116
step 4). -/
def State.resumePeer (s : State) (m : ModNum) : State :=
  let s := s.setPeer m .running
  let back := s.outstanding.filter fun o => o.target = m && o.state = .back
  let again (o : Outstanding) : Outstanding :=
    if o.target = m then
      match o.state with
      | .back => s.sendNow true o
      | .held => s.sendNow false o
      | .sent => o
    else o
  { s with outstanding := s.outstanding.map again
           reissue := BitVec.ofNat 64 (min (s.reissue.toNat + back.length) (2 ^ 64 - 1)) }

/-- Adopt a target's values and resume; no plane in common ends its requests (R112, R116). -/
def State.adopt (s : State) (m : ModNum) (v : PlaneView) : State :=
  let s := s.setPeerView m v
  if s.bothMask m = 0 then (s.setPeer m .running).sweepPlanes else s.resumePeer m

/-- Nothing outstanding to a target is on its way (R116 step 2). -/
def State.drained (s : State) (m : ModNum) : Bool := !(s.requestsTo m).any fun o => o.state = .sent

/-- Once a stopped target has drained, its new values are adopted, or probes follow (R116 step 3). At this module's own
switch point the target's values are not in question (R117). -/
def State.drainCheck (s : State) (m : ModNum) : State :=
  match s.peer m with
  | .running | .probing => s
  | .stopped own =>
    if !s.drained m then s
    else
      match s.learned.find? fun e => e.1 = m.toNat with
      | some e => s.adopt m e.2
      | none =>
        if own || (s.requestsTo m).isEmpty then s.resumePeer m else (s.setPeer m .probing).sendProbe m 0

/-- Stop sending to a target (R116 step 1). -/
def State.stopPeer (s : State) (m : ModNum) (own : Bool) : State :=
  match s.peer m with
  | .running => s.setPeer m (.stopped own)
  | .stopped o => s.setPeer m (.stopped (o || own))
  | .probing => if own then s.setPeer m (.stopped own) else s

/-- The values that a response or a refusal carries (R113, R116): kept while the target is stopped; adopted at once
where nothing is outstanding to it. -/
def State.learn (s : State) (m : ModNum) (v : PlaneView) : State :=
  if v = s.peerView m then s
  else
    match s.peer m with
    | .stopped _ | .probing => { s with learned := Tab.set s.learned m.toNat v }
    | .running => if (s.requestsTo m).isEmpty then s.setPeerView m v else s

/-- What a final response means to the access. -/
def replyAnswer : RemoteReply → Answer
  | .done l => if l.isEmpty then .acked else .bytes l
  | .claimed next n => .claimed next n
  | .violation => .violation
  | .hostDetached => .hostDetached
  | .poisoned => .poisoned
  | .faulted => .remoteFault
  | .outside => .outside
  | .redrawn | .noEntry => .acked

/-- A probe is answered (R116 step 3): new values end the probing; with the old ones, probes go on. -/
def State.probeAnswered (s : State) (o : Outstanding) (v : PlaneView) : State :=
  let s := s.dropRequest o
  match s.peer o.target with
  | .probing => if v = s.peerView o.target then s else s.adopt o.target v
  | .running | .stopped _ => (s.learn o.target v).drainCheck o.target

/-- A request was refused (R115, R378): it is to be sent again. A strip refused for want of a fold entry stops nothing
else. -/
def State.refused (s : State) (o : Outstanding) (stops : Bool) (v : PlaneView) : State :=
  let s := s.modRequest o.tag fun r => { r with state := .back }
  let s := if stops then s.stopPeer o.target false else s
  (s.learn o.target v).drainCheck o.target

/-- A response of a module reaches this one (R113). -/
def State.response (s : State) (source : ModNum) (tag : Nat) (reply : RemoteReply) (v : PlaneView) : State :=
  match s.request tag with
  | none => s
  | some o =>
    if o.target != source then s
    else if o.op = .probe then s.probeAnswered o v
    else
      match reply with
      | .redrawn => if o.state = .sent then s.refused o true v else s
      | .noEntry => if o.state = .sent && o.strip.isSome then s.refused o false v else s
      | .done _ | .claimed _ _ | .violation | .hostDetached | .poisoned | .faulted | .outside =>
        ((s.finish o (replyAnswer reply)).learn source v).drainCheck source

/-- REMOTE_RESPONSE (R113). -/
def execRemoteResponse (source : ModNum) (tag : Nat) (reply : RemoteReply) (view : PlaneView) (s : State) :
    Host.Outcome State Fault Refusal := .next (s.response source tag reply view)

/-- REDRAWN (R115, R116): the request is held back, and sending to its target stops until it has drained. -/
def execRedrawn (source : ModNum) (tag : Nat) (view : PlaneView) (s : State) : Host.Outcome State Fault Refusal :=
  .next (s.response source tag .redrawn view)

/-- A doubtful return of this request is reissued (R118): loads, probes and strips. R118 names neither the release of a
fold entry nor the invalidation of TLBINV: here the first is reissued, since to free an entry twice changes nothing, and
the second fails (DESIGN CHOICE, log 103). -/
def reissuable (o : Outstanding) : Bool :=
  o.strip.isSome || match o.op with
    | .load _ | .probe | .release _ => true
    | .store _ | .amo _ _ _ | .cas _ _ _ | .claim _ | .addElem _ _ | .nibble _ _ | .fold _ _ | .folds _ _ | .copied _ _
    | .invalidate _ _ _ => false

/-- A request comes back undelivered (R112, R116, R118). A probe goes out on the next plane. -/
def State.returned (s : State) (o : Outstanding) (doubtful : Bool) (failure : BitVec 4) : State :=
  let r := { o with state := .back, failure := failure, returned := o.returned ||| (1 <<< o.plane.toNat) }
  let both := s.bothMask o.target
  if o.op = .probe then (s.dropRequest o).sendProbe o.target (o.plane.toNat + 1)
  else if doubtful && !reissuable o then (s.failRequest o failure.toNat).drainCheck o.target
  else if both = 0 then (s.failRequest o 4).drainCheck o.target
  else if both &&& ~~~r.returned = 0 then (s.failRequest r failure.toNat).drainCheck o.target
  else ((s.modRequest o.tag fun _ => r).stopPeer o.target false).drainCheck o.target

/-- RETURN_UNDELIVERED (R118): a return carries LINK-DOWN or SWITCH-DOWN (R109). -/
def execReturnUndelivered (tag : Nat) (doubtful : Bool) (failure : BitVec 4) (s : State) :
    Host.Outcome State Fault Refusal :=
  .next (match s.request tag with
    | some o => if o.state = .sent && (failure = 1 || failure = 2) then s.returned o doubtful failure else s
    | none => s)

/-- The probe that is out to module `m` is answered with the values `v` (R116). -/
def State.answerProbe (s : State) (m : ModNum) (v : PlaneView) : State :=
  match s.outstanding.find? fun o => o.target = m && o.op = .probe with
  | some o => s.probeAnswered o v
  | none => s

/-- PROBE_RETRY (R116 step 3): 4 µs after a probe that told nothing new, probes go out again from the lowest plane. A row
that holds the answer too is the probe and its response. -/
def execProbeRetry (target : ModNum) (answer : Option PlaneView) (s : State) : Host.Outcome State Fault Refusal :=
  .next (match s.peer target with
    | .probing =>
      if s.bothMask target = 0 then s.sweepPlanes.setPeer target .running
      else
        let s := if s.probeOut target then s else s.sendProbe target 0
        match answer with
        | some v => s.answerProbe target v
        | none => s
    | .running | .stopped _ => s)

/-- GROUP_UNREACHABLE (R112 (d)): 400 µs have passed since the request's first issue. -/
def execGroupUnreachable (tag : Nat) (s : State) : Host.Outcome State Fault Refusal :=
  .next (match s.request tag with
    | some o =>
      let s := s.failRequest o 3
      match s.peer o.target with
      | .probing => if (s.requestsTo o.target).isEmpty then s.setPeer o.target .running else s
      | .running | .stopped _ => s.drainCheck o.target
    | none => s)

/-- FOLD_STRIP_RETRY (R378): a refused strip is sent again. -/
def execFoldStripRetry (tag : Nat) (s : State) : Host.Outcome State Fault Refusal :=
  .next (match s.request tag with
    | some o =>
      if o.strip.isSome && o.state = .back && s.peer o.target = .running && s.bothMask o.target != 0 then
        s.modRequest tag (s.sendNow true)
      else s
    | none => s)

/-! ### Serving other modules -/

/-- What an arrived request or strip asks for. -/
structure Served where
  source : ModNum
  tag : Nat
  pa : Nat
  virt : Option Word
  clear : Bool
  owner : Owner
  issuer : Issuer
  op : RemoteOp
  plane : BitVec 2
  deriving DecidableEq, Repr

/-- An arrival as what it asks for. -/
def Incoming.served : Incoming → Served
  | .request r => ⟨r.source, r.tag, r.pa.toNat, r.virt, r.clear, r.owner, r.issuer, r.op, r.plane⟩
  | .strip t => ⟨t.source, t.tag, t.pa.toNat, t.virt, t.clear, t.owner, t.issuer, .folds t.op t.elems, t.plane⟩

/-- The requester of a served access. -/
def Served.who (r : Served) : Who := .remote r.source r.tag

/-- The agent that this module's records name for a served access: UNIT 5 (R46). -/
def Served.agent (r : Served) : Agent :=
  ⟨r.issuer.uid.toNat, if r.issuer.user then .user else .kernel, r.owner, 5, r.issuer.handle, r.issuer.ident⟩

/-- The access of a served request. -/
def Served.acc (r : Served) : Acc := .ofCode r.issuer.acc

/-- The granule address that a served request is ordered by (R105). -/
def Served.granule (r : Served) : Nat := (match r.virt with
  | some va => virtPa va
  | none => r.pa) / 256

/-- A violation at the target is logged here, and answered with an error response (R46). -/
def servedViolation (r : Served) (addr : Word) (phys : Bool) (kind : Nat) : M (Except RemoteReply Target) := do
  modS fun s => s.logViolation r.agent r.source addr phys r.acc kind
  pure (.error .violation)

/-- A fault of a handle's BASE at the target: recorded in this module's fault queue of the owner, under its own class
(R91). The record names the requesting module. -/
def servedFault (r : Served) (va : Word) (f : AFault) : M (Except RemoteReply Target) := do
  modS fun s =>
    let rec_ := ({ s with modnum := r.source }).faultRecord r.agent r.owner va
      (missingBytes f va (va.toNat + opSize r.op)) f r.acc false none
    s.fqAppend r.owner rec_
  pure (.error .faulted)

/-- The policy of a served access: what a hint warms is placed as KEEP places it (R76, R381). -/
def Served.policy (r : Served) (pol : Pol) : Pol :=
  match r.acc with
  | .hint => .keep
  | .read | .write | .atomic | .fetch | .copySource | .copyDest | .reduce => pol

/-- Where a served request goes on this module (R22, R25 to R28, R30, R39, R91, R97). A local hole or a non-canonical
address is refused, and is no violation (R45, R47). -/
def servedTarget (r : Served) : M (Except RemoteReply Target) := do
  let s ← getS
  match r.virt with
  | none =>
    let va := BitVec.ofNat 64 r.pa
    match s.ownerFault r.owner with
    | some f => if f.cls = 3 then servedViolation r va true f.kind else servedFault r va f
    | none =>
      if kindOf r.pa = 3 then servedViolation r va true 2
      else
        match s.physFault r.pa with
        | some f => if f.cls = 6 then pure (.error .hostDetached) else servedViolation r va true f.kind
        | none => pure (.ok ⟨none, r.pa, r.owner, r.clear, r.policy .default, va, 7⟩)
  | some va =>
    match regionOf va with
    | .spad _ | .tcm _ => servedViolation r va false 6
    | .hole | .nonCanonical => pure (.error .outside)
    | .user | .kernelHalf =>
      match ← resolveM r.agent r.acc va (opSize r.op) with
      | .error f =>
        if f.cls = 6 then pure (.error .hostDetached)
        else if f.cls = 3 then servedViolation r va false f.kind
        else if f.cls = 5 then pure (.error .outside)
        else servedFault r va f
      | .ok (.control _) => servedViolation r va false 2
      | .ok (.local _) => servedViolation r va false 6
      | .ok (.target t) =>
        match t.module with
        | none => pure (.ok { t with pol := r.policy t.pol })
        | some _ => pure (.error .faulted)

/-- The cluster whose translation cache a served access uses. -/
def Served.cid (r : Served) : Nat := clusterOf r.issuer.uid.toNat

/-- The place of a served request: once it has been translated, it goes to that place until it has been answered (R85). -/
def servedPlace (r : Served) : M (Except RemoteReply Target) := do
  let s ← getS
  match s.servedAt.find? fun p => p.source = r.source && p.tag = r.tag with
  | some p => pure (.ok p.target)
  | none =>
    match ← servedTarget r with
    | .error e => pure (.error e)
    | .ok t => do
      if r.virt.isSome then modS fun s => { s with servedAt := s.servedAt ++ [⟨r.source, r.tag, r.cid, t⟩] } else pure ()
      pure (.ok t)

/-- An operation in the pieces that its storage takes at once: whole at module SRAM and at the host port, units of 128
bytes at a pool cache, and folds one by one at their unit (R72). -/
def servedPieces (pa : Nat) (op : RemoteOp) : List (Nat × RemoteOp) :=
  let unit := if kindOf pa = 1 then 128 else 256
  let cut (n : Nat) : List (Nat × Nat) := (unitPieces unit (BitVec.ofNat 64 pa) n).map fun p => (p.1.toNat - pa, p.2)
  match op with
  | .load n => (cut n).map fun p => (p.1, .load p.2)
  | .store l => (cut l.length).map fun p => (p.1, .store ((l.drop p.1).take p.2))
  | .copied l bad => (cut l.length).map fun p =>
      (p.1, .copied ((l.drop p.1).take p.2)
        ((bad.filter fun i => p.1 ≤ i && i < p.1 + p.2).map fun i => i - p.1))
  | .folds f l => if kindOf pa = 2 then [(0, op)] else foldWritesOf f l
  | .amo _ _ _ | .cas _ _ _ | .claim _ | .addElem _ _ | .nibble _ _ | .fold _ _ | .probe | .invalidate _ _ _
  | .release _ => [(0, op)]

/-- A served fold meets a mark: the error is consumed, with one record for the operation, until its entry is free again
(R378, R450). Its number is that of the element within the strip. -/
def servedConsumed (r : Served) (t : Target) (off size : Nat) : M Unit := do
  let s ← getS
  if s.consumedFolds.contains (r.source, r.issuer.ident) then pure ()
  else
    modS fun s =>
      let s := (s.consume r.agent (t.pa + off) (s.levelOf { t with pa := t.pa + off }) (off / size)).1
      { s with consumedFolds := s.consumedFolds ++ [(r.source, r.issuer.ident)] }

/-- Perform the pieces of a served operation in order, and gather their answers: the first that is no completion ends
them. A fold whose unit carries a mark is not applied, and its error is consumed (R450). -/
def servePieces (r : Served) (t : Target) (l : List Byte) : List (Nat × RemoteOp) → M RemoteReply
  | [] => pure (.done l)
  | (off, op) :: rest => do
    let a ← keepM r.who r.acc r.issuer.ident { t with pa := t.pa + off, va := t.va + BitVec.ofNat 64 off } op
    match a with
    | .bytes b => servePieces r t (l ++ b) rest
    | .acked => servePieces r t l rest
    | .claimed next n => pure (.claimed next n)
    | .hostDetached => pure .hostDetached
    | .poisoned =>
      match r.op with
      | .folds f _ => do
        servedConsumed r t off f.bytes
        servePieces r t l rest
      | .load _ | .store _ | .amo _ _ _ | .cas _ _ _ | .claim _ | .addElem _ _ | .nibble _ _ | .fold _ _ | .copied _ _
      | .probe | .invalidate _ _ _ | .release _ => pure .poisoned
    | .unimplemented => do
      modS fun s => s.logViolation r.agent r.source (t.va + BitVec.ofNat 64 off) r.virt.isNone r.acc 7
      pure .violation
    | .outside => pure .outside
    | .violation | .remoteFault | .failed _ => pure .violation

/-! ### The fold table (R378, R379) -/

/-- The address of a fold entry. -/
def State.foldEntry (s : State) (i : Nat) : Nat := s.foldtab.toNat % 2 ^ 52 + 16384 * i

/-- An entry is in use. -/
def State.foldValid (s : State) (i : Nat) : Bool := s.deviceRead (s.foldEntry i) 8 % 2 = 1

/-- An entry is in use for an operation of a module. -/
def State.foldFor (s : State) (source : ModNum) (ident : Word) (i : Nat) : Bool :=
  s.foldValid i && s.deviceRead (s.foldEntry i) 8 / 16 % 2 ^ 19 = source.toNat
    && s.deviceRead (s.foldEntry i + 8) 8 = ident.toNat

/-- The entry of an operation, where it has one. -/
def State.foldFind (s : State) (source : ModNum) (ident : Word) : Option Nat :=
  if s.foldtab = 0 then none else (List.range 1024).find? (s.foldFor source ident)

/-- Allocate an entry for the first strip of an operation: its bitmap is clear. -/
def State.foldAlloc (s : State) (t : Strip) : Option (Nat × State) :=
  if s.foldtab = 0 then none
  else
    match (List.range 1024).find? fun i => !s.foldValid i with
    | none => none
    | some i =>
      let s := s.deviceWrite (s.foldEntry i) 64
        (record [(1, 0), (t.source.toNat, 4), (t.ident.toNat, 64), (t.count % 2 ^ 32, 128)])
      some (i, s.deviceWrite (s.foldEntry i + 64) 8192 0)

/-- A strip has been applied. -/
def State.foldDone (s : State) (i strip : Nat) : Bool :=
  s.deviceRead (s.foldEntry i + 64 + strip / 8) 1 / 2 ^ (strip % 8) % 2 = 1

/-- Set a strip's bit, and count it. -/
def State.foldApplied (s : State) (i strip : Nat) : State :=
  let a := s.foldEntry i + 64 + strip / 8
  let s := s.deviceWrite a 1 (s.deviceRead a 1 + 2 ^ (strip % 8))
  s.deviceWrite (s.foldEntry i + 20) 4 (s.deviceRead (s.foldEntry i + 20) 4 + 1)

/-- The entry that a strip uses: its operation's, or a new one. -/
def foldEntryOf (t : Strip) : M (Option Nat) := fun s =>
  match s.foldFind t.source t.ident with
  | some i => .ok (some i) s
  | none =>
    match (if s.foldtab = 0 then s else s.deviceLog (s.foldEntry 0) 8).foldAlloc t with
    | some (i, s) => .ok (some i) s
    | none => .ok none s

/-- The entry of an operation is free (R378). -/
def State.foldRelease (s : State) (source : ModNum) (ident : Word) : State :=
  let s := { s with consumedFolds := s.consumedFolds.filter (· != (source, ident)) }
  match s.foldFind source ident with
  | some i => s.deviceWrite (s.foldEntry i) 8 (s.deviceRead (s.foldEntry i) 8 - 1)
  | none => s

/-! ### Serving -/

/-- Perform a request on this module's storage, or invalidate its translations (R246). -/
def serveOp (r : Served) : M RemoteReply :=
  match r.op with
  | .probe => pure (.done [])
  | .invalidate f va owner => do
    modS fun s => s.invalidate f va owner (s.clustersOf 0 .system)
    let s ← getS
    waitUnless (!(s.clustersOf 0 .system).any s.translationsUsed)
    pure (.done [])
  | .release ident => do
    modS fun s => s.foldRelease r.source ident
    pure (.done [])
  | .load _ | .store _ | .amo _ _ _ | .cas _ _ _ | .claim _ | .addElem _ _ | .nibble _ _ | .fold _ _ | .folds _ _
  | .copied _ _ => do
    match ← servedPlace r with
    | .error e => pure e
    | .ok t => servePieces r t [] (servedPieces t.pa r.op)

/-- Serve a strip (R378): once applied, it is answered without being folded again. -/
def serveStrip (t : Strip) : M RemoteReply := do
  match ← foldEntryOf t with
  | none => pure .noEntry
  | some i => do
    let s ← getS
    if s.foldDone i t.index then pure (.done [])
    else
      match ← serveOp (Incoming.strip t).served with
      | .done _ => do
        modS fun s => s.foldApplied i t.index
        pure (.done [])
      | r => pure r

/-- Serve an arrival. -/
def serveM : Incoming → M RemoteReply
  | .request r => serveOp (Incoming.request r).served
  | .strip t => serveStrip t

/-! ### Responses -/

/-- The address by which a served packet chooses its link (R103). -/
def Served.addr (r : Served) : Nat :=
  match r.virt with
  | some va => virtPa va
  | none => r.pa

/-- A packet enters the record of the link that it has come over, which R103 gives for its plane; the last 128 of a link
stay (R107, log 61). -/
def State.receive (s : State) (r : Served) : State :=
  let link := BitVec.ofNat 3 (s.linkOf r.plane.toNat r.addr)
  let l := s.received ++ [⟨r.source, r.tag, r.plane, link, none⟩]
  let mine := l.filter fun e => e.plane = r.plane && e.link = link
  { s with received := if mine.length ≤ 128 then l else (mine.head?.map l.erase).getD l }

/-- The response produced for a packet, in the records that hold it without one (R107). -/
def State.noteReply (s : State) (source : ModNum) (tag : Nat) (reply : RemoteReply) : State :=
  let live (e : Received) : Received :=
    if e.source = source && e.tag = tag && e.reply.isNone then { e with reply := some reply } else e
  let cold (e : ModNum × Nat × Option RemoteReply) : ModNum × Nat × Option RemoteReply :=
    if e.1 = source && e.2.1 = tag && e.2.2.isNone then (e.1, e.2.1, some reply) else e
  { s with received := s.received.map live
           frozen := s.frozen.map fun f => { f with entries := f.entries.map cold } }

/-- This module responds (R113): with its live mask and redraw count, first on the plane of the request. -/
def State.respond (s : State) (r : Served) (reply : RemoteReply) : State :=
  let link := BitVec.ofNat 3 (s.linkOf r.plane.toNat r.addr)
  let p : Response := ⟨r.source, r.tag, reply, ⟨s.live, s.rcount⟩, r.plane, link, r.addr⟩
  let s := s.noteReply r.source r.tag reply
  let s := { s with servedAt := s.servedAt.filter fun p => !(p.source = r.source && p.tag = r.tag) }
  { s with responses := (s.responses.filter fun e => !(e.dest = r.source && e.tag = r.tag)) ++ [p] }

/-- The next plane of a mask after one, ascending and wrapping (R113). Of a mask without a plane R113 says nothing: the
response then keeps the plane that it has (DESIGN CHOICE, log 104). -/
def nextPlane (mask : BitVec 4) (plane : BitVec 2) : BitVec 2 :=
  match [1, 2, 3].find? fun k => mask.getLsbD ((plane.toNat + k) % 4) with
  | some k => BitVec.ofNat 2 (plane.toNat + k)
  | none => plane

/-- A response that has come back is sent again on the next plane, with the values that this module holds now (R113). -/
def State.resend (s : State) (r : Response) : Response :=
  let plane := nextPlane (s.bothMask r.dest) r.plane
  { r with plane := plane, link := BitVec.ofNat 3 (s.linkOf plane.toNat r.pa), view := ⟨s.live, s.rcount⟩ }

/-- Serve the accepted arrivals in order, as far as they go: one waits behind an older one to its granule (R105). -/
def serveAll : List Nat → List Incoming → State → State
  | _, [], s => s
  | held, a :: rest, s =>
    let r := a.served
    if held.contains r.granule then serveAll held rest s
    else
      match serveM a s with
      | .ok reply s =>
        serveAll held rest
          (({ s with incoming := s.incoming.erase a }.forget r.who).respond r reply)
      | .error _ s => serveAll (r.granule :: held) rest s

/-- Go on with what other modules have asked for. -/
def State.serveIncoming (s : State) : State := serveAll [] s.incoming s

/-- What a frozen record holds of a packet (R107): the response, or none yet where it has been accepted and not answered.
A refusal is no response: nothing was applied, and the packet is judged again as a new one. -/
def FrozenRecord.find (f : FrozenRecord) (source : ModNum) (tag : Nat) : Option (Option RemoteReply) :=
  match (f.entries.filter fun e => e.1 = source && e.2.1 = tag).getLast? with
  | none | some (_, _, some .redrawn) | some (_, _, some .noEntry) => none
  | some e => some e.2.2

/-- What frozen records hold of a packet. -/
def frozenReply (l : List FrozenRecord) (source : ModNum) (tag : Nat) : Option (Option RemoteReply) :=
  l.findSome? fun f => f.find source tag

/-- A packet has been accepted and waits for its answer. -/
def State.accepted (s : State) (r : Served) : Bool :=
  s.incoming.any fun a => a.served.source = r.source && a.served.tag = r.tag

/-- A request or a strip arrives (R115): it is accepted where it carries this module's mask and count, and refused with
REDRAWN otherwise. -/
def State.arrive (s : State) (a : Incoming) (v : PlaneView) : State :=
  let s' := s.receive a.served
  if v = ⟨s.live, s.rcount⟩ then ({ s' with incoming := s'.incoming ++ [a] }).serveIncoming
  else s'.respond a.served .redrawn

/-- A REPLAY packet arrives, a request or a strip (R105, R107): a frozen record of `l` answers it without applying it
again; one that has been accepted is answered when it has been served; any other is new. -/
def State.arriveAgain (s : State) (l : List FrozenRecord) (a : Incoming) (v : PlaneView) : State :=
  let r := a.served
  match frozenReply l r.source r.tag with
  | some (some reply) => (s.receive r).respond r reply
  | some none => s.receive r
  | none => if s.accepted r then s.receive r else s.arrive a v

/-- A packet arrives, for the first time or marked REPLAY. -/
def State.arriveAs (s : State) (replay : Bool) (a : Incoming) (v : PlaneView) : State :=
  if replay then s.arriveAgain s.frozen a v else s.arrive a v

/-- REMOTE_REQUEST (R107, R115). -/
def execRemoteRequest (req : Request) (s : State) : Host.Outcome State Fault Refusal :=
  .next (s.arriveAs req.replay (.request req) req.view)

/-- REPLAY (R107): the record of the failed link answers, or the packet is handled as new. -/
def execReplay (req : Request) (fromPlane : BitVec 2) (fromLink : BitVec 3) (s : State) :
    Host.Outcome State Fault Refusal :=
  .next (s.arriveAgain (s.frozen.filter fun f => f.plane = fromPlane && f.link = fromLink) (.request req) req.view)

/-- FOLD_STRIP (R107, R378). -/
def execFoldStrip (strip : Strip) (s : State) : Host.Outcome State Fault Refusal :=
  .next (if strip.index < strip.count && strip.count ≤ 65536 then s.arriveAs strip.replay (.strip strip) strip.view else s)

/-- FOLD_RELEASE (R378): the entry is free. -/
def execFoldRelease (source : ModNum) (ident : Word) (s : State) : Host.Outcome State Fault Refusal :=
  .next (s.foldRelease source ident)

/-- FOLD_ENTRY_TIMEOUT (R378): 1 ms after its last strip, an entry is free. -/
def execFoldEntryTimeout (entry : BitVec 10) (s : State) : Host.Outcome State Fault Refusal :=
  .next (if s.foldtab != 0 && s.foldValid entry.toNat then
      s.foldRelease (BitVec.ofNat 19 (s.deviceRead (s.foldEntry entry.toNat) 8 / 16))
        (BitVec.ofNat 64 (s.deviceRead (s.foldEntry entry.toNat + 8) 8))
    else s)

/-- RESPONSE_DROP (R113): after 400 µs a response is sent no more. -/
def execResponseDrop (dest : ModNum) (tag : Nat) (s : State) : Host.Outcome State Fault Refusal :=
  .next { s with responses := s.responses.filter fun r => !(r.dest = dest && r.tag = tag) }

/-- A response comes back undelivered (R113). -/
def State.responseBack (s : State) (dest : ModNum) (tag : Nat) : State :=
  { s with responses := s.responses.map fun r => if r.dest = dest && r.tag = tag then s.resend r else r }

/-- POOL_PORT_RESPONSE (R62). -/
def execPoolPortResponse (id : Nat) (s : State) : Host.Outcome State Fault Refusal :=
  .next (s.poolResponse id).serveIncoming

/-- HOST_RESPONSE (R66). -/
def execHostResponse (id : Nat) (data : Option (List Byte)) (s : State) : Host.Outcome State Fault Refusal :=
  .next (s.hostResponse id data).serveIncoming

/-! ### Links and planes -/

/-- The bit of a link in LINKUP. -/
def linkBit (plane : BitVec 2) (link : BitVec 3) : Nat := 8 * plane.toNat + link.toNat

/-- A link of a plane is up. -/
def State.planeUp (s : State) (plane : Nat) : Bool := (List.range 8).any fun j => s.linkup.getLsbD (8 * plane + j)

/-- LINK_UP (R121). -/
def execLinkUp (plane : BitVec 2) (link : BitVec 3) (s : State) : Host.Outcome State Fault Refusal :=
  .next { s with linkup := s.linkup ||| (1 <<< linkBit plane link) }

/-- FROZEN_RECORD_RELEASE (R107). -/
def execFrozenRecordRelease (plane : BitVec 2) (link : BitVec 3) (s : State) : Host.Outcome State Fault Refusal :=
  .next { s with frozen := s.frozen.filter fun f => !(f.plane = plane && f.link = link) }

/-- FLIT_CRC_RETRY (R101): a flit is sent again on its link; software sees nothing. -/
def execFlitCrcRetry (_ : BitVec 2) (_ : BitVec 3) (s : State) : Host.Outcome State Fault Refusal := .next s

/-- Stop sending to every target that has a request on its way; those without go on at once (R117). -/
def stopTargets : List ModNum → State → State
  | [], s => s
  | m :: t, s => stopTargets t ((s.stopPeer m true).drainCheck m)

/-- A target that sending has stopped to, and to which nothing is outstanding any more, is sent to again (R116). -/
def settlePeers : List ModNum → State → State
  | [], s => s
  | m :: t, s => settlePeers t (match s.peer m with
    | .stopped _ => s.drainCheck m
    | .probing => if (s.requestsTo m).isEmpty then s.setPeer m .running else s
    | .running => s)

/-- Log the planes of a mask under a failure code. -/
def logPlanes (code : Nat) : List Nat → State → State
  | [], s => s
  | p :: t, s => logPlanes code t (s.logPlane code p)

/-- The switch point of this module (R115, R117): the new live mask, one more redraw, EASYALL, a log record for each
plane withdrawn or admitted, and every target stopped as after a refusal. -/
def State.switchTo (s : State) (mask : BitVec 4) : State :=
  let gone := s.live &&& ~~~mask
  let back := mask &&& ~~~s.live
  let s := logPlanes 6 (planesOf back) (logPlanes 5 (planesOf gone) s)
  let s := ({ s with live := mask, rcount := s.rcount + 1, easyall := true }).sweepPlanes
  settlePeers (s.peers.map fun e => BitVec.ofNat 19 e.1) (stopTargets (s.outstanding.map (·.target)).eraseDups s)

/-- A plane is lost: the module withdraws it (R114). -/
def State.losePlane (s : State) (plane : BitVec 2) : State :=
  if s.live.getLsbD plane.toNat then s.switchTo (s.live &&& ~~~((1 : BitVec 4) <<< plane.toNat)) else s

/-- The record of a link: the packets received on it, and the responses produced (R107). -/
def State.linkRecord (s : State) (plane : BitVec 2) (link : BitVec 3) : FrozenRecord :=
  ⟨plane, link, (s.received.filter fun e => e.plane = plane && e.link = link).map fun e => (e.source, e.tag, e.reply)⟩

/-- A link is down: its record is frozen (R107). -/
def State.freezeLink (s : State) (plane : BitVec 2) (link : BitVec 3) : State :=
  { s with linkup := s.linkup &&& ~~~((1 : BitVec 32) <<< linkBit plane link)
           frozen := s.frozen ++ [s.linkRecord plane link]
           received := s.received.filter fun e => !(e.plane = plane && e.link = link) }

/-- The traffic of a link that is down moves to a parallel link, requests marked REPLAY (R107). Where none is left,
requests come back as returns of their own (R118), and responses go out on the next plane (R113). -/
def State.moveTraffic (s : State) (plane : BitVec 2) (link : BitVec 3) : State :=
  let up := s.planeUp plane.toNat
  let move (o : Outstanding) : Outstanding :=
    if up && o.state = .sent && o.plane = plane && o.link = link then
      { o with link := BitVec.ofNat 3 (s.linkOf plane.toNat o.pa), replay := true }
    else o
  let again (r : Response) : Response :=
    if r.plane = plane && r.link = link then
      if up then { r with link := BitVec.ofNat 3 (s.linkOf plane.toNat r.pa) } else s.resend r
    else r
  { s with outstanding := s.outstanding.map move, responses := s.responses.map again }

/-- LINK_DOWN (R107, R109, R113, R114): the link's record is frozen, the last link of a plane takes the plane with it,
and the link's traffic moves. -/
def execLinkDown (plane : BitVec 2) (link : BitVec 3) (s : State) : Host.Outcome State Fault Refusal :=
  if !s.linkup.getLsbD (linkBit plane link) then .next s
  else
    let s := s.freezeLink plane link
    let s := if s.planeUp plane.toNat then s else s.losePlane plane
    .next (s.moveTraffic plane link)

/-- PLANE_LOST (R114): the module withdraws the plane. While a link of its own to the group switch is up, the switch has
no link up to its spine. -/
def execPlaneLost (plane : BitVec 2) (s : State) : Host.Outcome State Fault Refusal :=
  let s := if s.planeUp plane.toNat then { s with spineDown := s.spineDown ||| ((1 : BitVec 4) <<< plane.toNat) } else s
  .next (s.losePlane plane)

/-- The group switch of a plane has a link up to its spine again (R114). -/
def State.spineBack (s : State) (plane : BitVec 2) : State :=
  { s with spineDown := s.spineDown &&& ~~~((1 : BitVec 4) <<< plane.toNat) }

/-- EASYALL_END (R120): EASYALL clears, and the frozen records of planes that are lost are released. -/
def execEasyallEnd (s : State) : Host.Outcome State Fault Refusal :=
  .next { s with easyall := false, frozen := s.frozen.filter fun f => s.live.getLsbD f.plane.toNat }

/-- What GO of PLCTL does (R114, R121): a redraw to the planes that stay and those admitted that are not lost, unless
that changes nothing or leaves none. -/
def State.plctl (s : State) (withdraw entering : BitVec 4) : State :=
  let ups : BitVec 4 := (List.range 4).foldl (fun m p => if s.planeUp p then m ||| (1 <<< p) else m) 0
  let mask := (s.live &&& ~~~withdraw) ||| (entering &&& ups &&& ~~~s.spineDown)
  if mask = s.live || mask = 0 then s else s.switchTo mask

end Sys2Proof.Machine
end

