-- ==== Sys2Proof/Machine/Fencing.lean ====
section
/-!
DEFINITION. Fencing a cluster (R458).
-/

namespace Sys2Proof.Machine

/-- An operation of a fenced Drayman completes with status CANCELLED, unless its status is already settled. -/
def DOp.fencedOff (o : DOp) : DOp :=
  match o.state with
  | .running | .faulted _ | .serviced => { o with state := .ending 11, moving := none }
  | .ending _ => o

/-- The lines of a cluster's TCM halves and scratchpad. -/
def ownLine (c line : Nat) : Bool :=
  (decide (2 ^ 13 * c ≤ line) && decide (line < 2 ^ 13 * (c + 1)))
    || (decide (2 ^ 23 + 2 ^ 16 * c ≤ line) && decide (line < 2 ^ 23 + 2 ^ 16 * (c + 1)))

/-- The TCM, scratchpad, accumulators and register sets of a cluster are lost; what its Drayman has still to report
stays. -/
def State.loseCluster (s : State) (c : Nat) : State :=
  let k := s.cluster c
  let s := s.setCluster c { k with
    storeQueue := [], acc := [], blocks := [], matOps := [], matFail := [], keyStore := none, tables := [], hints := [] }
  let s : State := { s with
    lmem := s.lmem.filter fun e => !ownLine c (e.1 / 128)
    tags := s.tags.filter fun e => !ownLine c e.1
    empties := s.empties.filter fun l => !ownLine c l
    localMarks := s.localMarks.filter fun w => !ownLine c (w / 16) }
  (clusterStrands c).foldl (fun s u => (s.leaves u).setStrand u Strand.empty) s

/-- The gangs that have a crew on a cluster. -/
def State.gangsOn (s : State) (c : Nat) : List Gang :=
  s.cox.gangs.filter fun g => g.placed && !(g.crewsOn c).isEmpty

/-- A FENCE record for each ended task: its owner and its identity (log 65). -/
def logFences (c : Nat) : List (Owner × Word) → State → State
  | [], s => s
  | e :: t, s => logFences c t (s.logError 0 7 0 (8 * c) 0 e.1 0 e.2).1

/-- A cluster is fenced (R458): its units stop, its Drayman's operations end with CANCELLED, the tasks and launches on it
are killed, and what it held is lost. -/
def State.fenceCluster (s : State) (c : Nat) : State :=
  if s.fenced.contains c then s
  else
    let s := { s with fenced := keyInsert s.fenced c }
    let s := s.modCluster c fun k => { k with ops := k.ops.map DOp.fencedOff, hints := [] }
    let here := s.gangsOn c
    let launches := (s.cluster c).launches
    let tiles := launches.flatMap Guarded.gangs
    let away := s.cox.gangs.filter fun g => tiles.contains g.serial && !here.any fun h => h.serial = g.serial
    let ended := (here ++ away).map fun g => (g.owner, s.taskOf g)
    let s := launches.foldl (fun s e => s.killTiles c e.serial) s
    let s := tiles.foldl (fun s n => s.killGang n) s
    let s := here.foldl (fun s g => s.killGang g.serial) s
    (logFences c ended (s.loseCluster c)).coxRun

end Sys2Proof.Machine
end

