-- ==== Sys2Proof/Machine/Control.lean ====
section
/-!
DEFINITION. Control space (R34): which register an offset names, what a load reads there and what a store does (R33, R65,
R92, R95, R96, R121, R344, R379, R389, R390, R426, R435, R439, R441, R454, R467), and the rows of the opcode table that
are stores to registers with an effect of their own.
-/

namespace Sys2Proof.Machine

/-! ### Registers -/

/-- The registers of a log. -/
inductive LogReg where
  | base | size | head | tail | lost
  deriving DecidableEq, Repr

/-- The registers of a context window (R435). -/
inductive CtxReg where
  | pstat | rpend | ctxptr | rlanes | pdone | reshape | tinfo | dcfgl | fabpend | fabaddr
  | strm (i : Fin 8)
  | dcfgr (i : Fin 8)
  | shadow (i : Fin 8)
  /-- word `j` of slot `i` of PQ. -/
  | pq (i : Fin 128) (j : Fin 8)
  deriving DecidableEq, Repr

/-- The registers of control space. -/
inductive CReg where
  | modnum | owntab | keysel | keygo | poolcsz | pcflush | pchit | pcmiss | pports | fqtab | fqresume | fqabort
  | foldtab | ptime
  | keydata (i : Fin 8)
  | vlog (r : LogReg)
  | hpstat | hevb | hevl | hevack
  /-- word `j` of grant window `w`. -/
  | window (w : Fin 64) (j : Fin 4)
  | plstat | plctl | linkup | pptbase | reissue
  | flog (r : LogReg)
  | tperiod | rbound
  /-- word `j` of queue `q`. -/
  | queue (q : Fin 64) (j : Fin 4)
  | elog (r : LogReg)
  | mctgt | scrub | rebuildlim | cecount | uecount | fence | evwait
  | fenced (j : Fin 8)
  /-- register `j` of a cluster's Miller, and of its Assayer. -/
  | miller (c : Fin 512) (j : Fin 8)
  | assayer (c : Fin 512) (j : Fin 8)
  | ctx (s : Fin 4096) (r : CtxReg)
  deriving DecidableEq, Repr

/-- The registers of a log in the order of their offsets. -/
def LogReg.ofIndex : Nat → Option LogReg
  | 0 => some .base
  | 1 => some .size
  | 2 => some .head
  | 3 => some .tail
  | 4 => some .lost
  | _ => none

/-- The module control block (R33, R65, R92, R379, R439). -/
def moduleReg (o : Nat) : Option CReg :=
  match o with
  | 0x000 => some .modnum
  | 0x008 => some .owntab
  | 0x010 => some .keysel
  | 0x058 => some .keygo
  | 0x088 => some .poolcsz
  | 0x090 => some .pcflush
  | 0x098 => some .pchit
  | 0x0a0 => some .pcmiss
  | 0x0a8 => some .pports
  | 0x0b0 => some .fqtab
  | 0x0b8 => some .fqresume
  | 0x0c0 => some .fqabort
  | 0x0c8 => some .foldtab
  | 0x0d0 => some .ptime
  | _ =>
    if 0x018 ≤ o ∧ o ≤ 0x050 then some (.keydata (Fin.ofNat 8 ((o - 0x018) / 8)))
    else if 0x060 ≤ o ∧ o ≤ 0x080 then (LogReg.ofIndex ((o - 0x060) / 8)).map .vlog
    else none

/-- The host port block (R95, R467). -/
def hostReg (o : Nat) : Option CReg :=
  match o with
  | 0x000 => some .hpstat
  | 0x008 => some .hevb
  | 0x010 => some .hevl
  | 0x018 => some .hevack
  | _ =>
    if 0x1000 ≤ o ∧ o < 0x1800 then some (.window (Fin.ofNat 64 ((o - 0x1000) / 32)) (Fin.ofNat 4 (o / 8)))
    else none

/-- The fabric block (R121). -/
def fabricReg (o : Nat) : Option CReg :=
  match o with
  | 0x000 => some .plstat
  | 0x008 => some .plctl
  | 0x010 => some .linkup
  | 0x018 => some .pptbase
  | 0x020 => some .reissue
  | _ => if 0x028 ≤ o ∧ o ≤ 0x048 then (LogReg.ofIndex ((o - 0x028) / 8)).map .flog else none

/-- The scheduler block (R389, R441). -/
def schedReg (o : Nat) : Option CReg :=
  match o with
  | 0x000 => some .tperiod
  | 0x008 => some .rbound
  | _ =>
    if 0x100 ≤ o ∧ o < 0x900 then some (.queue (Fin.ofNat 64 ((o - 0x100) / 32)) (Fin.ofNat 4 (o / 8))) else none

/-- The error block (R454). -/
def errorReg (o : Nat) : Option CReg :=
  match o with
  | 0x028 => some .mctgt
  | 0x030 => some .scrub
  | 0x038 => some .rebuildlim
  | 0x040 => some .cecount
  | 0x048 => some .uecount
  | 0x050 => some .fence
  | 0x058 => some .evwait
  | _ =>
    if o ≤ 0x020 then (LogReg.ofIndex (o / 8)).map .elog
    else if 0x080 ≤ o ∧ o < 0x0c0 then some (.fenced (Fin.ofNat 8 (o / 8)))
    else none

/-- A context window (R435). -/
def ctxReg (o : Nat) : Option CtxReg :=
  match o with
  | 0x000 => some .pstat
  | 0x008 => some .rpend
  | 0x010 => some .ctxptr
  | 0x018 => some .rlanes
  | 0x020 => some .pdone
  | 0x028 => some .reshape
  | 0x030 => some .tinfo
  | 0x0c0 => some .dcfgl
  | 0x0c8 => some .fabpend
  | 0x0d0 => some .fabaddr
  | _ =>
    if 0x040 ≤ o ∧ o < 0x080 then some (.strm (Fin.ofNat 8 (o / 8)))
    else if 0x080 ≤ o ∧ o < 0x0c0 then some (.dcfgr (Fin.ofNat 8 (o / 8)))
    else if 0x100 ≤ o ∧ o < 0x140 then some (.shadow (Fin.ofNat 8 (o / 8)))
    else if 0x1000 ≤ o ∧ o < 0x3000 then
      some (.pq (Fin.ofNat 128 ((o - 0x1000) / 64)) (Fin.ofNat 8 (o / 8)))
    else none

/-- The register at a control-space offset; none where no table of its block lists one (R34). Offsets are multiples of
8. -/
def CReg.ofOffset (off : Nat) : Option CReg :=
  if 0x4000000 ≤ off ∧ off < 0x4000000 + 0x4000 * 4096 then
    (ctxReg (off % 0x4000)).map (.ctx (Fin.ofNat 4096 ((off - 0x4000000) / 0x4000)))
  else if 0x100000 ≤ off ∧ off < 0x108000 then
    if off % 64 < 0x30 then some (.miller (Fin.ofNat 512 ((off - 0x100000) / 64)) (Fin.ofNat 8 (off / 8))) else none
  else if 0x110000 ≤ off ∧ off < 0x118000 then
    if off % 64 < 0x30 then some (.assayer (Fin.ofNat 512 ((off - 0x110000) / 64)) (Fin.ofNat 8 (off / 8))) else none
  else
    match off / 0x10000 with
    | 1 => moduleReg (off % 0x10000)
    | 2 => hostReg (off % 0x10000)
    | 3 => fabricReg (off % 0x10000)
    | 4 => schedReg (off % 0x10000)
    | 5 => errorReg (off % 0x10000)
    | _ => none

/-! ### Reading -/

/-- A log's register. -/
def Log.reg (l : Log) : LogReg → Word
  | .base => l.base
  | .size => l.size.setWidth 64
  | .head => l.head
  | .tail => l.tail
  | .lost => l.lost

/-- A word of a grant window. -/
def Window.word (w : Window) (j : Nat) : Word :=
  if j = 0 then w.hbase else if j = 1 then w.hlen else if j = 2 then w.state.setWidth 64 else 0

/-- A word of a queue entry (R390). -/
def Queue.word (q : Queue) (j : Nat) : Word :=
  if j = 0 then
    BitVec.ofNat 64 (record [(q.level.toNat, 0), (q.en.toNat, 4), (q.stop.toNat, 5), (q.owner.toNat, 16),
      (q.size.toNat, 32)])
  else if j = 1 then q.ring
  else if j = 2 then q.tail ++ q.head
  else q.qerr ++ q.late

/-- A register of a Miller (R344). -/
def Cluster.millerReg (k : Cluster) (j : Nat) : Word :=
  if j = 0 then k.mlstat else if j = 1 then k.mlpass else if j = 2 then k.mldense else if j = 3 then k.mldrop
  else if j = 4 then k.mlresent else if j = 5 then k.mlovb else 0

/-- A register of an Assayer (R426). -/
def Cluster.assayerReg (k : Cluster) (j : Nat) : Word :=
  if j = 0 then k.astat else if j = 1 then k.apass else if j = 2 then k.aredo else if j = 3 then k.aovf
  else if j = 4 then k.acfail else if j = 5 then k.acommit else 0

/-- PSTAT (R435). -/
def Strand.pstat (t : Strand) : Word := BitVec.ofNat 64 (record [(t.pcount, 0), (t.wfree.toNat, 8), (t.svlmax, 16)])

/-- A STRM register (R435). -/
def Stream.strm (st : Stream) : Word :=
  BitVec.ofNat 64 (record [(st.col.toNat, 0), (st.bound.toNat, 4), (st.append.toNat, 5), (st.delivered.toNat, 32)])

/-- A register of a context window (R435). -/
def Strand.ctxRead (t : Strand) : CtxReg → Word
  | .pstat => t.pstat
  | .rpend => t.rpend.setWidth 64
  | .ctxptr => t.ctxptr
  | .rlanes => t.rlanes.setWidth 64
  | .pdone => 0
  | .reshape => BitVec.ofNat 64 (t.reshapeTarget.toNat + 4 * t.reshapePend.toNat)
  | .tinfo => t.tinfo
  | .dcfgl => t.dcfgl
  | .fabpend => BitVec.ofNat 64 (t.fabpend.toNat + 16 * t.fabcode.toNat)
  | .fabaddr => t.fabaddr
  | .strm i => t.streams[i].strm
  | .dcfgr i => t.dcfgr.extractLsb' (64 * i.val) 64
  | .shadow i => t.shadow[i]
  | .pq i j => (Tab.get 0 t.pq i.val).extractLsb' (64 * j.val) 64

/-- A strand may use a window: its own, or one whose strand is not resident (R435). -/
def State.windowOpen (s : State) (u w : Nat) : Bool := u = w || !(s.strand w).resident

/-- What strand `u` reads from a control register. -/
def State.cread (s : State) (u : Nat) : CReg → Word
  | .modnum => s.modnum.setWidth 64
  | .owntab => s.owntab
  | .keysel | .keygo | .keydata _ | .fqresume | .fqabort | .hevack | .plctl | .fence => 0
  | .poolcsz => BitVec.ofNat 64 (s.poolcsz * 2 ^ 24)
  | .pcflush => s.pcflush
  | .pchit => s.pchit
  | .pcmiss => s.pcmiss
  | .pports => s.pports.setWidth 64
  | .fqtab => s.fqtab
  | .foldtab => s.foldtab
  | .ptime => s.ptime.setWidth 64
  | .vlog r => s.vlog.reg r
  | .hpstat => s.hpstat
  | .hevb => s.hevb
  | .hevl => s.hevl
  | .window w j => (Tab.get ⟨0, 0, 0⟩ s.windows w.val).word j.val
  | .plstat => s.plstat
  | .linkup => s.linkup.setWidth 64
  | .pptbase => s.pptbase
  | .reissue => s.reissue
  | .flog r => s.flog.reg r
  | .tperiod => s.tperiodReg
  | .rbound => s.rbound.setWidth 64
  | .queue q j => (s.cox.queueOf q.val).word j.val
  | .elog r => s.elog.reg r
  | .mctgt => s.mctgt.setWidth 64
  | .scrub => s.scrub.setWidth 64
  | .rebuildlim => s.rebuildlim.setWidth 64
  | .cecount => s.cecount
  | .uecount => s.uecount
  | .evwait => s.evwait.setWidth 64
  | .fenced j => s.fenced.foldl (fun w c => if c / 64 = j.val then w ||| ((1 : Word) <<< (c % 64)) else w) 0
  | .miller c j => (s.cluster c.val).millerReg j.val
  | .assayer c j => (s.cluster c.val).assayerReg j.val
  | .ctx w r => if s.windowOpen u w.val then (s.strand w.val).ctxRead r else 0

/-- What an aligned 8-byte load reads at an offset: 0 where no register is listed (R34). -/
def State.controlRead (s : State) (u off : Nat) : Word :=
  match CReg.ofOffset off with
  | some r => s.cread u r
  | none => 0

/-! ### Registers that are stored and no more -/

/-- Bits `hi` down to `lo` of a word, in their places. -/
def keepBits (w : Word) (hi lo : Nat) : Word := w &&& (BitVec.ofNat 64 (2 ^ (hi + 1) - 2 ^ lo))

/-- The low 32 bits. -/
def low32 (w : Word) : BitVec 32 := w.extractLsb' 0 32

/-- A log with a register written (R46). -/
def Log.write (l : Log) (w : Word) : LogReg → Log
  | .base => { l with base := keepBits w 51 5 }
  | .size => { l with size := w.extractLsb' 0 5 }
  | .head => l
  | .tail => { l with tail := w }
  | .lost => { l with lost := w }

/-- A queue entry with a word written: HEAD, TAIL and STOP are read-only (R390). -/
def Queue.write (q : Queue) (w : Word) (j : Nat) : Queue :=
  if j = 0 then
    { q with level := w.extractLsb' 0 4, en := w.getLsbD 4, owner := w.extractLsb' 16 16, size := w.extractLsb' 32 4 }
  else if j = 1 then { q with ring := w }
  else if j = 2 then q
  else { q with late := w.extractLsb' 0 32, qerr := w.extractLsb' 32 32 }

/-- A Miller's register written. -/
def Cluster.setMiller (k : Cluster) (w : Word) (j : Nat) : Cluster :=
  if j = 1 then { k with mlpass := w } else if j = 2 then { k with mldense := w } else if j = 3 then { k with mldrop := w }
  else if j = 4 then { k with mlresent := w } else if j = 5 then { k with mlovb := w } else k

/-- An Assayer's register written. -/
def Cluster.setAssayer (k : Cluster) (w : Word) (j : Nat) : Cluster :=
  if j = 1 then { k with apass := w } else if j = 2 then { k with aredo := w } else if j = 3 then { k with aovf := w }
  else if j = 4 then { k with acfail := w } else if j = 5 then { k with acommit := w } else k

/-- A stream as a write of its STRM register leaves it. -/
def Stream.ofStrm (w : Word) : Stream :=
  { col := w.extractLsb' 0 4, bound := w.getLsbD 4, append := w.getLsbD 5, delivered := w.extractLsb' 32 32, buffer := [],
    filled := (w.extractLsb' 32 32).toNat, mode := .user, stuck := none, detached := false, consumed := false }

/-- A word of 512 bits with word `j` replaced. -/
def setWord512 (b : BitVec 512) (j : Nat) (w : Word) : BitVec 512 :=
  (b &&& ~~~((BitVec.allOnes 64).setWidth 512 <<< (64 * j))) ||| (w.setWidth 512 <<< (64 * j))

/-- The bits of a word of a parked member that are no reserved field (R436). -/
def pqMask (j : Nat) : Word := if j = 6 then 0x0000ffff003fffff else if j = 7 then 0 else BitVec.allOnes 64

/-- The reserved bits of a strip configuration record (R382), which a write of DCFGR ignores (R5). -/
def dcfgReserved : BitVec 512 :=
  0xfff0 ||| 0xffffffff <<< 32 ||| 0x7f <<< 153 ||| 0x7f <<< 249 ||| 0x7f <<< 345 ||| 0x7f <<< 441 |||
    0xffffffffffffffff <<< 448

/-- The bits of word `j` of it that a write of DCFGR sets. -/
def dcfgMask (j : Nat) : Word := ~~~dcfgReserved.extractLsb' (64 * j) 64

/-- RESHAPE (R443): a target at or above the grant clears PEND and does nothing else. -/
def Strand.writeReshape (t : Strand) (w : Word) : Strand :=
  let target := w.extractLsb' 0 2
  { t with reshapeTarget := target, reshapePend := w.getLsbD 2 && decide (2 ^ target.toNat < t.lanes.length) }

/-- A reshape of strand `u` expires (R443): PEND clears, and the strand is pre-empted with reason 1, and with it its gang
(R402). -/
def State.reshapeExpires (s : State) (u : Nat) : State :=
  let t := s.strand u
  if t.resident && t.reshapePend then
    let s := (s.setStrand u { t with reshapePend := false }).requestStop u 1
    match s.cox.gang t.gang with
    | some g =>
      let s := s.modCox (·.modGang g.serial fun g => { g with state := .stopping })
      (s.uidsOf g).foldl (fun s v => s.requestStop v 0) s
    | none => s
  else s

/-- A register of a context window written; PDONE has an effect of its own. -/
def Strand.ctxWrite (t : Strand) (w : Word) : CtxReg → Strand
  | .pstat => { t with pcount := min (w.extractLsb' 0 8).toNat 128, wfree := w.getLsbD 8,
                       svlmax := (w.extractLsb' 16 11).toNat }
  | .rpend => { t with rpend := low32 w &&& 0xfffffffe }
  | .ctxptr => { t with ctxptr := w }
  | .rlanes => { t with rlanes := w.extractLsb' 0 3 }
  | .pdone | .tinfo => t
  | .reshape => t.writeReshape w
  | .dcfgl => { t with dcfgl := w }
  | .fabpend => { t with fabpend := w.getLsbD 0, fabcode := w.extractLsb' 4 4 }
  | .fabaddr => { t with fabaddr := w }
  | .strm i => { t with streams := t.streams.set i (Stream.ofStrm w) }
  | .dcfgr i => { t with dcfgr := setWord512 t.dcfgr i.val (w &&& dcfgMask i.val) }
  | .shadow i => { t with shadow := t.shadow.set i w }
  | .pq i j => { t with pq := Tab.set t.pq i.val (setWord512 (Tab.get 0 t.pq i.val) j.val (w &&& pqMask j.val)) }

/-- RESHAPE of strand `w` written: with RBOUND 0 it expires at once (R441, R443). -/
def State.writeReshape (s : State) (w : Nat) (v : Word) : State :=
  let s := s.setStrand w ((s.strand w).ctxWrite v .reshape)
  if s.rbound = 0 then s.reshapeExpires w else s

/-- Writes to RESHAPE are accepted at any time (R435). -/
def CtxReg.always : CtxReg → Bool
  | .reshape => true
  | .pstat | .rpend | .ctxptr | .rlanes | .pdone | .tinfo | .dcfgl | .fabpend | .fabaddr | .strm _ | .dcfgr _ | .shadow _
  | .pq _ _ => false

/-! ### Registers whose write does more -/

/-- KEYGO is refused: KEYSEL names no slot, or names slot 0 outside firmware mode (R32). -/
def State.keyRefused (s : State) (mode : Mode) : Bool := s.keysel = 0xfff || (s.keysel = 0 && mode != .firmware)

/-- KEYDATA0 to KEYDATA7 as one key: KEYDATA0 holds its least significant word. -/
def State.keydataKey (s : State) : BitVec 512 :=
  (List.range 8).foldl (fun k i => setWord512 k i (s.keydata.getD i 0)) 0

/-- KEYDATA into slot KEYSEL. -/
def State.installKey (s : State) : State := { s with keys := Tab.set s.keys s.keysel.toNat s.keydataKey }

/-- Pool-cache lines written back and invalidated: those that `p` picks (R65). -/
def State.flushPool (s : State) (p : PoolLine → Bool) : State :=
  let lines (s : State) (e : Nat × List PoolLine) : State := (e.2.filter p).foldl (fun s l => s.dropPool e.1 l) s
  s.pool.foldl lines s

/-- Physical addresses of module SRAM that a smaller pool cache gives up (R64). -/
def released (old new pa : Nat) : Bool :=
  kindOf pa = 0 && decide (0xc000000 - old * 2 ^ 24 ≤ pa % 2 ^ 28) && decide (pa % 2 ^ 28 < 0xc000000 - new * 2 ^ 24)

/-- POOLCSZ written (R64): the caches are flushed, a range given up is cleared, and the new size takes effect. A size
above 128 MiB is ignored whole. -/
def State.setPoolSize (s : State) (w : Word) : State :=
  let n := (w.extractLsb' 24 8).toNat
  if 8 < n then s
  else
    let s := s.flushPool fun _ => true
    { s with
      poolcsz := n
      pmem := s.pmem.filter fun e => !released s.poolcsz n e.1
      units := s.units.filter fun e => !released s.poolcsz n (64 * e.1)
      physMarks := s.physMarks.filter fun u => !released s.poolcsz n (64 * u) }

/-- PCFLUSH written (R65): the fields are kept, and bit 0 flushes, of one owner where bit 1 is set. -/
def State.writePcflush (s : State) (w : Word) : State :=
  let owner := w.extractLsb' 16 16
  let s := { s with pcflush := keepBits w 31 16 ||| keepBits w 1 1 }
  if !w.getLsbD 0 then s else s.flushPool fun l => !w.getLsbD 1 || l.owner = owner

/-- FQRESUME (R92): a serviced operation walks again. -/
def State.fqresume (s : State) (ident : Word) : State :=
  let s := s.modOpWhere ident DOp.resume
  match s.servicedOp ident with
  | some (c, o) =>
    let upd (p : MatOp) : MatOp := if p.ident = o.ident then { p with serviced := false } else p
    s.modCluster c fun k => { k with matOps := k.matOps.map upd }
  | none => s

/-- FQABORT (R92, R353): a serviced operation ends with status FAULT; a matrix operation fails with kind 3. -/
def State.fqabort (s : State) (ident : Word) : State :=
  let s := s.modOpWhere ident fun o => o.stopServiced 3
  match s.servicedOp ident with
  | some (c, o) => (s.endPass c o.uid o.holder).failMatrix c o.holder (BitVec.ofNat 64 (3 + o.index * 2 ^ 16))
  | none => s

/-- Two windows share a byte. -/
def Window.overlaps (a b : Window) : Bool :=
  decide (a.hbase.toNat < b.hbase.toNat + b.hlen.toNat) && decide (b.hbase.toNat < a.hbase.toNat + a.hlen.toNat)

/-- FREE to LIVE (R96): refused where HLEN is 0 or another window that is not free overlaps. -/
def State.windowLive (s : State) (w : Nat) : State :=
  let x := Tab.get ⟨0, 0, 0⟩ s.windows w
  if x.state != 0 then s
  else if x.hlen = 0 || s.windows.any fun e => e.1 != w && e.2.state != 0 && e.2.overlaps x then
    { s with hpstat := s.hpstat ||| 2 }
  else { s with windows := Tab.set s.windows w { x with state := 1 } }

/-- LIVE or DETACHED to FREE (R96). -/
def State.windowFree (s : State) (w : Nat) : State :=
  let x := Tab.get ⟨0, 0, 0⟩ s.windows w
  if x.state = 1 || x.state = 2 then { s with windows := Tab.set s.windows w { x with state := 0 } } else s

/-- A word of a grant window written (R96). -/
def State.writeWindow (s : State) (w : Nat) (v : Word) (j : Nat) : State :=
  let x := Tab.get ⟨0, 0, 0⟩ s.windows w
  if j = 0 then
    if x.state = 0 then { s with windows := Tab.set s.windows w { x with hbase := keepBits v 49 12 } } else s
  else if j = 1 then
    if x.state = 0 then { s with windows := Tab.set s.windows w { x with hlen := keepBits v 63 12 } } else s
  else if j = 2 then
    if v.extractLsb' 0 2 = 1 then s.windowLive w else if v.extractLsb' 0 2 = 0 then s.windowFree w else s
  else s

/-- HEVACK (R467): writing 1 clears the pending message. -/
def State.writeHevack (s : State) (v : Word) : State :=
  if v.getLsbD 0 then { s with hostMessage := false, hevb := 0, hevl := 0 } else s

/-- FENCE (R454): writing bit 63 = 1 fences a cluster. -/
def State.writeFence (s : State) (v : Word) : State :=
  if v.getLsbD 63 then s.fenceCluster (v.extractLsb' 0 9).toNat else s

/-- PLCTL (R121). -/
def State.writePlctl (s : State) (v : Word) : State :=
  if v.getLsbD 8 then s.plctl (v.extractLsb' 0 4) (v.extractLsb' 4 4) else s

/-- The state with a control register written by strand `u`; KEYGO and PDONE have operations of their own. -/
def State.cwrite (s : State) (u : Nat) (v : Word) : CReg → State
  | .modnum => if (s.strand u).mode = .firmware then { s with modnum := v.extractLsb' 0 19 } else s
  | .pports => if (s.strand u).mode = .firmware then { s with pports := v.extractLsb' 0 12 } else s
  | .owntab => { s with owntab := keepBits v 51 21 }
  | .keysel => { s with keysel := v.extractLsb' 0 12 }
  | .keydata i => { s with keydata := s.keydata.set i v }
  | .keygo | .hevb | .hevl | .plstat | .linkup | .fenced _ => s
  | .poolcsz => s.setPoolSize v
  | .pcflush => s.writePcflush v
  | .pchit => { s with pchit := v }
  | .pcmiss => { s with pcmiss := v }
  | .fqtab => { s with fqtab := keepBits v 51 21 }
  | .fqresume => s.fqresume v
  | .fqabort => s.fqabort v
  | .foldtab => { s with foldtab := keepBits v 51 24 }
  | .ptime => { s with ptime := low32 v }
  | .vlog r => { s with vlog := s.vlog.write v r }
  | .hpstat => if v.getLsbD 1 then { s with hpstat := s.hpstat &&& ~~~2 } else s
  | .hevack => s.writeHevack v
  | .window w j => s.writeWindow w.val v j.val
  | .plctl => s.writePlctl v
  | .pptbase => { s with pptbase := keepBits v 51 21 }
  | .reissue => { s with reissue := v }
  | .flog r => { s with flog := s.flog.write v r }
  | .tperiod => s.setTperiod v
  | .rbound => { s with rbound := low32 v }
  | .queue q j => s.modCox (·.modQueue q.val fun e => e.write v j.val)
  | .elog r => { s with elog := s.elog.write v r }
  | .mctgt => { s with mctgt := v.extractLsb' 0 12 }
  | .scrub => { s with scrub := low32 v }
  | .rebuildlim => { s with rebuildlim := low32 v }
  | .cecount => { s with cecount := v }
  | .uecount => { s with uecount := v }
  | .fence => s.writeFence v
  | .evwait => { s with evwait := low32 v }
  | .miller c j => s.modCluster c.val fun k => k.setMiller v j.val
  | .assayer c j => s.modCluster c.val fun k => k.setAssayer v j.val
  | .ctx w r =>
    if s.windowOpen u w.val || r.always then
      if r = .reshape then s.writeReshape w.val v else s.setStrand w.val ((s.strand w.val).ctxWrite v r)
    else s

/-! ### PDONE (R442) -/

/-- PDONE acts on a strand: it has taken PREEMPT, and its gang stops. -/
def State.pdoneActs (s : State) (w : Nat) : Bool :=
  let t := s.strand w
  t.resident && t.preempted.isSome && match s.cox.gang t.gang with
    | some g => g.state = .stopping
    | none => false

/-- A pre-empted strand ends: whether it has. Its stores are performed first. -/
def pdoneM (w : Nat) : M Bool := do
  let s ← getS
  if s.pdoneActs w then do
    waitUnless (s.elemsClear w)
    drainM w
    modS fun s => (s.strandSaved w).coxRun
    pure true
  else pure false

/-! ### The store -/

/-- A store to a KEYGO that refuses takes the access trap of a CONTROL violation (R32, R44). -/
def keygoM (u : Nat) (va : Word) (v : Word) : M Unit := do
  let s ← getS
  if !v.getLsbD 0 then pure ()
  else if s.keyRefused (s.strand u).mode then controlTrap (s.scalarAgent u) .write va
  else modS State.installKey

/-- An aligned 8-byte store by strand `u` to a control-space offset: whether it has ended the strand (R34). -/
def controlStore (u : Nat) (va : Word) (off : Nat) (v : Word) : M Bool := do
  let s ← getS
  match CReg.ofOffset off with
  | none => pure false
  | some .keygo => do
    keygoM u va v
    pure false
  | some (.ctx w .pdone) =>
    if v.getLsbD 0 && s.windowOpen u w.val then do
      let b ← pdoneM w.val
      pure (b && decide (w.val = u))
    else pure false
  | some r => do
    modS fun s => s.cwrite u v r
    pure false

/-! ### Rows of the table that are register writes -/

/-- The physical address of a control-space offset (R24). -/
def controlPa (off : Nat) : Word := BitVec.ofNat 64 (3 * 2 ^ 50 + off)

/-- A store of strand `u` to the register at an offset: in user mode it takes the access trap of a CONTROL violation,
which is logged (R26, R44, R46). -/
def registerRow (u off : Nat) (body : M Unit) (s : State) : Host.Outcome State Fault Refusal :=
  match (s.strand u).mode with
  | .user => conclude u s ((controlTrap (s.scalarAgent u) .write (controlPa off) : M Unit) s)
  | .kernel | .firmware => conclude u s (body s)

/-- The offset of register `r` of a context window (R435). -/
def ctxOffset (window r : Nat) : Nat := 0x4000000 + 0x4000 * window + r

/-- The offset of STATE of a grant window (R96). -/
def windowOffset (w : Nat) : Nat := 0x21010 + 32 * w

/-- CONTROL_REGISTER_WRITE (R34). The row carries no virtual address: a trap names the physical one. -/
def execControlRegisterWrite (uid : Uid) (off : BitVec 50) (v : Word) (s : State) : Host.Outcome State Fault Refusal :=
  registerRow uid.toNat off.toNat (do
    if off.toNat % 8 = 0 then do
      let _ ← controlStore uid.toNat (controlPa off.toNat) off.toNat v
      pure ()
    else alignTrap (controlPa off.toNat)) s

/-- KEYGO (R32). -/
def execKeygo (uid : Uid) (v : Word) (s : State) : Host.Outcome State Fault Refusal :=
  registerRow uid.toNat 0x10058 (keygoM uid.toNat (controlPa 0x10058) v) s

/-- POOLCSZ_WRITE (R64). -/
def execPoolcszWrite (uid : Uid) (v : Word) (s : State) : Host.Outcome State Fault Refusal :=
  registerRow uid.toNat 0x10088 (modS (·.setPoolSize v)) s

/-- PCFLUSH (R65): every line. -/
def execPcflush (uid : Uid) (s : State) : Host.Outcome State Fault Refusal :=
  registerRow uid.toNat 0x10090 (modS (·.writePcflush 1)) s

/-- PCFLUSH_OWNER (R65): the lines of one owner. -/
def execPcflushOwner (uid : Uid) (owner : Owner) (s : State) : Host.Outcome State Fault Refusal :=
  registerRow uid.toNat 0x10090 (modS (·.writePcflush ((owner.setWidth 64 <<< 16) ||| 3))) s

/-- FQRESUME (R92). -/
def execFqresume (uid : Uid) (ident : Word) (s : State) : Host.Outcome State Fault Refusal :=
  registerRow uid.toNat 0x100b8 (modS (·.fqresume ident)) s

/-- FQABORT (R92). -/
def execFqabort (uid : Uid) (ident : Word) (s : State) : Host.Outcome State Fault Refusal :=
  registerRow uid.toNat 0x100c0 (modS (·.fqabort ident)) s

/-- PLCTL_GO (R121). -/
def execPlctlGo (uid : Uid) (withdraw entering : BitVec 4) (s : State) : Host.Outcome State Fault Refusal :=
  registerRow uid.toNat 0x30008 (modS (·.plctl withdraw entering)) s

/-- GRANT_WINDOW_LIVE (R96). -/
def execGrantWindowLive (uid : Uid) (w : BitVec 6) (s : State) : Host.Outcome State Fault Refusal :=
  registerRow uid.toNat (windowOffset w.toNat) (modS (·.windowLive w.toNat)) s

/-- GRANT_WINDOW_FREE (R96). -/
def execGrantWindowFree (uid : Uid) (w : BitVec 6) (s : State) : Host.Outcome State Fault Refusal :=
  registerRow uid.toNat (windowOffset w.toNat) (modS (·.windowFree w.toNat)) s

/-- HEVACK (R467). -/
def execHevack (uid : Uid) (v : Word) (s : State) : Host.Outcome State Fault Refusal :=
  registerRow uid.toNat 0x20018 (modS (·.writeHevack v)) s

/-- FENCE_CLUSTER (R458). -/
def execFenceCluster (uid : Uid) (cid : Cid) (s : State) : Host.Outcome State Fault Refusal :=
  registerRow uid.toNat 0x50050 (modS (·.fenceCluster cid.toNat)) s

/-- PDONE (R442). -/
def execPdone (uid window : Uid) (s : State) : Host.Outcome State Fault Refusal :=
  registerRow uid.toNat (ctxOffset window.toNat 0x20) (do
    let s ← getS
    if s.windowOpen uid.toNat window.toNat then do
      let _ ← pdoneM window.toNat
      pure ()
    else pure ()) s

/-- RESHAPE (R443). -/
def execReshape (uid window : Uid) (v : Word) (s : State) : Host.Outcome State Fault Refusal :=
  registerRow uid.toNat (ctxOffset window.toNat 0x28) (modS (·.writeReshape window.toNat v)) s

end Sys2Proof.Machine
end

