-- ==== Sys2Proof/Machine/Eret.lean ====
section
/-!
DEFINITION. ERET (R237): the return itself, what becomes of the column queue (R434, R437), and the DCFG configuration
that comes back with the first return of a resumed strand (R384).
-/

namespace Sys2Proof.Machine

/-- A return into user mode waits for the live queue, and is refused where a parked member with an index would resume on
another vlmax (R437 steps 1 and 2). -/
def returnReady (u : Nat) : M Unit := do
  let t ← getStrand u
  match t.returnMode with
  | .user => do
    waitUnless t.queueEmpty
    match unparkBlocker t with
    | some m => trapWith 1 0 m.addr
    | none => pure ()
  | .kernel | .firmware => pure ()

/-- The first return of a resumed strand to the mode in which it was pre-empted installs its configuration again
(R384). -/
def reinstallCfg (u : Nat) : M Unit := do
  let t ← getStrand u
  if t.resumeMode = some t.returnMode then do
    let r := t.dcfgr.toNat
    let length := (t.dcfgl.extractLsb' 0 32).toNat
    if length = 0 then pure ()
    else do
      let consumed := (t.dcfgl.extractLsb' 32 32).toNat
      stripRoom u (newCfg t.kept.cfgMode r length consumed) consumed (cfgDepth r)
      modS (·.drainLines (ringLines u r))
      installCfg u t.kept.cfgMode r length consumed
    modStrand u fun t => { t with resumeMode := none }
  else pure ()

/-- The return of a strand: registers and column queue. -/
def Strand.eret (t : Strand) : Strand := t.returnFrom.restoreQueue t.returnMode

/-- ERET (R237). -/
def execEret (s : State) : Host.Outcome State Fault Refusal :=
  helmJump (fun u => do
    needKernel u
    returnReady u
    reinstallCfg u
    modStrand u Strand.eret
    let t ← getStrand u
    pure t.pc) s

end Sys2Proof.Machine
end

