-- ==== Sys2Proof/Machine/Events.lean ====
section
/-!
DEFINITION. Events that reach a strand, and the expiry of its timers: pre-emption (R441), reshape (R443), element progress
(R440), user-level interrupts (R238), kernel events of the event set (R432, R457), and the Cox's ticks (R399, R403).
-/

namespace Sys2Proof.Machine

/-! ### Boundaries at which an event is taken (R205, R254, R432) -/

/-- Strand `u` is at a boundary at which it takes an event: outside a convoy under assembly, no synchronous trap ready, and
no access of its helm's instruction under way. -/
def State.atBoundary (s : State) (u : Nat) : Bool :=
  let t := s.strand u
  t.resident && !s.fenced.contains (clusterOf u) && t.assembling.isEmpty && t.colTrap.isNone && !s.midAccess u
    && !s.columnBusy u

/-- Strand `u` takes an event (R432): epc is the address of the oldest instruction not issued. -/
def State.takeEvent (s : State) (u : Nat) (firmware wfree : Bool) (code : Nat) (tval : Word) : State :=
  let t := s.strand u
  (s.discardColumn u).setStrand u (t.takeTrap firmware wfree t.trapPc (causeWord code 0 0) tval)

/-! ### Pre-emption (R441, R442) -/

/-- The column queue stands at a strip boundary: it is empty, or its head is a SETVL or CLAIM that has not started. -/
def Strand.atStrip (t : Strand) : Bool :=
  match t.queue with
  | [] => true
  | m :: _ => startsStrip m.word && !m.done

/-- A request that the strand can act on now: at once for reasons 1 and 2 and once the bound has run out, otherwise at a
strip boundary. -/
def Strand.preemptReady (t : Strand) (r : PreemptReq) : Bool := t.kie && (r.reason != 0 || !r.bound || t.atStrip)

/-- A pre-emption request has come that the strand acts on once its column engine reaches a boundary: the helm issues nothing
more meanwhile (R441 step 1). -/
def Strand.stopsIssue (t : Strand) : Bool := t.preempt.isSome && t.kie && t.assembling.isEmpty

/-- Strand `u` takes PREEMPT, where a request waits for it and it can. -/
def State.takePreempt (s : State) (u : Nat) : State :=
  let t := s.strand u
  match t.preempt with
  | none => s
  | some r =>
    if s.atBoundary u && t.preemptReady r then
      let s := s.setStrand u { t with preempt := none, preempted := some t.mode }
      s.takeEvent u false (r.reason = 0 && r.bound) 128 (BitVec.ofNat 64 r.reason)
    else s

/-- PREEMPT (R441). -/
def execPreempt (uid : Uid) (reason : BitVec 2) (s : State) : Host.Outcome State Fault Refusal :=
  .next (match (s.strand uid.toNat).preempt with
    | some r => if r.reason = reason.toNat then s.takePreempt uid.toNat else s
    | none => s)

/-- STRIP_STOP_BOUND (R441): RBOUND cycles have passed since the Cox's request, and the members stop where they are. -/
def execStripStopBound (uid : Uid) (s : State) : Host.Outcome State Fault Refusal :=
  let t := s.strand uid.toNat
  let stop (r : PreemptReq) : PreemptReq := { r with bound := false }
  .next (s.setStrand uid.toNat { t with preempt := t.preempt.map stop })

/-- RESHAPE_EXPIRE (R443): RBOUND cycles have passed since the write that set PEND. -/
def execReshapeExpire (uid : Uid) (s : State) : Host.Outcome State Fault Refusal :=
  .next (s.reshapeExpires uid.toNat)

/-! ### The element-progress timer (R439, R440) -/

/-- The oldest member waits on a line of an operation in the serviced state, or joins one: the timer pauses (R439). -/
def State.timerPaused (s : State) (u : Nat) (w : WaitInfo) : Bool :=
  let k := s.cluster (clusterOf u)
  match windowAddr u w.addr with
  | some a => w.code = 1 && k.ops.any fun o => o.isServiced && o.linesLeft.contains (a / 128)
  | none => w.code = 3 && k.matOps.any fun o => o.serviced && o.holder = (s.strand u).holder

/-- TINFO (R440). -/
def WaitInfo.tinfo (w : WaitInfo) : Word :=
  BitVec.ofNat 64 (record [(w.elem.getD 0, 0), (w.slice, 16), (w.code, 20), (1, 23)])

/-- The strand's oldest unretired member that is not parked, and its place in its convoy: a held one is older than the live
queue (R434, R439). -/
def Strand.oldestMember (t : Strand) : Option (Member × Nat) :=
  match t.held.reverse.find? (fun l => !l.isEmpty) with
  | some l => (firstConvoy l).zipIdx.find? fun e => !e.1.done
  | none => t.headMember.map fun m => ⟨m, memberNumber t m⟩

/-- PROGRESS (R440): the timer of the strand's oldest member expires. A held member waits on nothing: its handler runs. A CLAIM
whose atomic is under way is not stopped (R302). -/
def State.progressExpires (s : State) (u : Nat) : State :=
  let t := s.strand u
  let wait := if t.heldMembers.isEmpty then t.waitsOn else none
  let paused := match wait with
    | some w => s.timerPaused u w
    | none => false
  match t.oldestMember with
  | none => s
  | some (_, place) =>
    if !t.resident || s.columnAtomic u || t.colTrap.isSome || s.ptime = 0 || paused || s.fenced.contains (clusterOf u) then s
    else
      let tval := (wait.map (·.addr)).getD 0
      let s := s.setStrand u { t with
        tinfo := (wait.map (·.tinfo)).getD 0, colTrap := some ⟨causeWord 12 0 place, tval, none, 0⟩ }
      s.settleTrap u

/-- PROGRESS (R440). -/
def execProgress (uid : Uid) (s : State) : Host.Outcome State Fault Refusal := .next (s.progressExpires uid.toNat)

/-! ### User-level interrupts (R238, R371) -/

/-- Entry into the handler of a user-level interrupt, as one step. -/
def Strand.enterUser (t : Strand) : Strand :=
  { t.swapShadow with uiepc := t.pc, uia := true, pc := t.uivec, issue := .running, late := t.guesses }

/-- A user-level interrupt is pending and enabled. -/
def Strand.userReady (t : Strand) : Bool := !t.kept.intq.isEmpty && t.uie && !t.uia

/-- Strand `u` takes a user-level interrupt, where one is pending and it can. The interrupt joins the writes of its
operation, so that no line that the helm's data cache holds answers a load of the handler (R144). -/
def State.takeUser (s : State) (u : Nat) : State :=
  let t := s.strand u
  if s.atBoundary u && t.userReady then
    (s.setStrand u t.enterUser).dropData (helmOf u) noLine
  else s

/-- USER_INTERRUPT (R238). -/
def execUserInterrupt (uid : Uid) (s : State) : Host.Outcome State Fault Refusal := .next (s.takeUser uid.toNat)

/-! ### The event set (R432, R457) -/

/-- The oldest event of the set, where strand `u` is the one that MCTGT names. -/
def State.eventFor (s : State) (u : Nat) : Option Event := if u = s.mctgtUid then s.eventSet.head? else none

/-- Strand `u` takes the oldest event of the set, where it can. -/
def State.takeKernelEvent (s : State) (u : Nat) : State :=
  match s.eventFor u with
  | some e =>
    if s.atBoundary u && (s.strand u).kie then
      ({ s with eventSet := s.eventSet.tail }).takeEvent u false false e.code e.tval
    else s
  | none => s

/-- HOST_EVENT (R467). -/
def execHostEvent (uid : Uid) (s : State) : Host.Outcome State Fault Refusal :=
  .next (match s.eventFor uid.toNat with
    | some e => if e.code = 130 then s.takeKernelEvent uid.toNat else s
    | none => s)

/-- MACHINE_CHECK (R451, R456). -/
def execMachineCheck (uid : Uid) (s : State) : Host.Outcome State Fault Refusal :=
  .next (match s.eventFor uid.toNat with
    | some e => if e.code = 131 then s.takeKernelEvent uid.toNat else s
    | none => s)

/-- EVWAIT_EXPIRE (R457): the oldest event of the set has waited EVWAIT cycles, and firmware is to take it. -/
def State.evwaitExpires (s : State) : State :=
  match s.eventSet with
  | e :: rest => { s with eventSet := rest, fwEvents := s.fwEvents ++ [e] }
  | [] => s

/-- EVWAIT_EXPIRE (R457). -/
def execEvwaitExpire (s : State) : Host.Outcome State Fault Refusal := .next s.evwaitExpires

/-- The strand that takes firmware's events: strand 0 of the lowest-numbered cluster in service. -/
def State.firmwareUid (s : State) : Nat := 8 * (s.inService.headD 0)

/-- Firmware takes the oldest of its events on strand `u`, whatever KIE is, once the strand is not in firmware mode. -/
def State.takeFirmwareEvent (s : State) (u : Nat) : State :=
  match s.fwEvents with
  | e :: rest =>
    if u = s.firmwareUid && s.atBoundary u && (s.strand u).mode != .firmware then
      ({ s with fwEvents := rest }).takeEvent u true false e.code e.tval
    else s
  | [] => s

/-- A kernel event, a pre-emption or a user-level interrupt is pending for strand `u` that it does not take, which ends its
IDLE (R247). One that it takes, it takes first, out of its sleep. -/
def State.wakes (s : State) (u : Nat) : Bool :=
  let t := s.strand u
  ((t.preempt.isSome || (s.eventFor u).isSome) && !t.kie)
    || (u = s.firmwareUid && !s.fwEvents.isEmpty && t.mode = .firmware)
    || (!t.kept.intq.isEmpty && !t.userReady)

/-- An event that strand `u` takes at its next boundary. -/
def State.eventReady (s : State) (u : Nat) : Bool :=
  let t := s.strand u
  s.atBoundary u &&
    ((match t.preempt with
      | some r => t.preemptReady r
      | none => false)
    || ((s.eventFor u).isSome && t.kie) || (u = s.firmwareUid && !s.fwEvents.isEmpty && t.mode != .firmware)
    || t.userReady)

/-- Strand `u` takes the event that is ready: one for firmware first, then a pre-emption, then one of the event set, then a
user-level interrupt (log 28). -/
def State.takeReady (s : State) (u : Nat) : State :=
  let t := s.strand u
  if u = s.firmwareUid && !s.fwEvents.isEmpty && t.mode != .firmware then s.takeFirmwareEvent u
  else if (t.preempt.map t.preemptReady).getD false then s.takePreempt u
  else if (s.eventFor u).isSome && t.kie then s.takeKernelEvent u
  else s.takeUser u

/-! ### The Cox (R399, R403, R442) -/

/-- TICK (R403). -/
def execTick (s : State) : Host.Outcome State Fault Refusal := .next s.tickStart

/-- VICTIMS_STOPPED (R399): the Cox places the candidate whose victims have stopped. -/
def execVictimsStopped (s : State) : Host.Outcome State Fault Refusal := .next s.coxRun

/-- RESUME (R442): the Cox places the oldest stopped gang of a queue again, where it selects it. -/
def execResume (queue : BitVec 6) (s : State) : Host.Outcome State Fault Refusal :=
  .next (if (Tab.get [] s.cox.resume queue.toNat).isEmpty then s else s.coxRun)

/-! ### Bounds of the helm's memory (R69, R132) -/

/-- WRITE_BUFFER_DRAIN (R69): the oldest entry of the strand's write buffer leaves for its home. -/
def execWriteBufferDrain (uid : Uid) (s : State) : Host.Outcome State Fault Refusal := .next (s.drainOne uid.toNat)

/-- DATA_CACHE_EXPIRE (R132): a line leaves the helm's data cache. -/
def execDataCacheExpire (helm : BitVec 11) (line : BitVec 45) (s : State) : Host.Outcome State Fault Refusal :=
  let h := s.helm helm.toNat
  .next (s.setHelm helm.toNat { h with dcache := h.dcache.filter fun e => e.line != line.toNat })

end Sys2Proof.Machine
end

