-- ==== Sys2Proof/Machine/LoadStore.lean ====
section
/-!
DEFINITION. Scalar loads and stores (R231) with the helm's data cache and write buffers (R68, R69), atomics (R232 to
R234) and SIGNAL (R303).
-/

namespace Sys2Proof.Machine

/-! ### The data cache and the write buffer -/

/-- The line of a target in the helm's data cache. -/
def Helm.cachedLine (h : Helm) (t : Target) : Option CacheLine :=
  findLine h.dcache t.module (t.pa / 128) t.owner

/-- The helm with a line in its data cache (R68); `pick` chooses the line that a full set gives up (log 84). -/
def Helm.fillData (h : Helm) (pick : Nat) (e : CacheLine) : Helm :=
  { h with dcache := e :: makeRoom pick e (dropLine h.dcache e.module e.line e.owner) }

/-- Helm `n` with a line in its data cache. -/
def State.fillData (s : State) (n : Nat) (e : CacheLine) : State :=
  s.drawn.setHelm n ((s.helm n).fillData (Config.freeVictim s.draws) e)

/-- A load of strand `u` has its line: it enters the data cache, unless it may not, and older lines that other loads have
asked for do not enter it after that (R131). -/
def State.takeLine (s : State) (u : Nat) (e : CacheLine) : State :=
  let h := helmOf u
  let may := !(s.helm h).stale.contains u
  let s := s.setHelm h { s.helm h with stale := (s.olderLoads h).filter fun v => v != u || !may }
  if may then s.fillData h e else s

/-- A load of strand `u` has ended: the answers kept for it are forgotten, and those under way are discarded when they
come, so that no later load takes them (R131). -/
def State.endLoad (s : State) (u : Nat) : State :=
  let s := s.disown u (· = .helm u)
  let h := s.helm (helmOf u)
  if h.stale.contains u then s.setHelm (helmOf u) { h with stale := h.stale.filter (· != u) } else s

/-- The entry of a strand's write buffer for a target's line. -/
def Strand.bufEntry (t : Strand) (g : Target) : Option BufEntry :=
  t.writeBuffer.find? fun e => e.target.module = g.module && e.target.pa / 128 = g.pa / 128

/-- An entry may merge, or serve, an access at a target: same owner, same encryption. -/
def BufEntry.serves (e : BufEntry) (g : Target) : Bool := e.target.owner = g.owner && e.target.clear == g.clear

/-- Loaded bytes with those of the strand's own write buffer over them (R69). -/
def Strand.bufferOver (t : Strand) (g : Target) (l : List Byte) : List Byte :=
  match t.bufEntry g with
  | none => l
  | some e => l.zipIdx.map fun b => ((e.bytes.find? fun x => x.1 = g.pa % 128 + b.2).map (·.2)).getD b.1

/-- The write buffer holds every byte of a load. -/
def Strand.bufferHolds (t : Strand) (g : Target) (n : Nat) : Bool :=
  match t.bufEntry g with
  | none => false
  | some e => (List.range n).all fun i => e.bytes.any fun x => x.1 = g.pa % 128 + i

/-- A store of the strand to the line under another owner or encryption is performed first (R128). -/
def flushForeign (u : Nat) (g : Target) : M Unit := do
  let t ← getStrand u
  match t.bufEntry g with
  | some e => if e.serves g then pure () else drainM u
  | none => pure ()

/-- The offset in a line's bytes. -/
def sliceOf (l : List Byte) (off n : Nat) : List Byte := (l.drop off).take n

/-- A load of `n` bytes from a target's storage: from held remote data (R140), from the data cache, or from the home,
whose line then enters the data cache. A line that cannot be read whole, because another part of it carries a mark,
enters no cache, nor does one that was asked for before an event which a later hit must not lie behind (`Helm.stale`). -/
def fetchBytes (u : Nat) (ag : Agent) (va : Word) (t : Target) (n : Nat) : M (List Byte) := do
  let s ← getS
  match s.forward (clusterOf u) t n with
  | some l => do
    modS (·.readHeld u t l)
    pure (l.map (·.2))
  | none =>
    match (s.helm (helmOf u)).cachedLine t with
    | some e => pure (sliceOf e.data (t.pa % 128) n)
    | none => do
      let a ← keepM (.helm u) .read ag.ident t.lineOf (.load 128)
      match a with
      | .poisoned => do
        let b ← keepM (.helm u) .read ag.ident t (.load n)
        let r ← helmAnswer ag .read va t b
        pure r.data
      | a => do
        let r ← helmAnswer ag .read va t a
        modS (·.takeLine u (t.cacheLine r.data))
        pure (sliceOf r.data (t.pa % 128) n)

/-- A load of `n` bytes from translated memory (R69, R126, R417). -/
def loadTarget (u : Nat) (ag : Agent) (va : Word) (t : Target) (n : Nat) : M (List Byte) := do
  flushForeign u t
  let st ← getStrand u
  let s ← getS
  let l ← (if st.bufferHolds t n || s.stagedWhole u va n then pure (List.replicate n 0) else fetchBytes u ag va t n)
  modS (·.endLoad u)
  let s ← getS
  let l := s.loadOver u va (st.bufferOver t l)
  if s.stagedMarked u va n then machineCheck ag 0 stagingLevel else pure l

/-! ### Loads whose values are taken later (R129) -/

/-- A younger scalar access to an overlapping byte is ordered behind the load (R128): the load has its value by then. -/
def endLate (u : Nat) (t : Target) (n : Nat) : M Unit := do
  let s ← getStrand u
  waitUnless (!s.guesses.any fun l => l.overlaps t n)
  modStrand u fun s => { s with late := s.late.filter fun l => !l.overlaps t n }

/-- The strand with a load that may still take its value at a later instant. -/
def Strand.addLate (t : Strand) (va : Word) (g : Target) (n : Nat) (sgn : Bool) (xd : Reg) : Strand :=
  { t with late := t.late ++ [⟨t.nextIid, xd, t.uia, va, g, n, sgn, none⟩], nextIid := t.nextIid + 1 }

/-- A load of this module's translated memory may still take its value at a later instant (R129), from `reload`, unless it
is served by the strand's own write buffer or is a tile's (log 92). -/
def keepLate (u : Nat) (va : Word) (n : Nat) (sgn : Bool) (xd : Reg) (from? : Option Target) : M Unit :=
  match from? with
  | none => pure ()
  | some g => modS fun s =>
    let t := s.strand u
    if xd != 0 && g.module.isNone && (t.bufEntry g).isNone && (s.tileOf u).isNone then
      s.setStrand u (t.addLate va g n sgn xd)
    else s

/-- A load takes its value at this later instant: from the helm's data cache or from its home. What is no value leaves the
one that it has, which it took when it issued (log 92). -/
def State.reload (s : State) (u seq : Nat) : State :=
  match (s.strand u).late.find? fun l => l.seq = seq with
  | none => s
  | some l =>
    let put (s : State) (b : List Byte) : State :=
      let s := s.setStrand u ((s.strand u).takeLate l b)
      s.setHelm (helmOf u) { s.helm (helmOf u) with stale := s.olderLoads (helmOf u) }
    match (s.helm (helmOf u)).cachedLine l.target with
    | some e => put s (sliceOf e.data (l.target.pa % 128) l.len)
    | none =>
      match s.access (.late u seq) .read 0 l.target (.load l.len) with
      | (some (.bytes b), s) => put s b
      | (_, s) => s

/-- A scalar load of `n` bytes: the bytes, and the target where they come from translated memory. -/
def loadScalar (u : Nat) (va : Word) (n : Nat) : M (List Byte × Option Target) := do
  needAligned va n
  sHold u
  let s ← getS
  let ag := s.scalarAgent u
  match ← placeM ag .read va n with
  | .local a => do
    let r ← localM ag a (.load n)
    pure (r.data, none)
  | .control off =>
    if n = 8 then do
      modS (·.keepControl ag va)
      pure (bytesOfNat 8 (s.controlRead u off).toNat, none)
    else controlTrap ag .read va
  | .target t => do
    endLate u t n
    let l ← loadTarget u ag va t n
    pure (l, some t)

/-- LD (R231). -/
def execLd (size : MemSize) (sgn : Bool) (xd xa : Reg) (off : BitVec 32) (s : State) : Host.Outcome State Fault Refusal :=
  helmOp (fun u => do
    let a ← readX u xa
    let (l, g) ← loadScalar u (offsetAddr a off) size.bytes
    writeX u xd (extended sgn l)
    keepLate u (offsetAddr a off) size.bytes sgn xd g) s

/-- LD, register-indexed (R231). -/
def execLdIndexed (size : MemSize) (sgn : Bool) (xd xa xb : Reg) (s : State) : Host.Outcome State Fault Refusal :=
  helmOp (fun u => do
    let (a, b) ← readX2 u xa xb
    let (l, g) ← loadScalar u (indexedAddr a b size) size.bytes
    writeX u xd (extended sgn l)
    keepLate u (indexedAddr a b size) size.bytes sgn xd g) s

/-! ### Stores -/

/-- An entry with stored bytes merged over its own. -/
def BufEntry.merge (e : BufEntry) (off : Nat) (l : List Byte) : BufEntry :=
  { e with bytes := l.zipIdx.foldl (fun t b => Tab.set t (off + b.2) b.1) e.bytes }

/-- A new entry for a target's line. It keeps the address of its first store, for the report of a failure (R111). -/
def BufEntry.new (g : Target) : BufEntry := { target := { g with pa := g.pa / 128 * 128 }, bytes := [], parts := [] }

/-- A younger entry of the buffer holds stores to the other line of a target's granule: the stores to one granule are
performed in program order (R130), so that no store may merge past it. -/
def Strand.bufBlocked (t : Strand) (g : Target) (e : BufEntry) : Bool :=
  ((t.writeBuffer.dropWhile (· != e)).drop 1).any fun f =>
    f.target.module = g.module && f.target.pa / 256 = g.pa / 256

/-- Entries of the buffer leave, in order, until none holds the line of a target. -/
def flushLine (u : Nat) (g : Target) : M Unit := do
  let t ← getStrand u
  match t.writeBuffer.findIdx? fun e => e.target.module = g.module && e.target.pa / 128 = g.pa / 128 with
  | some i => modS (·.drainAll u (i + 1))
  | none => pure ()
  let t ← getStrand u
  waitUnless (t.bufEntry g).isNone

/-- A store enters the write buffer of 16 entries; a full one first lets its oldest entry leave (R69). -/
def bufferStore (u : Nat) (ident va : Word) (g : Target) (l : List Byte) : M Unit := do
  flushForeign u g
  let t ← getStrand u
  match t.bufEntry g with
  | some e => if t.bufBlocked g e then flushLine u g else pure ()
  | none => pure ()
  let t ← getStrand u
  let part : StorePart := ⟨va, l.length, ident, t.nextIid, none⟩
  match t.bufEntry g with
  | some e => do
    let upd (f : BufEntry) : BufEntry :=
      if f = e then { e.merge (g.pa % 128) l with parts := e.parts ++ [part] } else f
    modStrand u fun t => { t with writeBuffer := t.writeBuffer.map upd, nextIid := t.nextIid + 1 }
  | none => do
    if 16 ≤ t.writeBuffer.length then modS (·.drainOne u) else pure ()
    let t ← getStrand u
    waitUnless (decide (t.writeBuffer.length < 16))
    modStrand u fun t => { t with
      writeBuffer := t.writeBuffer ++ [{ (BufEntry.new g).merge (g.pa % 128) l with parts := [part] }]
      nextIid := t.nextIid + 1 }

/-- A scalar store of bytes: whether it has ended the strand, through PDONE. A store to a detached host range is dropped
with one fault-queue record (R98). -/
def storeScalar (u : Nat) (va : Word) (l : List Byte) : M Bool := do
  needAligned va l.length
  sHold u
  let s ← getS
  let ag := s.scalarAgent u
  match ← resolveM ag .write va l.length with
  | .error f =>
    if f.cls = 6 then do
      modS fun s => s.queueFault ag (accessOwner ag va) va l.length f .write false none
      pure false
    else accessTrap ag .write va f
  | .ok (.local a) => do
    let _ ← localM ag a (.store (writeAll l))
    pure false
  | .ok (.control off) =>
    if l.length = 8 then do
      modS (·.keepControl ag va)
      controlStore u va off (BitVec.ofNat 64 (natOfBytes l))
    else controlTrap ag .write va
  | .ok (.target t) => do
    endLate u t l.length
    match s.tileOf u with
    | some ix => modS fun s => s.stage u ix va (writeAll l)
    | none => bufferStore u ag.ident va t l
    pure false

/-- Run a store of the strand that issues; it goes on at the next word, unless the store has ended it. -/
def storeOp (body : Nat → M Bool) (s : State) : Host.Outcome State Fault Refusal :=
  conclude s.cur s ((do
    noChain s.cur
    let gone ← body s.cur
    if gone then pure () else modStrand s.cur fun t => { t with pc := t.pc + 8 }) s)

/-- ST (R231). -/
def execSt (size : MemSize) (xd xa : Reg) (off : BitVec 32) (s : State) : Host.Outcome State Fault Refusal :=
  storeOp (fun u => do
    let (v, a) ← readX2 u xd xa
    storeScalar u (offsetAddr a off) (bytesOfNat size.bytes v.toNat)) s

/-- ST, register-indexed (R231). -/
def execStIndexed (size : MemSize) (xd xa xb : Reg) (s : State) : Host.Outcome State Fault Refusal :=
  storeOp (fun u => do
    let v ← readX u xd
    let (a, b) ← readX2 u xa xb
    storeScalar u (indexedAddr a b size) (bytesOfNat size.bytes v.toNat)) s

/-! ### Atomics -/

/-- The line of a target leaves the issuing helm's data cache (R69). -/
def dropLineData (u : Nat) (t : Target) : M Unit := modS (·.dropData (helmOf u) (·.apart t))

/-- What an atomic waits for before it executes: the release half of its order (R133, R136). -/
def atomicBefore (u : Nat) (scope : Scope) (order : Order) : M Unit :=
  match order with
  | .relaxed | .acq => pure ()
  | .rel | .ar => fenceWaits u scope .rel

/-- What an atomic does once it has executed: the acquire half of its order. -/
def atomicAfter (u : Nat) (scope : Scope) (order : Order) : M Unit :=
  match order with
  | .relaxed | .rel => pure ()
  | .acq | .ar => acquireM u scope

/-- One atomic of the helm at its unit (R72, R234): its old bytes. -/
def atomicM (u : Nat) (scope : Scope) (order : Order) (va : Word) (op : RemoteOp) : M (List Byte) := do
  needAligned va (opSize op)
  sHold u
  let s ← getS
  let ag := s.scalarAgent u
  match ← placeM ag .atomic va (opSize op) with
  | .control _ => controlTrap ag .atomic va
  | .local a => do
    atomicBefore u scope order
    let r ← localM ag a op
    atomicAfter u scope order
    pure r.data
  | .target t => do
    endLate u t (opSize op)
    atomicBefore u scope order
    flushBuffer u t
    dropLineData u t
    let a ← askM (.helm u) .atomic ag.ident t op
    let r ← helmAnswer ag .atomic va t a
    atomicAfter u scope order
    pure r.data

/-- Read a register, or the pair of a 16-byte atomic (R186). -/
def readWide (u : Nat) (size : AmoSize) (r : Reg) : M (BitVec 128) := do
  let lo ← readX u r
  match size with
  | .w | .d => pure (lo.setWidth 128)
  | .q => do
    let hi ← readX u (r + 1)
    pure (hi ++ lo)

/-- Write old bytes to a register, or to a pair; x0 discards the whole result (R186, R232). -/
def writeWide (u : Nat) (size : AmoSize) (r : Reg) (l : List Byte) : M Unit := do
  let v := natOfBytes l
  if r = 0 then pure ()
  else
    match size with
    | .w | .d => writeX u r (BitVec.ofNat 64 v)
    | .q => do
      writeX u r (BitVec.ofNat 64 v)
      writeX u (r + 1) (BitVec.ofNat 64 (v / 2 ^ 64))

/-- AMO (R232). -/
def execAmo (op : AmoOp) (size : AmoSize) (scope : Scope) (order : Order) (xd xa xb : Reg) (s : State) :
    Host.Outcome State Fault Refusal :=
  helmOp (fun u => do
    let a ← readX u xa
    let b ← readWide u size xb
    let l ← atomicM u scope order a (.amo op size b)
    writeWide u size xd l) s

/-- CAS (R233): with x0 the whole expected value is 0. -/
def execCas (size : AmoSize) (scope : Scope) (order : Order) (xd xa xb : Reg) (s : State) :
    Host.Outcome State Fault Refusal :=
  helmOp (fun u => do
    let a ← readX u xa
    let b ← readWide u size xb
    let e ← (if xd = 0 then pure 0 else readWide u size xd)
    let l ← atomicM u scope order a (.cas size e b)
    writeWide u size xd l) s

/-- SIGNAL (R303): an atomic subtraction at system scope with release ordering; then the Cox is notified. -/
def execSignal (xa xb : Reg) (s : State) : Host.Outcome State Fault Refusal :=
  helmOp (fun u => do
    let (a, b) ← readX2 u xa xb
    let _ ← atomicM u .system .rel a (.amo .add .d ((0 - b).setWidth 128))
    modS (·.coxNotify)) s

end Sys2Proof.Machine
end

