-- ==== Sys2Proof/Machine/Module.lean ====
section
/-!
DEFINITION. The module as a whole: boot, identity and the management mailbox (R461 to R468), the host port (R98), reset
(R6), scrubbing and errors (R448, R452, R453), failed pool ports (R456), heat (R469).
-/

namespace Sys2Proof.Machine

/-! ### The boot window (R461) -/

/-- The host's accesses through the boot window use the key of owner 0, the firmware's (log 29). -/
def State.bootEnc (s : State) : Enc := s.encOf 0 false 0

/-- The bytes of the boot window from an offset on. -/
def State.bootBytes (s : State) (off n : Nat) : List Byte :=
  let k := min n (2 ^ 27 - off)
  if off < 2 ^ 27 then s.physRead s.bootEnc off k ++ s.physRead s.bootEnc (2 ^ 28) (n - k)
  else s.physRead s.bootEnc (bootPa off) n

/-- BOOT_WINDOW_ACCESS (R461): a write of at most the rest of a 64-byte unit, or a read of that rest. Once the firmware has
run, an access completes with poison and has no effect; a read that consumes an error does so too (R448). -/
def execBootWindowAccess (off : BitVec 28) (data : Option (List Byte)) (s : State) : Host.Outcome State Fault Refusal :=
  let n := 64 - off.toNat % 64
  .next (if !s.bootOpen then { s with hostReply := .poison }
    else match data with
      | some l => { s.physWrite s.bootEnc (bootPa off.toNat) (writeAll (l.take n)) with hostReply := .done }
      | none =>
        if s.physMarked (bootPa off.toNat) n then { s with hostReply := .poison }
        else { s with hostReply := .data (s.bootBytes off.toNat n) })

/-! ### The boot ROM (R462) -/

/-- Bytes as the digests take them. -/
def nats (l : List Byte) : List Nat := l.map (·.toNat)

/-- A field of the boot header. -/
def hdr (h : List Byte) (lo n : Nat) : List Byte := (h.drop lo).take n

/-- MAGIC, HDRVER and the reserved fields are as R461 gives. -/
def bootHeaderOk (h : List Byte) : Bool :=
  natOfBytes (hdr h 0 4) = 0x57464243 && natOfBytes (hdr h 4 2) = 1 && (hdr h 6 2).all (· == 0)
    && (hdr h 28 36).all (· == 0) && (hdr h 121 7).all (· == 0) && (hdr h 242 14).all (· == 0)

/-- LEN of a boot image. -/
def bootLen (h : List Byte) : Nat := natOfBytes (hdr h 8 8)
/-- ENTRY. -/
def bootEntry (h : List Byte) : Nat := natOfBytes (hdr h 16 8)
/-- SVN. -/
def bootSvn (h : List Byte) : Nat := natOfBytes (hdr h 24 4)
/-- PUBKEY. -/
def bootKey (h : List Byte) : List Nat := nats (hdr h 64 57)
/-- SIG. -/
def bootSig (h : List Byte) : List Nat := nats (hdr h 128 114)

/-- LEN and ENTRY lie in their ranges. -/
def bootLenOk (h : List Byte) : Bool :=
  bootLen h % 64 = 0 && 320 ≤ bootLen h && bootLen h ≤ 2 ^ 28 && bootEntry h % 8 = 0 && 256 ≤ bootEntry h
    && bootEntry h < bootLen h

/-- A digest as 512 bits. -/
def digestBits (l : List Nat) : BitVec 512 := BitVec.ofNat 512 (ofBytes l)

/-- The text of an ASCII string, as bytes. -/
def ascii (s : String) : List Nat := s.toList.map (·.toNat)

/-- The public key's digest is one of the fused ones. -/
def keyFused (h : List Byte) : Bool :=
  [(0 : BitVec 2), 1, 2, 3].any fun i => Config.keyDigest i == some (digestBits (shake256 (bootKey h) 64))

/-- D: the digest of the image, its signature taken as zero. -/
def State.bootDigest (s : State) (h : List Byte) : List Nat :=
  let l := nats (s.bootBytes 0 (bootLen h))
  shake256 (l.take 128 ++ List.replicate 114 0 ++ l.drop 242) 64

/-- The checks of the boot ROM, in order (R462): the BOOTSTAT code of the first that fails. -/
def State.bootFailure (s : State) (h : List Byte) : Option Byte :=
  if !bootHeaderOk h then some 3
  else if !bootLenOk h then some 7
  else if !keyFused h then some 4
  else if !edVerify (bootKey h) 1 (ascii "CB64-FW") (s.bootDigest h) (bootSig h) then some 5
  else if bootSvn h < s.minSvn.toNat then some 6
  else none

/-- The context of strand 0 as the boot ROM jumps to the firmware: firmware mode, one lane group (log 30). -/
def bootStrand (s : State) (entry : Nat) : Strand :=
  { Strand.empty with
    resident := true, lanes := [0], mode := .firmware, share := 16, tvec := s.fwTvec, ftvec := codeAddr Config.romFtvec
    pc := codeAddr (Config.bootImageBase + BitVec.ofNat 64 entry) }

/-- A boot: the image in the window is checked, and runs, or the boot ends with a code. -/
def State.boot (s : State) : State :=
  let h := s.bootBytes 0 256
  match s.bootFailure h with
  | some c => { s with mailbox := { s.mailbox with bootstat := c } }
  | none =>
    let s := s.setStrand 0 (bootStrand s (bootEntry h))
    { s with
      mailbox := { s.mailbox with bootstat := 2 }
      bootOpen := false, fwvalid := true, fwmeas := digestBits (s.bootDigest h)
      runSvn := BitVec.ofNat 32 (bootSvn h), minSvn := BitVec.ofNat 32 (bootSvn h) }

/-! ### The mailbox (R465, R466) -/

/-- A command of the host: arguments written first, from MBARG0 on, then MBCMD. One that meets BUSY is ignored and sets REJ;
another one stands to be served. -/
def State.command (s : State) (code : Byte) (args : List Word) : State :=
  let m := s.mailbox
  let arg := args.zipIdx.foldl (fun (v : Vector Word 4) e => v.setIfInBounds e.2 e.1) m.arg
  { s with mailbox := if m.busy then { m with arg := arg, rej := true } else { m with arg := arg, cmd := some (code, arg) } }

/-- The firmware serves the command; before BOOTSTAT is 2 it is REFUSED (R466). -/
def afterBoot (s : State) (f : State → Byte × State) : Byte × State := if s.mailbox.bootstat = 2 then f s else (2, s)

/-- Bytes of an output, written from the start of MBOUT. -/
def Mailbox.put (m : Mailbox) (l : List Nat) : Mailbox :=
  { m with out := l.map (BitVec.ofNat 8) ++ m.out.drop l.length }

/-- The secret seed as bytes. -/
def identityBytes : List Nat := toBytes 57 Config.identitySeed.toNat

/-- The report of ATTEST without its signature: bytes 0 to 191 (R464). -/
def State.report (s : State) (nonce : Vector Word 4) : List Nat :=
  nonce.toList.flatMap (fun w => toBytes 8 w.toNat) ++ toBytes 4 s.modnum.toNat
    ++ toBytes 4 (if s.fwvalid then s.runSvn.toNat else s.minSvn.toNat) ++ [s.kvalid.toNat, s.fwvalid.toNat]
    ++ List.replicate 22 0 ++ toBytes 64 (if s.fwvalid then s.fwmeas.toNat else 0)
    ++ toBytes 64 (if s.kvalid then s.kmeas.toNat else 0)

/-- BOOT (R462, R466): the checks start. -/
def State.startBoot (s : State) : Byte × State :=
  if s.mailbox.bootstat = 2 then (2, s) else (0, { s with mailbox := { s.mailbox with bootstat := 1 } })

/-- ATTEST (R464). -/
def State.attest (s : State) (nonce : Vector Word 4) : Byte × State :=
  let r := s.report nonce
  let sig := edSign identityBytes 0 (ascii "CB64-ATT") r
  (0, { s with mailbox := s.mailbox.put (r ++ sig ++ List.replicate 14 0) })

/-- IDKEY (R464). -/
def State.idkey (s : State) : Byte × State := (0, { s with mailbox := s.mailbox.put (edPublic identityBytes) })

/-- HOST-EVENT with an event code joins the event set (R457, R467). -/
def State.hostEvent (s : State) (code : Nat) : State :=
  { s with eventSet := s.eventSet ++ [⟨130, BitVec.ofNat 64 code⟩] }

/-- A message to the kernel: held one at a time (R467). -/
def State.message (s : State) (code : Nat) (base : Word) (len : Option Word) : Byte × State :=
  if s.hostMessage then (2, s)
  else (0, ({ s with hostMessage := true, hevb := base, hevl := len.getD s.hevl }).hostEvent code)

/-- GRANT (R467): a base or length that is no multiple of 4 KiB answers BADARG. -/
def State.grant (s : State) (base len : Word) : Byte × State :=
  if s.hostMessage then (2, s)
  else if base.toNat % 4096 != 0 || len.toNat % 4096 != 0 then (1, s)
  else s.message 2 base (some len)

/-- The result of a command, and the state after it (R466). -/
def State.answer (s : State) (code : Byte) (a : Vector Word 4) : Byte × State :=
  match code.toNat with
  | 1 => s.startBoot
  | 2 => s.attest a
  | 3 => s.idkey
  | 4 => afterBoot s fun s => s.grant a[0] a[1]
  | 5 => afterBoot s fun s => s.message 3 a[0] none
  | 6 => afterBoot s fun s => s.message 4 a[0] (some a[1])
  | _ => afterBoot s fun s => (3, s)

/-- The mailbox is served: the checks of a boot end, or else the command is answered and BUSY falls. While the checks run, the
boot ROM serves no other command (R462, log 72). -/
def State.serveMail (s : State) : State :=
  if s.mailbox.bootstat = 1 then s.boot
  else match s.mailbox.cmd with
    | none => s
    | some (code, a) =>
      let (r, s) := s.answer code a
      { s with mailbox := { s.mailbox with result := r, cmd := none } }

/-- BOOT (R462). -/
def execBoot (s : State) : Host.Outcome State Fault Refusal := .next (s.command 1 [])

/-- ATTEST (R464). -/
def execAttest (a0 a1 a2 a3 : Word) (s : State) : Host.Outcome State Fault Refusal := .next (s.command 2 [a0, a1, a2, a3])

/-- IDKEY (R464). -/
def execIdkey (s : State) : Host.Outcome State Fault Refusal := .next (s.command 3 [])

/-- GRANT (R466, R467). -/
def execGrant (base len : Word) (s : State) : Host.Outcome State Fault Refusal := .next (s.command 4 [base, len])

/-- WITHDRAW (R466). -/
def execWithdraw (base : Word) (s : State) : Host.Outcome State Fault Refusal := .next (s.command 5 [base])

/-- QUEUE (R466). -/
def execQueue (base len : Word) (s : State) : Host.Outcome State Fault Refusal := .next (s.command 6 [base, len])

/-- MAILBOX_UNKNOWN (R466): a code written to MBCMD, the arguments as they stand. -/
def execMailboxUnknown (code : Byte) (s : State) : Host.Outcome State Fault Refusal := .next (s.command code [])

/-- MBSTAT (R465). -/
def Mailbox.stat (m : Mailbox) : Word :=
  BitVec.ofNat 64 (record [(m.result.toNat, 0), (m.busy.toNat, 8), (m.rej.toNat, 9), (m.bootstat.toNat, 16)])

/-- The 8 bytes of the mailbox's registers at an offset: zeros where there is none, and of MBCMD (R465). -/
def Mailbox.bytesAt (m : Mailbox) (o : Nat) : List Byte :=
  if 0x100 ≤ o ∧ o < 0x240 then (m.out.drop (o - 0x100)).take 8
  else if o = 0x28 then bytesOfNat 8 m.stat.toNat
  else if 8 ≤ o ∧ o < 0x28 ∧ o % 8 = 0 then bytesOfNat 8 (m.arg.toList.getD (o / 8 - 1) 0).toNat
  else List.replicate 8 0

/-- The host reads the mailbox (R465). -/
def State.readMail (s : State) (o : Nat) : State := { s with hostReply := .data (s.mailbox.bytesAt o) }

/-- The firmware loads the resident kernel: KMEAS is the digest of the image as it stands in module SRAM, under the kernel's
key, and stays so; a second load is refused (R463). Before the firmware runs there is no load (log 72). -/
def State.loadKernel (s : State) (pa len : Nat) : State :=
  if !s.fwvalid then s
  else if s.kvalid then { s with kload := some false }
  else
    let image := s.physRead (s.encOf 1 false pa) pa len
    { s with kvalid := true, kmeas := digestBits (shake256 (nats image) 64), kload := some true }

/-! ### The host port (R98, R467) -/

/-- A target is host-homed memory of this module. -/
def Target.hostHomed (t : Target) : Bool := t.module.isNone && kindOf t.pa = 2

/-- A store that has not been acknowledged: its strand, the unit that its record names, its target, and itself. -/
abbrev HostStore := Nat × Nat × Target × StorePart

/-- The stores to host-homed memory that are not acknowledged: in write buffers, in store queues, and at the host. -/
def State.hostStores (s : State) : List HostStore :=
  (s.ports.filter (·.host)).flatMap (fun p => match p.who with
    | .store u => p.parts.map fun e => (u, 0, p.target, e)
    | .elem u _ _ => p.parts.map fun e => (u, 1, p.target, e)
    | .helm _ | .fetch _ | .code _ _ | .late _ _ | .column _ _ | .drayman _ _ | .hint _ | .matrix _ | .stream _ _
    | .assayer _ | .cox | .fabric | .remote _ _ => [])
  ++ s.strands.flatMap (fun e => (e.2.writeBuffer.filter fun b => b.target.hostHomed).flatMap fun b =>
      b.parts.map fun p => (e.1, 0, b.target, p))
  ++ s.clusters.flatMap (fun e => (e.2.storeQueue.filter fun q => q.local?.isNone && q.target.hostHomed).flatMap fun q =>
      q.parts.map fun p => (q.uid, 1, q.target, p))

/-- The state without the stores to host-homed memory that are not acknowledged. -/
def State.dropHostStores (s : State) : State :=
  let keepPort (p : PortRequest) : Bool := !p.host || match p.who with
    | .store _ | .elem _ _ _ => false
    | .helm _ | .fetch _ | .code _ _ | .late _ _ | .column _ _ | .drayman _ _ | .hint _ | .matrix _ | .stream _ _
    | .assayer _ | .cox | .fabric | .remote _ _ => true
  let strand (e : Nat × Strand) : Nat × Strand :=
    (e.1, { e.2 with writeBuffer := e.2.writeBuffer.filter fun b => !b.target.hostHomed })
  let cluster (e : Nat × Cluster) : Nat × Cluster :=
    (e.1, { e.2 with storeQueue := e.2.storeQueue.filter fun q => q.local?.isSome || !q.target.hostHomed })
  { s with ports := s.ports.filter keepPort, strands := s.strands.map strand, clusters := s.clusters.map cluster }

/-- Stores that are not acknowledged at a host port reset are dropped, with the records of R98. -/
def State.detachStores (s : State) : State :=
  let l := s.hostStores
  let s := l.foldl (fun s e => s.detachedStore e.1 e.2.1 e.2.2.1 e.2.2.2) s.dropHostStores
  (l.map (·.1)).eraseDups.foldl (fun s u => s.reportDetached u) s

/-- Other requests outstanding at the host come back with HOST-DETACHED: a load's requester meets that class. -/
def detachAll : List PortRequest → State → State
  | [], s => s
  | p :: t, s => detachAll t ((s.dropPort p.id).deliver p.who p.target p.op p.parts .hostDetached)

/-- HOST_PORT_RESET (R98). -/
def execHostPortReset (s : State) : Host.Outcome State Fault Refusal :=
  let detach (e : Nat × Window) : Nat × Window := if e.2.state = 1 then ⟨e.1, { e.2 with state := 2 }⟩ else e
  let resets := (s.hpstat.extractLsb' 8 8).toNat + 1
  let s1 : State := { s with
    windows := s.windows.map detach, hostCache := []
    hpstat := BitVec.ofNat 64 ((s.hpstat.extractLsb' 1 1).toNat * 2 + resets % 256 * 256) }
  let s2 := s1.detachStores
  .next ((detachAll (s2.ports.filter (·.host)) s2).hostEvent 1).serveIncoming

/-- HOST_LINK_UP (R95, R467). -/
def execHostLinkUp (s : State) : Host.Outcome State Fault Refusal := .next (({ s with hpstat := s.hpstat ||| 1 }).hostEvent 5)

/-! ### Reset and heat (R6, R469) -/

/-- The physical address lies outside the module: in pooled or host-homed memory. -/
def outsideModule (pa : Nat) : Bool := kindOf pa = 1 || kindOf pa = 2

/-- The module after a reset: what lies outside it stays, and so does the fused minimum SVN (log 31). The model's counters
and agenda run on. -/
def State.afterReset (s : State) : State :=
  { State.reset with
    pmem := s.pmem.filter fun e => outsideModule e.1
    units := s.units.filter fun e => outsideModule (64 * e.1)
    physMarks := s.physMarks.filter fun u => outsideModule (64 * u)
    minSvn := s.minSvn, agenda := s.agenda, steps := s.steps, draws := s.draws }

/-- MODULE_RESET (R6). -/
def execModuleReset (s : State) : Host.Outcome State Fault Refusal := .next s.afterReset

/-- SHUTDOWN (R469): the module stops and holds reset until power-up. -/
def execShutdown (s : State) : Host.Outcome State Fault Refusal := .next { s.afterReset with stopped := true }

/-- THERMAL (R469): the firmware lowers the matrix issue rate and logs a record. -/
def execThermal (die : BitVec 6) (s : State) : Host.Outcome State Fault Refusal :=
  .next { (s.logError 0 9 0 (64 * die.toNat) 0 0 0 0).1 with slowMatrix := true }

/-! ### Errors (R448 to R456) -/

/-- Where a unit's marks are kept: among the local words, or among the physical units. -/
def unitPlace : MarkUnit → Sum Nat Nat
  | .tcm u w => .inl (tcmAddr u.toNat (8 * w.toNat) / 8)
  | .spad c w => .inl (spadAddr c.toNat (8 * w.toNat) / 8)
  | .phys u => .inr u.toNat

/-- A unit is marked. -/
def State.marked (s : State) (unit : MarkUnit) : Bool :=
  match (unitPlace unit) with
  | .inl w => s.localMarks.contains w
  | .inr u => s.physMarks.contains u

/-- A unit gets its mark (R448). -/
def State.mark (s : State) (unit : MarkUnit) : State :=
  match (unitPlace unit) with
  | .inl w => { s with localMarks := keyInsert s.localMarks w }
  | .inr u => { s with physMarks := keyInsert s.physMarks u }

/-- An error in the tag or the full/empty bit of a local line marks all of it and sets it full (R448). -/
def State.markLine (s : State) (unit : MarkUnit) : State :=
  match (unitPlace unit) with
  | .inl w =>
    let line := w / 16
    { s.markFull line with localMarks := (List.range 16).foldl (fun l i => keyInsert l (16 * line + i)) s.localMarks }
  | .inr u => { s with physMarks := keyInsert s.physMarks u }

/-- The physical address of a unit for error records, 0 for a local one, and its level (R455). -/
def State.unitRecord (s : State) : MarkUnit → Nat × Nat
  | .tcm _ _ => (0, 0)
  | .spad _ _ => (0, 1)
  | .phys u => (64 * u.toNat, s.levelOf ⟨none, 64 * u.toNat, 0, false, .default, 0, 7⟩)

/-- The strand number under which a record names the place of a unit. -/
def unitUid : MarkUnit → Nat
  | .tcm u _ => u.toNat
  | .spad c _ => 8 * c.toNat
  | .phys u => 64 * (u.toNat / 2 ^ 22 % 64)

/-- An error strikes the lower or the upper unit of a line of a die's pool cache (R448). -/
def State.strikePool (s : State) (die n : Nat) (upper : Bool) : State :=
  s.setPool die ((s.poolLines die).modify n fun l => { l with marks := keyInsert l.marks upper.toNat })

/-- The pool-cache line that holds a unit of pooled memory, in die SRAM: its die and its place in the list (R61). -/
def State.pooledUnit (s : State) : MarkUnit → Option (Nat × Nat)
  | .tcm _ _ | .spad _ _ => none
  | .phys u =>
    let die := homeDie (64 * u.toNat)
    ((s.poolLines die).findIdx? fun l => l.line = u.toNat / 2 && kindOf (64 * u.toNat) = 1).map fun i => (die, i)

/-- A unit carries a mark where the scrub reads it: a pooled unit in the pool cache. -/
def State.scrubMarked (s : State) (unit : MarkUnit) : Bool :=
  match s.pooledUnit unit, unit with
  | some (die, i), .phys u => (((s.poolLines die)[i]?).map fun l => l.marks.contains (u.toNat % 2)).getD false
  | _, _ => s.marked unit

/-- The scrub marks a unit where it reads it. -/
def State.scrubMark (s : State) (unit : MarkUnit) : State :=
  match s.pooledUnit unit, unit with
  | some (die, i), .phys u => s.strikePool die i (u.toNat % 2 = 1)
  | _, _ => s.mark unit

/-- The scrub has found an error in a unit: it is corrected, or marked; a mark that stands stays (R453). -/
def State.scrubUnit (s : State) (unit : MarkUnit) (bad : Bool) : State :=
  let (addr, level) := s.unitRecord unit
  if bad then
    let s1 := (s.logError addr 2 level (unitUid unit) 0 0 0 0).1
    ({ s1 with uecount := satInc s1.uecount }).scrubMark unit
  else
    let s1 := (s.logError addr 0 level (unitUid unit) 0 0 0 0).1
    { s1 with cecount := satInc s1.cecount }

/-- The walk that reads a unit, its length, and the unit's place in it: module SRAM of a die in units of 64 bytes, a
cluster's scratchpad and TCM in lines (R453). Units of a pool cache have no address in die SRAM: their walk is at any of
them at any time (log 105). -/
def scrubWalk : MarkUnit → Option (Nat × Nat × Nat)
  | .tcm u w => some (2 * (clusterOf u.toNat) + 65, 8192, u.toNat % 8 * 1024 + w.toNat / 16)
  | .spad c w => some (2 * c.toNat + 64, 65536, w.toNat / 16)
  | .phys u =>
    if kindOf (64 * u.toNat) = 0 then some (homeDie (64 * u.toNat), 0x300000, u.toNat % 2 ^ 22) else none

/-- How far the walk still is from a unit. -/
def State.scrubAhead (s : State) (walk len pos : Nat) : Nat := (pos + len - Tab.get 0 s.scrubAt walk) % len

/-- The walk and the place in it of a mark among the local words. -/
def markWalk (w : Nat) : Nat × Nat :=
  if w < 2 ^ 27 then (2 * (w / 2 ^ 17) + 65, w / 16 % 8192) else (2 * ((w - 2 ^ 27) / 2 ^ 20) + 64, w / 16 % 65536)

/-- The marks that the walk meets before it comes to a unit: it logs them first. -/
def State.scrubBlocked (s : State) (walk len pos : Nat) : Bool :=
  let near (k p : Nat) : Bool := k = walk && s.scrubAhead walk len p < s.scrubAhead walk len pos
  s.localMarks.any (fun w => near (markWalk w).1 (markWalk w).2) ||
    s.physMarks.any fun u => kindOf (64 * u) = 0 && near (homeDie (64 * u)) (u % 2 ^ 22)

/-- The scrub's next reading that finds an error may be of this unit: SCRUB is not 0, the unit lies in die SRAM, a
scratchpad or TCM, and its walk comes to it before it comes to a marked one. -/
def State.scrubReaches (s : State) (unit : MarkUnit) : Bool :=
  s.scrub != 0 && decide ((s.unitRecord unit).2 ≤ 3) && match scrubWalk unit with
    | some (walk, len, pos) => decide (pos < len) && !s.scrubBlocked walk len pos
    | none => true

/-- The units that one reading of the scrub covers: a line of TCM or of a scratchpad, a unit of die SRAM. -/
def scrubUnits : MarkUnit → List MarkUnit
  | .tcm u w => (List.range 16).map fun i => .tcm u (BitVec.ofNat 14 (w.toNat / 16 * 16 + i))
  | .spad c w => (List.range 16).map fun i => .spad c (BitVec.ofNat 20 (w.toNat / 16 * 16 + i))
  | .phys u => [.phys u]

/-- SCRUB (R453): the reading finds an error in a unit, and every marked unit of its line with it. The walk ascends and
wraps; the readings that it makes on the way there find nothing. -/
def execScrub (unit : MarkUnit) (uncorrectable : Bool) (s : State) : Host.Outcome State Fault Refusal :=
  if !s.scrubReaches unit then .next s
  else
    let step (s : State) (v : MarkUnit) : State :=
      if v = unit then s.scrubUnit v (uncorrectable || s.scrubMarked v)
      else if s.scrubMarked v then s.scrubUnit v true else s
    let s := (scrubUnits unit).foldl step s
    .next (match scrubWalk unit with
      | some (walk, len, pos) => { s with scrubAt := Tab.set s.scrubAt walk ((pos + 1) % len) }
      | none => s)

/-- An element of the accumulator store is struck: it is a poisoned element (R448). -/
def State.strikeAcc (s : State) (c i : Nat) : State :=
  s.modCluster c fun k => { k with acc := Tab.set k.acc i (BitVec.ofNat 32 ElemTy.f32.poison) }

/-- The lane group that holds a 32-bit slot of a strand's vector registers, or a lane's slice of its predicates; in
protected mode a lane group holds half as many of its elements (R170, R275). -/
def Strand.slotLane (t : Strand) (slot : Nat) : Nat := t.lanes.getD (slot / if t.protectedMode then 32 else 64) 0

/-- The elements that lie in a slot, in the type in force; none while it is illegal. -/
def Strand.slotElems (t : Strand) (slot : Nat) : List Nat :=
  match t.elemTy with
  | none => []
  | some ty =>
    let w := ElemTy.bits ty
    if w = 16 then [2 * slot, 2 * slot + 1] else if w = 64 then [slot / 2] else [slot]

/-- PMASK with the bits of some elements set. -/
def Strand.poisonBits (t : Strand) (elems : List Nat) : Strand :=
  { t with pmask := elems.foldl (fun p i => setBit p i true) t.pmask }

/-- A slot's elements as POISON of the type, with their PMASK bits (R452). -/
def Strand.loseSlot (t : Strand) (r : Reg) (slot : Nat) : Strand :=
  match t.elemTy with
  | none => t
  | some ty =>
    let elems := t.slotElems slot
    let put (x : BitVec 16384) : BitVec 16384 := elems.foldl (fun x i => setElem x (ElemTy.bits ty) i ty.poison) x
    { t with
      v := t.v.set r.toNat (put t.v[r.toNat])
      vMirror := t.vMirror.set r.toNat (put t.vMirror[r.toNat]) }.poisonBits elems

/-- The elements whose predicate bits lie in a lane's slice of 2 bits (R170). -/
def predElems (slot : Nat) : List Nat := [2 * slot, 2 * slot + 1]

/-- A predicate's slot is lost: its bits are free, because a predicate has no POISON, and their PMASK bits are set (R452,
log 71). -/
def Strand.losePred (t : Strand) (r : PReg) (slot : Nat) (bits : Word) : Strand :=
  let put (x : BitVec 1024) : BitVec 1024 := (List.range 2).foldl (fun x i => setBit x (2 * slot + i) (bits.getLsbD i)) x
  { t with
    p := t.p.set r.toNat (put t.p[r.toNat])
    pMirror := t.pMirror.set r.toNat (put t.pMirror[r.toNat]) }.poisonBits (predElems slot)

/-- A parity error in a slot of strand `u`'s registers (R452): rebuilt and logged, or lost, which leaves the strand `after`,
and logged; too many rebuilds of a lane group in one tick fence the cluster. The record names the oldest instruction that
reads: the first of the column queue, or the one that the helm issues next (log 106). -/
def State.slotError (s : State) (u lg elem : Nat) (lost : Bool) (after : Strand) : State :=
  let c := clusterOf u
  let ident := (((s.strand u).queue.head?).map (·.addr)).getD (s.strand u).pc
  if lost then
    let s := ((s.setStrand u after).logError 0 4 6 u lg 0 elem ident).1
    { s with uecount := satInc s.uecount }
  else
    let s := (s.logError 0 3 6 u lg 0 elem ident).1
    let n := Tab.get 0 (s.cluster c).rebuilds lg + 1
    let s := s.modCluster c fun k => { k with rebuilds := Tab.set k.rebuilds lg n }
    let s : State := { s with cecount := satInc s.cecount }
    if s.rebuildlim != 0 && s.rebuildlim.toNat < n then s.fenceCluster c else s

/-- A parity error in a slot of a vector register. -/
def State.parity (s : State) (u : Nat) (r : Reg) (slot : Nat) (lost : Bool) : State :=
  let t := s.strand u
  s.slotError u (t.slotLane slot) ((t.slotElems slot).headD 0) lost (t.loseSlot r slot)

/-- A parity error in a slot of a predicate; p0 has no storage. -/
def State.parityPred (s : State) (u : Nat) (r : PReg) (slot : Nat) (lost : Bool) : State :=
  if r = 0 then s
  else
    let t := s.strand u
    s.drawn.slotError u (t.slotLane slot) (2 * slot) lost
      (t.losePred r slot (Config.freeWord s.draws))

/-- A parity error in a line of a helm cache (R448): the line leaves, and one that was pinned is fetched again; it is logged
as CACHE and counted as corrected (log 71). `rest`: the cache without the line. -/
def State.cacheParity (s : State) (h : Nat) (code : Bool) (e : CacheLine) (rest : List CacheLine) : State :=
  let x := s.helm h
  let s := s.setHelm h (if code then { x with icache := rest } else { x with dcache := rest })
  let s := (s.logError (if e.module.isNone then 128 * e.line else 0) 8 7 (8 * (h / 4)) 0 0 0 0).1
  let s : State := { s with cecount := satInc s.cecount }
  if code && e.pinned then s.prefetchCode (2 * h) e.target 0 true else s

/-- Bits of an upper lane's copy of a slot flip (R275). -/
def State.laneFault (s : State) (u : Nat) (r : Reg) (slot : Nat) (bits : BitVec 32) : State :=
  let t := s.strand u
  let x := t.vMirror[r.toNat]
  s.setStrand u { t with vMirror := t.vMirror.set r.toNat (x ^^^ (bits.setWidth 16384 <<< (32 * slot))) }

/-- POOL_PORT_FAILURE (R63, R456): the port answers reads with poison and drops writes from now on. -/
def execPoolPortFailure (port : BitVec 3) (s : State) : Host.Outcome State Fault Refusal :=
  .next { s with poolPortsFailed := s.poolPortsFailed ||| ((1 : BitVec 8) <<< port.toNat) }

end Sys2Proof.Machine
end

