-- ==== Sys2Proof/Machine/SaveRestore.lean ====
section
/-!
DEFINITION. SAVEV, RESTV, SAVEK and RESTK, which move vector and column state to and from memory (R248 to R250), and
IDLE (R247).
-/

namespace Sys2Proof.Machine

/-! ### Layout (R248) -/

/-- 32-bit slots of a register in the grant and mode in force: 64 for each lane group, half in protected mode. -/
def Strand.slots (t : Strand) : Nat := if t.protectedMode then 32 * t.lanes.length else 64 * t.lanes.length

/-- Offset of the register blocks of an area of `S` slots. -/
def regsOffset (slots : Nat) : Nat := 64 + alignUp (15 * slots / 4) 64

/-- The registers whose bits a mask sets, in ascending order. -/
def maskedRegs (mask : Nat) (n : Nat) : List Nat := (List.range n).filter fun i => mask.testBit i

/-- The header of an area. -/
def Strand.header (t : Strand) (mask : BitVec 32) : List Byte :=
  bytesOfNat 4 t.slots ++ bytesOfNat 4 mask.toNat ++ bytesOfNat 4 t.vtype.toNat ++ bytesOfNat 4 t.vl ++
    List.replicate 48 0

/-- The predicates p1 to p15 of an area: 2S bits each. -/
def Strand.predBytes (t : Strand) : List Byte :=
  (List.range 15).flatMap fun i => bytesOfNat (t.slots / 4) ((t.readP (BitVec.ofNat 4 (i + 1))).toNat)

/-- The bytes of register `r` in an area. -/
def Strand.regBytes (t : Strand) (r : Nat) : List Byte := bytesOfNat (4 * t.slots) (t.v.getD r 0).toNat

/-- The strand with vector register `r` set to a value, and with its upper copy in protected mode. -/
def Strand.loadReg (t : Strand) (r : Nat) (x : BitVec 16384) : Strand :=
  { t with v := t.v.setIfInBounds r x, vMirror := if t.protectedMode then t.vMirror.setIfInBounds r x else t.vMirror }

/-- The strand with predicate `r` set, and its upper copy in protected mode. -/
def Strand.loadPred (t : Strand) (r : Nat) (x : BitVec 1024) : Strand :=
  { t with p := t.p.setIfInBounds r x, pMirror := if t.protectedMode then t.pMirror.setIfInBounds r x else t.pMirror }

/-- What SAVEV and RESTV wait for and check: an empty column queue, a legal vtype, an aligned base. -/
def areaStart (u : Nat) (base : Word) : M Unit := do
  queueEmptyM u
  let t ← getStrand u
  if t.vtype.getLsbD 4 then illegal u else pure ()
  needAligned base 64
  olderDone u

/-- Registers of a mask still to be moved, with spillcnt counting those done (R249). -/
def Strand.stillMasked (t : Strand) (mask : BitVec 32) : List Nat := (maskedRegs mask.toNat 32).drop t.spillcnt.toNat

/-- One more masked register is fully transferred; the answers kept for it are forgotten, so that a pre-emption may stop the
instruction here (R249). No line that the helm's data cache holds may answer a younger load (R248). -/
def countSpill (u : Nat) : M Unit := do
  modStrand u fun t => { t with spillcnt := t.spillcnt + 1 }
  dropData u
  modS (·.forget (.helm u))

/-- The end of a transfer: spillcnt is 0 and the answers kept are forgotten. -/
def endSpill (u : Nat) : M Unit := do
  modStrand u fun t => { t with spillcnt := 0 }
  modS (·.forget (.helm u))

/-- A transfer whose access traps has made the accesses before it: no line that the helm's data cache holds may answer a
younger load (R248). -/
def transfer (u : Nat) (body : M Unit) : M Unit := fun s =>
  match body s with
  | .error (.trap tr) s => .error (.trap tr) (s.dropData (helmOf u) noLine)
  | r => r

/-- Rank of register `r` among the registers of a mask. -/
def rankIn (mask r : Nat) : Nat := (maskedRegs mask r).length

/-- SAVEV (R248, R249). -/
def execSavev (xa : Reg) (mask : BitVec 32) (s : State) : Host.Outcome State Fault Refusal :=
  helmOp (fun u => do
    let base ← readX u xa
    areaStart u base
    let t ← getStrand u
    transfer u (do
      if t.spillcnt = 0 then do
        writeArea u base (t.header mask)
        writeArea u (base + 64) t.predBytes
      else pure ()
      forList (t.stillMasked mask) fun r => do
        writeArea u (base + BitVec.ofNat 64 (regsOffset t.slots + 4 * t.slots * rankIn mask.toNat r)) (t.regBytes r)
        countSpill u)
    dropData u
    endSpill u) s

/-- While `body` stops short, register `r` holds an undefined value (R249). -/
def inTransfer (u r : Nat) (body : M Unit) : M Unit := fun s =>
  match body s with
  | .ok x s => .ok x s
  | .error e s =>
    .error e { s.setStrand u ((s.strand u).loadReg r (Config.freeVec s.draws)) with draws := s.draws + 1 }

/-- The predicates that an area of `h` slots restores: bits below min(2h, 2 S_now); those above are cleared. -/
def restoredPred (bytes : List Byte) (h now i : Nat) : BitVec 1024 :=
  BitVec.ofNat 1024 (natOfBytes ((bytes.drop (h / 4 * i)).take (h / 4)) % 2 ^ (2 * min h now))

/-- S and the mask of the header of an area: RESTV reads it at spillcnt 0, and one that goes on after some registers has it
still (R249; log 95 where none is kept). -/
def areaHead (u : Nat) (base : Word) : M (Nat × Nat) := do
  let t ← getStrand u
  match t.kept.heads.find? fun e => t.spillcnt != 0 && e.1 = base with
  | some e => pure e.2
  | none => do
    let head ← readArea u base 64
    pure ⟨natOfBytes (head.take 4), natOfBytes ((head.drop 4).take 4)⟩

/-- The strand with the header of the RESTV at `base` kept, or none. -/
def Strand.keepHead (t : Strand) (base : Word) (e : Option (Nat × Nat)) : Strand :=
  let others := t.kept.heads.filter fun h => h.1 != base
  { t with kept := { t.kept with heads := (e.map fun e => (base, e)).toList ++ others } }

/-- RESTV (R248, R249). No line that the helm's data cache holds may answer a younger load. -/
def execRestv (xa : Reg) (mask : BitVec 32) (s : State) : Host.Outcome State Fault Refusal :=
  helmOp (fun u => do
    let base ← readX u xa
    areaStart u base
    let t ← getStrand u
    transfer u (do
      let (h, saved) ← areaHead u base
      if h ∈ [32, 64, 128, 256, 512] then pure () else do
        modS (·.forget (.helm u))
        trapWith 1 0 base
      if t.spillcnt = 0 then do
        let pb ← readArea u (base + 64) (15 * h / 4)
        modStrand u fun t => (List.range 15).foldl (fun t i => t.loadPred (i + 1) (restoredPred pb h t.slots i)) t
      else pure ()
      modStrand u (·.keepHead base (some (h, saved)))
      forList (t.stillMasked mask) fun r => do
        if saved.testBit r then
          inTransfer u r (do
            let l ← readArea u (base + BitVec.ofNat 64 (regsOffset h + 4 * h * rankIn saved r)) (4 * h)
            modStrand u fun t => t.loadReg r (BitVec.ofNat 16384 (natOfBytes l % 2 ^ (32 * min h t.slots))))
        else modStrand u fun t => t.loadReg r 0
        countSpill u)
    modStrand u (·.keepHead base none)
    dropData u
    endSpill u) s

/-- The area of SAVEK and RESTK: the record, then 32 bytes for each masked column register. -/
def columnArea (mask : BitVec 16) : Nat := 64 + 32 * (maskedRegs mask.toNat 16).length

/-- The start of SAVEK and RESTK (R250). -/
def columnStart (u : Nat) (acc : Acc) (base : Word) (mask : BitVec 16) : M Unit := do
  queueEmptyM u
  needAligned base 64
  olderDone u
  checkArea u acc base (columnArea mask)

/-- The record that SAVEK stores: the pending one, or zeros where none is pending (R250, R315). -/
def Strand.savedRecord (t : Strand) : BitVec 512 := if t.pendingRec.getLsbD 72 then t.pendingRec else 0

/-- SAVEK (R250). -/
def execSavek (xa : Reg) (mask : BitVec 16) (s : State) : Host.Outcome State Fault Refusal :=
  helmOp (fun u => do
    needKernel u
    let base ← readX u xa
    columnStart u .write base mask
    let t ← getStrand u
    writeArea u base (bytesOfNat 64 t.savedRecord.toNat ++
      (maskedRegs mask.toNat 16).flatMap fun i => bytesOfNat 32 (t.k.getD i 0).toNat)
    dropData u
    modS (·.forget (.helm u))) s

/-- A column descriptor without its reserved bits, which a write ignores (R5, R304). -/
def definedColumn (d : BitVec 256) : BitVec 256 := d &&& ~~~(((1 : BitVec 256) <<< 57 - 1) <<< 135)

/-- A continuation record without its reserved bits and with bits 2:0 of IADDR zero (R5, R315). -/
def definedRecord (r : BitVec 512) : BitVec 512 :=
  r &&& ~~~(7 ||| 1 <<< 75 ||| 0x3ff <<< 86 ||| ((1 : BitVec 512) <<< 192 - 1) <<< 320)

/-- Column registers of a list set from consecutive 32-byte images. -/
def loadColumns (l : List Byte) : List Nat → Vector (BitVec 256) 16 → Vector (BitVec 256) 16
  | [], k => k
  | i :: rest, k => loadColumns (l.drop 32) rest (k.setIfInBounds i (definedColumn (BitVec.ofNat 256 (natOfBytes (l.take 32)))))

/-- RESTK (R250). -/
def execRestk (xa : Reg) (mask : BitVec 16) (s : State) : Host.Outcome State Fault Refusal :=
  helmOp (fun u => do
    needKernel u
    let base ← readX u xa
    columnStart u .read base mask
    let l ← readArea u base (columnArea mask)
    modStrand u fun t =>
      { t with pendingRec := definedRecord (BitVec.ofNat 512 (natOfBytes (l.take 64)))
               k := loadColumns (l.drop 64) (maskedRegs mask.toNat 16) t.k }
    modS (·.forget (.helm u))) s

/-- IDLE (R247): the strand issues nothing more until an event, a pre-emption or a user-level interrupt is there. -/
def execIdle (s : State) : Host.Outcome State Fault Refusal :=
  helmOp (fun u => do
    needKernel u
    modStrand u fun t => { t with issue := .idle }) s

end Sys2Proof.Machine
end

