-- ==== Sys2Proof/Machine/Scalar.lean ====
section
/-!
DEFINITION. Scalar integer instructions (R224 to R226), scalar floating point (R227 to R229) and control flow (R230).
-/

namespace Sys2Proof.Machine

/-! ### Shared shapes -/

/-- A register form of two sources. -/
def alu2 (f : Word → Word → Word) (xd xa xb : Reg) (s : State) : Host.Outcome State Fault Refusal :=
  helmOp (fun u => do
    let a ← readX u xa
    let b ← readX u xb
    writeX u xd (f a b)) s

/-- A register form of one source. -/
def alu1 (f : Word → Word) (xd xa : Reg) (s : State) : Host.Outcome State Fault Refusal :=
  helmOp (fun u => do
    let a ← readX u xa
    writeX u xd (f a)) s

/-! ### Results (R224, R225) -/

/-- The high 64 bits of the signed product. -/
def mulhVal (a b : Word) : Word := BitVec.ofInt 64 (a.toInt * b.toInt / 2 ^ 64)

/-- The high 64 bits of the unsigned product. -/
def mulhuVal (a b : Word) : Word := BitVec.ofNat 64 (a.toNat * b.toNat / 2 ^ 64)

/-- Signed quotient, rounded toward zero; division by zero gives -1 and overflow gives -2^63 (R225). -/
def wordDiv (a b : Word) : Word := if b = 0 then BitVec.allOnes 64 else BitVec.ofInt 64 (a.toInt.tdiv b.toInt)

/-- Unsigned quotient; division by zero gives 2^64 - 1 (R225). -/
def divuVal (a b : Word) : Word := if b = 0 then BitVec.allOnes 64 else BitVec.ofNat 64 (a.toNat / b.toNat)

/-- Signed remainder, a - b x quotient (R224, R225). -/
def wordRem (a b : Word) : Word := if b = 0 then a else a - b * wordDiv a b

/-- Unsigned remainder (R224, R225). -/
def remuVal (a b : Word) : Word := if b = 0 then a else a - b * divuVal a b

/-- The shift count: bits 5:0 (R224). -/
def shiftCount (b : Word) : Nat := (b.extractLsb' 0 6).toNat

/-- Left shift. -/
def wordShl (a b : Word) : Word := a <<< shiftCount b
/-- Right shift with zeros. -/
def wordShr (a b : Word) : Word := a >>> shiftCount b
/-- Right shift with copies of bit 63. -/
def wordSra (a b : Word) : Word := a.sshiftRight (shiftCount b)

/-- 1 for true (R224). -/
def truth (b : Bool) : Word := if b then 1 else 0

/-- Leading zero bits, 0 to 64. -/
def clzVal (a : Word) : Word := BitVec.ofNat 64 (64 - bitLen a.toNat)

/-- The number of one bits. -/
def popcVal (a : Word) : Word := BitVec.ofNat 64 ((List.range 64).filter fun i => a.getLsbD i).length

/-! ### Integer instructions -/

/-- ADD (R224). -/
def execAdd (xd xa xb : Reg) (s : State) : Host.Outcome State Fault Refusal :=
  alu2 (fun a b => a + b) xd xa xb s

/-- SUB (R224). -/
def execSub (xd xa xb : Reg) (s : State) : Host.Outcome State Fault Refusal :=
  alu2 (fun a b => a - b) xd xa xb s

/-- MUL (R224). -/
def execMul (xd xa xb : Reg) (s : State) : Host.Outcome State Fault Refusal :=
  alu2 (fun a b => a * b) xd xa xb s

/-- MULH (R224). -/
def execMulh (xd xa xb : Reg) (s : State) : Host.Outcome State Fault Refusal :=
  alu2 mulhVal xd xa xb s

/-- MULHU (R224). -/
def execMulhu (xd xa xb : Reg) (s : State) : Host.Outcome State Fault Refusal :=
  alu2 mulhuVal xd xa xb s

/-- DIV (R224, R225). -/
def execDiv (xd xa xb : Reg) (s : State) : Host.Outcome State Fault Refusal :=
  alu2 wordDiv xd xa xb s

/-- DIVU (R224, R225). -/
def execDivu (xd xa xb : Reg) (s : State) : Host.Outcome State Fault Refusal :=
  alu2 divuVal xd xa xb s

/-- REM (R224, R225). -/
def execRem (xd xa xb : Reg) (s : State) : Host.Outcome State Fault Refusal :=
  alu2 wordRem xd xa xb s

/-- REMU (R224, R225). -/
def execRemu (xd xa xb : Reg) (s : State) : Host.Outcome State Fault Refusal :=
  alu2 remuVal xd xa xb s

/-- AND (R224). -/
def execAnd (xd xa xb : Reg) (s : State) : Host.Outcome State Fault Refusal :=
  alu2 (fun a b => a &&& b) xd xa xb s

/-- OR (R224). -/
def execOr (xd xa xb : Reg) (s : State) : Host.Outcome State Fault Refusal :=
  alu2 (fun a b => a ||| b) xd xa xb s

/-- XOR (R224). -/
def execXor (xd xa xb : Reg) (s : State) : Host.Outcome State Fault Refusal :=
  alu2 (fun a b => a ^^^ b) xd xa xb s

/-- SHL (R224). -/
def execShl (xd xa xb : Reg) (s : State) : Host.Outcome State Fault Refusal :=
  alu2 wordShl xd xa xb s

/-- SHR (R224). -/
def execShr (xd xa xb : Reg) (s : State) : Host.Outcome State Fault Refusal :=
  alu2 wordShr xd xa xb s

/-- SRA (R224). -/
def execSra (xd xa xb : Reg) (s : State) : Host.Outcome State Fault Refusal :=
  alu2 wordSra xd xa xb s

/-- SLT (R224). -/
def execSlt (xd xa xb : Reg) (s : State) : Host.Outcome State Fault Refusal :=
  alu2 (fun a b => truth (a.slt b)) xd xa xb s

/-- SLTU (R224). -/
def execSltu (xd xa xb : Reg) (s : State) : Host.Outcome State Fault Refusal :=
  alu2 (fun a b => truth (a.ult b)) xd xa xb s

/-- MIN (R224). -/
def execMin (xd xa xb : Reg) (s : State) : Host.Outcome State Fault Refusal :=
  alu2 (fun a b => if b.slt a then b else a) xd xa xb s

/-- MAX (R224). -/
def execMax (xd xa xb : Reg) (s : State) : Host.Outcome State Fault Refusal :=
  alu2 (fun a b => if a.slt b then b else a) xd xa xb s

/-- CLZ (R224). -/
def execClz (xd xa : Reg) (s : State) : Host.Outcome State Fault Refusal :=
  alu1 clzVal xd xa s

/-- POPC (R224). -/
def execPopc (xd xa : Reg) (s : State) : Host.Outcome State Fault Refusal :=
  alu1 popcVal xd xa s

/-- CSEL (R224): x[xa] where x[xc] is not 0, otherwise x[xb]. -/
def execCsel (xd xa xb xc : Reg) (s : State) : Host.Outcome State Fault Refusal :=
  helmOp (fun u => do
    let a ← readX u xa
    let b ← readX u xb
    let c ← readX u xc
    writeX u xd (if c = 0 then b else a)) s

/-- ADDI (R226). -/
def execAddi (xd xa : Reg) (imm : BitVec 32) (s : State) : Host.Outcome State Fault Refusal :=
  alu1 (fun a => a + immVal imm) xd xa s

/-- ANDI (R226). -/
def execAndi (xd xa : Reg) (imm : BitVec 32) (s : State) : Host.Outcome State Fault Refusal :=
  alu1 (fun a => a &&& immVal imm) xd xa s

/-- ORI (R226). -/
def execOri (xd xa : Reg) (imm : BitVec 32) (s : State) : Host.Outcome State Fault Refusal :=
  alu1 (fun a => a ||| immVal imm) xd xa s

/-- XORI (R226). -/
def execXori (xd xa : Reg) (imm : BitVec 32) (s : State) : Host.Outcome State Fault Refusal :=
  alu1 (fun a => a ^^^ immVal imm) xd xa s

/-- SHLI (R226). -/
def execShli (xd xa : Reg) (n : BitVec 6) (s : State) : Host.Outcome State Fault Refusal :=
  alu1 (fun a => a <<< n.toNat) xd xa s

/-- SHRI (R226). -/
def execShri (xd xa : Reg) (n : BitVec 6) (s : State) : Host.Outcome State Fault Refusal :=
  alu1 (fun a => a >>> n.toNat) xd xa s

/-- SRAI (R226). -/
def execSrai (xd xa : Reg) (n : BitVec 6) (s : State) : Host.Outcome State Fault Refusal :=
  alu1 (fun a => a.sshiftRight n.toNat) xd xa s

/-- LIMM (R226). -/
def execLimm (xd : Reg) (imm : BitVec 32) (s : State) : Host.Outcome State Fault Refusal :=
  helmOp (fun u => writeX u xd (immVal imm)) s

/-- ADDPC (R226): the address of the ADDPC itself plus the immediate. -/
def execAddpc (xd : Reg) (imm : BitVec 32) (s : State) : Host.Outcome State Fault Refusal :=
  helmOp (fun u => do
    let t ← getStrand u
    writeX u xd (t.pc + immVal imm)) s

/-! ### Scalar floating point (R227 to R229) -/

/-- The low bits of a register as a code of a type (R224). -/
def FTyCode (t : FTy) (w : Word) : Nat := w.toNat % 2 ^ (FTy.ffmt t).width

/-- A floating-point instruction: the result of `f` under mode.RM, zero-extended, and its flags. -/
def fpOp (xd : Reg) (r : M ((BitVec 2) → Nat × Flags)) (u : Nat) : M Unit := do
  let f ← r
  let t ← getStrand u
  let (v, fl) := f t.rm
  writeX u xd (BitVec.ofNat 64 v)
  raiseFlags u fl

/-- A floating-point instruction of two sources. -/
def fp2 (f : FFmt → BitVec 2 → Nat → Nat → Nat × Flags) (t : FTy) (xd xa xb : Reg) (s : State) :
    Host.Outcome State Fault Refusal :=
  helmOp (fun u => fpOp xd (do
    let a ← readX u xa
    let b ← readX u xb
    pure fun rm => f t.ffmt rm (FTyCode t a) (FTyCode t b)) u) s

/-- FADD (R227). -/
def execFadd (t : FTy) (xd xa xb : Reg) (s : State) : Host.Outcome State Fault Refusal :=
  fp2 FFmt.add t xd xa xb s

/-- FSUB (R227). -/
def execFsub (t : FTy) (xd xa xb : Reg) (s : State) : Host.Outcome State Fault Refusal :=
  fp2 FFmt.sub t xd xa xb s

/-- FMUL (R227). -/
def execFmul (t : FTy) (xd xa xb : Reg) (s : State) : Host.Outcome State Fault Refusal :=
  fp2 FFmt.mul t xd xa xb s

/-- FDIV (R227). -/
def execFdiv (t : FTy) (xd xa xb : Reg) (s : State) : Host.Outcome State Fault Refusal :=
  fp2 FFmt.div t xd xa xb s

/-- FMIN (R227). -/
def execFmin (t : FTy) (xd xa xb : Reg) (s : State) : Host.Outcome State Fault Refusal :=
  fp2 (fun f _ => f.minNum) t xd xa xb s

/-- FMAX (R227). -/
def execFmax (t : FTy) (xd xa xb : Reg) (s : State) : Host.Outcome State Fault Refusal :=
  fp2 (fun f _ => f.maxNum) t xd xa xb s

/-- FMA (R227): one rounding. -/
def execFma (t : FTy) (xd xa xb xc : Reg) (s : State) : Host.Outcome State Fault Refusal :=
  helmOp (fun u => fpOp xd (do
    let a ← readX u xa
    let b ← readX u xb
    let c ← readX u xc
    pure fun rm => t.ffmt.fma rm false (FTyCode t a) (FTyCode t b) (FTyCode t c)) u) s

/-- FSQRT (R227). -/
def execFsqrt (t : FTy) (xd xa : Reg) (s : State) : Host.Outcome State Fault Refusal :=
  helmOp (fun u => fpOp xd (do
    let a ← readX u xa
    pure fun rm => t.ffmt.sqrt rm (FTyCode t a)) u) s

/-- FCMP (R228). -/
def execFcmp (t : FTy) (c : Cond) (xd xa xb : Reg) (s : State) : Host.Outcome State Fault Refusal :=
  helmOp (fun u => fpOp xd (do
    let a ← readX u xa
    let b ← readX u xb
    pure fun _ =>
      let (h, fl) := t.ffmt.cond c (FTyCode t a) (FTyCode t b)
      (h.toNat, fl)) u) s

end Sys2Proof.Machine

namespace Sys2Proof

/-- The binary format of a conversion type, none for the integer types (R186). -/
def CvtTy.ffmt : CvtTy → Option Machine.FFmt
  | .f32 => some .f32
  | .bf16 => some .bf16
  | .i32 | .u32 | .i64 | .u64 => none

/-- The range of an integer conversion type. -/
def CvtTy.range : CvtTy → Int × Int
  | .i32 => (Machine.sMin 32, Machine.sMax 32)
  | .u32 => (0, 2 ^ 32 - 1)
  | .i64 => (Machine.sMin 64, Machine.sMax 64)
  | .u64 => (0, 2 ^ 64 - 1)
  | .f32 | .bf16 => (0, 0)

/-- A register as the integer that a source code reads (R229). -/
def CvtTy.readInt (t : CvtTy) (w : Word) : Int :=
  match t with
  | .i32 => Machine.sintOf 32 w.toNat
  | .u32 => (w.toNat % 2 ^ 32 : Nat)
  | .i64 => w.toInt
  | .u64 => w.toNat
  | .f32 | .bf16 => 0

end Sys2Proof

namespace Sys2Proof.Machine

/-- An integer as a destination register holds it (R229). -/
def intResult (i : Int) : Word := BitVec.ofInt 64 i

end Sys2Proof.Machine

namespace Sys2Proof

/-- The integer that a poison source gives (R229): only .i32 and .u32 differ in width. -/
def CvtTy.poisonInt : CvtTy → Word
  | .i32 | .u32 => 0x80000000
  | .i64 | .u64 => 0x8000000000000000
  | .f32 | .bf16 => 0

end Sys2Proof

namespace Sys2Proof.Machine

/-- FCVT on a register value (R229): result and flags. -/
def cvtVal (dst src : CvtTy) (rm : BitVec 2) (w : Word) : Word × Flags :=
  match src.ffmt, dst.ffmt with
  | some f, some g =>
    let (v, fl) := f.convert g rm (w.toNat % 2 ^ f.width)
    (BitVec.ofNat 64 v, fl)
  | some f, none =>
    let code := w.toNat % 2 ^ f.width
    if f.isPoison code then
      (match dst with
        | .i32 => BitVec.signExtend 64 (0x80000000 : BitVec 32)
        | .u32 | .i64 | .u64 | .f32 | .bf16 => dst.poisonInt, 0)
    else
      let (lo, hi) := dst.range
      let (i, fl) := (f.decode code).toInt rm lo hi
      (intResult i, fl)
  | none, some g =>
    let (v, fl) := g.ofInt rm (src.readInt w)
    (BitVec.ofNat 64 v, fl)
  | none, none =>
    let (lo, hi) := dst.range
    let (i, fl) := satInt (src.readInt w) lo hi Flags.iov
    (intResult i, fl)

/-- FCVT (R229). -/
def execFcvt (dst src : CvtTy) (xd xa : Reg) (s : State) : Host.Outcome State Fault Refusal :=
  helmOp (fun u => do
    let a ← readX u xa
    let t ← getStrand u
    let (v, fl) := cvtVal dst src t.rm a
    writeX u xd v
    raiseFlags u fl) s

/-! ### Control flow (R230) -/

/-- BR (R230). -/
def execBr (off : BitVec 32) (s : State) : Host.Outcome State Fault Refusal :=
  helmJump (fun u => do
    let t ← getStrand u
    pure (branchTarget t.pc off)) s

/-- BCMP (R187, R230). -/
def execBcmp (c : Cond) (xa xb : Reg) (off : BitVec 32) (s : State) : Host.Outcome State Fault Refusal :=
  helmJump (fun u => do
    let a ← readX u xa
    let b ← readX u xb
    let t ← getStrand u
    pure (if intCond 64 false c a b then branchTarget t.pc off else t.pc + 8)) s

/-- CALL (R230). -/
def execCall (xd : Reg) (off : BitVec 32) (s : State) : Host.Outcome State Fault Refusal :=
  helmJump (fun u => do
    let t ← getStrand u
    writeX u xd (t.pc + 8)
    pure (branchTarget t.pc off)) s

/-- RET (R230). -/
def execRet (xa : Reg) (s : State) : Host.Outcome State Fault Refusal :=
  helmJump (fun u => do
    let a ← readX u xa
    checkedTarget a) s

/-- JMP (R230). -/
def execJmp (xa : Reg) (off : BitVec 32) (s : State) : Host.Outcome State Fault Refusal :=
  helmJump (fun u => do
    let a ← readX u xa
    checkedTarget (offsetAddr a off)) s

end Sys2Proof.Machine
end

