-- ==== Sys2Proof/Machine/Dispatch.lean ====
section
/-!
DEFINITION. The dispatch of every row of the opcode table to its meaning.
-/

namespace Sys2Proof.Machine

/-- The meaning of an instruction that strand `s.cur` issues from its helm, or of a step of another agent. -/
def exec (i : Instr) (s : State) : Host.Outcome State Fault Refusal :=
  match i with
  | .add xd xa xb => Sys2Proof.Machine.execAdd xd xa xb s
  | .sub xd xa xb => Sys2Proof.Machine.execSub xd xa xb s
  | .mul xd xa xb => Sys2Proof.Machine.execMul xd xa xb s
  | .mulh xd xa xb => Sys2Proof.Machine.execMulh xd xa xb s
  | .mulhu xd xa xb => Sys2Proof.Machine.execMulhu xd xa xb s
  | .div xd xa xb => Sys2Proof.Machine.execDiv xd xa xb s
  | .divu xd xa xb => Sys2Proof.Machine.execDivu xd xa xb s
  | .rem xd xa xb => Sys2Proof.Machine.execRem xd xa xb s
  | .remu xd xa xb => Sys2Proof.Machine.execRemu xd xa xb s
  | .and xd xa xb => Sys2Proof.Machine.execAnd xd xa xb s
  | .or xd xa xb => Sys2Proof.Machine.execOr xd xa xb s
  | .xor xd xa xb => Sys2Proof.Machine.execXor xd xa xb s
  | .shl xd xa xb => Sys2Proof.Machine.execShl xd xa xb s
  | .shr xd xa xb => Sys2Proof.Machine.execShr xd xa xb s
  | .sra xd xa xb => Sys2Proof.Machine.execSra xd xa xb s
  | .slt xd xa xb => Sys2Proof.Machine.execSlt xd xa xb s
  | .sltu xd xa xb => Sys2Proof.Machine.execSltu xd xa xb s
  | .min xd xa xb => Sys2Proof.Machine.execMin xd xa xb s
  | .max xd xa xb => Sys2Proof.Machine.execMax xd xa xb s
  | .clz xd xa => Sys2Proof.Machine.execClz xd xa s
  | .popc xd xa => Sys2Proof.Machine.execPopc xd xa s
  | .csel xd xa xb xc => Sys2Proof.Machine.execCsel xd xa xb xc s
  | .addi xd xa imm => Sys2Proof.Machine.execAddi xd xa imm s
  | .andi xd xa imm => Sys2Proof.Machine.execAndi xd xa imm s
  | .ori xd xa imm => Sys2Proof.Machine.execOri xd xa imm s
  | .xori xd xa imm => Sys2Proof.Machine.execXori xd xa imm s
  | .shli xd xa n => Sys2Proof.Machine.execShli xd xa n s
  | .shri xd xa n => Sys2Proof.Machine.execShri xd xa n s
  | .srai xd xa n => Sys2Proof.Machine.execSrai xd xa n s
  | .limm xd imm => Sys2Proof.Machine.execLimm xd imm s
  | .addpc xd imm => Sys2Proof.Machine.execAddpc xd imm s
  | .fadd t xd xa xb => Sys2Proof.Machine.execFadd t xd xa xb s
  | .fsub t xd xa xb => Sys2Proof.Machine.execFsub t xd xa xb s
  | .fmul t xd xa xb => Sys2Proof.Machine.execFmul t xd xa xb s
  | .fma t xd xa xb xc => Sys2Proof.Machine.execFma t xd xa xb xc s
  | .fdiv t xd xa xb => Sys2Proof.Machine.execFdiv t xd xa xb s
  | .fsqrt t xd xa => Sys2Proof.Machine.execFsqrt t xd xa s
  | .fmin t xd xa xb => Sys2Proof.Machine.execFmin t xd xa xb s
  | .fmax t xd xa xb => Sys2Proof.Machine.execFmax t xd xa xb s
  | .fcmp t c xd xa xb => Sys2Proof.Machine.execFcmp t c xd xa xb s
  | .fcvt dst src xd xa => Sys2Proof.Machine.execFcvt dst src xd xa s
  | .br off => Sys2Proof.Machine.execBr off s
  | .bcmp c xa xb off => Sys2Proof.Machine.execBcmp c xa xb off s
  | .call xd off => Sys2Proof.Machine.execCall xd off s
  | .ret xa => Sys2Proof.Machine.execRet xa s
  | .jmp xa off => Sys2Proof.Machine.execJmp xa off s
  | .ld size sgn xd xa off => Sys2Proof.Machine.execLd size sgn xd xa off s
  | .ldIndexed size sgn xd xa xb => Sys2Proof.Machine.execLdIndexed size sgn xd xa xb s
  | .st size xd xa off => Sys2Proof.Machine.execSt size xd xa off s
  | .stIndexed size xd xa xb => Sys2Proof.Machine.execStIndexed size xd xa xb s
  | .amo op size scope order xd xa xb => Sys2Proof.Machine.execAmo op size scope order xd xa xb s
  | .cas size scope order xd xa xb => Sys2Proof.Machine.execCas size scope order xd xa xb s
  | .setvl t xd src => Sys2Proof.Machine.execSetvl t xd src s
  | .setvt t => Sys2Proof.Machine.execSetvt t s
  | .vfold vd va f => Sys2Proof.Machine.execVfold vd va f s
  | .vadd k u sat vd va vb => Sys2Proof.Machine.execVadd k u sat vd va vb s
  | .vaddX k u sat vd va xb => Sys2Proof.Machine.execVaddX k u sat vd va xb s
  | .vaddI k u sat vd va imm => Sys2Proof.Machine.execVaddI k u sat vd va imm s
  | .vsub k u sat vd va vb => Sys2Proof.Machine.execVsub k u sat vd va vb s
  | .vsubX k u sat vd va xb => Sys2Proof.Machine.execVsubX k u sat vd va xb s
  | .vmul k u h vd va vb => Sys2Proof.Machine.execVmul k u h vd va vb s
  | .vmulX k u h vd va xb => Sys2Proof.Machine.execVmulX k u h vd va xb s
  | .vfma k vd va vb vc => Sys2Proof.Machine.execVfma k vd va vb vc s
  | .vfmaX k vd va xb vc => Sys2Proof.Machine.execVfmaX k vd va xb vc s
  | .vfms k vd va vb vc => Sys2Proof.Machine.execVfms k vd va vb vc s
  | .vfmsX k vd va xb vc => Sys2Proof.Machine.execVfmsX k vd va xb vc s
  | .vdiv k u vd va vb => Sys2Proof.Machine.execVdiv k u vd va vb s
  | .vsqrt k vd va => Sys2Proof.Machine.execVsqrt k vd va s
  | .vrcp k vd va => Sys2Proof.Machine.execVrcp k vd va s
  | .vrsq k vd va => Sys2Proof.Machine.execVrsq k vd va s
  | .vexp2 k vd va => Sys2Proof.Machine.execVexp2 k vd va s
  | .vlog2 k vd va => Sys2Proof.Machine.execVlog2 k vd va s
  | .vmin k u vd va vb => Sys2Proof.Machine.execVmin k u vd va vb s
  | .vminX k u vd va xb => Sys2Proof.Machine.execVminX k u vd va xb s
  | .vmax k u vd va vb => Sys2Proof.Machine.execVmax k u vd va vb s
  | .vmaxX k u vd va xb => Sys2Proof.Machine.execVmaxX k u vd va xb s
  | .vabs k vd va => Sys2Proof.Machine.execVabs k vd va s
  | .vneg k vd va => Sys2Proof.Machine.execVneg k vd va s
  | .vand k vd va vb => Sys2Proof.Machine.execVand k vd va vb s
  | .vandX k vd va xb => Sys2Proof.Machine.execVandX k vd va xb s
  | .vandI k vd va imm => Sys2Proof.Machine.execVandI k vd va imm s
  | .vor k vd va vb => Sys2Proof.Machine.execVor k vd va vb s
  | .vorX k vd va xb => Sys2Proof.Machine.execVorX k vd va xb s
  | .vorI k vd va imm => Sys2Proof.Machine.execVorI k vd va imm s
  | .vxor k vd va vb => Sys2Proof.Machine.execVxor k vd va vb s
  | .vxorX k vd va xb => Sys2Proof.Machine.execVxorX k vd va xb s
  | .vxorI k vd va imm => Sys2Proof.Machine.execVxorI k vd va imm s
  | .vshl k vd va vb => Sys2Proof.Machine.execVshl k vd va vb s
  | .vshlX k vd va xb => Sys2Proof.Machine.execVshlX k vd va xb s
  | .vshlI k vd va n => Sys2Proof.Machine.execVshlI k vd va n s
  | .vshr k vd va vb => Sys2Proof.Machine.execVshr k vd va vb s
  | .vshrX k vd va xb => Sys2Proof.Machine.execVshrX k vd va xb s
  | .vshrI k vd va n => Sys2Proof.Machine.execVshrI k vd va n s
  | .vsra k vd va vb => Sys2Proof.Machine.execVsra k vd va vb s
  | .vsraX k vd va xb => Sys2Proof.Machine.execVsraX k vd va xb s
  | .vsraI k vd va n => Sys2Proof.Machine.execVsraI k vd va n s
  | .vcvt k t vd va => Sys2Proof.Machine.execVcvt k t vd va s
  | .vcmp k c pd pe va vb => Sys2Proof.Machine.execVcmp k c pd pe va vb s
  | .vsel k vd va vb pe => Sys2Proof.Machine.execVsel k vd va vb pe s
  | .vmov k vd va => Sys2Proof.Machine.execVmov k vd va s
  | .vmvxToScalar k xd va ix => Sys2Proof.Machine.execVmvxToScalar k xd va ix s
  | .vmvxToVector k vd xa ix => Sys2Proof.Machine.execVmvxToVector k vd xa ix s
  | .vred k op tree xd va => Sys2Proof.Machine.execVred k op tree xd va s
  | .vslide k down vd va amt => Sys2Proof.Machine.execVslide k down vd va amt s
  | .vperm k vd va vb => Sys2Proof.Machine.execVperm k vd va vb s
  | .viota k vd => Sys2Proof.Machine.execViota k vd s
  | .pand k pd pe pf => Sys2Proof.Machine.execPand k pd pe pf s
  | .por k pd pe pf => Sys2Proof.Machine.execPor k pd pe pf s
  | .pxor k pd pe pf => Sys2Proof.Machine.execPxor k pd pe pf s
  | .pandn k pd pe pf => Sys2Proof.Machine.execPandn k pd pe pf s
  | .pset k pd n => Sys2Proof.Machine.execPset k pd n s
  | .pcnt k xd pe => Sys2Proof.Machine.execPcnt k xd pe s
  | .pfirst k xd pe => Sys2Proof.Machine.execPfirst k xd pe s
  | .pmov k pd pe => Sys2Proof.Machine.execPmov k pd pe s
  | .vld k m vd xa off => Sys2Proof.Machine.execVld k m vd xa off s
  | .vldStrided k m vd xa xb off => Sys2Proof.Machine.execVldStrided k m vd xa xb off s
  | .vst k m vs xa off => Sys2Proof.Machine.execVst k m vs xa off s
  | .vstStrided k m vs xa xb off => Sys2Proof.Machine.execVstStrided k m vs xa xb off s
  | .vldff k m vd xa off => Sys2Proof.Machine.execVldff k m vd xa off s
  | .vgath k m vd xa vi off => Sys2Proof.Machine.execVgath k m vd xa vi off s
  | .vscat k m vs xa vi off => Sys2Proof.Machine.execVscat k m vs xa vi off s
  | .vscadd k m vs xa vi off => Sys2Proof.Machine.execVscadd k m vs xa vi off s
  | .vldb k m vd xa vsc off => Sys2Proof.Machine.execVldb k m vd xa vsc off s
  | .vstb k m vs xa vsc off => Sys2Proof.Machine.execVstb k m vs xa vsc off s
  | .vldz k m vd xd xa xb bank => Sys2Proof.Machine.execVldz k m vd xd xa xb bank s
  | .ctab bank xa off => Sys2Proof.Machine.execCtab bank xa off s
  | .vcompress k vd va pe => Sys2Proof.Machine.execVcompress k vd va pe s
  | .vexpand k vd va pe => Sys2Proof.Machine.execVexpand k vd va pe s
  | .vpcnt k vd pe => Sys2Proof.Machine.execVpcnt k vd pe s
  | .vconf k vd va => Sys2Proof.Machine.execVconf k vd va s
  | .vscan k op excl vd va pe => Sys2Proof.Machine.execVscan k op excl vd va pe s
  | .vlut k vd va vb => Sys2Proof.Machine.execVlut k vd va vb s
  | .vbfx k vd va x w1 => Sys2Proof.Machine.execVbfx k vd va x w1 s
  | .vexit k pd pe => Sys2Proof.Machine.execVexit k pd pe s
  | .fence scope order => Sys2Proof.Machine.execFence scope order s
  | .lsync => Sys2Proof.Machine.execLsync s
  | .pfence => Sys2Proof.Machine.execPfence s
  | .bar gang => Sys2Proof.Machine.execBar gang s
  | .barw gang => Sys2Proof.Machine.execBarw gang s
  | .waitd n v => Sys2Proof.Machine.execWaitd n v s
  | .claim scope xd xa xb => Sys2Proof.Machine.execClaim scope xd xa xb s
  | .signal xa xb => Sys2Proof.Machine.execSignal xa xb s
  | .kdef kd xa off => Sys2Proof.Machine.execKdef kd xa off s
  | .klen xd ka => Sys2Proof.Machine.execKlen xd ka s
  | .klenSet kd xa => Sys2Proof.Machine.execKlenSet kd xa s
  | .ksel c kd xd ka xa => Sys2Proof.Machine.execKsel c kd xd ka xa s
  | .kselp c kd xd ka kb => Sys2Proof.Machine.execKselp c kd xd ka kb s
  | .kjoin kd kc xd ka kb => Sys2Proof.Machine.execKjoin kd kc xd ka kb s
  | .kmjoin kd kc xd ka kb => Sys2Proof.Machine.execKmjoin kd kc xd ka kb s
  | .ksemi kd xd ka kb => Sys2Proof.Machine.execKsemi kd xd ka kb s
  | .ksemiAnti kd xd ka kb => Sys2Proof.Machine.execKsemiAnti kd xd ka kb s
  | .kgroup kd kc xd ka => Sys2Proof.Machine.execKgroup kd kc xd ka s
  | .kagg op kd xd ka kb => Sys2Proof.Machine.execKagg op kd xd ka kb s
  | .ksort kd xd ka => Sys2Proof.Machine.execKsort kd xd ka s
  | .ktopk least kd xd ka xa => Sys2Proof.Machine.execKtopk least kd xd ka xa s
  | .kgath kd xd ka => Sys2Proof.Machine.execKgath kd xd ka s
  | .kcat kd xd ka kb => Sys2Proof.Machine.execKcat kd xd ka kb s
  | .kbind n ka => Sys2Proof.Machine.execKbind n ka s
  | .kbindAppend n ka => Sys2Proof.Machine.execKbindAppend n ka s
  | .kunbind n => Sys2Proof.Machine.execKunbind n s
  | .mattach xa => Sys2Proof.Machine.execMattach xa s
  | .mdetach => Sys2Proof.Machine.execMdetach s
  | .mzero => Sys2Proof.Machine.execMzero s
  | .mma fa fb xa xb row n1 kk => Sys2Proof.Machine.execMma fa fb xa xb row n1 kk s
  | .mmag xa xb => Sys2Proof.Machine.execMmag xa xb s
  | .mmas fa fb pat za xa xb xc row n1 kk => Sys2Proof.Machine.execMmas fa fb pat za xa xb xc row n1 kk s
  | .mext k b e m vd xa row col => Sys2Proof.Machine.execMext k b e m vd xa row col s
  | .glaunch xa xb xc => Sys2Proof.Machine.execGlaunch xa xb xc s
  | .assay xa => Sys2Proof.Machine.execAssay xa s
  | .gend => Sys2Proof.Machine.execGend s
  | .dcfg xa xb => Sys2Proof.Machine.execDcfg xa xb s
  | .dcopy a => Sys2Proof.Machine.execDcopy a s
  | .dcopy2d a => Sys2Proof.Machine.execDcopy2d a s
  | .dred op ordered xd xa xb xc d u off => Sys2Proof.Machine.execDred op ordered xd xa xb xc d u off s
  | .dpref xa xb xc => Sys2Proof.Machine.execDpref xa xb xc s
  | .dstat sel xd => Sys2Proof.Machine.execDstat sel xd s
  | .dcancel xa => Sys2Proof.Machine.execDcancel xa s
  | .launch xd xa xb => Sys2Proof.Machine.execLaunch xd xa xb s
  | .yield => Sys2Proof.Machine.execYield s
  | .tickw xd => Sys2Proof.Machine.execTickw xd s
  | .tqctlExit xd xa xb => Sys2Proof.Machine.execTqctlExit xd xa xb s
  | .tqctlStat xd xa xb => Sys2Proof.Machine.execTqctlStat xd xa xb s
  | .tqctlStop xd xa xb => Sys2Proof.Machine.execTqctlStop xd xa xb s
  | .tqctlStart xd xa xb => Sys2Proof.Machine.execTqctlStart xd xa xb s
  | .tqctlKill xd xa xb => Sys2Proof.Machine.execTqctlKill xd xa xb s
  | .tqctlPeriod xd xa xb => Sys2Proof.Machine.execTqctlPeriod xd xa xb s
  | .trap n => Sys2Proof.Machine.execTrap n s
  | .eret => Sys2Proof.Machine.execEret s
  | .uiret => Sys2Proof.Machine.execUiret s
  | .csrr xd csr => Sys2Proof.Machine.execCsrr xd csr s
  | .csrw xd xa csr => Sys2Proof.Machine.execCsrw xd xa csr s
  | .csrs xd xa csr => Sys2Proof.Machine.execCsrs xd xa csr s
  | .csrc xd xa csr => Sys2Proof.Machine.execCsrc xd xa csr s
  | .fencei => Sys2Proof.Machine.execFencei s
  | .ipref xa xb off => Sys2Proof.Machine.execIpref xa xb off s
  | .ipin xa xb off => Sys2Proof.Machine.execIpin xa xb off s
  | .iunpin xa xb off => Sys2Proof.Machine.execIunpin xa xb off s
  | .tlbinv scope f xa xb => Sys2Proof.Machine.execTlbinv scope f xa xb s
  | .idle => Sys2Proof.Machine.execIdle s
  | .savev xa mask => Sys2Proof.Machine.execSavev xa mask s
  | .restv xa mask => Sys2Proof.Machine.execRestv xa mask s
  | .savek xa mask => Sys2Proof.Machine.execSavek xa mask s
  | .restk xa mask => Sys2Proof.Machine.execRestk xa mask s
  | .controlRegisterWrite uid off v => Sys2Proof.Machine.execControlRegisterWrite uid off v s
  | .keygo uid v => Sys2Proof.Machine.execKeygo uid v s
  | .poolcszWrite uid v => Sys2Proof.Machine.execPoolcszWrite uid v s
  | .pcflush uid => Sys2Proof.Machine.execPcflush uid s
  | .pcflushOwner uid owner => Sys2Proof.Machine.execPcflushOwner uid owner s
  | .fqresume uid ident => Sys2Proof.Machine.execFqresume uid ident s
  | .fqabort uid ident => Sys2Proof.Machine.execFqabort uid ident s
  | .plctlGo uid withdraw entering => Sys2Proof.Machine.execPlctlGo uid withdraw entering s
  | .grantWindowLive uid w => Sys2Proof.Machine.execGrantWindowLive uid w s
  | .grantWindowFree uid w => Sys2Proof.Machine.execGrantWindowFree uid w s
  | .hevack uid v => Sys2Proof.Machine.execHevack uid v s
  | .fenceCluster uid cid => Sys2Proof.Machine.execFenceCluster uid cid s
  | .pdone uid window => Sys2Proof.Machine.execPdone uid window s
  | .reshape uid window v => Sys2Proof.Machine.execReshape uid window v s
  | .boot => Sys2Proof.Machine.execBoot s
  | .attest a0 a1 a2 a3 => Sys2Proof.Machine.execAttest a0 a1 a2 a3 s
  | .idkey => Sys2Proof.Machine.execIdkey s
  | .grant base len => Sys2Proof.Machine.execGrant base len s
  | .withdraw base => Sys2Proof.Machine.execWithdraw base s
  | .queue base len => Sys2Proof.Machine.execQueue base len s
  | .mailboxUnknown code => Sys2Proof.Machine.execMailboxUnknown code s
  | .bootWindowAccess off data => Sys2Proof.Machine.execBootWindowAccess off data s
  | .moduleReset => Sys2Proof.Machine.execModuleReset s
  | .hostPortReset => Sys2Proof.Machine.execHostPortReset s
  | .hostLinkUp => Sys2Proof.Machine.execHostLinkUp s
  | .hostSnoop line => Sys2Proof.Machine.execHostSnoop line s
  | .flitCrcRetry plane link => Sys2Proof.Machine.execFlitCrcRetry plane link s
  | .linkDown plane link => Sys2Proof.Machine.execLinkDown plane link s
  | .replay req fromPlane fromLink => Sys2Proof.Machine.execReplay req fromPlane fromLink s
  | .planeLost plane => Sys2Proof.Machine.execPlaneLost plane s
  | .remoteRequest req => Sys2Proof.Machine.execRemoteRequest req s
  | .remoteResponse source tag reply view => Sys2Proof.Machine.execRemoteResponse source tag reply view s
  | .redrawn source tag view => Sys2Proof.Machine.execRedrawn source tag view s
  | .returnUndelivered tag doubtful failure => Sys2Proof.Machine.execReturnUndelivered tag doubtful failure s
  | .probeRetry target answer => Sys2Proof.Machine.execProbeRetry target answer s
  | .groupUnreachable tag => Sys2Proof.Machine.execGroupUnreachable tag s
  | .responseDrop dest tag => Sys2Proof.Machine.execResponseDrop dest tag s
  | .easyallEnd => Sys2Proof.Machine.execEasyallEnd s
  | .foldStrip strip => Sys2Proof.Machine.execFoldStrip strip s
  | .foldRelease source ident => Sys2Proof.Machine.execFoldRelease source ident s
  | .foldEntryTimeout entry => Sys2Proof.Machine.execFoldEntryTimeout entry s
  | .foldStripRetry tag => Sys2Proof.Machine.execFoldStripRetry tag s
  | .tick => Sys2Proof.Machine.execTick s
  | .victimsStopped => Sys2Proof.Machine.execVictimsStopped s
  | .preempt uid reason => Sys2Proof.Machine.execPreempt uid reason s
  | .stripStopBound uid => Sys2Proof.Machine.execStripStopBound uid s
  | .reshapeExpire uid => Sys2Proof.Machine.execReshapeExpire uid s
  | .resume queue => Sys2Proof.Machine.execResume queue s
  | .progress uid => Sys2Proof.Machine.execProgress uid s
  | .userInterrupt uid => Sys2Proof.Machine.execUserInterrupt uid s
  | .hostEvent uid => Sys2Proof.Machine.execHostEvent uid s
  | .machineCheck uid => Sys2Proof.Machine.execMachineCheck uid s
  | .evwaitExpire => Sys2Proof.Machine.execEvwaitExpire s
  | .writeBufferDrain uid => Sys2Proof.Machine.execWriteBufferDrain uid s
  | .dataCacheExpire helm line => Sys2Proof.Machine.execDataCacheExpire helm line s
  | .scrub unit uncorrectable => Sys2Proof.Machine.execScrub unit uncorrectable s
  | .thermal die => Sys2Proof.Machine.execThermal die s
  | .shutdown => Sys2Proof.Machine.execShutdown s
  | .poolPortFailure port => Sys2Proof.Machine.execPoolPortFailure port s
  | .draymanSector cid => Sys2Proof.Machine.execDraymanSector cid s
  | .draymanComplete cid => Sys2Proof.Machine.execDraymanComplete cid s
  | .dcfgStripFetch uid => Sys2Proof.Machine.execDcfgStripFetch uid s
  | .hintLine cid => Sys2Proof.Machine.execHintLine cid s
  | .matrixPass cid => Sys2Proof.Machine.execMatrixPass cid s
  | .streamFill uid n => Sys2Proof.Machine.execStreamFill uid n s
  | .arbiterBind cid => Sys2Proof.Machine.execArbiterBind cid s
  | .convoyRetire uid => Sys2Proof.Machine.execConvoyRetire uid s
  | .replyWrite uid => Sys2Proof.Machine.execReplyWrite uid s
  | .lineFullWake uid => Sys2Proof.Machine.execLineFullWake uid s
  | .barrierFire uid => Sys2Proof.Machine.execBarrierFire uid s
  | .assayerCommit cid => Sys2Proof.Machine.execAssayerCommit cid s
  | .frozenRecordRelease plane link => Sys2Proof.Machine.execFrozenRecordRelease plane link s
  | .linkUp plane link => Sys2Proof.Machine.execLinkUp plane link s
  | .hostResponse id data => Sys2Proof.Machine.execHostResponse id data s
  | .poolPortResponse id => Sys2Proof.Machine.execPoolPortResponse id s

end Sys2Proof.Machine
end

