-- ==== Sys2Proof/Machine/Fetch.lean ====
section
/-!
DEFINITION. What a strand does when it is its turn to issue (R163, R178, R203): it takes a trap or an event that is ready,
or fetches, decodes and executes its next instruction; and the moves of the other agents that one step makes.
-/

namespace Sys2Proof.Machine

/-! ### Fetch (R19, R34, R71, R88, R178) -/

/-- The word at the program counter, from its instruction-cache line. -/
def lineWord (data : List Byte) (off : Nat) : Word := BitVec.ofNat 64 (natOfBytes ((data.drop off).take 8))

/-- The word of a target that no instruction-cache line holds: its line is read from its home and enters the cache; a line
of which another part carries a mark enters none. -/
def fetchLine (u : Nat) (ag : Agent) (t : Target) : M Word := do
  let a ← keepM (.fetch u) .fetch ag.ident t.lineOf (.load 128)
  match a with
  | .poisoned => do
    let b ← keepM (.fetch u) .fetch ag.ident t (.load 8)
    let r ← helmAnswer ag .fetch t.va t b
    pure (lineWord r.data 0)
  | a => do
    let r ← helmAnswer ag .fetch t.va t a
    modS fun s => s.fillCode (helmOf u) (t.lineOf.cacheLine r.data) false
    pure (lineWord r.data (t.pa % 128))

/-- Fetch the word at the program counter of strand `u`. -/
def fetchM (u : Nat) : M Word := do
  let s ← getS
  let ag := s.scalarAgent u
  let pc := (s.strand u).pc
  match ← placeM ag .fetch pc 8 with
  | .local _ => accessTrap ag .fetch pc ⟨5, 0, 7, 1⟩
  | .control _ => controlTrap ag .fetch pc
  | .target t => do
    let s ← getS
    match findLine (s.helm (helmOf u)).icache t.module (t.pa / 128) t.owner with
    | some e => pure (lineWord e.data (t.pa % 128))
    | none => do
      let w ← fetchLine u ag t
      modS (·.forget (.fetch u))
      pure w

/-! ### What older accesses hold back (R129, R133, R135) -/

/-- Scalar arithmetic and branches: no access of theirs is ordered by anything. -/
def noAccess : Instr → Bool
  | .add _ _ _ | .sub _ _ _ | .mul _ _ _ | .mulh _ _ _ | .mulhu _ _ _ | .div _ _ _ | .divu _ _ _ | .rem _ _ _
  | .remu _ _ _ | .and _ _ _ | .or _ _ _ | .xor _ _ _ | .shl _ _ _ | .shr _ _ _ | .sra _ _ _ | .slt _ _ _
  | .sltu _ _ _ | .min _ _ _ | .max _ _ _ | .clz _ _ | .popc _ _ | .csel _ _ _ _ | .addi _ _ _ | .andi _ _ _
  | .ori _ _ _ | .xori _ _ _ | .shli _ _ _ | .shri _ _ _ | .srai _ _ _ | .limm _ _ | .addpc _ _ | .fadd _ _ _ _
  | .fsub _ _ _ _ | .fmul _ _ _ _ | .fma _ _ _ _ _ | .fdiv _ _ _ _ | .fsqrt _ _ _ | .fmin _ _ _ _ | .fmax _ _ _ _
  | .fcmp _ _ _ _ _ | .fcvt _ _ _ _ | .br _ | .bcmp _ _ _ _ | .call _ _ | .ret _ | .jmp _ _ => true
  | _ => false

/-- An instruction of relational columns or of streams: its accesses are element accesses (R304, R331). -/
def columnWord (w : Word) : Bool :=
  (0xa0 ≤ opcodeOf w && opcodeOf w ≤ 0xac) || opcodeOf w = 0xc8 || opcodeOf w = 0xc9

/-- An order that is none before the access itself: older accesses are not ordered before a relaxed atomic or one that only
acquires (R136). -/
def passesOlder : Order → Bool
  | .relaxed | .acq => true
  | .rel | .ar => false

/-- An instruction that does not order the scalar loads before it: they may take their values after it (R128, R129, R136,
R138, R141; log 92). The ones that order them are fences, releases, barriers, joins, forks and what ends or leaves the
strand's program. -/
def leavesLate (i : Instr) : Bool :=
  noAccess i || needsType (encode i) || columnWord (encode i) || match i with
    | .ld _ _ _ _ _ | .ldIndexed _ _ _ _ _ | .st _ _ _ _ | .stIndexed _ _ _ _ | .fence _ .relaxed | .lsync | .pfence
    | .csrr _ _ | .csrw _ _ _ | .csrs _ _ _ | .csrc _ _ _ | .setvt _ | .ctab _ _ _ | .dstat _ _ | .ipref _ _ _
    | .ipin _ _ _ | .iunpin _ _ _ => true
    | .amo _ _ _ o _ _ _ | .cas _ _ o _ _ _ => passesOlder o
    | _ => false

/-- The strand's older loads have the values that they take before an instruction that orders them. -/
def State.endsLate (s : State) (u : Nat) (i : Instr) : State :=
  let t := s.strand u
  if leavesLate i || t.late.isEmpty then s else s.setStrand u { t with late := t.guesses }

/-- Execute an instruction of strand `u` that has been fetched. One that orders older loads waits for those whose values
the strand has gone on from (R129). -/
def State.execNext (s : State) (u : Nat) (i : Instr) : Host.Outcome State Fault Refusal :=
  let s := s.endsLate u i
  match (s.strand u).guesses, leavesLate i with
  | l :: _, false => .next (s.reload u l.seq)
  | _, _ => exec i s

/-- Fetch, decode and execute the next instruction of strand `s.cur` (R203). -/
def State.fetchExec (s : State) : Host.Outcome State Fault Refusal :=
  match fetchM s.cur s with
  | .error .wait s' => .next s'
  | .error (.trap tr) s' => .next (s.trapOr s.cur tr s')
  | .ok w s' =>
    match decode w with
    | some i => s'.execNext s.cur i
    | none => .next (s.trapOr s.cur ⟨1, 0, (s'.strand s.cur).pc, none⟩ s')

/-! ### Issue (R163, R247, R276, R352, R420) -/

/-- An instruction that is to join its strand's matrix operations (R352). -/
def joins (w : Word) : Bool :=
  match decode w with
  | some (.mext _ _ _ _ _ _ _ _) | some .mzero | some .mdetach => true
  | _ => false

/-- A GEND, after which the strand issues nothing (R420). -/
def endsTile (w : Word) : Bool :=
  match decode w with
  | some .gend => true
  | _ => false

/-- The column queue keeps the helm from issuing: a pushed convoy in protected mode (R276), an instruction that has not
passed its join (R352), a GEND (R420), or a scatter-add under way. -/
def Strand.issueBlocked (t : Strand) : Bool :=
  (t.protectedMode && !t.queue.isEmpty)
    || t.queue.any fun m =>
      !m.done && (joins m.word || (endsTile m.word && decide (m.mode = t.mode)) || (m.pv && m.idx = 0x3ffd))

/-- The strand sleeps in IDLE, and nothing wakes it (R247). -/
def State.sleeps (s : State) (u : Nat) : Bool := (s.strand u).issue = .idle && !s.wakes u

/-- The strand as it issues: one that wakes from IDLE runs. -/
def Strand.awake (t : Strand) : Strand := if t.issue = .idle then { t with issue := .running } else t

/-- Strand `u` can issue nothing: it is not there, its cluster is fenced, its tile has stopped, or it sleeps. -/
def State.cannotIssue (s : State) (u : Nat) : Bool :=
  !(s.strand u).resident || s.fenced.contains (clusterOf u) || s.tileStopped u || s.sleeps u

/-- It is strand `s.cur`'s turn to issue. An instruction whose own access is under way goes on before anything else; then
come a trap of a pushed instruction, an event, and the next instruction. -/
def State.issue (s : State) : Host.Outcome State Fault Refusal :=
  let u := s.cur
  if s.midAccess u then s.fetchExec
  else if let l :: _ := if s.eventReady u || (s.strand u).colTrap.isSome then (s.strand u).guesses else [] then
    .next (s.reload u l.seq)
  else if (s.strand u).colTrap.isSome then .next (s.settleTrap u)
  else if s.eventReady u then .next (s.takeReady u)
  else if s.cannotIssue u || (s.strand u).issueBlocked || (s.strand u).stopsIssue then .next s
  else (s.setStrand u (s.strand u).awake).fetchExec

/-! ### Moves of the other agents (log 1) -/

/-- An entry of a cache leaves it. The agenda names entries by their place: one that is not there is a fault. -/
def evicted {α : Type} (l : List α) (n : Nat) (f : α → List α → State) : Host.Outcome State Fault Refusal :=
  match l[n]? with
  | some a => .next (f a (l.eraseIdx n))
  | none => .fault .noSuchUnit

/-- One move of the agenda. An instruction word is no row of its own: it executes only where a strand issues it. -/
def State.move (s : State) : Move → Host.Outcome State Fault Refusal
  | .issue u => ({ s with cur := u.toNat }).issue
  | .row i => if i.isWord then .next s else exec i s
  | .columnStep u => .next (s.columnStep u.toNat)
  | .columnAhead u place group => .next (s.columnAhead u.toNat place group)
  | .reload u seq => .next (s.reload u.toNat seq)
  | .guess u seq w => .next (s.guess u.toNat seq w)
  | .deliver c lg sl => .next (s.unitStep c.toNat fun s => s.deliverOne c.toNat lg.toNat sl.toNat)
  | .evictData h n => evicted (s.helm h.toNat).dcache n fun _ l => s.setHelm h.toNat { s.helm h.toNat with dcache := l }
  | .evictCode h n => evicted (s.helm h.toNat).icache n fun e l =>
      if e.pinned then s else s.setHelm h.toNat { s.helm h.toNat with icache := l }
  | .evictTlb c n => evicted (s.cluster c.toNat).tlb n fun _ l => s.setCluster c.toNat { s.cluster c.toNat with tlb := l }
  | .evictWalk d n => evicted (Tab.get [] s.walks d.toNat) n fun _ l => { s with walks := Tab.set s.walks d.toNat l }
  | .responseBack dest tag => .next (s.responseBack dest tag)
  | .rejClear => .next { s with mailbox := { s.mailbox with rej := false } }
  | .mailArg i w => .next { s with mailbox := { s.mailbox with arg := s.mailbox.arg.set i.toNat w } }
  | .mailRead o => .next (s.readMail o.toNat)
  | .mailServe => .next s.serveMail
  | .spineUp plane => .next (s.spineBack plane)
  | .strikePool d n upper => evicted (s.poolLines d.toNat) n fun _ _ => s.strikePool d.toNat n upper
  | .strike unit => .next (s.mark unit)
  | .strikeLine unit => .next (s.markLine unit)
  | .strikeAcc c i => .next (s.strikeAcc c.toNat i.toNat)
  | .strikeScalar c => .next (s.fenceCluster c.toNat)
  | .parity u r slot lost => .next (s.parity u.toNat r slot.toNat lost)
  | .parityPred u p slot lost => .next (s.parityPred u.toNat p slot.toNat lost)
  | .cacheParity h code n =>
    evicted (if code then (s.helm h.toNat).icache else (s.helm h.toNat).dcache) n fun e l => s.cacheParity h.toNat code e l
  | .kernelLoad pa n => .next (s.loadKernel pa.toNat n)
  | .laneFault u r slot bits => .next (s.laneFault u.toNat r slot.toNat bits)

/-- The entries of the store queues of a cluster go on, oldest first. -/
def State.deliverCluster (s : State) (c : Nat) : State :=
  (s.cluster c).storeQueue.foldl (fun s e => s.deliverOne c e.laneGroup e.slice) s

/-- Every stream of a strand is filled as far as it goes. -/
def State.fillStreams (s : State) (u : Nat) : State := (List.finRange 8).foldl (fun s n => s.streamFill u n) s

/-- The oldest line of a helm's data cache leaves it: every line leaves in time, and every scalar store leaves its strand's
write buffer in time, so that a load which spins sees the store (R132). -/
def State.expireOne (s : State) (h : Nat) : State :=
  s.setHelm h { s.helm h with dcache := (s.helm h).dcache.dropLast }

/-- The oldest request at a pool port or at the host port is answered: by the pooled memory, or by a host whose memory
holds what the port last knew of it (log 1). -/
def State.servePort (s : State) : State :=
  match s.ports.head? with
  | none => s
  | some p => if p.host then s.hostResponse p.id none else s.poolResponse p.id

/-- The engines' turn, where the agenda is empty: each unit of the cluster of strand `u` makes one move. -/
def State.engines (s : State) (u : Nat) : State :=
  let c := clusterOf u
  let s := (((s.arbiterBind c).columnStep u).goAhead u).convoyRetire u
  let s := s.setStrand u (s.strand u).reply
  let s := ((s.draymanComplete c).servePort).serveMail
  if s.fenced.contains c then s
  else
    let s := ((s.fillStreams u).deliverCluster c).draymanSector c
    (((((s.stripFetch u).matrixPass c).hintLine c).assayerStep c).drainOne u).expireOne (helmOf u)

/-- The next resident strand after `u`, in cyclic order of strand numbers; `u` where there is no other. -/
def State.nextStrand (s : State) (u : Nat) : Nat :=
  let l := (s.strands.filter fun e => e.2.resident).map (·.1)
  match l.find? fun v => u < v with
  | some v => v
  | none => l.headD u

/-- What follows from a state at once: a tile whose staging has overflowed is killed (R418), and with EVWAIT 0 firmware is
given every event (R454). -/
def State.watch (s : State) : State :=
  let stoppedTiles (e : Nat × Cluster) : List Nat :=
    e.2.launches.flatMap fun l => (l.tiles.filter fun t => t.overflow).map (·.gang)
  let gangs := (s.clusters.flatMap stoppedTiles).filter fun n => (s.cox.gang n).any fun g => !g.killed
  let s := if gangs.isEmpty then s else (gangs.foldl (fun s n => s.killGang n) s).coxRun
  if s.evwait = 0 && !s.eventSet.isEmpty then { s with fwEvents := s.fwEvents ++ s.eventSet, eventSet := [] } else s

/-- The outcome with what follows at once. -/
def watched : Host.Outcome State Fault Refusal → Host.Outcome State Fault Refusal
  | .next s => .next s.watch
  | .fault f => .fault f
  | .refused r => .refused r

/-- Time passes: one step is one cycle or more (log 1). -/
def State.clock (s : State) : State :=
  { s with cycle := s.cycle + 1 + BitVec.ofNat 64 (Config.freeCycles s.steps), steps := s.steps + 1 }

/-- One move: the first of the agenda, or, where it is empty, in turn the issue of a strand and the move of the engines,
after which the next strand has its turn. -/
def State.act (s : State) : Host.Outcome State Fault Refusal :=
  match s.agenda with
  | m :: rest => ({ s with agenda := rest }).move m
  | [] =>
    if s.phase then ({ s with phase := false }).issue
    else
      let s := s.engines s.cur
      .next { s with phase := true, cur := s.nextStrand s.cur }

/-- A module that a shutdown has stopped holds reset until power-up (R469). -/
def State.actStopped (s : State) : Host.Outcome State Fault Refusal :=
  match s.agenda with
  | .row .moduleReset :: rest => exec .moduleReset { s with agenda := rest }
  | _ :: rest => .next { s with agenda := rest }
  | [] => .next s

end Sys2Proof.Machine
end

