-- ==== Sys2Proof/Machine/Step.lean ====
section
/-!
DEFINITION. One step of the module, and the state in which the next step fetches and executes a given instruction.
-/

namespace Sys2Proof.Machine

/-- One step: one move of one of the module's agents, and what follows at once (log 1); a stopped module waits for its
reset (R469). -/
def step (s : State) : Host.Outcome State Fault Refusal :=
  if s.stopped then s.actStopped else watched s.clock.act

/-! ### Placing an instruction (log 32) -/

/-- The virtual and physical address at which `withFetchWord` places the instruction. -/
def placedAt : Nat := 0x10000

/-- The owner-table entry of owner 1, the page tables that map the first 32 MiB of the kernel's user half to themselves
for every access, and the 128-byte line of the instruction, each at its physical address. -/
def placedBytes (w : Nat) : List (Nat × List Byte) :=
  [(32, bytesOfNat 8 1 ++ bytesOfNat 8 0x1000 ++ bytesOfNat 16 0), (0x1000, bytesOfNat 16 0x2001),
    (0x2000, bytesOfNat 16 0x3001), (0x3000, bytesOfNat 16 0x3f), (placedAt, bytesOfNat 8 w ++ bytesOfNat 120 0)]

/-- Bytes stored at physical addresses as plaintext that every key reads (log 4), their units unmarked. -/
def State.placePlain (s : State) (l : List (Nat × List Byte)) : State :=
  let units := l.flatMap fun e => unitsOf 64 e.1 e.2.length
  { s with
    pmem := l.foldl (fun m e => storeBytes m e.1 (writeAll e.2)) s.pmem
    units := units.foldl Tab.erase s.units
    physMarks := s.physMarks.filter fun k => !units.contains k }

/-- A strand about to fetch the placed instruction: in kernel mode under owner 1, with no event, trap or member of its
column queue ahead of it. -/
def Strand.placed (t : Strand) : Strand :=
  { t with
    resident := true, gang := 0, mode := .kernel, owner := 1, pc := BitVec.ofNat 64 placedAt, assembling := [], queue := [],
    colTrap := none, preempt := none, issue := .running, late := [],
    kept := { t.kept with intq := [] } }

/-- The requests and answers of a strand's helm instruction and fetch are dropped. -/
def State.dropHelm (s : State) (u : Nat) : State :=
  let keep (w : Who) : Bool := w != .helm u && w != .fetch u
  { s with
    arrived := s.arrived.filter fun a => keep a.who
    outstanding := s.outstanding.filter fun o => keep o.who
    ports := s.ports.filter fun p => keep p.who }

/-- The module in which the next step fetches and executes, on strand `s.cur`, the instruction whose bits are `w`. It
stands for the loading of a program from outside (log 32). Every instruction has 64 bits. -/
def State.withFetchWord (s : State) (nbits w : Nat) : State :=
  let u := s.cur
  let s := ({ s with
    agenda := [], phase := true, stopped := false, owntab := 0, eventSet := [], fwEvents := []
    fenced := s.fenced.filter fun c => c != clusterOf u
    walks := Tab.erase s.walks (dieOf (clusterOf u)) }).placePlain (placedBytes (w % 2 ^ nbits % 2 ^ 64))
  let s := (s.dropHelm u).setStrand u (s.strand u).placed
  let s := s.setHelm (helmOf u) { s.helm (helmOf u) with icache := [] }
  s.setCluster (clusterOf u) { s.cluster (clusterOf u) with tlb := [] }

end Sys2Proof.Machine
end

