-- ==== Sys2Proof/Safety.lean ====
section
/-!
DEFINITION. What counts as a safe run, and the terms in which claims speak of the strand that issues.
-/

namespace Sys2Proof

/-- A run of `k` steps from `s` ends in a state: no fault and no refusal on the way. -/
def Safe (k : Nat) (s : Machine.State) : Prop := ∃ t, core.run k s = .next t

namespace Machine

/-- The strand that issues. -/
def State.me (s : State) : Strand := s.strand s.cur

/-- The strand that issues assembles no convoy (R204). -/
def State.between (s : State) : Prop := s.me.assembling = []

/-- No load that names register `r` of the strand that issues may still take its value at a later instant (R129). -/
def State.settled (s : State) (r : Reg) : Prop := s.me.late.any (fun l => s.me.lateNames l r && l.guess.isNone) = false

/-- Register `r` of the strand that issues awaits no reply (R169), and no late value of a load (R129). -/
def State.has (s : State) (r : Reg) : Prop := s.me.awaits r = false ∧ s.settled r

/-- What register `r` of the strand that issues holds. -/
def State.reg (s : State) (r : Reg) : Word := s.me.readX r

/-- The state in which the strand that issues has become `t` and nothing else has changed. -/
def State.become (s : State) (t : Strand) : State := s.setStrand s.cur t

/-- The strand with its program counter at `pc`. -/
def Strand.atPc (t : Strand) (pc : Word) : Strand := { t with pc := pc }

/-- The state in which the strand that issues has become `t`, going on at the next word, and nothing else has changed. -/
def State.goesOn (s : State) (t : Strand) : State := s.become (t.atPc (s.me.pc + 8))

/-- The state after the strand that issues writes `w` to register `xd` and goes on at the next word. -/
def State.wrote (s : State) (xd : Reg) (w : Word) : State := s.goesOn (s.me.writeX xd w)

/-- Bits 5:0 of a word, as a shift count. -/
def count6 (b : Word) : Nat := b.toNat % 64

/-- The number of one bits of a word, bit by bit. -/
def onesOf (a : Word) : Nat := ((List.range 64).map fun i => (a.getLsbD i).toNat).sum

/-- `n` is the number of leading zero bits of a word. -/
def LeadingZeros (a : Word) (n : Nat) : Prop :=
  n ≤ 64 ∧ a.toNat < 2 ^ (64 - n) ∧ (n < 64 → 2 ^ (63 - n) ≤ a.toNat)

/-- Nothing but strands has changed. -/
def OnlyStrands (s t : State) : Prop := { t with strands := s.strands } = s

/-- Nothing but the strand that issues has changed. -/
def OnlyMe (s t : State) : Prop := OnlyStrands s t ∧ ∀ v, v ≠ s.cur → t.strand v = s.strand v

/-- Of the strand that issues, nothing has changed but scalar registers, the program counter, the flags of `mode`, and the
replies and late load values that a written register no longer takes (R129, R169, R437). -/
def OnlyScalar (t t' : Strand) : Prop :=
  { t' with x := t.x, pc := t.pc, modeReg := t.modeReg, replies := t.replies, late := t.late, owed := t.owed,
            queue := t.queue } = t

/-- The destination, the sources and whether it raises flags, of an instruction that computes a scalar register. -/
def computes : Instr → Option (Reg × List Reg × Bool)
  | .add xd xa xb | .sub xd xa xb | .mul xd xa xb | .mulh xd xa xb | .mulhu xd xa xb | .div xd xa xb | .divu xd xa xb
  | .rem xd xa xb | .remu xd xa xb | .and xd xa xb | .or xd xa xb | .xor xd xa xb | .shl xd xa xb | .shr xd xa xb
  | .sra xd xa xb | .slt xd xa xb | .sltu xd xa xb | .min xd xa xb | .max xd xa xb => some (xd, [xa, xb], false)
  | .clz xd xa | .popc xd xa | .addi xd xa _ | .andi xd xa _ | .ori xd xa _ | .xori xd xa _ | .shli xd xa _
  | .shri xd xa _ | .srai xd xa _ => some (xd, [xa], false)
  | .csel xd xa xb xc => some (xd, [xa, xb, xc], false)
  | .limm xd _ | .addpc xd _ => some (xd, [], false)
  | .fadd _ xd xa xb | .fsub _ xd xa xb | .fmul _ xd xa xb | .fdiv _ xd xa xb | .fmin _ xd xa xb | .fmax _ xd xa xb
  | .fcmp _ _ xd xa xb => some (xd, [xa, xb], true)
  | .fma _ xd xa xb xc => some (xd, [xa, xb, xc], true)
  | .fsqrt _ xd xa | .fcvt _ _ xd xa => some (xd, [xa], true)
  | _ => none

/-- The strand whose late loads of bytes that `n` bytes of a target touch have their values (R128, R129). -/
def Strand.endsLate (t : Strand) (g : Target) (n : Nat) : Strand := { t with late := t.late.filter fun l => !l.overlaps g n }

/-- The strand after a load of `n` bytes of this module's translated memory has written `w` to register `xd`: unless its own
write buffer holds bytes of the line, the load may take its value again at a later instant (R128, R129; log 92). -/
def Strand.loads (t : Strand) (va : Word) (g : Target) (n : Nat) (sgn : Bool) (xd : Reg) (w : Word) : Strand :=
  let t' := (t.endsLate g n).writeX xd w
  if xd = 0 ∨ t.bufEntry g ≠ none then t' else t'.addLate va g n sgn xd

/-! ### Windows -/

/-- No convoy is under assembly, no vector memory instruction with a counter or the S bit is under way, and none has a record
of HOST-DETACHED elements to write (R98). -/
def State.ready (s : State) : Prop := s.between ∧ s.me.openInstrs = [] ∧ s.me.detachNotes = []

/-- The local address of `n` bytes in the scratchpad or TCM window of the strand that issues (R18, R57). -/
def State.localAt (s : State) (va : Word) (n : Nat) : Option Nat :=
  match regionOf va with
  | .spad off =>
    if s.launchActive (clusterOf s.cur) && 0x7c0000 < off + n then none else some (spadAddr (clusterOf s.cur) off)
  | .tcm off => some (tcmAddr s.cur off)
  | .user | .hole | .nonCanonical | .kernelHalf => none

/-- The lines of `n` local bytes at `a` are full, and no unit of theirs carries a mark. -/
def State.clean (s : State) (a n : Nat) : Prop :=
  s.localFull a n = true ∧ ∀ w ∈ unitsOf 8 a n, s.localMarks.contains w = false

/-- What a strand in a mode under an owner may read of local byte `a`: in user mode a line with another tag is zero
(R35, R36). -/
def State.seen (s : State) (a : Nat) : Byte :=
  if s.me.mode = .user ∧ Tab.get 0 s.tags (a / 128) ≠ s.me.owner then 0 else Memory.read s.lmem a

/-- `n` bytes as a number, the first byte lowest. -/
def State.seenNat (s : State) (a : Nat) : Nat → Nat
  | 0 => 0
  | n + 1 => (s.seen a).toNat + 256 * State.seenNat s (a + 1) n

/-- A loaded value of `n` bytes, sign- or zero-extended to 64 bits (R231). -/
def loaded (sgn : Bool) (n v : Nat) : Word :=
  if sgn then (BitVec.ofNat (8 * n) v).signExtend 64 else BitVec.ofNat 64 v

/-- Local memory after a store of the `n` low bytes of `v` at `a`: the bytes are there; bytes of other lines are as
before; other bytes of the line are as before, too, or zero where the store of a user-mode strand takes the line over from
another owner (R35). The line has the owner's tag. -/
def StoredLocal (s t : State) (a n v : Nat) : Prop :=
  (∀ i, i < n → (Memory.read t.lmem (a + i)).toNat = v / 256 ^ i % 256) ∧
  (∀ c, c / 128 ≠ a / 128 → Memory.read t.lmem c = Memory.read s.lmem c) ∧
  (∀ c, c / 128 = a / 128 → c < a ∨ a + n ≤ c → Memory.read t.lmem c = s.seen c) ∧
  Tab.get 0 t.tags (a / 128) = s.me.owner ∧
  (∀ l, l ≠ a / 128 → Tab.get 0 t.tags l = Tab.get 0 s.tags l) ∧
  { t with lmem := s.lmem, tags := s.tags, localMarks := s.localMarks, strands := s.strands } = s

/-! ### Encoding and issue -/

/-- Strand `s.cur` is free to fetch and execute: its own access is under way, or nothing comes before its next
instruction: no trap of a pushed instruction, no event that is ready, and nothing keeps it from issuing. -/
def State.issues (s : State) : Prop :=
  s.midAccess s.cur = true ∨
    (s.me.colTrap = none ∧ s.eventReady s.cur = false ∧ s.cannotIssue s.cur = false ∧ s.me.issueBlocked = false ∧
      s.me.stopsIssue = false)

/-- The state from which strand `s.cur` fetches. -/
def State.turn (s : State) : State := if s.midAccess s.cur then s else s.become s.me.awake

/-- The strand that issues takes a trap at the instruction that it issues; while its column engine stands where no trap may
stop it, nothing happens, and the instruction runs again (R254, R285, R302, R431). -/
def State.traps (s : State) (code cls : Nat) (tval : Word) : Host.Outcome State Fault Refusal :=
  .next (s.trapOr s.cur ⟨code, cls, tval, none⟩ s)

/-- The canonical form of memory: local and physical memory list an address at most once, in rising order, and no byte that
an unlisted address reads as. -/
def State.Canonical (s : State) : Prop := Memory.wf s.lmem ∧ Memory.wf s.pmem

/-! ### Quiet strands -/

/-- Nothing is outstanding at a port or at another module, and no answer is kept for an access under way. -/
def State.calm (s : State) : Prop := s.ports = [] ∧ s.outstanding = [] ∧ s.arrived = []

/-- The strand that issues has no older access still to perform. -/
def State.quiet (s : State) : Prop :=
  s.ready ∧ s.me.queue = [] ∧ s.me.writeBuffer = [] ∧ s.me.forwarded = [] ∧
    (s.cluster (clusterOf s.cur)).storeQueue = [] ∧ s.calm

/-- The strand that issues has become `t`, the caches of its helm may differ, and nothing else has changed. -/
def State.BecomesUpToCache (s t : State) (me : Strand) : Prop :=
  { t with helms := s.helms } = s.become me ∧ ∀ h, h ≠ helmOf s.cur → t.helm h = s.helm h

/-- The new value of an atomic of `w` bits, from the old value and the operand (R232). -/
def atomicNew (op : AmoOp) (w old b : Nat) : Nat :=
  let x := BitVec.ofNat w old
  let y := BitVec.ofNat w b
  match op with
  | .swap => y.toNat
  | .add => (x + y).toNat
  | .and => (x &&& y).toNat
  | .or => (x ||| y).toNat
  | .xor => (x ^^^ y).toNat
  | .min => (if y.toInt < x.toInt then y else x).toNat
  | .max => (if x.toInt < y.toInt then y else x).toNat
  | .minu => min x.toNat y.toNat
  | .maxu => max x.toNat y.toNat
  | .fadd => (FFmt.f32.add 0 x.toNat y.toNat).1

/-- The operand of an atomic: a register, or, for 16 bytes, a pair (R186, R232). -/
def State.wide (s : State) (size : AmoSize) (r : Reg) : Nat :=
  match size with
  | .w | .d => (s.reg r).toNat % 2 ^ (8 * size.bytes)
  | .q => (s.reg r).toNat + 2 ^ 64 * (s.reg (r + 1)).toNat

/-- The strand after an atomic writes the old value to its destination, or to the pair of it; x0 discards all (R186,
R232). -/
def Strand.writeWide (t : Strand) (size : AmoSize) (r : Reg) (v : Nat) : Strand :=
  if r = 0 then t
  else match size with
    | .w | .d => t.writeX r (BitVec.ofNat 64 v)
    | .q => (t.writeX r (BitVec.ofNat 64 v)).writeX (r + 1) (BitVec.ofNat 64 (v / 2 ^ 64))

/-- An order suffix acquires. -/
def orderAcquires : Order → Bool
  | .acq | .ar => true
  | .relaxed | .rel => false

/-- The registers of an atomic's operand await no reply. -/
def State.hasWide (s : State) (size : AmoSize) (r : Reg) : Prop := s.has r ∧ (size = .q → s.has (r + 1))

/-- An entry of a write buffer holds the `n` low bytes of `v` from offset `off` of the line of `g` on, and nothing else. -/
def BufEntry.Holds (e : BufEntry) (g : Target) (off n v : Nat) : Prop :=
  e.target.module = g.module ∧ e.target.pa = g.pa / 128 * 128 ∧ e.target.owner = g.owner ∧ e.target.clear = g.clear ∧
    e.bytes.map (·.1) = (List.range n).map (off + ·) ∧
    ∀ i, i < n → (Tab.get 0 e.bytes (off + i)).toNat = v / 256 ^ i % 256

/-! ### System instructions -/

/-- What a control register holds after `w` is written to it, the values it held before being `old` (R241 to R243): reserved
bits read as zero, read-only fields keep their value. -/
def csrKept (t : Strand) (old w : Word) : Csr → Word
  | .mode => w &&& 0x3f3
  | .ecarry | .amask | .tol => w &&& 0xffffffff
  | .msel => w &&& 0xf
  | .spillcnt => w &&& 0x3f
  | .uivec | .uiepc | .tvec | .epc | .ftvec | .fepc => w &&& ~~~7
  | .uictl => (w &&& 1) ||| (old &&& 2)
  | .cause | .fcause => w &&& 0x3f00ff
  | .owner => w &&& 0xffff
  | .share => if w &&& 0xff = 0 then old else w &&& 0xff
  | .tval | .kscratch | .ftval | .fscratch => w
  | .status =>
    let pm : Word := if w &&& 0xc = 0 then 0 else if w &&& 0xc = 4 then 4 else old &&& 0xc
    let fw : Word :=
      if t.mode = .firmware then (if w &&& 0x300 = 0x300 then old &&& 0x300 else w &&& 0x300) ||| (w &&& 0x400)
      else old &&& 0x700
    (old &&& 3) ||| pm ||| (w &&& 0x70) ||| fw
  | .vl | .vtype | .vlmax | .grant | .mgrant | .tick | .plive | .cycle | .fmask | .pmask | .progress => old

/-- Trap number, class, value and epc as they stand in the registers of the kernel or of the firmware after an entry. -/
def Strand.EnteredKernel (t t' : Strand) (epc cause tval : Word) : Prop :=
  t'.epc = epc ∧ t'.cause = cause ∧ t'.tval = tval ∧ t'.pmode = t.mode ∧ t'.pkie = t.kie ∧ t'.mode = .kernel ∧
    t'.kie = false ∧ t'.pc = t.tvec ∧ t'.fepc = t.fepc ∧ t'.fcause = t.fcause ∧ t'.ftval = t.ftval ∧
    t'.fpmode = t.fpmode ∧ t'.fpkie = t.fpkie

/-- The same for an entry into firmware mode. -/
def Strand.EnteredFirmware (t t' : Strand) (epc cause tval : Word) : Prop :=
  t'.fepc = epc ∧ t'.fcause = cause ∧ t'.ftval = tval ∧ t'.fpmode = t.mode ∧ t'.fpkie = t.kie ∧ t'.mode = .firmware ∧
    t'.kie = false ∧ t'.pc = t.ftvec ∧ t'.epc = t.epc ∧ t'.cause = t.cause ∧ t'.tval = t.tval ∧
    t'.pmode = t.pmode ∧ t'.pkie = t.pkie

/-- Of a strand, what no trap and no return changes: registers and windows of data, and the registers that only their own
instructions write. -/
def SameData (t t' : Strand) : Prop :=
  t'.v = t.v ∧ t'.p = t.p ∧ t'.vl = t.vl ∧ t'.vtype = t.vtype ∧ t'.modeReg = t.modeReg ∧ t'.ecarry = t.ecarry ∧
    t'.tvec = t.tvec ∧ t'.ftvec = t.ftvec ∧ t'.owner = t.owner ∧ t'.kscratch = t.kscratch ∧ t'.fscratch = t.fscratch ∧
    t'.uivec = t.uivec ∧ t'.uiepc = t.uiepc ∧ t'.uie = t.uie ∧ t'.uia = t.uia ∧ t'.prot = t.prot

/-- The column registers that a mask names, ascending (R250). -/
def columnsOf (mask : BitVec 16) : List Nat := (List.range 16).filter fun i => mask.toNat.testBit i

/-- What the area of SAVEK holds: the record of a stopped column instruction, or zeros where none is pending, then the masked
column registers, ascending (R250). -/
def Strand.columnImage (t : Strand) (mask : BitVec 16) : List Byte :=
  bytesOfNat 64 (if t.pendingRec.getLsbD 72 then t.pendingRec.toNat else 0) ++
    (columnsOf mask).flatMap fun i => bytesOfNat 32 (t.k.getD i 0).toNat

/-! ### Instructions that the helm pushes to the column engine -/

/-- The registers that an instruction of the column engine reads at issue, in the places of the three operands that its
member keeps (R164, R436); none for an instruction that the helm executes. -/
def pushReads : Instr → Option (Reg × Reg × Reg)
  | .assay xa | .ctab _ xa _ | .kdef _ xa _ | .klenSet _ xa | .ksel _ _ _ _ xa | .ktopk _ _ _ _ xa | .mattach xa
  | .vld _ _ _ xa _ | .vst _ _ _ xa _ | .vldff _ _ _ xa _ | .vgath _ _ _ xa _ _ | .vscat _ _ _ xa _ _
  | .vscadd _ _ _ xa _ _ | .vldb _ _ _ xa _ _ | .vstb _ _ _ xa _ _ | .vmvxToVector _ _ xa _ | .setvl _ _ (.reg xa)
  | .mext _ _ _ true _ xa _ _ => some (xa, 0, 0)
  | .setvl _ _ (.imm _) | .gend | .lsync | .bar _ | .klen _ _ | .kselp _ _ _ _ _ | .kjoin _ _ _ _ _
  | .kmjoin _ _ _ _ _ | .ksemi _ _ _ _ | .ksemiAnti _ _ _ _ | .kgroup _ _ _ _ | .kagg _ _ _ _ _ | .ksort _ _ _
  | .kgath _ _ _ | .kcat _ _ _ _ | .kbind _ _ | .kbindAppend _ _ | .kunbind _ | .mdetach | .mzero | .setvt _
  | .vfold _ _ _ | .vadd _ _ _ _ _ _ | .vaddI _ _ _ _ _ _ | .vsub _ _ _ _ _ _ | .vmul _ _ _ _ _ _ | .vdiv _ _ _ _ _
  | .vmin _ _ _ _ _ | .vmax _ _ _ _ _ | .vand _ _ _ _ | .vandI _ _ _ _ | .vor _ _ _ _ | .vorI _ _ _ _ | .vxor _ _ _ _
  | .vxorI _ _ _ _ | .vshl _ _ _ _ | .vshlI _ _ _ _ | .vshr _ _ _ _ | .vshrI _ _ _ _ | .vsra _ _ _ _ | .vsraI _ _ _ _
  | .vfma _ _ _ _ _ | .vfms _ _ _ _ _ | .vsqrt _ _ _ | .vrcp _ _ _ | .vrsq _ _ _ | .vexp2 _ _ _ | .vlog2 _ _ _
  | .vabs _ _ _ | .vneg _ _ _ | .vmov _ _ _ | .vcvt _ _ _ _ | .vcmp _ _ _ _ _ _ | .vsel _ _ _ _ _
  | .vmvxToScalar _ _ _ _ | .vred _ _ _ _ _ | .vperm _ _ _ _ | .viota _ _ | .pand _ _ _ _ | .por _ _ _ _
  | .pxor _ _ _ _ | .pandn _ _ _ _ | .pset _ _ _ | .pmov _ _ _ | .pcnt _ _ _ | .pfirst _ _ _ | .vcompress _ _ _ _
  | .vexpand _ _ _ _ | .vpcnt _ _ _ | .vconf _ _ _ | .vscan _ _ _ _ _ _ | .vlut _ _ _ _ | .vbfx _ _ _ _ _
  | .vexit _ _ _ | .vslide _ _ _ _ (.imm _) | .mext _ _ _ false _ _ _ _ => some (0, 0, 0)
  | .claim _ _ xa xb | .vldz _ _ _ _ xa xb _ | .mma _ _ xa xb _ _ _ | .mmag xa xb | .vldStrided _ _ _ xa xb _
  | .vstStrided _ _ _ xa xb _ => some (xa, xb, 0)
  | .mmas _ _ _ _ xa xb xc _ _ _ | .glaunch xa xb xc => some (xa, xb, xc)
  | .vaddX _ _ _ _ _ xb | .vsubX _ _ _ _ _ xb | .vmulX _ _ _ _ _ xb | .vminX _ _ _ _ xb | .vmaxX _ _ _ _ xb
  | .vandX _ _ _ xb | .vorX _ _ _ xb | .vxorX _ _ _ xb | .vshlX _ _ _ xb | .vshrX _ _ _ xb | .vsraX _ _ _ xb
  | .vfmaX _ _ _ xb _ | .vfmsX _ _ _ xb _ | .vslide _ _ _ _ (.reg xb) => some (0, xb, 0)
  | _ => none

/-- The operands that the member of `i` keeps, where `a`, `b` and `c` are the registers that it reads: SETVL keeps its
immediate, GLAUNCH also `tol` (R164, R412). -/
def Strand.operands (t : Strand) (i : Instr) (a b c : Reg) : Opnds where
  a := match i with
    | .setvl _ _ (.imm n) => n.setWidth 64
    | _ => t.readX a
  b := t.readX b
  c := t.readX c
  d := match i with
    | .glaunch _ _ _ => t.tol.setWidth 64
    | _ => 0

/-- The first of a list of addresses that is no multiple of its size. -/
def firstMisaligned : List (Word × Nat) → Option Word
  | [] => none
  | (a, n) :: l => if a.toNat % n = 0 then firstMisaligned l else some a

/-- The addresses and strides that an instruction of the column engine checks for alignment at issue, with the sizes that
they must be multiples of: the operands are `a` and `b` (R278, R293, R302, R320, R355 to R358, R412). -/
def issueAddrs (i : Instr) (a b : Word) : List (Word × Nat) :=
  match i with
  | .vld _ c _ _ off | .vst _ c _ _ off | .vldff _ c _ _ off | .vgath _ c _ _ _ off | .vscat _ c _ _ _ off
  | .vscadd _ c _ _ _ off | .vldb _ c _ _ _ off | .vstb _ c _ _ _ off => [(a + off.signExtend 64, fmtBytes c.fmt)]
  | .vldStrided _ c _ _ _ off | .vstStrided _ c _ _ _ off =>
    [(a + off.signExtend 64, fmtBytes c.fmt), (b, fmtBytes c.fmt)]
  | .claim _ _ _ _ => [(a, 16)]
  | .ctab _ _ off => [(a + off.signExtend 64, 64)]
  | .kdef _ _ off => [(a + off.signExtend 64, 32)]
  | .mma _ _ _ _ _ _ _ | .mmas _ _ _ _ _ _ _ _ _ _ => [(a, 8), (b, 8)]
  | .mmag _ _ => [(a, 64)]
  | .mext _ _ _ true _ _ _ _ => [(a, 8)]
  | .glaunch _ _ _ => [(a, 64), (b, 64)]
  | _ => []

/-- The strand that issues may put `i` into the convoy that it assembles (R204). -/
def State.joins (s : State) (i : Instr) : Prop :=
  s.between ∨ (s.me.assembling.length < 4 ∧ startsConvoy (encode i) = false)

/-- What `i` needs is free: a reply slot and a queue entry, a count in its dependence counter, and room for an arrival
(R165, R168, R282, R300). Counters are looked at after the accesses that have been performed have lowered them. -/
def State.hasRoom (s : State) (i : Instr) : Prop :=
  (replyReg i = 0 ∨ s.me.replies.length < 16) ∧ convoys s.me.queue < 32 ∧
    (∀ c, memCtl i = some c → c.d ≠ 0 → (s.settle s.cur).me.kept.dctr[c.d.toNat] ≠ BitVec.allOnes 16)

/-- BAR finds fewer than 15 arrivals of its strand that some member has not fired (R300). -/
def State.barRoom (s : State) (i : Instr) : Prop :=
  ∀ gang f, i = .bar gang → s.lowestFired s.cur gang = some f →
    (if gang then s.me.kept.gangA else s.me.kept.crewA) < f + 15

/-- Instruction `i` has been pushed: `s` is the state before it, in which accesses that have been performed no longer
count. -/
def State.Pushed (s t : State) (i : Instr) (o : Opnds) : Prop :=
  let me := s.me
  let w := encode i
  let m : Member :=
    { word := w, addr := me.pc, opa := o.a, opb := o.b, opc := o.c, opd := o.d, idx := 0, pv := false, disc := false,
      last := !chainBit w, mode := me.mode, rm := me.rm, prot := me.prot, owner := me.owner, iid := me.nextIid,
      done := false, mid := false, consumed := false, work := none, ahead := [], reach := 0 }
  (chainBit w = true → t.me.queue = me.queue ∧ t.me.assembling = me.assembling ++ [m]) ∧
  (chainBit w = false → t.me.queue = me.queue ++ (me.assembling ++ [m]) ∧ t.me.assembling = []) ∧
  t.me.replies = me.replies ++ (if replyReg i = 0 then [] else [⟨replyReg i, me.uia, me.nextIid, none, false, true⟩]) ∧
  t.me.openInstrs = me.openInstrs ++ (openOf w me.nextIid).toList ∧
  (∀ n : Fin 8, t.me.kept.dctr[n] =
    if n ≠ 0 ∧ (openOf w me.nextIid).any (fun e => e.d.toNat = n.val) then me.kept.dctr[n] + 1 else me.kept.dctr[n]) ∧
  t.me.kept.crewA = me.kept.crewA + (if i = .bar false then 1 else 0) ∧
  t.me.kept.gangA = me.kept.gangA + (if i = .bar true then 1 else 0) ∧
  t.me.pc = me.pc + 8 ∧
  { t.me with queue := me.queue, assembling := me.assembling, replies := me.replies, openInstrs := me.openInstrs,
              kept := { t.me.kept with dctr := me.kept.dctr, crewA := me.kept.crewA, gangA := me.kept.gangA },
              pc := me.pc, nextIid := me.nextIid } = me ∧
  OnlyMe s t

/-! ### What the column engine computes -/

/-- Lane `j` of a vector register, as an element of `w` bits (R171). -/
def Strand.lane (t : Strand) (w : Nat) (r : Reg) (j : Nat) : BitVec w := t.v[r.toNat].extractLsb' (w * j) w

/-- Element `j` is active under a guard: it lies below VL, and its guard bit is one, or zero for an inverted guard (R191). -/
def Strand.activeLane (t : Strand) (g : PReg) (n : Bool) (j : Nat) : Bool := decide (j < t.vl) && ((t.readP g).getLsbD j != n)

/-- The second operand of an element-wise instruction: a register, the scalar that its member keeps, or an immediate
extended to 64 bits (R259, R192). -/
inductive LaneArg where
  | reg (r : Reg)
  | scalar
  | imm (n : Word)
  deriving DecidableEq, Repr

/-- The register that an operand names, if it names one. -/
def LaneArg.regs : LaneArg → List Reg
  | .reg r => [r]
  | .scalar | .imm _ => []

/-- Element `j` of an operand, the low bits of a scalar or an immediate. -/
def LaneArg.lane (b : LaneArg) (t : Strand) (m : Member) (w j : Nat) : BitVec w :=
  match b with
  | .reg r => t.lane w r j
  | .scalar => m.opb.setWidth w
  | .imm n => n.setWidth w

/-- The guard, destination and operands of an element-wise instruction that writes a vector register; where it has fewer
than three operands, the places left over hold one of the others. -/
def laneForm : Instr → Option (VCtl × Reg × Reg × LaneArg × Reg)
  | .vadd k _ _ vd va vb | .vsub k _ _ vd va vb | .vmul k _ _ vd va vb | .vdiv k _ vd va vb | .vmin k _ vd va vb
  | .vmax k _ vd va vb | .vand k vd va vb | .vor k vd va vb | .vxor k vd va vb | .vshl k vd va vb | .vshr k vd va vb
  | .vsra k vd va vb | .vsel k vd va vb _ => some (k, vd, va, .reg vb, va)
  | .vaddX k _ _ vd va _ | .vsubX k _ _ vd va _ | .vmulX k _ _ vd va _ | .vminX k _ vd va _ | .vmaxX k _ vd va _
  | .vandX k vd va _ | .vorX k vd va _ | .vxorX k vd va _ | .vshlX k vd va _ | .vshrX k vd va _ | .vsraX k vd va _ =>
    some (k, vd, va, .scalar, va)
  | .vaddI k _ _ vd va imm => some (k, vd, va, .imm (imm.signExtend 64), va)
  | .vandI k vd va imm | .vorI k vd va imm | .vxorI k vd va imm => some (k, vd, va, .imm (imm.setWidth 64), va)
  | .vshlI k vd va n | .vshrI k vd va n | .vsraI k vd va n => some (k, vd, va, .imm (n.setWidth 64), va)
  | .vfma k vd va vb vc | .vfms k vd va vb vc => some (k, vd, va, .reg vb, vc)
  | .vfmaX k vd va _ vc | .vfmsX k vd va _ vc => some (k, vd, va, .scalar, vc)
  | .vsqrt k vd va | .vrcp k vd va | .vrsq k vd va | .vexp2 k vd va | .vlog2 k vd va | .vabs k vd va | .vneg k vd va
  | .vmov k vd va => some (k, vd, va, .reg va, va)
  | .viota k vd => some (k, vd, vd, .reg vd, vd)
  | _ => none

/-- The predicate by which VSEL selects. -/
def selector : Instr → PReg
  | .vsel _ _ _ _ pe => pe
  | _ => 0

/-- Bitwise operations, shifts, moves and the index: the same for every type (R259, R261, R264, R267). `sel` is the
selecting bit, `j` the element. -/
def lanePattern (i : Instr) (j : Nat) (sel : Bool) {w : Nat} (a b : BitVec w) : Option (BitVec w) :=
  match i with
  | .vand _ _ _ _ | .vandX _ _ _ _ | .vandI _ _ _ _ => some (a &&& b)
  | .vor _ _ _ _ | .vorX _ _ _ _ | .vorI _ _ _ _ => some (a ||| b)
  | .vxor _ _ _ _ | .vxorX _ _ _ _ | .vxorI _ _ _ _ => some (a ^^^ b)
  | .vshl _ _ _ _ | .vshlX _ _ _ _ | .vshlI _ _ _ _ => some (a <<< (b.toNat % w))
  | .vshr _ _ _ _ | .vshrX _ _ _ _ | .vshrI _ _ _ _ => some (a >>> (b.toNat % w))
  | .vsra _ _ _ _ | .vsraX _ _ _ _ | .vsraI _ _ _ _ => some (a.sshiftRight (b.toNat % w))
  | .vmov _ _ _ => some a
  | .viota _ _ => some (BitVec.ofNat w j)
  | .vsel _ _ _ _ _ => some (if sel then a else b)
  | _ => none

/-- The exact sum or difference of a saturating VADD or VSUB of integers, and whether it is unsigned (R259). -/
def laneExact (i : Instr) {w : Nat} (a b : BitVec w) : Option (Int × Bool) :=
  match i with
  | .vadd _ u true _ _ _ | .vaddX _ u true _ _ _ | .vaddI _ u true _ _ _ =>
    some (if u then (a.toNat : Int) + b.toNat else a.toInt + b.toInt, u)
  | .vsub _ u true _ _ _ | .vsubX _ u true _ _ _ =>
    some (if u then (a.toNat : Int) - b.toNat else a.toInt - b.toInt, u)
  | _ => none

/-- The least and the greatest integer of `w` bits. -/
def laneRange (w : Nat) (u : Bool) : Int × Int :=
  if u then (0, (2 ^ w : Nat) - 1) else (-(2 ^ (w - 1) : Nat), (2 ^ (w - 1) : Nat) - 1)

/-- What an element-wise instruction computes on integers of `w` bits (R259 to R261); none for one that takes no integers. -/
def laneInt (i : Instr) (j : Nat) (sel : Bool) {w : Nat} (a b c : BitVec w) : Option (BitVec w) :=
  match laneExact i a b with
  | some (n, u) => some (BitVec.ofInt w (max (laneRange w u).1 (min n (laneRange w u).2)))
  | none =>
    match i with
    | .vadd _ _ _ _ _ _ | .vaddX _ _ _ _ _ _ | .vaddI _ _ _ _ _ _ => some (a + b)
    | .vsub _ _ _ _ _ _ | .vsubX _ _ _ _ _ _ => some (a - b)
    | .vmul _ _ false _ _ _ | .vmulX _ _ false _ _ _ => some (a * b)
    | .vmul _ u true _ _ _ | .vmulX _ u true _ _ _ =>
      some (BitVec.ofInt w ((if u then (a.toNat : Int) * b.toNat else a.toInt * b.toInt) / (2 ^ w : Nat)))
    | .vdiv _ u _ _ _ => some (if b = 0 then BitVec.allOnes w else if u then a / b else a.sdiv b)
    | .vmin _ u _ _ _ | .vminX _ u _ _ _ => some (if (if u then b.ult a else b.slt a) then b else a)
    | .vmax _ u _ _ _ | .vmaxX _ u _ _ _ => some (if (if u then a.ult b else a.slt b) then b else a)
    | .vfma _ _ _ _ _ | .vfmaX _ _ _ _ _ => some (a * b + c)
    | .vfms _ _ _ _ _ | .vfmsX _ _ _ _ _ => some (a * b - c)
    | .vabs _ _ _ => some (if a.toInt < 0 then -a else a)
    | .vneg _ _ _ => some (-a)
    | _ => lanePattern i j sel a b

/-- A saturating instruction leaves the range of its integers (R259): IOV. -/
def laneClamps (i : Instr) {w : Nat} (a b : BitVec w) : Bool :=
  match laneExact i a b with
  | some (n, u) => decide (n < (laneRange w u).1 ∨ (laneRange w u).2 < n)
  | none => false

/-- What an element-wise instruction computes on floating-point codes, with its flags (R212, R259 to R261). -/
def laneFloat (i : Instr) (f : FFmt) (rm : BitVec 2) (a b c : Nat) : Option (Nat × Flags) :=
  match i with
  | .vadd _ _ _ _ _ _ | .vaddX _ _ _ _ _ _ => some (f.add rm a b)
  | .vsub _ _ _ _ _ _ | .vsubX _ _ _ _ _ _ => some (f.sub rm a b)
  | .vmul _ _ _ _ _ _ | .vmulX _ _ _ _ _ _ => some (f.mul rm a b)
  | .vdiv _ _ _ _ _ => some (f.div rm a b)
  | .vmin _ _ _ _ _ | .vminX _ _ _ _ _ => some (f.minNum a b)
  | .vmax _ _ _ _ _ | .vmaxX _ _ _ _ _ => some (f.maxNum a b)
  | .vfma _ _ _ _ _ | .vfmaX _ _ _ _ _ => some (f.fma rm false a b c)
  | .vfms _ _ _ _ _ | .vfmsX _ _ _ _ _ => some (f.fma rm true a b c)
  | .vsqrt _ _ _ => some (f.sqrt rm a)
  | .vrcp _ _ _ => some (f.recip rm a)
  | .vrsq _ _ _ => some (f.rsqrt rm a)
  | .vexp2 _ _ _ => some (f.exp2 rm a)
  | .vlog2 _ _ _ => some (f.log2 rm a)
  | .vabs _ _ _ => some (f.signOp (fun n => n % f.signBit) a)
  | .vneg _ _ _ => some (f.signOp (fun n => n ^^^ f.signBit) a)
  | _ => none

/-- The sources of a floating-point operation that it computes with, which hand poison on (R253). -/
def laneSources (i : Instr) (a b c : Nat) : List Nat :=
  match i with
  | .vfma _ _ _ _ _ | .vfmaX _ _ _ _ _ | .vfms _ _ _ _ _ | .vfmsX _ _ _ _ _ => [a, b, c]
  | .vsqrt _ _ _ | .vrcp _ _ _ | .vrsq _ _ _ | .vexp2 _ _ _ | .vlog2 _ _ _ | .vabs _ _ _ | .vneg _ _ _ => [a]
  | _ => [a, b]

/-- A step of member `m` of strand `u` moves its progress index to `hi` (and completes it): besides its destination, flags,
`pmask` and the charge of its lane groups nothing else changes (R173, R241, R254, R411). -/
def State.GroupStep (s s' : State) (u : Nat) (m : Member) (hi : Nat) (done : Bool) : Prop :=
  let t := s.strand u
  let t' := s'.strand u
  t'.queue = (t.queue.map fun q =>
    if q.iid = m.iid then
      { q with
        pv := true, idx := BitVec.ofNat 14 hi, mid := false, done := q.done || done, work := if done then none else q.work }
    else q) ∧
  { t' with v := t.v, vMirror := t.vMirror, p := t.p, pMirror := t.pMirror, modeReg := t.modeReg, pmask := t.pmask,
            queue := t.queue, waitsOn := t.waitsOn } = t ∧
  (∀ v, v ≠ u → s'.strand v = s.strand v) ∧ { s' with strands := s.strands, clusters := s.clusters } = s ∧
  ∀ c, { s'.cluster c with charge := (s.cluster c).charge } = s.cluster c

/-- Nothing that has completed waits to lower a dependence counter or to write a record of HOST-DETACHED elements, and member
`m` has none to lower (R98, R282). -/
def State.counted (s : State) (u : Nat) (m : Member) : Prop :=
  (s.strand u).detachNotes = [] ∧
    ∀ o ∈ (s.strand u).openInstrs, o.iid ≠ m.iid ∧ (o.executed = false ∨ s.ownElemsOut u o.iid = true)

/-- Member `m`, an instruction `i` of element type `ty`, is at the head of the queue of strand `u`, whose lane groups are
bound to it, and stands at elements that it has not processed ahead; the strand is not in protected mode (R165, R167, R172). -/
def State.heads (s : State) (u : Nat) (m : Member) (i : Instr) (ty : ElemTy) : Prop :=
  s.engineRuns u = true ∧ (s.strand u).colTrap = none ∧ (s.strand u).headMember = some m ∧ decode m.word = some i ∧
    (s.strand u).elemTy = some ty ∧ (s.strand u).protectedMode = false ∧ (s.strand u).readAhead m = false

/-- The same of a member that has no counter to lower, on a strand where nothing that has completed waits to lower one. -/
def State.atHead (s : State) (u : Nat) (m : Member) (i : Instr) (ty : ElemTy) : Prop := s.counted u m ∧ s.heads u m i ty

/-- The first element that a member has still to process (R241, R254). -/
def Member.first (m : Member) : Nat := if m.pv then m.idx.toNat else 0

/-- The end of the element group that holds element `j` (R171). -/
def groupEnd (ty : ElemTy) (j : Nat) : Nat := (j / (2048 / ElemTy.bits ty) + 1) * (2048 / ElemTy.bits ty)

/-- The operands of a predicate instruction, and the bit it computes for element `j` (R268). -/
def predForm (t : Strand) : Instr → Option (VCtl × PReg × (Nat → Bool))
  | .pand k pd pe pf => some (k, pd, fun j => (t.readP pe).getLsbD j && (t.readP pf).getLsbD j)
  | .por k pd pe pf => some (k, pd, fun j => (t.readP pe).getLsbD j || (t.readP pf).getLsbD j)
  | .pxor k pd pe pf => some (k, pd, fun j => (t.readP pe).getLsbD j != (t.readP pf).getLsbD j)
  | .pandn k pd pe pf => some (k, pd, fun j => (t.readP pe).getLsbD j && !(t.readP pf).getLsbD j)
  | .pset k pd n => some (k, pd, fun j => decide (j < n.toNat))
  | .pmov k pd pe => some (k, pd, fun j => (t.readP pe).getLsbD j)
  | _ => none

/-- The elements that are active and at which a predicate holds, ascending (R269). -/
def Strand.selectedLanes (t : Strand) (g : PReg) (n : Bool) (pe : PReg) : List Nat :=
  (List.range t.vl).filter fun j => t.activeLane g n j && (t.readP pe).getLsbD j

/-- The source element of a move across lanes, none where it delivers zero (R267, R272). -/
def moveFrom (t : Strand) (m : Member) (ty : ElemTy) (j : Nat) : Instr → Option (VCtl × Reg × Reg × Option Nat)
  | .vslide k down vd va amt =>
    let n := match amt with
      | .imm n => n.toNat
      | .reg _ => m.opb.toNat
    some (k, vd, va, if down then (if j + n < t.vl then some (j + n) else none)
      else if n ≤ j ∧ j - n < t.vl then some (j - n) else none)
  | .vperm k vd va vb =>
    let n := (t.lane (ElemTy.bits ty) vb j).toNat
    some (k, vd, va, if n < t.vl then some n else none)
  | .vlut k vd va vb =>
    let n := (t.lane (ElemTy.bits ty) vb j).toNat
    some (k, vd, va, if n < 2048 / ElemTy.bits ty then some n else none)
  | _ => none

/-- What an instruction with a scalar result replies (R265, R266, R268): VMVX its element, or 0 where that is not active;
PCNT and PFIRST the number of the selected elements and the first of them, or all ones. -/
def replyOf (t : Strand) (ty : ElemTy) : Instr → Option Word
  | .vmvxToScalar k _ va ix =>
    let n := t.lane (ElemTy.bits ty) va ix.toNat
    some (if t.activeLane k.g k.n ix.toNat then (if ty = .i32 then n.signExtend 64 else n.setWidth 64) else 0)
  | .pcnt k _ pe => some (BitVec.ofNat 64 (t.selectedLanes k.g k.n pe).length)
  | .pfirst k _ pe => some (((t.selectedLanes k.g k.n pe).head?.map (BitVec.ofNat 64)).getD (BitVec.allOnes 64))
  | _ => none

/-! ### Operations, tasks and areas -/

/-- The completion record of an operation: none for x0, otherwise 64 aligned bytes in a window (R369). -/
def State.recordAt (s : State) (xc : Reg) : Prop :=
  s.has xc ∧ (xc = 0 ∨ ((s.reg xc).toNat % 64 = 0 ∧ (s.localAt (s.reg xc) 64).isSome))

/-- The strand and the Drayman have room for one more operation with counter `d` (R363, R370). -/
def State.forkRoom (s : State) (d : BitVec 3) : Prop :=
  (s.opsOf s.me.holder).length < 64 ∧ (s.cluster (clusterOf s.cur)).ops.length < 256 ∧
    (d ≠ 0 → s.me.kept.dctr[d.toNat] ≠ BitVec.allOnes 16)

/-- The strand that issues has forked operation `o` (R362, R370): it is in flight under a fresh identity, its counter has
risen, the lines of its local destination are empty (R54), and nothing else has changed but the program counter. -/
def State.Forked (s t : State) (o : DOp) : Prop :=
  let c := clusterOf s.cur
  let k := s.cluster c
  t.cluster c = { k with nextSeq := seqAfter k.nextSeq, ops := k.ops ++ [o] } ∧
  (∀ d, d ≠ c → t.cluster d = s.cluster d) ∧
  o.ident = BitVec.ofNat 64 (k.nextSeq + s.cur * 2 ^ 32) ∧ o.uid = s.cur ∧ o.holder = s.me.holder ∧ o.owner = s.me.owner ∧
  o.mode = s.me.mode ∧ o.row = 0 ∧ o.off = 0 ∧ o.sector = 0 ∧ o.landed = 0 ∧ o.faults = 0 ∧ o.moving = none ∧
  t.me = ({ s.me with kept := { s.me.kept.raise o.counter with lastIdent := o.ident } }).atPc (s.me.pc + 8) ∧
  (∀ v, v ≠ s.cur → t.strand v = s.strand v) ∧ t.lmem = s.lmem ∧ t.pmem = s.pmem ∧ t.tags = s.tags ∧
  ∀ l, l ∈ t.empties ↔ l ∈ s.empties ∨ (o.state = .running ∧ l ∈ o.linesLeft)

/-- The state of an operation at its issue: it runs, or it ends with status VIOLATION where its local side leaves the windows
(R365). -/
def State.firstState (s : State) (o : DOp) : OpState :=
  if (List.range o.rows).any fun r => s.localBad s.cur (o.locAt r) o.rbytes then .ending 5 else .running

/-- The fields of a forked copy: the buffer of the handle operand `h`, whose entry is `e`, and the local side at `loc`, in
`rows` rows of `rb` bytes (R39, R372, R373). -/
def DOp.Copies (o : DOp) (s : State) (a : CopyArgs) (e : BitVec 256) (rows rb : Nat) (hs ls : Int) : Prop :=
  let h := s.reg a.xa
  o.kind = .copy ∧ o.handle = h.extractLsb' 0 32 ∧ o.buf = entryBase e + (h.extractLsb' 32 32).setWidth 64 ∧
  o.module = s.entryModule e ∧ o.loc = s.reg a.xd + a.off.signExtend 64 ∧ o.put = a.put ∧ o.rows = rows ∧ o.rbytes = rb ∧
  o.hstride = hs ∧ o.lstride = ls ∧ o.counter = a.d ∧ o.ui = a.u ∧
  o.recordAddr = (if a.xc = 0 then none else some (s.reg a.xc)) ∧ o.state = s.firstState o

/-- The state `t` after strand `u` goes on at its next word. -/
def State.movesOn (t : State) (u : Nat) : State := t.setStrand u ((t.strand u).atPc ((t.strand u).pc + 8))

/-- The 32-bit slots that a register of the strand fills (R248): 64 for a lane group, half as many in protected mode. -/
def Strand.slotCount (t : Strand) : Nat := (if t.protectedMode then 32 else 64) * t.lanes.length

/-- Offset of register `r` in an area of `slots` slots that holds the registers of `mask` (R248). -/
def blockOffset (slots : Nat) (mask : BitVec 32) (r : Nat) : Nat :=
  64 + (15 * slots / 4 + 63) / 64 * 64 + 4 * slots * ((List.range r).filter fun i => mask.getLsbD i).length

/-- The number of the masked registers below `r`. -/
def maskRank (mask : BitVec 32) (r : Nat) : Nat := ((List.range r).filter fun i => mask.getLsbD i).length

/-- A surrogate tile's staging has overflowed on some cluster (R418). -/
def State.overflows (s : State) : Bool := s.clusters.any fun e => e.2.launches.any fun l => l.tiles.any (·.overflow)

/-- Nothing but physical memory, the keys and the marks of its units, the violation log, the error log and the events that
an error record raises has changed. -/
def OnlyRecords (s t : State) : Prop :=
  { t with pmem := s.pmem, units := s.units, physMarks := s.physMarks, vlog := s.vlog, elog := s.elog,
           eventSet := s.eventSet } = s

/-- The `n` bytes from virtual address `va` on are local ones, `a` the first: none of them lies outside the window. -/
def State.span (s : State) (va : Word) (n a : Nat) : Prop := ∀ i, i < n → s.localAt (va + BitVec.ofNat 64 i) 1 = some (a + i)

/-- The pieces of its area that SAVEV writes: header and predicates unless a transfer is under way, and the masked registers
that are left (R248, R249). -/
def Strand.savedPieces (t : Strand) (mask : BitVec 32) : List (Nat × Nat) :=
  (if t.spillcnt = 0 then [(0, 64), (64, 15 * t.slotCount / 4)] else []) ++
    ((List.range 32).filter fun r => mask.getLsbD r && decide (t.spillcnt.toNat ≤ maskRank mask r)).map fun r =>
      (blockOffset t.slotCount mask r, 4 * t.slotCount)

/-- The mailbox with arguments written from MBARG0 on (R465). -/
def Mailbox.withArgs (m : Mailbox) (args : List Word) : Mailbox :=
  { m with arg := Vector.ofFn fun k => args.getD k.val m.arg[k] }

/-- The state after the host writes a command with its arguments: one that meets BUSY sets REJ and is ignored; otherwise it is
served from then on, with the arguments that MBARG0 to MBARG3 hold (R465). -/
def State.commanded (s : State) (code : Byte) (args : List Word) : State :=
  let m := s.mailbox.withArgs args
  { s with mailbox := if s.mailbox.cmd = none then { m with cmd := some (code, m.arg) } else { m with rej := true } }

/-- The state after the command that is served has its result (R465). -/
def State.answered (s : State) (r : Byte) : State := { s with mailbox := { s.mailbox with result := r, cmd := none } }

/-- One violation record has been offered to the violation log (R46): it is appended, or counted as lost. The strands and
local memory are as before. -/
def State.LogsOne (s s1 : State) : Prop :=
  s1.vlog = (if s.vlog.takes then { s.vlog with head := s.vlog.head + 1 } else { s.vlog with lost := satInc s.vlog.lost }) ∧
    s1.strands = s.strands ∧ s1.lmem = s.lmem

/-! ### Vector memory, reductions and columns -/

/-- The loads that fill a register by element groups: control, format, register, and the address of each element, where the
format is that of the elements (R278). -/
def loadForm (t : Strand) (m : Member) (w : Nat) : Instr → Option (VCtl × MCtl × Reg × (Nat → Word))
  | .vld k c vd _ off => some (k, c, vd, fun j => m.opa + off.signExtend 64 + BitVec.ofNat 64 (j * (w / 8)))
  | .vldStrided k c vd _ _ off => some (k, c, vd, fun j => m.opa + off.signExtend 64 + BitVec.ofNat 64 j * m.opb)
  | .vgath k c vd _ vi off =>
    some (k, c, vd, fun j => m.opa + off.signExtend 64 + BitVec.ofNat 64 ((t.lane w vi j).toNat * (w / 8)))
  | _ => none

/-- The stores by element groups, likewise. -/
def storeForm (t : Strand) (m : Member) (w : Nat) : Instr → Option (GCtl × MCtl × Reg × (Nat → Word))
  | .vst k c vs _ off => some (k, c, vs, fun j => m.opa + off.signExtend 64 + BitVec.ofNat 64 (j * (w / 8)))
  | .vstStrided k c vs _ _ off => some (k, c, vs, fun j => m.opa + off.signExtend 64 + BitVec.ofNat 64 j * m.opb)
  | .vscat k c vs _ vi off =>
    some (k, c, vs, fun j => m.opa + off.signExtend 64 + BitVec.ofNat 64 ((t.lane w vi j).toNat * (w / 8)))
  | _ => none

/-- The operation of VRED on integer elements, and its identity (R220, R266). -/
def redInt (w : Nat) : RedOp → (BitVec w → BitVec w → BitVec w) × BitVec w
  | .sum => ((· + ·), 0)
  | .and => ((· &&& ·), BitVec.allOnes w)
  | .or => ((· ||| ·), 0)
  | .xor => ((· ^^^ ·), 0)
  | .min => (fun a b => if b.slt a then b else a, BitVec.intMax w)
  | .max => (fun a b => if a.slt b then b else a, BitVec.intMin w)
  | .minu => (fun a b => if b.ult a then b else a, BitVec.allOnes w)
  | .maxu => (fun a b => if a.ult b then b else a, 0)

/-- A member of a column instruction that is at work: the engine takes its next step. -/
def State.columnAt (s : State) (u : Nat) (m : Member) (i : Instr) (w : ColWork) : Prop :=
  let t := s.strand u
  s.engineRuns u = true ∧ t.colTrap = none ∧ t.headMember = some m ∧ decode m.word = some i ∧ t.readAhead m = false ∧
    ((t.queue.find? fun q => q.iid = m.iid).bind (·.work)) = some w ∧
    s.calm ∧ s.launchActive (clusterOf u) = false ∧ (s.cluster (clusterOf u)).storeQueue = []

/-- The `n` bytes from address `va` on are full and unmarked bytes of a window that the member sees, and their value is
`v`. -/
def State.holdsAt (s : State) (u : Nat) (m : Member) (va : Word) (n v : Nat) : Prop :=
  ∃ a, windowAddr u va = some a ∧ s.clean a n ∧ natOfBytes (readBytes s.lmem a n) = v ∧
    (m.mode = .user → ∀ i, i < n → Tab.get 0 s.tags ((a + i) / 128) = m.owner)

/-- Row `i` of a source: its position, which a position list names where there is one (R306), and its key. -/
def State.rowIs (s : State) (u : Nat) (m : Member) (d : BitVec 256) (i pos key : Nat) : Prop :=
  (if descHaspos d then s.holdsAt u m (descPbase d + BitVec.ofNat 64 (4 * i)) 4 pos else pos = i) ∧
    s.holdsAt u m (descBase d + BitVec.ofNat 64 (pos * etypeBytes (descType d))) (etypeBytes (descType d)) key

/-- Where output element `j` of a destination lies, and its bytes: an entry of a position list, or an element (R306). -/
def Strand.outputAddr (t : Strand) (k : PReg) (j : Nat) : Word × Nat :=
  let d := t.k[k.toNat]
  let n := if descHaspos d then 4 else etypeBytes (descType d)
  ((if descHaspos d then descPbase d else descBase d) + BitVec.ofNat 64 (n * j), n)

/-- Output element `j` of a destination can be put into a store queue: local address `a`, in a full line, apart from every
source and from the other destination. -/
def State.outputFits (s : State) (u : Nat) (w : ColWork) (k : PReg) (other : Option PReg) (j a : Nat) : Prop :=
  let t := s.strand u
  let o := t.outputAddr k j
  windowAddr u o.1 = some a ∧ s.localFull a o.2 = true ∧ w.srcs.any descHaspos = false ∧
    ∀ r ∈ w.srcs.map descRange ++ other.toList.map (fun q => destRange t.k[q.toNat]), meets o.1.toNat o.2 r = false

/-- The entry of a store queue that output element `j`, of value `v` at local address `a`, makes. -/
def Strand.outputStore (t : Strand) (u : Nat) (m : Member) (group : Nat) (k : PReg) (j v a : Nat) : ElemStore :=
  let o := t.outputAddr k j
  ⟨u, m.iid, t.lanes.headD 0, localSlice a, group, m.mode, some a, localTarget m.owner o.1,
    .store (writeAll (bytesOfNat o.2 v)), [⟨o.1, o.2, m.addr, m.iid, some 0⟩]⟩

/-- What one step of a column instruction leaves: its work moved on by `f`, the stores of `l` in the queues, and the key
store's rows changed by `g`. Nothing else of the strand changes, no other strand and no memory. -/
def State.ColumnStep (s s' : State) (u : Nat) (m : Member) (f : ColWork → ColWork) (l : List ElemStore)
    (g : List KeyRow → List KeyRow) : Prop :=
  let t := s.strand u
  let k := s.cluster (clusterOf u)
  let k' := s'.cluster (clusterOf u)
  (s'.strand u).queue = t.queue.map (fun q => if q.iid = m.iid then { q with work := q.work.map f } else q) ∧
    { s'.strand u with queue := t.queue, waitsOn := t.waitsOn } = t ∧ (∀ v, v ≠ u → s'.strand v = s.strand v) ∧
    { k' with charge := k.charge, storeQueue := k.storeQueue, keyStore := k.keyStore } = k ∧
    k'.storeQueue = l.foldl (fun q e => enqueue e q) [] ∧
    k'.keyStore = (k.keyStore.map fun x => { x with rows := g x.rows }) ∧ s'.lmem = s.lmem ∧ s'.pmem = s.pmem

/-- The handle-table entry that a handle names lies in storage and holds no error. -/
def State.handleReads (s : State) (o : Owner) (h : BitVec 32) : Prop :=
  s.deviceReaches (s.handleAddr o (handleSlot h)) 32 = true ∧ s.physMarked (s.handleAddr o (handleSlot h)) 32 = false

end Machine

end Sys2Proof
end

