-- ==== Sys2Proof/Certificates/Slice0/Obligations.lean ====
section
/-!
DEFINITION. The statements of this model for the provers. `s.me` is the strand that issues, `s.reg r` what its register
holds, `s.wrote xd w` the state in which nothing but register xd and the program counter has changed (Safety.lean).
-/

open Sys2Proof Sys2Proof.Machine

/-! ### Scalar instructions -/

/-- R224: what the register forms of the integer instructions write, on 64-bit two's-complement values. -/
def Obligations.IntegerRegisterForms : Prop :=
  ∀ (s : State) (xd xa xb xc : Reg), s.between → s.has xa → s.has xb → s.has xc →
    let a := s.reg xa
    let b := s.reg xb
    exec (.add xd xa xb) s = .next (s.wrote xd (a + b)) ∧
    exec (.sub xd xa xb) s = .next (s.wrote xd (a - b)) ∧
    exec (.mul xd xa xb) s = .next (s.wrote xd (a * b)) ∧
    exec (.mulh xd xa xb) s = .next (s.wrote xd ((a.signExtend 128 * b.signExtend 128).extractLsb' 64 64)) ∧
    exec (.mulhu xd xa xb) s = .next (s.wrote xd ((a.setWidth 128 * b.setWidth 128).extractLsb' 64 64)) ∧
    exec (.and xd xa xb) s = .next (s.wrote xd (a &&& b)) ∧
    exec (.or xd xa xb) s = .next (s.wrote xd (a ||| b)) ∧
    exec (.xor xd xa xb) s = .next (s.wrote xd (a ^^^ b)) ∧
    exec (.shl xd xa xb) s = .next (s.wrote xd (a <<< count6 b)) ∧
    exec (.shr xd xa xb) s = .next (s.wrote xd (a >>> count6 b)) ∧
    exec (.sra xd xa xb) s = .next (s.wrote xd (a.sshiftRight (count6 b))) ∧
    exec (.slt xd xa xb) s = .next (s.wrote xd (if a.toInt < b.toInt then 1 else 0)) ∧
    exec (.sltu xd xa xb) s = .next (s.wrote xd (if a.toNat < b.toNat then 1 else 0)) ∧
    exec (.min xd xa xb) s = .next (s.wrote xd (if a.toInt ≤ b.toInt then a else b)) ∧
    exec (.max xd xa xb) s = .next (s.wrote xd (if b.toInt ≤ a.toInt then a else b)) ∧
    (∃ n, LeadingZeros a n ∧ exec (.clz xd xa) s = .next (s.wrote xd (BitVec.ofNat 64 n))) ∧
    exec (.popc xd xa) s = .next (s.wrote xd (BitVec.ofNat 64 (onesOf a))) ∧
    exec (.csel xd xa xb xc) s = .next (s.wrote xd (if s.reg xc ≠ 0 then a else b))

/-- R224 and R225: DIV and REM round toward zero, DIVU and REMU are unsigned; by zero the quotient is all ones and the
remainder is a; the signed overflow gives -2^63 and 0. -/
def Obligations.Division : Prop :=
  ∀ (s : State) (xd xa xb : Reg), s.between → s.has xa → s.has xb →
    let a := s.reg xa
    let b := s.reg xb
    exec (.div xd xa xb) s = .next (s.wrote xd (if b = 0 then -1 else a.sdiv b)) ∧
    exec (.divu xd xa xb) s = .next (s.wrote xd (if b = 0 then -1 else a / b)) ∧
    exec (.rem xd xa xb) s = .next (s.wrote xd (if b = 0 then a else a.srem b)) ∧
    exec (.remu xd xa xb) s = .next (s.wrote xd (if b = 0 then a else a % b)) ∧
    (a = BitVec.intMin 64 → b = -1 →
      exec (.div xd xa xb) s = .next (s.wrote xd (BitVec.intMin 64)) ∧
      exec (.rem xd xa xb) s = .next (s.wrote xd 0))

/-- R226: the immediate forms. -/
def Obligations.ImmediateForms : Prop :=
  ∀ (s : State) (xd xa : Reg) (imm : BitVec 32) (n : BitVec 6), s.between → s.has xa →
    let a := s.reg xa
    let b : Word := imm.signExtend 64
    exec (.addi xd xa imm) s = .next (s.wrote xd (a + b)) ∧
    exec (.andi xd xa imm) s = .next (s.wrote xd (a &&& b)) ∧
    exec (.ori xd xa imm) s = .next (s.wrote xd (a ||| b)) ∧
    exec (.xori xd xa imm) s = .next (s.wrote xd (a ^^^ b)) ∧
    exec (.shli xd xa n) s = .next (s.wrote xd (a <<< n.toNat)) ∧
    exec (.shri xd xa n) s = .next (s.wrote xd (a >>> n.toNat)) ∧
    exec (.srai xd xa n) s = .next (s.wrote xd (a.sshiftRight n.toNat)) ∧
    exec (.limm xd imm) s = .next (s.wrote xd b) ∧
    exec (.addpc xd imm) s = .next (s.wrote xd (s.me.pc + b))

/-- R227, R228, R229: a scalar floating-point instruction writes the zero-extended result of its operation on the codes
in the low bits of its sources, ORs its flags into `mode`, and goes on. -/
def Obligations.FloatForms : Prop :=
  ∀ (s : State) (t : FTy) (xd xa xb xc : Reg), s.between → s.has xa → s.has xb → s.has xc →
    let f := FTy.ffmt t
    let code (r : Reg) : Nat := (s.reg r).toNat % 2 ^ f.width
    let ends (r : Nat × Flags) : Host.Outcome State Fault Refusal :=
      .next (s.goesOn ((s.me.writeX xd (BitVec.ofNat 64 r.1)).raise r.2))
    exec (.fadd t xd xa xb) s = ends (f.add s.me.rm (code xa) (code xb)) ∧
    exec (.fsub t xd xa xb) s = ends (f.sub s.me.rm (code xa) (code xb)) ∧
    exec (.fmul t xd xa xb) s = ends (f.mul s.me.rm (code xa) (code xb)) ∧
    exec (.fdiv t xd xa xb) s = ends (f.div s.me.rm (code xa) (code xb)) ∧
    exec (.fsqrt t xd xa) s = ends (f.sqrt s.me.rm (code xa)) ∧
    exec (.fma t xd xa xb xc) s = ends (f.fma s.me.rm false (code xa) (code xb) (code xc)) ∧
    exec (.fmin t xd xa xb) s = ends (f.minNum (code xa) (code xb)) ∧
    exec (.fmax t xd xa xb) s = ends (f.maxNum (code xa) (code xb)) ∧
    (∀ c, exec (.fcmp t c xd xa xb) s =
      ends ((f.cond c (code xa) (code xb)).1.toNat, (f.cond c (code xa) (code xb)).2)) ∧
    ∀ dst src, exec (.fcvt dst src xd xa) s =
      .next (s.goesOn ((s.me.writeX xd (cvtVal dst src s.me.rm (s.reg xa)).1).raise (cvtVal dst src s.me.rm (s.reg xa)).2))

/-- R215, R227 to R229: a poison operand gives POISON and raises no flag, in every operation that rounds and in the minimum
and the maximum. A comparison takes it as a quiet NaN that raises no flag, and compares its bits under the codes that compare
patterns; the other operand raises what it would raise. A conversion of poison gives POISON of a floating-point destination,
and the most negative integer of an integer one, and raises no flag. -/
def Obligations.FloatPoison : Prop :=
  ∀ (s : State) (t : FTy) (xd xa xb xc : Reg), s.between → s.has xa → s.has xb → s.has xc →
    let f := FTy.ffmt t
    let poison (r : Reg) : Prop := (s.reg r).toNat % 2 ^ f.width = f.poison
    let gives := Host.Outcome.next (φ := Fault) (ρ := Refusal) (s.wrote xd (BitVec.ofNat 64 f.poison))
    ((poison xa ∨ poison xb) →
      exec (.fadd t xd xa xb) s = gives ∧ exec (.fsub t xd xa xb) s = gives ∧
      exec (.fmul t xd xa xb) s = gives ∧ exec (.fdiv t xd xa xb) s = gives ∧
      exec (.fmin t xd xa xb) s = gives ∧ exec (.fmax t xd xa xb) s = gives) ∧
    (poison xa → exec (.fsqrt t xd xa) s = gives) ∧
    (poison xa ∨ poison xb ∨ poison xc → exec (.fma t xd xa xb xc) s = gives) ∧
    (∀ (c : Cond) (p q : Reg), (p = xa ∧ q = xb ∨ p = xb ∧ q = xa) → poison p →
      let code (r : Reg) : Nat := (s.reg r).toNat % 2 ^ f.width
      let holds : Bool := match c with
        | .eq | .lt | .le | .gt | .ge | .ord => false
        | .ne | .uno => true
        | .ltu => decide (code xa < code xb)
        | .leu => decide (code xa ≤ code xb)
        | .gtu => decide (code xb < code xa)
        | .geu => decide (code xb ≤ code xa)
      let raises : Bool := code q != f.poison && match c with
        | .eq | .ne | .uno | .ord => (f.decode (code q)).isSnan
        | .lt | .le | .gt | .ge => (f.decode (code q)).isNan
        | .ltu | .leu | .gtu | .geu => false
      exec (.fcmp t c xd xa xb) s =
        .next (s.goesOn ((s.me.writeX xd (if holds then 1 else 0)).raise (if raises then Flags.nv else 0)))) ∧
    ∀ dst src : CvtTy, (src = .f32 ∧ (s.reg xa).toNat % 2 ^ 32 = 0xfff00bad ∨
        src = .bf16 ∧ (s.reg xa).toNat % 2 ^ 16 = 0xfff0) →
      exec (.fcvt dst src xd xa) s = .next (s.wrote xd (match dst with
        | .f32 => 0xfff00bad
        | .bf16 => 0xfff0
        | .i32 => 0xffffffff80000000
        | .u32 => 0x80000000
        | .i64 | .u64 => 0x8000000000000000))

/-- R179, R230: where the control instructions go; a misaligned target of RET or JMP takes ALIGN before any effect. -/
def Obligations.ControlFlow : Prop :=
  ∀ (s : State) (xd xa xb : Reg) (c : Cond) (off : BitVec 32), s.between →
    let target := s.me.pc + 8 * off.signExtend 64
    exec (.br off) s = .next (s.become (s.me.atPc target)) ∧
    exec (.call xd off) s = .next (s.become ((s.me.writeX xd (s.me.pc + 8)).atPc target)) ∧
    (s.has xa → s.has xb →
      exec (.bcmp c xa xb off) s =
        .next (s.become (s.me.atPc (if intCond 64 false c (s.reg xa) (s.reg xb) then target else s.me.pc + 8)))) ∧
    (s.has xa →
      let a := s.reg xa
      let j := a + off.signExtend 64
      exec (.ret xa) s = (if a.toNat % 8 = 0 then .next (s.become (s.me.atPc a)) else s.traps 3 0 a) ∧
      exec (.jmp xa off) s = (if j.toNat % 8 = 0 then .next (s.become (s.me.atPc j)) else s.traps 3 0 j))

/-- R224, R212, R239, R35: what an instruction that computes a scalar register leaves alone: every register but its
destination (x0 reads as zero throughout), every flag unless it is a floating-point instruction, every other bit of `mode`,
every other register of the strand, every other strand, and all of memory. It goes on at the next word. -/
def Obligations.ScalarFrame : Prop :=
  ∀ (i : Instr) (s : State) (xd : Reg) (srcs : List Reg) (flags : Bool), computes i = some (xd, srcs, flags) →
    s.between → (∀ r ∈ srcs, s.has r) →
    ∃ t, exec i s = .next t ∧ t.me.pc = s.me.pc + 8 ∧ (∀ r, r ≠ xd → t.reg r = s.reg r) ∧ t.reg 0 = 0 ∧
      t.me.modeReg &&& ~~~0x3f0 = s.me.modeReg &&& ~~~0x3f0 ∧
      (flags = false → t.me.modeReg = s.me.modeReg) ∧
      (∀ a, Memory.read t.lmem a = Memory.read s.lmem a ∧ Memory.read t.pmem a = Memory.read s.pmem a) ∧
      OnlyScalar s.me t.me ∧ OnlyMe s t

/-! ### Scalar memory accesses -/

/-- R231, R35, R36: a load from a window whose lines are full and unmarked writes the bytes, zero- or sign-extended. A
user-mode strand reads zeros in a line that has another owner's tag. Nothing else changes. -/
def Obligations.LoadWindow : Prop :=
  ∀ (s : State) (size : MemSize) (sgn : Bool) (xd xa xb : Reg) (off : BitVec 32) (a : Nat), s.ready → s.has xa → s.has xb →
    let n := size.bytes
    let va := s.reg xa + off.signExtend 64
    let vx := s.reg xa + s.reg xb * BitVec.ofNat 64 n
    (va.toNat % n = 0 → s.localAt va n = some a → s.clean a n →
      exec (.ld size sgn xd xa off) s = .next (s.wrote xd (loaded sgn n (s.seenNat a n)))) ∧
    (vx.toNat % n = 0 → s.localAt vx n = some a → s.clean a n →
      exec (.ldIndexed size sgn xd xa xb) s = .next (s.wrote xd (loaded sgn n (s.seenNat a n))))

/-- R231, R35, R36: a store to a window whose lines are full and unmarked stores the low bytes of the register, and leaves
every other byte of memory as it is, but for a line that it takes over from another owner in user mode. -/
def Obligations.StoreWindow : Prop :=
  ∀ (s : State) (size : MemSize) (xd xa xb : Reg) (off : BitVec 32) (a : Nat), s.ready → s.has xd → s.has xa → s.has xb →
    Memory.wf s.lmem →
    let n := size.bytes
    let va := s.reg xa + off.signExtend 64
    let vx := s.reg xa + s.reg xb * BitVec.ofNat 64 n
    (va.toNat % n = 0 → s.localAt va n = some a → s.clean a n →
      ∃ t, exec (.st size xd xa off) s = .next t ∧ StoredLocal s t a n (s.reg xd).toNat ∧
        t.me = s.me.atPc (s.me.pc + 8) ∧ ∀ v, v ≠ s.cur → t.strand v = s.strand v) ∧
    (vx.toNat % n = 0 → s.localAt vx n = some a → s.clean a n →
      ∃ t, exec (.stIndexed size xd xa xb) s = .next t ∧ StoredLocal s t a n (s.reg xd).toNat ∧
        t.me = s.me.atPc (s.me.pc + 8) ∧ ∀ v, v ≠ s.cur → t.strand v = s.strand v)

/-- R231, R72: a misaligned access takes ALIGN before any effect, with tval the address. -/
def Obligations.Misaligned : Prop :=
  ∀ (s : State) (size : MemSize) (asize : AmoSize) (sgn : Bool) (xd xa xb : Reg) (off : BitVec 32) (op : AmoOp) (scope : Scope)
    (order : Order), s.between → s.has xd → s.has (xd + 1) → s.has xa → s.has xb → s.has (xb + 1) →
    let va := s.reg xa + off.signExtend 64
    let vx := s.reg xa + s.reg xb * BitVec.ofNat 64 size.bytes
    let align (a : Word) : Host.Outcome State Fault Refusal := s.traps 3 0 a
    (va.toNat % size.bytes ≠ 0 →
      exec (.ld size sgn xd xa off) s = align va ∧ exec (.st size xd xa off) s = align va) ∧
    (vx.toNat % size.bytes ≠ 0 →
      exec (.ldIndexed size sgn xd xa xb) s = align vx ∧ exec (.stIndexed size xd xa xb) s = align vx) ∧
    ((s.reg xa).toNat % asize.bytes ≠ 0 →
      exec (.amo op asize scope order xd xa xb) s = align (s.reg xa) ∧
      exec (.cas asize scope order xd xa xb) s = align (s.reg xa))

/-- R55: a load or a store that meets an empty line waits, and changes nothing. An element group of a vector load (VLD,
strided VLD, VGATH) or of a vector store (VST, strided VST, VSCAT) whose active elements lie in windows waits while a line of
one of them is empty: no register changes. LINE_FULL_WAKE, once the lines are full: the group completes. Each active element
of the loaded register holds what its bytes hold; each active element that is stored is put into the store queue of its lane
group and slice, with its address and its bytes (R75, R251, R254, R278, R281, R286, R289, R290, R440). The format is that of
the elements, and the form is not an ordered one. That LINE_FULL_WAKE makes the column engine take its step is a reading
(log 68). -/
def Obligations.EmptyLineWaits : Prop :=
  (∀ (s : State) (size : MemSize) (sgn : Bool) (xd xa : Reg) (off : BitVec 32) (a : Nat), s.ready → s.has xd → s.has xa →
    let n := size.bytes
    let va := s.reg xa + off.signExtend 64
    va.toNat % n = 0 → s.localAt va n = some a → s.localFull a n = false →
      exec (.ld size sgn xd xa off) s = .next s ∧ exec (.st size xd xa off) s = .next s) ∧
  ∀ (s : State) (uid : Uid) (m : Member) (i : Instr) (ty : ElemTy) (place : Nat → Nat),
    let u := uid.toNat
    let t := s.strand u
    let c := clusterOf u
    let w := ElemTy.bits ty
    let n := w / 8
    let hi := groupEnd ty m.first
    let waits (on : Nat → Bool) (va : Nat → Word) : Prop :=
      (∃ j, on j = true ∧ s.localFull (place j) n = false) →
      ∃ s' j x, exec (.lineFullWake uid) s = .next s' ∧ on j = true ∧ s.localFull (place j) n = false ∧
        (s'.strand u).waitsOn = some x ∧ x.addr = va j ∧ x.code = 1 ∧ (s'.strand u).v = t.v ∧ (s'.strand u).p = t.p ∧
        (s'.strand u).modeReg = t.modeReg ∧ s'.lmem = s.lmem ∧ (s'.cluster c).storeQueue = (s.cluster c).storeQueue
    let goesOn (s' : State) : Prop :=
      (s'.strand u).p = t.p ∧ (s'.strand u).modeReg = t.modeReg ∧ (s'.strand u).x = t.x ∧ (s'.strand u).fmask = 0 ∧
      ((s'.strand u).queue = t.queue.map fun q =>
        if q.iid = m.iid then
          { q with
            pv := true, idx := BitVec.ofNat 14 hi, mid := false, done := q.done || decide (t.vl ≤ hi)
            work := if t.vl ≤ hi then none else q.work }
        else q) ∧
      s'.lmem = s.lmem ∧ s'.pmem = s.pmem ∧ ∀ v, v ≠ u → s'.strand v = s.strand v
    s.heads u m i ty → m.replays = false → m.ahead = [] → m.first < t.vl → (m.pv = true → t.fmask = 0) →
    (∀ r, t.streamOf r = none) → t.detachNotes = [] → s.calm → s.launchActive c = false → s.tileOf u = none →
    (∀ k f vd va, loadForm t m w i = some (k, f, vd, va) → f.fmt = fmtOfTy ty → f.o = false →
      (s.cluster c).storeQueue = [] →
      let on (j : Nat) : Bool := decide (m.first ≤ j ∧ j < hi) && t.activeLane k.g k.n j
      (∀ j, on j = true → windowAddr u (va j) = some (place j) ∧
        (m.mode = .user → ∀ i, i < n → Tab.get 0 s.tags ((place j + i) / 128) = m.owner)) →
      waits on va ∧
      ((∀ j, on j = true → s.clean (place j) n) → ∃ s', exec (.lineFullWake uid) s = .next s' ∧ goesOn s' ∧
        (∀ j, j < 16384 / w → (s'.strand u).lane w vd j =
          if on j then BitVec.ofNat w (natOfBytes (readBytes s.lmem (place j) n))
          else if m.first ≤ j ∧ j < hi ∧ k.z then 0 else t.lane w vd j) ∧
        (∀ r, r ≠ vd → (s'.strand u).v[r.toNat] = t.v[r.toNat]) ∧ (s'.cluster c).storeQueue = [])) ∧
    (∀ k f vs va, storeForm t m w i = some (k, f, vs, va) → f.fmt = fmtOfTy ty → f.o = false →
      let on (j : Nat) : Bool := decide (m.first ≤ j ∧ j < hi) && t.activeLane k.g k.n j
      let stored := (List.range hi).filter on
      let lg (j : Nat) : Nat := t.lanes.getD (j / (2048 / w)) 0
      let entry (j : Nat) : ElemStore :=
        ⟨u, m.iid, lg j, localSlice (place j), j / (2048 / w), m.mode, some (place j), localTarget m.owner (va j),
          .store (writeAll (bytesOfNat n (t.lane w vs j).toNat)), [⟨va j, n, m.addr, m.iid, some j⟩]⟩
      (∀ j, on j = true → windowAddr u (va j) = some (place j)) →
      s.fitting c [] (stored.map fun j =>
        some (lg j, localSlice (place j), u, m.iid, j / (2048 / w), place j / 128)) = stored.length →
      waits on va ∧
      ((∀ j, on j = true → s.localFull (place j) n = true) → ∃ s', exec (.lineFullWake uid) s = .next s' ∧ goesOn s' ∧
        (s'.strand u).v = t.v ∧
        (s'.cluster c).storeQueue = stored.foldl (fun q j => enqueue (entry j) q) (s.cluster c).storeQueue))

/-! ### Encoding -/

/-- R185, R187, R191, R192, R194, R196, R198, R200, R201: words written out field by field from the tables of the formats,
and words of the manual's own table of examples. -/
def Obligations.SpecWordsDecode : Prop :=
  -- ADD x1, x2, x3: opcode, xd, xa, xb, func9, imm32
  decode (0b00000001#8 ++ 0b00001#5 ++ 0b00010#5 ++ 0b00011#5 ++ 0b000000000#9 ++ 0#32) = some (.add 1 2 3) ∧
  -- LD.w.s x4, [x5, -8]: S and the size code in func9
  decode (0b00111000#8 ++ 0b00100#5 ++ 0b00101#5 ++ 0b00000#5 ++ 0b000000110#9 ++ 0xfffffff8#32) =
    some (.ld .w true 4 5 0xfffffff8) ∧
  -- CSRR x3, status: the number in imm32 11:0
  decode (0b11100011#8 ++ 0b00011#5 ++ 0b00000#5 ++ 0b00000#5 ++ 0b000000000#9 ++ 0x400#32) = some (.csrr 3 0x400) ∧
  -- BCMP.ne x5, x0, two words back: opcode, xa, xb, cond, RSV, offset
  decode 0x31280400fffffffe = some (.bcmp .ne 5 0 0xfffffffe) ∧
  -- VADD v3, v1, v2 ?p1 and VMOV v3, v2 ?!p1
  decode 0x4308308800000000 = some (.vadd ⟨false, 1, false, false⟩ false false 3 1 2) ∧
  decode 0x5b0c310000000000 = some (.vmov ⟨false, 1, true, false⟩ 3 2) ∧
  -- VLD.f32 v1, [x10, 0] &
  decode 0x8080150081000000 =
    some (.vld ⟨true, 0, false, false⟩ ⟨.f32, false, false, 0, .module, .default⟩ 1 10 0) ∧
  -- KSEL.gt k2, x8, k1, x6
  decode 0xa221004190000000 = some (.ksel .gt 2 8 1 6) ∧
  -- MMA.f16.e4m3 x7, x9: opcode, xa, xb, xc, fmtA, fmtB, mode, imm
  decode (0b10110011#8 ++ 0b00111#5 ++ 0b01001#5 ++ 0b00000#5 ++ 0b0100#4 ++ 0b0101#4 ++ 0b000#3 ++
    (0b00000000000011#14 ++ 0b00000010#8 ++ 0b00000001#8)) = some (.mma .f16 .e4m3 7 9 1 2 3) ∧
  -- DCOPY.d2.put.ui with offset 64: opcode, xd, xa, xb, xc, D, U, func3, RSV, op, offset
  decode (0b11000001#8 ++ 0b00001#5 ++ 0b00010#5 ++ 0b00011#5 ++ 0b00100#5 ++ 0b010#3 ++ 0b1#1 ++ 0b001#3 ++ 0b0000#4 ++
    0b0000#4 ++ 64#21) = some (.dcopy ⟨1, 2, 3, 4, 2, true, true, 64⟩) ∧
  -- a reserved field that is not zero, an all-zero word, and an unassigned opcode
  decode 0x4304308800000001 = none ∧ decode 0 = none ∧ decode 0xf000000000000000 = none

/-- R178, R184 to R201: the word that the formats give a well-formed instruction decodes to that instruction, for every
instruction form and every operand. -/
def Obligations.DecodeEncode : Prop := ∀ i : Instr, i.isWord = true → i.wf = true → decode (encode i) = some i

/-- R182, R184, R202: a word that decodes is the one word of its instruction: every reserved field and every code that its
row does not accept refuses it, and so does an unassigned opcode. -/
def Obligations.DecodeAccepts : Prop :=
  (∀ (w : BitVec 64) (i : Instr), decode w = some i → i.isWord = true ∧ i.wf = true ∧ encode i = w) ∧
  ∀ w : BitVec 64, 0xf0 ≤ (w.extractLsb' 56 8).toNat ∨ (w.extractLsb' 56 8).toNat = 0 → decode w = none

/-! ### One step -/

/-- R178, R202, R203: a strand whose turn it is executes the instruction that the word at its program counter decodes to; a
word that decodes to none takes ILLEGAL with tval the address of the word. The word is the eight bytes at the program
counter, from the instruction cache where that holds the line. In a step, time passes before, and what follows at once comes
after (log 1). An instruction that orders the older loads of its strand executes once they have their values (R129, log 92):
while the strand has gone on from the value of one that is still to be performed, that load is performed in its place. Where
the strand has no such load, the state that the instruction executes in is that of its fetch. -/
def Obligations.StepRunsDecoded : Prop :=
  (∀ s : State, s.stopped = false → s.agenda = [] → s.phase = true →
    step s = watched ({ s.clock with phase := false }).issue) ∧
  (∀ (s : State) (v : Uid) (rest : List Move), s.stopped = false → s.agenda = .issue v :: rest →
    step s = watched ({ s.clock with agenda := rest, cur := v.toNat }).issue) ∧
  (∀ (s t : State) (w : Word) (i : Instr), s.issues → fetchM s.cur s.turn = .ok w t → decode w = some i →
    let me := t.strand s.cur
    let kept : Strand := { me with late := me.guesses }
    (me.late = [] ∨ leavesLate i = true → s.issue = exec i t) ∧
    (me.late ≠ [] → leavesLate i = false → me.guesses = [] → s.issue = exec i (t.setStrand s.cur kept)) ∧
    (∀ l rest, me.guesses = l :: rest → leavesLate i = false →
      s.issue = .next ((t.setStrand s.cur kept).reload s.cur l.seq))) ∧
  (∀ (s t : State) (w : Word), s.issues → fetchM s.cur s.turn = .ok w t → decode w = none →
    s.issue = .next (s.turn.trapOr s.cur ⟨1, 0, (t.strand s.cur).pc, none⟩ t)) ∧
  ∀ (s t : State) (g : Target) (e : CacheLine), placeM (s.turn.scalarAgent s.cur) .fetch s.turn.me.pc 8 s.turn = .ok (.target g) t →
    findLine (t.helm (helmOf s.cur)).icache g.module (g.pa / 128) g.owner = some e → s.turn.cur = s.cur →
    fetchM s.cur s.turn = .ok (BitVec.ofNat 64 (natOfBytes ((e.data.drop (g.pa % 128)).take 8))) t

/-! ### The state as a whole -/

/-- R6, R30, R240 to R242, R389, R399, R439, R441, R453, R454, R465: what the module holds right after reset. That a helm context
with no strand is in user mode, with VL, VLMAX and the type of an empty context, is the model's choice (log 12); a rule gives the
other values. -/
def Obligations.ResetValues : Prop :=
  let s := State.reset
  (∀ u, (s.strand u).resident = false ∧ (s.strand u).queue = [] ∧ (s.strand u).mode = .user ∧ (s.strand u).vl = 0 ∧
    (s.strand u).vlmax = 0 ∧ (s.strand u).vtype = 0x10) ∧
  s.tick = 0 ∧ s.cycle = 0 ∧ s.owntab = 0 ∧ s.poolcsz = 0 ∧ s.ptime = 11000000 ∧ s.tperiod = 36666667 ∧ s.rbound = 55000 ∧
  s.evwait = 1100000 ∧ s.scrub = 4096 ∧ s.rebuildlim = 1024 ∧ s.plstat = 0 ∧ s.linkup = 0 ∧ s.hpstat = 0 ∧
  (∀ q, s.cox.queueOf q = Queue.empty) ∧ s.mailbox = Mailbox.empty ∧ s.bootOpen = true ∧ s.elog = Log.empty ∧
  s.vlog = Log.empty ∧ s.flog = Log.empty ∧ s.eventSet = []

/-- Reset memory has the canonical form: it lists nothing. That an unlisted byte reads as 0 is the model's choice (log 3). -/
def Obligations.ResetIsCanonical : Prop := State.reset.Canonical

/-- Every step keeps the canonical form of memory, whichever agent makes it. The form, with 0 for an unlisted byte, and the
order of the agents' moves are the model's choices (logs 1 and 3). -/
def Obligations.StepKeepsCanonical : Prop := ∀ s t : State, s.Canonical → step s = .next t → t.Canonical

/-- R469: after a shutdown the module holds reset until power-up: no step but a module reset changes anything in it. Which move
a step makes is the model's choice (logs 1 and 73). -/
def Obligations.StoppedUntilReset : Prop :=
  (∀ s : State, ∃ t, exec .shutdown s = .next t ∧ t.stopped = true ∧ ∀ u, (t.strand u).resident = false) ∧
  (∀ s : State, s.stopped = true → s.agenda.head? ≠ some (.row .moduleReset) →
    step s = .next { s with agenda := s.agenda.tail }) ∧
  ∀ (s : State) (rest : List Move), s.stopped = true → s.agenda = .row .moduleReset :: rest →
    ∃ t, step s = .next t ∧ t.stopped = false ∧ t.strands = [] ∧ t.lmem = []

/-- R454, R457: with EVWAIT 0 no event waits for the kernel: a step leaves the event set empty, and every event that it held goes
to firmware, behind those that firmware holds; none is dropped, and but for the event set nothing changes. That what follows
from a state at once ends every step, and that firmware's events form one list, are readings (logs 1 and 71). -/
def Obligations.EventsAtOnceWithoutWait : Prop :=
  (∀ s t : State, s.stopped = false → step s = .next t → t.evwait = 0 → t.eventSet = []) ∧
  (∀ s t : State, s.stopped = false → step s = .next t → ∃ x, s.clock.act = .next x ∧ t = x.watch) ∧
  (∀ x : State, x.evwait = 0 → x.overflows = false →
    x.watch = { x with eventSet := [], fwEvents := x.fwEvents ++ x.eventSet }) ∧
  ∀ (s : State) (rest : List Move), s.stopped = false → s.evwait = 0 → s.overflows = false →
    s.agenda = .row .hostLinkUp :: rest → ∃ t, step s = .next t ∧ t.eventSet = [] ∧
      t.fwEvents = s.fwEvents ++ s.eventSet ++ [⟨130, 5⟩]

/-! ### Translated memory -/

/-- R68, R69, R129, R231: a load from module SRAM. Bytes that the strand's own write buffer holds come from there; otherwise a
line in the helm's data cache answers; otherwise the home does, under the owner's key, and the line enters the data cache.
Memory does not change. A load that its own buffer did not serve may take its value again at a later instant (log 92): then it
writes what the data cache's line holds by that time to its register. Where the strand has gone on from a value before that, the
load is performed once the line gives that value. -/
def Obligations.LoadTranslated : Prop :=
  ∀ (s s1 : State) (size : MemSize) (sgn : Bool) (xd xa xb : Reg) (off : BitVec 32) (i : Instr) (va : Word) (g : Target),
    (i = .ld size sgn xd xa off ∧ va = s.reg xa + off.signExtend 64) ∨
      (i = .ldIndexed size sgn xd xa xb ∧ va = s.reg xa + s.reg xb * BitVec.ofNat 64 size.bytes) →
    let n := size.bytes
    s.ready → s.has xa → s.has xb → va.toNat % n = 0 →
    resolveM (s.scalarAgent s.cur) .read va n s = .ok (.ok (.target g)) s1 →
    g.module = none → kindOf g.pa = 0 → g.pa % 128 + n ≤ 128 → s1.tileOf s.cur = none → s1.calm → s1.cur = s.cur →
    (∀ l ∈ s1.me.guesses, l.overlaps g n = false) → (s1.helm (helmOf s.cur)).stale = [] →
    (∀ e, s1.me.bufEntry g = some e → e.serves g = true → s1.me.bufferHolds g n = true →
      exec i s = .next (s1.goesOn (s1.me.loads va g n sgn xd (loaded sgn n
        (natOfBytes ((List.range n).map fun k => Tab.get 0 e.bytes (g.pa % 128 + k))))))) ∧
    (s1.me.bufEntry g = none → ∀ e, (s1.helm (helmOf s.cur)).cachedLine g = some e → e.data.length = 128 →
      exec i s = .next (s1.goesOn (s1.me.loads va g n sgn xd
        (loaded sgn n (natOfBytes ((e.data.drop (g.pa % 128)).take n)))))) ∧
    (s1.me.bufEntry g = none → (s1.helm (helmOf s.cur)).cachedLine g = none →
      s1.physFault (g.pa / 128 * 128) = none → s1.physMarked (g.pa / 128 * 128) 128 = false →
      ∃ t, exec i s = .next t ∧ (t.helm (helmOf s.cur)).cachedLine g ≠ none ∧
        State.BecomesUpToCache { s1 with draws := t.draws } t ((s1.me.loads va g n sgn xd (loaded sgn n
          (natOfBytes (s1.physRead (s1.encOf g.owner g.clear g.pa) g.pa n)))).atPc (s1.me.pc + 8))) ∧
    ∀ (t : State) (uid : Uid) (seq : Nat) (l : LateLoad) (e : CacheLine),
      let me := t.strand uid.toNat
      me.late.find? (fun l => l.seq = seq) = some l → (t.helm (helmOf uid.toNat)).cachedLine l.target = some e →
      e.data.length = 128 → l.target.pa % 128 + l.len ≤ 128 →
      let v := loaded l.signed l.len (natOfBytes ((e.data.drop (l.target.pa % 128)).take l.len))
      ∃ t' me', t.move (.reload uid seq) = .next t' ∧ { t' with helms := t.helms } = t.setStrand uid.toNat me' ∧
        (∀ h, (t'.helm h).dcache = (t.helm h).dcache ∧ (t'.helm h).icache = (t.helm h).icache) ∧
        (l.guess = none → (l.reg.toNat < 24 ∨ l.ui = me.uia → me'.readX l.reg = if l.reg = 0 then 0 else v) ∧
          (∀ r, r ≠ l.reg → me'.readX r = me.readX r) ∧
          { me' with x := me.x, shadow := me.shadow, owed := me.owed } = me) ∧
        (∀ w, l.guess = some w → me' = if v = w then { me with late := me.late.filter (· != l) } else me)

/-- R69, R128, R231: a store to translated memory enters the write buffer, as an entry of its own where the buffer has none
for the line and has room; memory itself does not change. -/
def Obligations.StoreTranslated : Prop :=
  ∀ (s s1 : State) (size : MemSize) (xd xa xb : Reg) (off : BitVec 32) (i : Instr) (va : Word) (g : Target),
    (i = .st size xd xa off ∧ va = s.reg xa + off.signExtend 64) ∨
      (i = .stIndexed size xd xa xb ∧ va = s.reg xa + s.reg xb * BitVec.ofNat 64 size.bytes) →
    let n := size.bytes
    s.ready → s.has xd → s.has xa → s.has xb → va.toNat % n = 0 →
    resolveM (s.scalarAgent s.cur) .write va n s = .ok (.ok (.target g)) s1 →
    s1.tileOf s.cur = none → s1.cur = s.cur → s1.me.bufEntry g = none → s1.me.writeBuffer.length < 16 →
    (∀ l ∈ s1.me.guesses, l.overlaps g n = false) →
    ∃ e : BufEntry, e.Holds g (g.pa % 128) n (s.reg xd).toNat ∧
      exec i s = .next (s1.goesOn { s1.me.endsLate g n with
        writeBuffer := s1.me.writeBuffer ++ [e], nextIid := s1.me.nextIid + 1 })

/-- R49, R69, R125: WRITE_BUFFER_DRAIN: the oldest entry of a write buffer leaves, and in module SRAM its bytes are then what
an access under its owner's key reads; the other bytes that this key wrote read as before. An empty buffer stays as it is, and
so does one whose helm has 64 requests outstanding. -/
def Obligations.WriteBufferDrains : Prop :=
  ∀ (s : State) (uid : Uid),
    ((s.strand uid.toNat).writeBuffer = [] ∨ s.pipeFull (.store uid.toNat) = true →
      exec (.writeBufferDrain uid) s = .next s) ∧
    ∀ (e : BufEntry) (rest : List BufEntry) (g : Target) (n v : Nat), (s.strand uid.toNat).writeBuffer = e :: rest →
      0 < n → g.pa % 128 + n ≤ 128 → e.Holds g (g.pa % 128) n v → g.module = none → kindOf g.pa = 0 →
      s.physFault g.pa = none → s.pipeFull (.store uid.toNat) = false → Memory.wf s.pmem →
      let enc := s.encOf g.owner g.clear g.pa
      ∃ t, exec (.writeBufferDrain uid) s = .next t ∧ (t.strand uid.toNat).writeBuffer = rest ∧ t.lmem = s.lmem ∧
        natOfBytes (t.physRead enc g.pa n) = v % 256 ^ n ∧
        (∀ c, c < g.pa ∨ g.pa + n ≤ c → sameKey (Tab.get .unwritten s.units (c / 64)) enc = true →
          t.physRead enc c 1 = s.physRead enc c 1) ∧
        ∀ c, c / 128 ≠ g.pa / 128 → Memory.read t.pmem c = Memory.read s.pmem c

/-- R72, R137, R186, R232 to R234: AMO and CAS on a window line that is full and unmarked, by a strand with no older access
to perform, at every scope and order: the old value to the destination, the new one to memory, and nothing else but the lines
of the data cache that an acquire gives up (R70). A CAS whose comparison fails writes the old bytes back. -/
def Obligations.AtomicsWindow : Prop :=
  ∀ (s : State) (size : AmoSize) (scope : Scope) (order : Order) (xd xa xb : Reg) (a : Nat),
    s.quiet → Memory.wf s.lmem → s.has xa → s.hasWide size xb → s.hasWide size xd →
    let n := size.bytes
    let old := s.seenNat a n
    (s.reg xa).toNat % n = 0 → s.localAt (s.reg xa) n = some a → s.clean a n →
    let ends (i : Instr) (new : Nat) : Prop := ∃ t, exec i s = .next t ∧
      StoredLocal s { t with helms := s.helms } a n new ∧ t.me = (s.me.writeWide size xd old).atPc (s.me.pc + 8) ∧
      (∀ v, v ≠ s.cur → t.strand v = s.strand v) ∧ (∀ h, h ≠ helmOf s.cur → t.helm h = s.helm h) ∧
      (t.helm (helmOf s.cur)).icache = (s.helm (helmOf s.cur)).icache ∧
      (t.helm (helmOf s.cur)).dcache =
        if orderAcquires order && scope != .strand then [] else (s.helm (helmOf s.cur)).dcache
    (∀ op, (op = .fadd → size = .w) → ends (.amo op size scope order xd xa xb) (atomicNew op (8 * n) old (s.wide size xb))) ∧
    ends (.cas size scope order xd xa xb)
      (if old = (if xd = 0 then 0 else s.wide size xd) then s.wide size xb else old)

/-- R303: SIGNAL subtracts its operand from a doubleword and then notifies the Cox. -/
def Obligations.SignalWindow : Prop :=
  ∀ (s : State) (xa xb : Reg) (a : Nat), s.quiet → Memory.wf s.lmem → s.has xa → s.has xb →
    (s.reg xa).toNat % 8 = 0 → s.localAt (s.reg xa) 8 = some a → s.clean a 8 →
    ∃ t, StoredLocal s t a 8 (BitVec.ofNat 64 (s.seenNat a 8) - s.reg xb).toNat ∧ t.me = s.me ∧
      (∀ v, v ≠ s.cur → t.strand v = s.strand v) ∧
      exec (.signal xa xb) s = .next (t.coxNotify.setStrand s.cur
        ((t.coxNotify.strand s.cur).atPc ((t.coxNotify.strand s.cur).pc + 8)))

/-- R55, R62, R63, R66, R76, R456: what a pool port or the host answers to a read: the bytes as the requester's key reads
them, or poison where the port has failed or a unit carries a mark. The access that waits for it finds the answer. -/
def Obligations.PortResponses : Prop :=
  ∀ (s : State) (p : PortRequest) (uid n : Nat), s.incoming = [] → p.who = .helm uid → p.op = .load n →
    let pa := p.target.pa
    let bytes := Answer.bytes (s.physRead p.enc pa n)
    let given (a : Answer) (t : State) : Prop :=
      t.arrived = s.arrived ++ [⟨.helm uid, p.target.module, pa, p.op, a⟩] ∧ t.ports = (s.ports.filter fun q => q.id != p.id) ∧
        t.pmem = s.pmem ∧ t.strands = s.strands
    (s.portRequest false p.id = some p → s.poolcsz = 0 →
      ∃ t, exec (.poolPortResponse p.id) s = .next t ∧
        given (if s.portFailed pa || s.physMarked pa n then .poisoned else bytes) t) ∧
    (s.portRequest true p.id = some p →
      ∃ t, exec (.hostResponse p.id none) s = .next t ∧ given (if s.physMarked pa n then .poisoned else bytes) t)

/-- R66, R68, R71, R132: lines that leave a cache: a host line that the host takes back, and a line of a helm's data cache.
Memory, and every other line, stays as it is. -/
def Obligations.CacheLinesLeave : Prop :=
  (∀ (s : State) (line : BitVec 44), ∃ t, exec (.hostSnoop line) s = .next t ∧
    (∀ e, e ∈ t.hostCache ↔ e ∈ s.hostCache ∧ e.line ≠ 2 ^ 45 + line.toNat) ∧ { t with hostCache := s.hostCache } = s) ∧
  ∀ (s : State) (helm : BitVec 11) (line : BitVec 45), ∃ t, exec (.dataCacheExpire helm line) s = .next t ∧
    (∀ e, e ∈ (t.helm helm.toNat).dcache ↔ e ∈ (s.helm helm.toNat).dcache ∧ e.line ≠ line.toNat) ∧
    (t.helm helm.toNat).icache = (s.helm helm.toNat).icache ∧ (∀ h, h ≠ helm.toNat → t.helm h = s.helm h) ∧
    { t with helms := s.helms } = s

/-! ### Traps, returns and control registers -/

/-- R223: ERET, IPIN, IUNPIN, TLBINV, IDLE, SAVEK and RESTK are reserved to kernel and firmware mode: in user mode each takes
PRIVILEGE, with tval the address of the instruction, and does nothing else. -/
def Obligations.PrivilegedRefused : Prop :=
  ∀ (s : State) (xa xb : Reg) (off : BitVec 32) (scope : Scope) (f : InvKind) (mask : BitVec 16), s.between →
    s.me.mode = .user → ∀ i ∈ [Instr.eret, .ipin xa xb off, .iunpin xa xb off, .tlbinv scope f xa xb, .idle, .savek xa mask,
      .restk xa mask], exec i s = s.traps 2 0 s.me.pc

/-- R235, R236, R431 to R434: the entry of a trap at the instruction that a strand issues. From user and kernel mode it goes
to the kernel, but for TRAP 0xFF00 and above of the kernel and an error consumed with KIE 0; from firmware mode to the
firmware. The column queue is parked from user mode, and held from the other modes. Only that strand changes, and no data
register of it but those that a reply names. While its column engine stands where nothing may stop it, the trap is not taken,
and the instruction runs again (R254, R285, R302, R431; log 93). -/
def Obligations.TrapEntry : Prop :=
  ∀ (s : State) (code cls : Nat) (tval : Word) (epc : Option Word), s.between → s.me.colTrap = none →
    let t := (s.trapEntry s.cur ⟨code, cls, tval, epc⟩).me
    let pc := epc.getD s.me.pc
    let cause : Word := BitVec.ofNat 64 (code + cls * 2 ^ 16)
    let higher := (code = 7 ∧ s.me.mode = .kernel ∧ 0xff00 ≤ tval.toNat) ∨ (code = 131 ∧ s.me.kie = false)
    (s.me.mode ≠ .firmware → ¬higher → s.me.EnteredKernel t pc cause tval) ∧
    (s.me.mode = .firmware ∨ higher → s.me.EnteredFirmware t pc cause tval) ∧
    SameData s.me t ∧ t.queue = [] ∧ t.assembling = [] ∧
    (s.me.mode = .user → t.held = s.me.held ∧ t.pcount = s.me.queue.length ∧ t.wfree = false) ∧
    (s.me.mode ≠ .user → t.held.tail = s.me.held ∧ t.pcount = s.me.pcount ∧ t.x = s.me.x) ∧
    (∀ r, (∀ q ∈ s.me.replies, s.me.names q r = false) → t.readX r = s.me.readX r) ∧
    (epc = none → s.traps code cls tval =
      .next (if s.columnBusy s.cur then s else s.trapEntry s.cur ⟨code, cls, tval, epc⟩)) ∧
    (∀ v, v ≠ s.cur → (s.trapEntry s.cur ⟨code, cls, tval, epc⟩).strand v = s.strand v) ∧
    (s.trapEntry s.cur ⟨code, cls, tval, epc⟩).lmem = s.lmem ∧ (s.trapEntry s.cur ⟨code, cls, tval, epc⟩).pmem = s.pmem

/-- R236: TRAP n takes a trap with cause TRAP, tval n and epc the address after it; it has no other effect. It waits while the
column engine stands where nothing may stop it (log 93). -/
def Obligations.TrapInstruction : Prop :=
  ∀ (s : State) (n : BitVec 16), s.between →
    (s.columnBusy s.cur = false →
      exec (.trap n) s = .next (s.trapEntry s.cur ⟨7, 0, n.setWidth 64, some (s.me.pc + 8)⟩)) ∧
    (s.columnBusy s.cur = true → exec (.trap n) s = .next s)

/-- R237, R434, R437: ERET restores pc, mode and KIE from the registers of the mode it executes in: from epc, PMODE and PKIE in
kernel mode, from fepc, FPMODE and FPKIE in firmware mode. No other register changes, and no memory. A return to user mode
unparks the parked members in front of those that were held, and a register that RPEND names awaits its reply again. A return to
another mode releases the members that the returning handler's trap held: that it does so in front of a live queue, too, is a
reading of R437. With a live queue, a return to user mode waits. -/
def Obligations.EretReturns : Prop :=
  ∀ s : State, s.between → s.me.mode ≠ .user → s.me.resumeMode ≠ some s.me.returnMode →
    ((s.me.returnMode = .user → s.me.queue = [] ∧ (s.me.svlmax = s.me.vlmax ∨ s.me.pcount = 0)) →
      ∃ t, exec .eret s = .next (s.become t) ∧
        (s.me.mode = .kernel → t.pc = s.me.epc ∧ t.mode = s.me.pmode ∧ t.kie = s.me.pkie) ∧
        (s.me.mode = .firmware → t.pc = s.me.fepc ∧ t.mode = s.me.fpmode ∧ t.kie = s.me.fpkie) ∧
        t.x = s.me.x ∧ SameData s.me t ∧ t.epc = s.me.epc ∧ t.cause = s.me.cause ∧ t.tval = s.me.tval ∧
        t.pmode = s.me.pmode ∧ t.pkie = s.me.pkie ∧ t.fepc = s.me.fepc ∧ t.fpmode = s.me.fpmode ∧ t.fpkie = s.me.fpkie) ∧
    (s.me.returnMode = .user → s.me.queue = [] ∧ s.me.svlmax = s.me.vlmax →
      ∃ t, exec .eret s = .next (s.become t) ∧ t.queue = unparkMembers s.me ++ s.me.held.flatten ∧ t.held = [] ∧
        t.pcount = 0 ∧ t.rpend = 0 ∧
        ∀ r : Reg, r ≠ 0 → s.me.rpend.getLsbD r.toNat = true → t.awaits r = true) ∧
    (s.me.returnMode ≠ .user → ∀ l rest, s.me.held = l :: rest →
      ∃ t, exec .eret s = .next (s.become t) ∧ t.queue = l ++ s.me.queue ∧ t.held = rest ∧ t.pcount = s.me.pcount) ∧
    (s.me.returnMode = .user → s.me.queue ≠ [] → exec .eret s = .next s)

/-- R238: a user-level interrupt is taken where one is pending, UIE is 1 and UIA is 0, at a boundary between instructions:
uiepc keeps the address of the next instruction, x24 to x31 change places with the shadow set, UIA is 1, and the strand goes
on at uivec. Mode and owner do not change. Otherwise nothing happens. UIRET switches x24 to x31 back, goes on at uiepc and
clears UIA; with UIA = 0 it takes ILLEGAL. The interrupt joins the writes of its operation (R144): no line that the helm's data
cache holds, and none asked for before, answers a load of the handler. That it is taken in every mode is a reading (log 67). -/
def Obligations.UserInterrupts : Prop :=
  ∀ (s : State) (uid : Uid),
    let u := uid.toNat
    let t := s.strand u
    (s.atBoundary u = true → t.kept.intq ≠ [] → t.uie = true → t.uia = false →
      ∃ t', exec (.userInterrupt uid) s =
          .next ((s.setStrand u t').dropData (helmOf u) noLine) ∧ t'.uiepc = t.pc ∧ t'.pc = t.uivec ∧ t'.uia = true ∧
        (∀ r : Reg, r.toNat < 24 → t'.readX r = t.readX r) ∧
        (∀ i : Fin 8, t'.readX (BitVec.ofNat 5 (24 + i.val)) = t.shadow[i] ∧ t'.shadow[i] = t.x[24 + i.val]) ∧
        t'.mode = t.mode ∧ t'.owner = t.owner ∧ t'.kept = t.kept ∧ t'.v = t.v) ∧
    (s.atBoundary u = false ∨ t.kept.intq = [] ∨ t.uie = false ∨ t.uia = true → exec (.userInterrupt uid) s = .next s) ∧
    (s.between → s.me.uia = true → ∃ t, exec .uiret s = .next (s.become t) ∧ t.pc = s.me.uiepc ∧ t.uia = false ∧
      (∀ r : Reg, r.toNat < 24 → t.readX r = s.me.readX r) ∧
      (∀ i : Fin 8, t.readX (BitVec.ofNat 5 (24 + i.val)) = s.me.shadow[i] ∧ t.shadow[i] = s.me.x[24 + i.val]) ∧
      t.mode = s.me.mode ∧ t.owner = s.me.owner ∧ t.v = s.me.v) ∧
    (s.between → s.me.uia = false → exec .uiret s = s.traps 1 0 s.me.pc)

/-- R239 to R241: CSRR writes the value of the register to its destination; CSRS and CSRC with x0 only read, too. A register
marked Q waits for an empty column queue. An unlisted number and a write to a read-only register take ILLEGAL, an access from
too low a mode takes PRIVILEGE; nothing is read and nothing is written. -/
def Obligations.CsrRead : Prop :=
  ∀ (s : State) (xd xa : Reg) (n : BitVec 12), s.between →
    (∀ c, Csr.ofNumber n = some c → csrLevel n ≤ s.me.mode.level →
      ((c.waits = true → s.me.queue = []) →
        exec (.csrr xd n) s = .next (s.wrote xd (s.csrValue s.cur c)) ∧
        exec (.csrs xd 0 n) s = .next (s.wrote xd (s.csrValue s.cur c)) ∧
        exec (.csrc xd 0 n) s = .next (s.wrote xd (s.csrValue s.cur c))) ∧
      (c.waits = true → s.me.queue ≠ [] → exec (.csrr xd n) s = .next s)) ∧
    (Csr.ofNumber n = none → exec (.csrr xd n) s = s.traps 1 0 s.me.pc ∧ exec (.csrw xd xa n) s = s.traps 1 0 s.me.pc ∧
      exec (.csrs xd xa n) s = s.traps 1 0 s.me.pc ∧ exec (.csrc xd xa n) s = s.traps 1 0 s.me.pc) ∧
    (∀ c, Csr.ofNumber n = some c → c.readOnly = true → exec (.csrw xd xa n) s = s.traps 1 0 s.me.pc ∧
      (xa ≠ 0 → exec (.csrs xd xa n) s = s.traps 1 0 s.me.pc ∧ exec (.csrc xd xa n) s = s.traps 1 0 s.me.pc)) ∧
    (∀ c, Csr.ofNumber n = some c → s.me.mode.level < csrLevel n → exec (.csrr xd n) s = s.traps 2 0 s.me.pc ∧
      (c.readOnly = false → exec (.csrw xd xa n) s = s.traps 2 0 s.me.pc))

/-- R5, R239 to R243: CSRW, CSRS and CSRC write the old value to their destination and the new one to the register, where it
reads back with its reserved bits zero and its read-only fields as they were; no other strand and no memory changes. The
masks, whose value depends on VLMAX, have a statement of their own (MaskWindows). A write to progress gives the members of the
stopped convoy, up to four, their indexes and valid bits, as R435 lays them out; without a stopped convoy it is ignored. Bits 2:0
of an address that a register holds read as zero (R178), and kernel mode keeps FPMODE and FPKIE (log 33). -/
def Obligations.CsrWrite : Prop :=
  ∀ (s : State) (xd xa : Reg) (n : BitVec 12) (c : Csr), s.between → s.has xa → Csr.ofNumber n = some c →
    c.readOnly = false → csrLevel n ≤ s.me.mode.level → (c.waits = true → s.me.queue = []) →
    let old := s.csrValue s.cur c
    let ends (i : Instr) (now : State → Prop) : Prop := ∃ t, exec i s = .next t ∧ now t ∧
      t.reg xd = (if xd = 0 then 0 else old) ∧ (∀ r, r ≠ xd → t.reg r = s.reg r) ∧ t.me.pc = s.me.pc + 8 ∧
      t.lmem = s.lmem ∧ t.pmem = s.pmem ∧ ∀ v, v ≠ s.cur → t.strand v = s.strand v
    let all (f : Word → State → Prop) : Prop :=
      ends (.csrw xd xa n) (f (s.reg xa)) ∧
      (xa ≠ 0 → ends (.csrs xd xa n) (f (old ||| s.reg xa)) ∧
        ends (.csrc xd xa n) (f (old &&& ~~~s.reg xa)))
    (c ≠ .fmask → c ≠ .pmask → c ≠ .progress → all fun w t => t.csrValue s.cur c = csrKept s.me old w c) ∧
    (c = .progress → (∀ m ∈ s.me.held.headD [], m.done = true → m.work = none) →
      let stopped : List Member := if s.me.pcount ≠ 0 then unparkMembers s.me else s.me.held.headD []
      all fun w t => (s.me.pcount ≠ 0 ∨ ∀ k, k < 4 → w.extractLsb' (16 * k) 15 ≠ 0x7ffd) → ∀ k, k < 64 →
        (t.csrValue s.cur c).getLsbD k =
          (w.getLsbD k && decide (k / 16 < (firstConvoy stopped).length) && decide (k % 16 ≠ 15)))

/-- R241: fmask and pmask show the window of 64 bits that msel selects; windows at or above VLMAX read as zero and ignore
writes. -/
def Obligations.MaskWindows : Prop :=
  ∀ (s : State) (xd xa : Reg), s.between → s.has xa → s.me.queue = [] →
    let w := s.me.msel.toNat
    ∃ t t', exec (.csrw xd xa 0x007) s = .next t ∧ exec (.csrw xd xa 0x008) s = .next t' ∧
      (∀ i, i < 1024 → t.me.fmask.getLsbD i =
        if i / 64 = w ∧ 64 * w < s.me.vlmax then (s.reg xa).getLsbD (i % 64) else s.me.fmask.getLsbD i) ∧
      (∀ i, i < 1024 → t'.me.pmask.getLsbD i =
        if i / 64 = w ∧ 64 * w < s.me.vlmax then (s.reg xa).getLsbD (i % 64) else s.me.pmask.getLsbD i) ∧
      t.csrValue s.cur .fmask = (if 64 * w < s.me.vlmax then s.reg xa else 0) ∧
      t'.csrValue s.cur .pmask = (if 64 * w < s.me.vlmax then s.reg xa else 0)

/-! ### Instructions that order and wait -/

/-- R70, R133, R135, R139, R141, R244, R247, R297, R299 to R301: what the instructions that wait do on a strand that has
nothing to wait for: they go on, and an acquire gives up the helm's data cache, as FENCE.str.ar does (log 94); FENCEI gives up
the instruction cache, too, but for pinned lines; IDLE stops the strand's issue. No memory changes. -/
def Obligations.WaitsPass : Prop :=
  ∀ (s : State), s.quiet → (s.me.mode = .user → s.me.fabpend = false) →
    let me := s.me.atPc (s.me.pc + 8)
    (∀ scope order, ∃ t, exec (.fence scope order) s = .next t ∧
      s.BecomesUpToCache t me ∧
      (t.helm (helmOf s.cur)).icache = (s.helm (helmOf s.cur)).icache ∧
      (t.helm (helmOf s.cur)).dcache =
        if order = .ar ∨ (order = .acq ∧ scope ≠ .strand) then [] else (s.helm (helmOf s.cur)).dcache) ∧
    (∃ t, exec .pfence s = .next t ∧ s.BecomesUpToCache t me) ∧
    (∀ gang, (if gang then s.me.kept.gangA ≤ s.me.kept.gangW else s.me.kept.crewA ≤ s.me.kept.crewW) →
      ∃ t, exec (.barw gang) s = .next t ∧ s.BecomesUpToCache t me ∧ (t.helm (helmOf s.cur)).dcache = []) ∧
    (∀ n v, s.me.kept.dctr[n.toNat].toNat ≤ v.toNat →
      ∃ t, exec (.waitd n v) s = .next t ∧ s.BecomesUpToCache t me ∧ (t.helm (helmOf s.cur)).dcache = []) ∧
    (((s.helm (helmOf s.cur)).icache.filter fun e => e.pinned) = [] →
      ∃ t, exec .fencei s = .next t ∧ s.BecomesUpToCache t me ∧ (t.helm (helmOf s.cur)).dcache = [] ∧
        (t.helm (helmOf s.cur)).icache = []) ∧
    (s.me.mode ≠ .user → exec .idle s = .next (s.goesOn { s.me with issue := .idle }))

/-- R300, R301: BARW waits until every member has fired this strand's latest arrival, and WAITD while its counter is above
the value; meanwhile nothing changes. -/
def Obligations.WaitsHold : Prop :=
  ∀ (s : State), s.ready →
    (∀ gang, (if gang then s.me.kept.gangW < s.me.kept.gangA else s.me.kept.crewW < s.me.kept.crewA) →
      s.allFired s.cur gang (if gang then s.me.kept.gangA else s.me.kept.crewA) = false →
      exec (.barw gang) s = .next s) ∧
    (∀ n v, v.toNat < s.me.kept.dctr[n.toNat].toNat → exec (.waitd n v) s = .next s)

/-- R111, R135, R297, R299: a fence at module or system scope, of any order, and PFENCE report a failed store to user mode:
FABRIC-ERROR with the failure's code as its class and the store's address, and the report clears. A fence that acquires has
given up the helm's data cache by then. A fence of a narrower scope reports nothing. -/
def Obligations.FencesReport : Prop :=
  ∀ (s : State) (order : Order) (scope : Scope), s.quiet → s.me.mode = .user → s.me.fabpend = true →
    let me : Strand := { s.me with fabpend := false, fabcode := 0, fabaddr := 0 }
    let reports (t : State) : Host.Outcome State Fault Refusal :=
      .next (t.trapEntry s.cur ⟨6, s.me.fabcode.toNat, s.me.fabaddr, none⟩)
    (scope = .module ∨ scope = .system → ∃ t : State, s.BecomesUpToCache t me ∧
      (t.helm (helmOf s.cur)).icache = (s.helm (helmOf s.cur)).icache ∧
      (t.helm (helmOf s.cur)).dcache = (if orderAcquires order then [] else (s.helm (helmOf s.cur)).dcache) ∧
      exec (.fence scope order) s = reports t) ∧
    (scope ≠ .module → scope ≠ .system → ∃ t, exec (.fence scope order) s = .next t ∧
      s.BecomesUpToCache t (s.me.atPc (s.me.pc + 8))) ∧
    exec .pfence s = reports (s.become me)

/-- R245: IPREF, and in kernel and firmware mode IPIN and IUNPIN, go on at the next word without waiting, and no register, no
local memory and no other strand changes. With a count of 0 bytes they do nothing besides. -/
def Obligations.CodeLines : Prop :=
  ∀ (s : State) (xa xb : Reg) (off : BitVec 32) (i : Instr), s.between → s.has xa → s.has xb →
    (i = .ipref xa xb off ∨ (s.me.mode ≠ .user ∧ (i = .ipin xa xb off ∨ i = .iunpin xa xb off))) →
    (∃ t, exec i s = .next t ∧ t.me = s.me.atPc (s.me.pc + 8) ∧ (∀ v, v ≠ s.cur → t.strand v = s.strand v) ∧
      t.lmem = s.lmem ∧ t.tags = s.tags) ∧
    (xb ≠ 0 → s.reg xb = 0 → exec i s = .next (s.goesOn s.me))

/-- R86, R246: TLBINV, where no access still uses an old translation: no translation that it names remains in the caches of
the strand's cluster, those of other owners stay, and no memory changes. No load takes its value through an old translation
any more (log 92). -/
def Obligations.TlbinvInvalidates : Prop :=
  ∀ (s : State) (scope : Scope) (f : InvKind) (xa xb : Reg), s.between → s.has xa → s.has xb → s.me.mode ≠ .user →
    scope ≠ .system → (∀ c, s.translationsUsed c = false) →
    let c := clusterOf s.cur
    let owner := (s.reg xb).extractLsb' 0 16
    ∃ t, exec (.tlbinv scope f xa xb) s = .next t ∧ t.me = Strand.atPc { s.me with late := [] } (s.me.pc + 8) ∧
      t.lmem = s.lmem ∧ t.pmem = s.pmem ∧
      (∀ v, v ≠ s.cur → t.strand v = if (t.strand v).late = [] then { s.strand v with late := [] } else s.strand v) ∧
      (∀ v, clusterOf v = c → (t.strand v).late = []) ∧
      (∀ e, e ∈ (t.cluster c).tlb → e.named f (s.reg xa) owner = false) ∧
      (∀ e, e ∈ (s.cluster c).tlb → e.named f (s.reg xa) owner = false → e ∈ (t.cluster c).tlb)

/-- R250: SAVEK stores the pending record, or zeros where none is pending, and the masked column registers to an area of a
window; RESTK loads them from one, without the bits that R304 and R315 reserve. A register that the mask leaves out stays as
it is. Both are executed in kernel or firmware mode. That reserved bits are
dropped is a reading of R5 (log 80). -/
def Obligations.ColumnStateMoves : Prop :=
  ∀ (s : State) (xa : Reg) (mask : BitVec 16) (a : Nat), s.quiet → Memory.wf s.lmem → s.has xa → s.me.mode ≠ .user →
    let n := (s.me.columnImage mask).length
    (s.reg xa).toNat % 64 = 0 → s.span (s.reg xa) n a → s.clean a n →
    (∃ t, exec (.savek xa mask) s = .next t ∧ readBytes t.lmem a n = s.me.columnImage mask ∧
      (∀ c, c < a ∨ a + n ≤ c → Memory.read t.lmem c = Memory.read s.lmem c) ∧ t.me = s.me.atPc (s.me.pc + 8) ∧
      (t.helm (helmOf s.cur)).dcache = []) ∧
    (∃ t, exec (.restk xa mask) s = .next t ∧
      t.me.pendingRec = definedRecord (BitVec.ofNat 512 (natOfBytes (readBytes s.lmem a 64))) ∧
      (∀ j i, (columnsOf mask)[j]? = some i →
        t.me.k.getD i 0 = definedColumn (BitVec.ofNat 256 (natOfBytes (readBytes s.lmem (a + 64 + 32 * j) 32)))) ∧
      (∀ i, i < 16 → mask.getLsbD i = false → t.me.k.getD i 0 = s.me.k.getD i 0) ∧
      { t.me with k := s.me.k, pendingRec := s.me.pendingRec } = s.me.atPc (s.me.pc + 8) ∧ t.lmem = s.lmem)

/-- R248, R249: SAVEV writes the header, the predicates and the masked registers to an area of a window, RESTV loads them from
one, whatever the grant was that saved it: slots that the area does not hold read as zero. A transfer that spillcnt says is
under way goes on at the masked register that spillcnt names; RESTV then has the header that it read at its start, or reads it
again where the strand keeps none for the address (log 95). No byte but those named is written, spillcnt is 0 at the end, and an
illegal vtype or a header with another number of slots takes ILLEGAL. -/
def Obligations.VectorStateMoves : Prop :=
  ∀ (s : State) (xa : Reg) (mask : BitVec 32) (a : Nat), s.quiet → Memory.wf s.lmem → s.has xa →
    let me := s.me
    let slots := me.slotCount
    let done : Strand := Strand.atPc { me with spillcnt := 0 } (me.pc + 8)
    let left (r : Nat) : Prop := mask.getLsbD r = true ∧ me.spillcnt.toNat ≤ maskRank mask r
    (me.vtype.getLsbD 4 = true → exec (.savev xa mask) s = s.traps 1 0 me.pc ∧ exec (.restv xa mask) s = s.traps 1 0 me.pc) ∧
    (me.vtype.getLsbD 4 = false → (s.reg xa).toNat % 64 ≠ 0 →
      exec (.savev xa mask) s = s.traps 3 0 (s.reg xa) ∧ exec (.restv xa mask) s = s.traps 3 0 (s.reg xa)) ∧
    (me.vtype.getLsbD 4 = false → (s.reg xa).toNat % 64 = 0 →
      let n := blockOffset slots mask 32
      s.span (s.reg xa) n a → s.clean a n →
      ∃ t : State, exec (.savev xa mask) s = .next t ∧ t.me = done ∧ (t.helm (helmOf s.cur)).dcache = [] ∧
        (me.spillcnt = 0 → t.seenNat a 4 = slots ∧ t.seenNat (a + 4) 4 = mask.toNat ∧ t.seenNat (a + 8) 4 = me.vtype.toNat ∧
          t.seenNat (a + 12) 4 = me.vl % 2 ^ 32 ∧ t.seenNat (a + 16) 48 = 0 ∧
          ∀ i, i < 15 → t.seenNat (a + 64 + i * (slots / 4)) (slots / 4) =
            (me.readP (BitVec.ofNat 4 (i + 1))).toNat % 2 ^ (2 * slots)) ∧
        (∀ r : Fin 32, left r → t.seenNat (a + blockOffset slots mask r) (4 * slots) = me.v[r].toNat % 2 ^ (32 * slots)) ∧
        (∀ c, (∀ e ∈ me.savedPieces mask, c < a + e.1 ∨ a + e.1 + e.2 ≤ c) → t.seen c = s.seen c) ∧
        (∀ c, c / 128 < a / 128 ∨ (a + n - 1) / 128 < c / 128 → Memory.read t.lmem c = Memory.read s.lmem c)) ∧
    (me.vtype.getLsbD 4 = false → (s.reg xa).toNat % 64 = 0 →
      let read : Option (Word × Nat × Nat) := me.kept.heads.find? fun e => me.spillcnt != 0 && e.1 = s.reg xa
      (read = none → s.span (s.reg xa) 64 a ∧ s.clean a 64) →
      let h := (read.map fun e => e.2.1).getD (s.seenNat a 4)
      let saved := BitVec.ofNat 32 ((read.map fun e => e.2.2).getD (s.seenNat (a + 4) 4))
      let n := blockOffset h saved 32
      (h ∉ [32, 64, 128, 256, 512] → exec (.restv xa mask) s =
        .next ((s.dropData (helmOf s.cur) noLine).trapEntry s.cur ⟨1, 0, s.reg xa, none⟩)) ∧
      (h ∈ [32, 64, 128, 256, 512] → s.span (s.reg xa) n a → s.clean a n →
        ∃ t : State, exec (.restv xa mask) s = .next t ∧ t.lmem = s.lmem ∧ t.pmem = s.pmem ∧
          (t.helm (helmOf s.cur)).dcache = [] ∧
          (∀ r : Fin 32, left r → t.me.v[r] = (if saved.getLsbD r then
            BitVec.ofNat 16384 (s.seenNat (a + blockOffset h saved r) (4 * h) % 2 ^ (32 * min h slots)) else 0)) ∧
          (∀ r : Fin 32, ¬left r → t.me.v[r] = me.v[r]) ∧
          (∀ i, i < 15 → t.me.readP (BitVec.ofNat 4 (i + 1)) = if me.spillcnt = 0 then
            BitVec.ofNat 1024 (s.seenNat (a + 64 + i * (h / 4)) (h / 4) % 2 ^ (2 * min h slots))
            else me.readP (BitVec.ofNat 4 (i + 1))) ∧
          (me.protectedMode = true → ∀ r : Fin 32, left r → t.me.vMirror[r] = t.me.v[r]) ∧
          { t.me with v := me.v, vMirror := me.vMirror, p := me.p, pMirror := me.pMirror, kept := me.kept } = done ∧
          t.me.kept = { me.kept with heads := me.kept.heads.filter fun e => e.1 != s.reg xa } ∧
          ∀ v, v ≠ s.cur → t.strand v = s.strand v))

/-! ### Instructions of the column engine: their issue -/

/-- R164 to R168, R205, R282, R300: the issue of an instruction of the column engine. It joins its convoy with what it reads
at issue (its operands, the mode, the rounding mode, protected mode and the owner); with a clear chain bit it pushes the
convoy. A reply slot is taken, a counter rises, the strand goes on at the next word, and nothing else changes: no data
register, no memory, no other strand. -/
def Obligations.PushedForms : Prop :=
  ∀ (s : State) (i : Instr) (a b c : Reg), pushReads i = some (a, b, c) → s.has a → s.has b → s.has c → s.joins i →
    (needsType (encode i) = true → s.me.typeMissing = false) →
    firstMisaligned (issueAddrs i (s.reg a) (s.reg b)) = none → s.hasRoom i → s.barRoom i →
    ∃ t, exec i s = .next t ∧ (s.settle s.cur).Pushed t i (s.me.operands i a b c)

/-- R165, R168, R169, R177, R202, R204, R231, R282, R300: what the helm refuses when it issues an instruction of the column
engine, and where it waits. A convoy of more than four members, or an instruction that starts a convoy of its own behind a
chain bit, takes ILLEGAL with the address of the member whose chain bit it is; an element instruction without a legal vtype
takes ILLEGAL; a misaligned address takes ALIGN. Every instruction of the helm behind a chain bit takes ILLEGAL, too. Nothing
is pushed. An instruction waits, and nothing changes but that accesses that have been performed no longer count, while a
register that it reads awaits a reply, while the queue holds 32 convoys, while all 16 reply slots are taken and it replies,
and while its counter is full. -/
def Obligations.PushedStops : Prop :=
  ∀ (s : State) (i : Instr) (a b c : Reg), pushReads i = some (a, b, c) →
    (∀ m, s.me.assembling.getLast? = some m → 4 ≤ s.me.assembling.length ∨ startsConvoy (encode i) = true →
      exec i s = s.traps 1 0 m.addr) ∧
    (s.joins i → needsType (encode i) = true → s.me.typeMissing = true → exec i s = s.traps 1 0 s.me.pc) ∧
    (s.joins i → s.has a → s.has b → s.has c → (needsType (encode i) = true → s.me.typeMissing = false) →
      ∀ va, firstMisaligned (issueAddrs i (s.reg a) (s.reg b)) = some va → exec i s = s.traps 3 0 va) ∧
    (∀ m j, s.me.assembling.getLast? = some m → j.isWord = true → pushReads j = none → exec j s = s.traps 1 0 m.addr) ∧
    (s.joins i → (needsType (encode i) = true → s.me.typeMissing = false) →
      ((∀ r ∈ [a, b, c], s.settled r) → (∃ r ∈ [a, b, c], s.me.awaits r = true) → exec i s = .next s) ∧
      (s.has a → s.has b → s.has c → firstMisaligned (issueAddrs i (s.reg a) (s.reg b)) = none →
        (¬s.barRoom i → exec i s = .next s) ∧
        (s.barRoom i → ¬s.hasRoom i → exec i s = .next (s.settle s.cur))))

/-! ### Instructions of the column engine: their results -/

/-- R171, R173, R251, R259 to R261, R264, R267: one element group of an element-wise instruction on integers. Each active
element of the group gets the result, an inactive one zero with Z and its old value without; no other element and no other
register changes, and no data register but that one. The saturating forms raise IOV. That LINE_FULL_WAKE makes the step is
log 68, and that the flags are raised with the step is log 77. -/
def Obligations.IntegerLanes : Prop :=
  ∀ (s : State) (uid : Uid) (m : Member) (i : Instr) (k : VCtl) (vd va vc : Reg) (b : LaneArg) (ty : ElemTy),
    let u := uid.toNat
    let t := s.strand u
    let w := ElemTy.bits ty
    let hi := groupEnd ty m.first
    let result (j : Nat) : Option (BitVec w) :=
      laneInt i j ((t.readP (selector i)).getLsbD j) (t.lane w va j) (b.lane t m w j) (t.lane w vc j)
    let inGroup (j : Nat) : Bool := decide (m.first ≤ j ∧ j < hi)
    s.atHead u m i ty → ty.ffmt = none → laneForm i = some (k, vd, va, b, vc) → (∀ j, (result j).isSome) →
    (∀ r ∈ [vd, va, vc] ++ b.regs, t.streamOf r = none) → m.first < t.vl →
    ∃ s', exec (.lineFullWake uid) s = .next s' ∧ s.GroupStep s' u m hi (decide (t.vl ≤ hi)) ∧
      (∀ j, j < 16384 / w → some ((s'.strand u).lane w vd j) =
        if inGroup j && t.activeLane k.g k.n j then result j
        else some (if inGroup j && k.z then 0 else t.lane w vd j)) ∧
      (∀ r, r ≠ vd → (s'.strand u).v[r.toNat] = t.v[r.toNat]) ∧ (s'.strand u).p = t.p ∧
      (s'.strand u).pmask = t.pmask ∧
      (s'.strand u).modeReg = t.modeReg |||
        if (List.range hi).any (fun j => inGroup j && t.activeLane k.g k.n j &&
          laneClamps i (t.lane w va j) (b.lane t m w j)) then 0x200 else 0

/-- R212, R251, R253, R259 to R261: one element group of an element-wise instruction on floating-point elements, under the
rounding mode read at issue: results, flags, and a bit of `pmask` for each active element that a source's poison has made
poison. VADD with an immediate and the operations on bit patterns are left out. R262: VCVT writes its results in the layout
of the type that it converts to: one element group where the two have one width, and all elements in one step where they
have not. That LINE_FULL_WAKE makes the step is log 68, that flags and `pmask` are written with it is log 77. -/
def Obligations.FloatLanes : Prop :=
  (∀ (s : State) (uid : Uid) (m : Member) (i : Instr) (k : VCtl) (vd va vc : Reg) (b : LaneArg) (ty : ElemTy) (f : FFmt),
    let u := uid.toNat
    let t := s.strand u
    let w := ElemTy.bits ty
    let hi := groupEnd ty m.first
    let result (j : Nat) : Option (Nat × Flags) :=
      laneFloat i f m.rm (t.lane w va j).toNat (b.lane t m w j).toNat (t.lane w vc j).toNat
    let on (j : Nat) : Bool := decide (m.first ≤ j ∧ j < hi) && t.activeLane k.g k.n j
    s.atHead u m i ty → ty.ffmt = some f → laneForm i = some (k, vd, va, b, vc) → (∀ j, (result j).isSome) →
    (∀ r ∈ [vd, va, vc] ++ b.regs, t.streamOf r = none) → m.first < t.vl →
    ∃ s', exec (.lineFullWake uid) s = .next s' ∧ s.GroupStep s' u m hi (decide (t.vl ≤ hi)) ∧
      (∀ j r fl, j < 16384 / w → on j = true → result j = some (r, fl) →
        (s'.strand u).lane w vd j = BitVec.ofNat w r) ∧
      (∀ j, j < 16384 / w → on j = false →
        (s'.strand u).lane w vd j = if m.first ≤ j ∧ j < hi ∧ k.z then 0 else t.lane w vd j) ∧
      (∀ r, r ≠ vd → (s'.strand u).v[r.toNat] = t.v[r.toNat]) ∧ (s'.strand u).p = t.p ∧
      (∀ j, j < 1024 → (s'.strand u).pmask.getLsbD j = (t.pmask.getLsbD j || (on j &&
        (laneSources i (t.lane w va j).toNat (b.lane t m w j).toNat (t.lane w vc j).toNat).any f.isPoison))) ∧
      (s'.strand u).modeReg = t.modeReg ||| (BitVec.setWidth 64
        (((List.range hi).filterMap fun j => if on j then (result j).map Prod.snd else none).foldl (· ||| ·) 0) <<< (4 : Nat))) ∧
  ∀ (s : State) (uid : Uid) (m : Member) (k : VCtl) (ty ty' : ElemTy) (vd va : Reg),
    let u := uid.toNat
    let t := s.strand u
    let w := ElemTy.bits ty
    let w' := ElemTy.bits ty'
    let result (j : Nat) : VRes := convertVal ty ty' m.rm (t.lane w va j).toNat
    let lo := if w = w' then m.first else 0
    let hi := if w = w' then groupEnd ty m.first else alignUp t.vl (2048 / w')
    let on (j : Nat) : Bool := decide (lo ≤ j ∧ j < hi) && t.activeLane k.g k.n j
    s.atHead u m (.vcvt k ty' vd va) ty → ty' ≠ ty → t.vl ≤ vlmaxOf t.lanes.length false ty' →
    (∀ r, t.streamOf r = none) → m.first < t.vl → (w ≠ w' → m.pv = false) →
    ∃ s', exec (.lineFullWake uid) s = .next s' ∧ (w = w' → s.GroupStep s' u m hi (decide (t.vl ≤ hi))) ∧
      (w ≠ w' → (s'.strand u).queue = t.queue.map fun q =>
        if q.iid = m.iid then { q with done := true, work := none } else q) ∧
      (∀ j, j < 16384 / w' → (s'.strand u).lane w' vd j =
        if on j then BitVec.ofNat w' (result j).val else if lo ≤ j ∧ j < hi ∧ k.z then 0 else t.lane w' vd j) ∧
      (∀ r, r ≠ vd → (s'.strand u).v[r.toNat] = t.v[r.toNat]) ∧ (s'.strand u).p = t.p ∧
      (∀ j, j < 1024 → (s'.strand u).pmask.getLsbD j = (t.pmask.getLsbD j || (on j && (result j).poison))) ∧
      (s'.strand u).modeReg = t.modeReg ||| (BitVec.setWidth 64
        (((List.range hi).filterMap fun j => if on j then some (result j).fl else none).foldl (· ||| ·) 0) <<< (4 : Nat))

/-- R251, R268: one element group of PAND, POR, PXOR, PANDN, PSET and PMOV: each active element of the group gets its bit,
an inactive one 0 with Z and its old bit without; p0 takes no bit (R184). R263: VCMP gives its condition to pd and the
negation to pe, on integers without a flag and on floating-point elements with the flags of the comparison. That
LINE_FULL_WAKE makes the step is log 68, and that the flags are raised with it is log 77. -/
def Obligations.PredicateLanes : Prop :=
  ∀ (s : State) (uid : Uid) (m : Member) (i : Instr) (ty : ElemTy),
    let u := uid.toNat
    let t := s.strand u
    let w := ElemTy.bits ty
    let hi := groupEnd ty m.first
    let after (k : VCtl) (f : Nat → Bool) (old : BitVec 1024) (j : Nat) : Bool :=
      if m.first ≤ j ∧ j < hi then (if t.activeLane k.g k.n j then f j else if k.z then false else old.getLsbD j)
      else old.getLsbD j
    s.atHead u m i ty → m.first < t.vl →
    (∀ k pd f, predForm t i = some (k, pd, f) →
      ∃ s', exec (.lineFullWake uid) s = .next s' ∧ s.GroupStep s' u m hi (decide (t.vl ≤ hi)) ∧
        (s'.strand u).v = t.v ∧ (s'.strand u).modeReg = t.modeReg ∧ (s'.strand u).pmask = t.pmask ∧
        (∀ q : PReg, q ≠ 0 → ∀ j, j < 1024 →
          (s'.strand u).p[q.toNat].getLsbD j = if q = pd then after k f t.p[q.toNat] j else t.p[q.toNat].getLsbD j)) ∧
    (∀ k c pd pe va vb, i = .vcmp k c pd pe va vb → t.streamOf va = none → t.streamOf vb = none →
      let r (j : Nat) : Bool × Flags := match ty.ffmt with
        | none => (intCond w false c (t.lane w va j) (t.lane w vb j), 0)
        | some g => g.cond c (t.lane w va j).toNat (t.lane w vb j).toNat
      let f (j : Nat) : Bool := (r j).1
      ∃ s', exec (.lineFullWake uid) s = .next s' ∧ s.GroupStep s' u m hi (decide (t.vl ≤ hi)) ∧
        (s'.strand u).v = t.v ∧ (s'.strand u).pmask = t.pmask ∧
        (s'.strand u).modeReg = t.modeReg ||| (BitVec.setWidth 64 (((List.range hi).filterMap fun j =>
          if m.first ≤ j ∧ t.activeLane k.g k.n j = true then some (r j).2 else none).foldl (· ||| ·) 0) <<< (4 : Nat)) ∧
        (∀ q : PReg, q ≠ 0 → ∀ j, j < 1024 →
          (s'.strand u).p[q.toNat].getLsbD j =
            if q = pe then (if m.first ≤ j ∧ j < hi ∧ t.activeLane k.g k.n j = true then !f j
              else if m.first ≤ j ∧ j < hi ∧ k.z then false else t.p[q.toNat].getLsbD j)
            else if q = pd then after k f t.p[q.toNat] j else t.p[q.toNat].getLsbD j))

/-- R251, R267, R272: VSLIDE, VPERM and VLUT move elements across lanes in one step: each active element gets the element
of va at its source index, as va was before, or zero where the index lies outside. R271: VSCAN on integers gives each active
element the fold of the active elements of its segment up to it, or up to the one before it. R306 to R328: one step of KSEL,
KSELP, KJOIN, KSEMI, KSEMI.anti, KGROUP, KAGG, KSORT, KTOPK and KGATH, which takes one row of a source, builds one entry of the
key store or emits one element, whose sources and destinations lie in windows; and the completion of KSEL and KGATH. That
LINE_FULL_WAKE makes the step is log 68; that a crossing instruction is one step, and that a step of a column instruction
takes one row, is log 75. -/
def Obligations.CrossingLanes : Prop :=
  (∀ (s : State) (uid : Uid) (m : Member) (i : Instr) (ty : ElemTy) (k : VCtl) (vd va : Reg),
    let u := uid.toNat
    let t := s.strand u
    let w := ElemTy.bits ty
    s.atHead u m i ty → m.pv = false → (∀ r, t.streamOf r = none) →
    let crossed (s' : State) : Prop := exec (.lineFullWake uid) s = .next s' ∧
      (∀ r, r ≠ vd → (s'.strand u).v[r.toNat] = t.v[r.toNat]) ∧ (s'.strand u).p = t.p ∧
      (s'.strand u).queue = t.queue.map fun q => if q.iid = m.iid then { q with done := true, work := none } else q
    let inactive (j : Nat) : BitVec w := if k.z ∧ j < alignUp t.vl (2048 / w) then 0 else t.lane w vd j
    ((∀ j, ∃ src, moveFrom t m ty j i = some (k, vd, va, src)) → ∃ s', crossed s' ∧ (s'.strand u).modeReg = t.modeReg ∧
      ∀ j src, j < 16384 / w → moveFrom t m ty j i = some (k, vd, va, src) → (s'.strand u).lane w vd j =
        if t.activeLane k.g k.n j then (src.map (t.lane w va)).getD 0 else inactive j) ∧
    (∀ op excl pe, i = .vscan k op excl vd va pe → ty.ffmt = none →
      let f := redInt w (match op with
        | .sum => .sum
        | .min => .min
        | .max => .max)
      let seg (j : Nat) : List Nat := (List.range (if excl then j else j + 1)).filter fun q =>
        t.activeLane k.g k.n q && (List.range (j + 1)).all fun z => decide (z ≤ q) || !(t.readP pe).getLsbD z
      ∃ s', crossed s' ∧ (s'.strand u).modeReg ||| 0x200 = t.modeReg ||| 0x200 ∧
        (op ≠ .sum → (s'.strand u).modeReg = t.modeReg) ∧
        ∀ j, j < 16384 / w → (s'.strand u).lane w vd j =
          if t.activeLane k.g k.n j then ((seg j).map (t.lane w va)).foldl f.1 f.2 else inactive j)) ∧
  ∀ (s : State) (uid : Uid) (m : Member) (i : Instr) (w : ColWork),
    let u := uid.toNat
    let t := s.strand u
    let d := w.src 0
    let e := w.src 1
    let ty := descType d
    let rows := ((s.cluster (clusterOf u)).keyStore.map (·.rows)).getD []
    let steps (f : ColWork → ColWork) (l : List ElemStore) (g : List KeyRow → List KeyRow) : Prop :=
      ∃ s', exec (.lineFullWake uid) s = .next s' ∧ s.ColumnStep s' u m f l g
    let fits (k : PReg) (other : Option PReg) (j a : Nat) : Prop :=
      j < descCap t.k[k.toNat] ∧ s.outputFits u w k other j a
    let out (k : PReg) (j v a : Nat) : ElemStore := t.outputStore u m w.outn k j v a
    s.columnAt u m i w →
    -- KSEL and KSELP
    (∀ c kd xd ka pos key b,
      (∃ xa, i = .ksel c kd xd ka xa ∧ b = w.aux.toNat % 2 ^ (8 * etypeBytes ty)) ∨
        (∃ kb pos', i = .kselp c kd xd ka kb ∧ w.cura < descLen e ∧ s.rowIs u m e w.cura pos' b) →
      w.cura < descLen d → s.rowIs u m d w.cura pos key →
      let r := keyCond ty c key b
      let fl := if poisonedKey ty key || poisonedKey ty b then 0 else r.2
      (r.1 = false → steps (fun w => { w with cura := w.cura + 1, flags := w.flags ||| fl }) [] id) ∧
      (∀ a, r.1 = true → fits kd none w.outn a →
        steps (fun w => { w with cura := w.cura + 1, outn := w.outn + 1, flags := w.flags ||| fl })
          [out kd w.outn pos a] id)) ∧
    -- the build steps of joins
    (∀ pos key, ((∃ kd kc xd ka kb, i = .kjoin kd kc xd ka kb) ∨ (∃ kd xd ka kb, i = .ksemi kd xd ka kb) ∨
        (∃ kd xd ka kb, i = .ksemiAnti kd xd ka kb)) →
      w.built < descLen e → 0 < descLen d → s.rowIs u m e w.built pos key →
      steps (fun w => { w with built := w.built + 1 }) []
        fun l => if poisonedKey (descType e) key then l else l ++ [⟨w.built, pos, key⟩]) ∧
    -- the probe step of KJOIN
    (∀ kd kc xd ka kb pos key, i = .kjoin kd kc xd ka kb → descLen e ≤ w.built → descLen e ≠ 0 → w.cura < descLen d →
      s.rowIs u m d w.cura pos key →
      let chain := if poisonedKey ty key then [] else rows.filter fun r => keyHash r.key = keyHash key
      ((∀ r ∈ chain.drop w.curc, r.key ≠ key) →
        steps (fun w => { w with phase := 1, cura := w.cura + 1, curb := 0, curc := 0 }) [] id) ∧
      (∀ n r a b, chain[w.curc + n]? = some r → r.key = key →
        (∀ q r', q < n → chain[w.curc + q]? = some r' → r'.key ≠ key) →
        fits kd (some kc) w.outn a → fits kc (some kd) w.outn2 b →
        steps (fun w => { w with
            phase := 1, curb := w.curb + 1, curc := w.curc + n + 1, outn := w.outn + 1, outn2 := w.outn2 + 1 })
          [out kd w.outn pos a, out kc w.outn2 r.pos b] id)) ∧
    -- the probe step of KSEMI and KSEMI.anti
    (∀ anti kd xd ka kb pos key, i = (if anti then .ksemiAnti kd xd ka kb else .ksemi kd xd ka kb) →
      descLen e ≤ w.built → (anti = false → descLen e ≠ 0) → w.cura < descLen d → s.rowIs u m d w.cura pos key →
      let found := !poisonedKey ty key && rows.any fun r => r.key = key
      (found = anti → steps (fun w => { w with phase := 1, cura := w.cura + 1 }) [] id) ∧
      (∀ a, found ≠ anti → fits kd none w.outn a →
        steps (fun w => { w with phase := 1, cura := w.cura + 1, outn := w.outn + 1 }) [out kd w.outn pos a] id)) ∧
    -- KGROUP
    (∀ kd kc xd ka pos key a, i = .kgroup kd kc xd ka → w.cura ≤ w.built → w.cura < descLen d →
      s.rowIs u m d w.cura pos key → fits kd (some kc) w.cura a →
      let next (w : ColWork) : ColWork := { w with cura := w.cura + 1, built := w.built + 1, outn := w.outn + 1 }
      (poisonedKey ty key = true → steps next [out kd w.cura 0xffffffff a] id) ∧
      (∀ g, poisonedKey ty key = false → (rows.findIdx? fun r => r.key = key) = some g →
        steps next [out kd w.cura g a] id) ∧
      (∀ b, poisonedKey ty key = false → (∀ r ∈ rows, r.key ≠ key) → rows.length < 1048576 →
        fits kc (some kd) w.outn2 b →
        steps (fun w => { next w with outn2 := w.outn2 + 1 }) [out kc w.outn2 pos b, out kd w.cura w.outn2 a]
          (· ++ [⟨w.cura, pos, key⟩]))) ∧
    -- KAGG: the number of groups, the identities, the rows
    (∀ op kd xd ka kb, i = .kagg op kd xd ka kb →
      let counts (v : Nat) (g : Option Nat) : Prop := ∃ p g', s.rowIs u m e w.cura p g' ∧
        ((g' = 0xffffffff ∧ g = none) ∨ (g' ≠ 0xffffffff ∧
          ((op = .count ∧ v = 0 ∧ g = some g') ∨ (op ≠ .count ∧ ∃ pos key, s.rowIs u m d w.cura pos key ∧ v = key ∧
            g = if poisonedKey ty key then none else some g'))))
      let n := min (descLen d) (descLen e)
      (∀ v g, w.phase = 0 → w.cura < n → counts v g →
        steps (fun w => { w with cura := w.cura + 1, aux := (g.map fun g => BitVec.ofNat 64 (max w.aux.toNat (g + 1))).getD w.aux })
          [] id) ∧
      (∀ a, w.phase = 1 → w.outn < w.aux.toNat → s.outputFits u w kd none w.outn a →
        steps (fun w => { w with outn := w.outn + 1 }) [out kd w.outn (aggIdent op ty) a] id) ∧
      (w.phase = 1 → w.aux.toNat ≤ w.outn → steps (fun w => { w with phase := 2, cura := 0 }) [] id) ∧
      (∀ v, w.phase = 2 → w.cura < n → counts v none → steps (fun w => { w with cura := w.cura + 1 }) [] id) ∧
      (∀ v g acc a, w.phase = 2 → w.cura < n → counts v (some g) → s.outputFits u w kd none g a →
        let q := t.k[kd.toNat]
        let r := aggStep op ty acc v
        s.holdsAt u m (descBase q + BitVec.ofNat 64 (g * etypeBytes (descType q))) (etypeBytes (descType q)) acc →
        steps (fun w => { w with cura := w.cura + 1, flags := w.flags ||| r.2 }) [out kd g r.1 a] id)) ∧
    -- KSORT and KTOPK
    (∀ desc kd n, (∃ xd ka, i = .ksort kd xd ka ∧ desc = false ∧ n = descLen d) ∨
        (∃ least xd ka xa, i = .ktopk least kd xd ka xa ∧ desc = !least ∧ n = min w.aux.toNat (descLen d)) →
      (∀ pos key, w.built < descLen d → 0 < n → s.rowIs u m d w.built pos key →
        steps (fun w => { w with built := w.built + 1 }) []
          fun l => (insertRow desc ty ⟨w.built, pos, key⟩ l).take n) ∧
      (∀ r a, descLen d ≤ w.built → w.outn < n → rows[w.outn]? = some r → fits kd none w.outn a →
        steps (fun w => { w with outn := w.outn + 1 }) [out kd w.outn r.pos a] id)) ∧
    -- KGATH
    (∀ kd xd ka pos key a, i = .kgath kd xd ka → w.cura < descLen d → s.rowIs u m d w.cura pos key →
      fits kd none w.outn a →
      steps (fun w => { w with cura := w.cura + 1, outn := w.outn + 1 }) [out kd w.outn key a] id) ∧
    -- completion
    (∀ kd, (∃ c xd ka xa, i = .ksel c kd xd ka xa) ∨ (∃ xd ka, i = .kgath kd xd ka) → descLen d ≤ w.cura →
      ∃ s', exec (.lineFullWake uid) s = .next s' ∧
        (s'.strand u).k = t.k.set kd.toNat (descSet (descSet (descSet t.k[kd.toNat] 64 32 w.outn) 132 1
          (if descSorted d then 1 else 0)) 134 1 (if descUnique d then 1 else 0)) ∧
        (s'.strand u).replies = (t.replies.map fun q =>
          if q.iid = m.iid then { q with value := some (BitVec.ofNat 64 w.outn) } else q) ∧
        (s'.strand u).modeReg = t.modeReg ||| (w.flags.setWidth 64 <<< (4 : Nat)) ∧
        (s'.strand u).queue = t.queue.map fun q => if q.iid = m.iid then { q with done := true, work := none } else q)

/-- R168, R169, R265, R266, R268: VMVX to a scalar, PCNT, PFIRST and VRED on integers reply in one step, and so does VRED.sum
in the order of the elements on floating-point ones; the reply is then written to its register, in the order of the slots.
That LINE_FULL_WAKE makes the step is log 68, and that it is one step is log 75. -/
def Obligations.ScalarReplies : Prop :=
  ∀ (s : State) (uid : Uid),
    let u := uid.toNat
    let t := s.strand u
    (∀ (m : Member) (i : Instr) (ty : ElemTy) (w : Word), s.atHead u m i ty → m.pv = false → (∀ r, t.streamOf r = none) →
      replyOf t ty i = some w →
      ∃ s', exec (.lineFullWake uid) s = .next s' ∧ (s'.strand u).replies = (t.replies.map fun q =>
          if q.iid = m.iid then { q with value := some w } else q) ∧
        (s'.strand u).v = t.v ∧ (s'.strand u).p = t.p ∧ (s'.strand u).x = t.x ∧ (s'.strand u).modeReg = t.modeReg ∧
        (s'.strand u).queue = t.queue.map (fun q => if q.iid = m.iid then { q with done := true, work := none } else q)) ∧
    (∀ (m : Member) (ty : ElemTy) (k : GCtl) (op : RedOp) (tree : Bool) (xd va : Reg),
      s.atHead u m (.vred k op tree xd va) ty → m.pv = false → (∀ r, t.streamOf r = none) →
      let w := ElemTy.bits ty
      let l := ((List.range t.vl).filter (t.activeLane k.g k.n)).map (t.lane w va)
      let f := redInt w op
      let replied (s' : State) (v : Word) : Prop := exec (.lineFullWake uid) s = .next s' ∧
        (s'.strand u).replies = (t.replies.map fun q => if q.iid = m.iid then { q with value := some v } else q) ∧
        (s'.strand u).v = t.v ∧ (s'.strand u).p = t.p ∧ (s'.strand u).x = t.x ∧
        (s'.strand u).queue = t.queue.map fun q => if q.iid = m.iid then { q with done := true, work := none } else q
      (ty.ffmt = none → ∃ s', replied s' (let r := l.foldl f.1 f.2; if ty = .i32 then r.signExtend 64 else r.setWidth 64) ∧
        (s'.strand u).modeReg ||| 0x200 = t.modeReg ||| 0x200 ∧ (op ≠ .sum → (s'.strand u).modeReg = t.modeReg)) ∧
      (∀ g a rest, ty.ffmt = some g → op = .sum → tree = false → l = a :: rest →
        let r := rest.foldl (fun acc b => ((g.add m.rm acc.1 b.toNat).1, acc.2 ||| (g.add m.rm acc.1 b.toNat).2)) (a.toNat, 0)
        ∃ s', replied s' (BitVec.ofNat 64 r.1) ∧
          (s'.strand u).modeReg = t.modeReg ||| (BitVec.setWidth 64 r.2 <<< (4 : Nat)))) ∧
    (∀ (q : Reply) (rest : List Reply) (w : Word), t.replies = q :: rest → q.value = some w →
      (∀ q' rest', rest = q' :: rest' → q'.value = none) →
      ∃ s', exec (.replyWrite uid) s = .next s' ∧ (s'.strand u).replies = rest ∧
        (q.disc = false → q.reg.toNat < 24 ∨ q.ui = t.uia → (s'.strand u).readX q.reg = if q.reg = 0 then 0 else w) ∧
        (∀ r, r ≠ q.reg ∨ q.disc = true → (s'.strand u).readX r = t.readX r) ∧
        { s'.strand u with x := t.x, shadow := t.shadow, replies := t.replies } = t ∧
        (∀ v, v ≠ u → s'.strand v = s.strand v)) ∧
    (t.replies = [] ∨ (∃ q rest, t.replies = q :: rest ∧ q.value = none) →
      ∃ s', exec (.replyWrite uid) s = .next s' ∧ s'.strand u = t ∧ ∀ v, v ≠ u → s'.strand v = s.strand v)

/-- R256, R257, R177: SETVL on an unreshaped grant without a strip configuration makes its type legal, sets VL to the lesser
of its request and VLMAX, replies with VL, and clears the vector registers and predicates where vtype was illegal or
protected mode changes. SETVT changes the type where VL fits, and takes ILLEGAL where it does not: its trap is taken, in
whatever mode. That LINE_FULL_WAKE makes the step is log 68, and that it is one step is log 75. -/
def Obligations.VectorLength : Prop :=
  ∀ (s : State) (uid : Uid) (m : Member) (ty : ElemTy),
    let u := uid.toNat
    let t := s.strand u
    s.engineRuns u = true → t.colTrap = none → t.headMember = some m → t.reshapePend = false → t.cfg = none →
    (∀ xd src, decode m.word = some (.setvl ty xd src) →
      ∃ s', exec (.lineFullWake uid) s = .next s' ∧
        (s'.strand u).elemTy = some ty ∧ (s'.strand u).vl = min m.opa.toNat (vlmaxOf t.lanes.length m.prot ty) ∧
        (s'.strand u).protectedMode = m.prot ∧
        (s'.strand u).replies = (t.replies.map fun q =>
          if q.iid = m.iid then { q with value := some (BitVec.ofNat 64 (s'.strand u).vl) } else q) ∧
        (t.vtype.getLsbD 4 = true ∨ m.prot ≠ t.protectedMode →
          (∀ r : Reg, (s'.strand u).v[r.toNat] = 0) ∧ ∀ q : PReg, q ≠ 0 → (s'.strand u).readP q = 0) ∧
        (t.vtype.getLsbD 4 = false → m.prot = t.protectedMode → (s'.strand u).v = t.v ∧ (s'.strand u).p = t.p) ∧
        (s'.strand u).x = t.x ∧ s'.lmem = s.lmem ∧ s'.pmem = s.pmem) ∧
    (t.vtype.getLsbD 4 = false → decode m.word = some (.setvt ty) →
      (t.vl ≤ vlmaxOf t.lanes.length t.protectedMode ty →
        ∃ s', exec (.lineFullWake uid) s = .next s' ∧ (s'.strand u).elemTy = some ty ∧ (s'.strand u).vl = t.vl ∧
          (s'.strand u).v = t.v ∧ (s'.strand u).p = t.p) ∧
      (vlmaxOf t.lanes.length t.protectedMode ty < t.vl → s.midAccess u = false →
        (∀ q ∈ t.queue, q.inside = false ∧ q.partWay = false) →
        ∃ s', exec (.lineFullWake uid) s = .next s' ∧ (s'.strand u).vl = t.vl ∧ (s'.strand u).v = t.v ∧
          (t.mode ≠ .firmware → (s'.strand u).mode = .kernel ∧ (s'.strand u).pmode = t.mode ∧
            (s'.strand u).cause.extractLsb' 0 8 = 1 ∧ (s'.strand u).pc = t.tvec) ∧
          (t.mode = .firmware → (s'.strand u).mode = .firmware ∧ (s'.strand u).fpmode = .firmware ∧
            (s'.strand u).fcause.extractLsb' 0 8 = 1 ∧ (s'.strand u).pc = t.ftvec)))

/-! ### The Drayman's instructions -/

/-- R362 to R365, R370 to R373, R375, R387: DCOPY, DCOPY.2d and DRED whose handle passes its check fork an operation. The
record and the shape record lie in the windows of the strand. -/
def Obligations.DraymanForks : Prop :=
  ∀ s : State, s.quiet → s.tileOf s.cur = none →
    let entry (x : Word) : BitVec 256 := s.handleEntry s.me.owner (x.extractLsb' 12 20).toNat
    let off (x : Word) : Nat := (x.extractLsb' 32 32).toNat
    (∀ a : CopyArgs, s.recordAt a.xc → s.has a.xb → s.has a.xa → s.has a.xd → s.forkRoom a.d →
      let h := s.reg a.xa
      let right : HRight := if a.put then .wr else .rd
      let reads := s.handleReads s.me.owner (h.extractLsb' 0 32)
      (∀ n, n = (s.reg a.xb).toNat → n ≤ 2 ^ 32 → reads →
        s.handleTrap s.me.owner (h.extractLsb' 0 32) right (off h) (off h) (off h + n : Nat) = none →
        ∃ t o, exec (.dcopy a) s = .next t ∧ s.Forked t o ∧ o.Copies s a (entry h) 1 n 0 0) ∧
      (∀ b, (s.reg a.xb).toNat % 32 = 0 → s.localAt (s.reg a.xb) 32 = some b → s.clean b 32 →
        let rows := s.seenNat b 4
        let rb := s.seenNat (b + 4) 4
        let hs := (BitVec.ofNat 64 (s.seenNat (b + 8) 8)).toInt
        let ls := (BitVec.ofNat 64 (s.seenNat (b + 16) 8)).toInt
        let span : Int := (rows - 1 : Nat) * hs
        (s.seenNat (b + 24) 8 = 0 → 0 < rows → 0 < rb → rows * rb ≤ 2 ^ 32 → reads →
          s.handleTrap s.me.owner (h.extractLsb' 0 32) right (off h) (off h + min 0 span) (off h + max 0 span + rb) = none →
          ∃ t o, exec (.dcopy2d a) s = .next t ∧ s.Forked t o ∧ o.Copies s a (entry h) rows rb hs ls) ∧
        (s.seenNat (b + 24) 8 ≠ 0 ∨ rows = 0 ∨ rb = 0 → exec (.dcopy2d a) s = s.traps 1 0 (s.reg a.xb)))) ∧
    (∀ (op : FoldOp) (ordered : Bool) (xd xa xb xc : Reg) (d : BitVec 3) (ui : Bool) (disp : BitVec 21),
      s.recordAt xc → s.has xb → s.has xa → s.has xd → s.forkRoom d →
      let h := s.reg xa
      let e := entry h
      let n := (s.reg xb).toNat
      let loc := s.reg xd + disp.signExtend 64
      s.handleReads s.me.owner (h.extractLsb' 0 32) → n % op.bytes = 0 → n ≤ 2 ^ 24 → loc.toNat % op.bytes = 0 →
      (entryBase e + BitVec.ofNat 64 (off h)).toNat % op.bytes = 0 →
      s.handleTrap s.me.owner (h.extractLsb' 0 32) .red (off h) (off h) ((off h + (if ordered then op.bytes else n) : Nat) : Int) =
        none →
      ∃ t o, exec (.dred op ordered xd xa xb xc d ui disp) s = .next t ∧ s.Forked t o ∧ o.kind = .reduce op ordered ∧
        o.handle = h.extractLsb' 0 32 ∧ o.buf = entryBase e + BitVec.ofNat 64 (off h) ∧ o.loc = loc ∧ o.put = true ∧
        o.rows = 1 ∧ o.rbytes = n ∧ o.counter = d ∧ o.ui = ui ∧
        o.recordAddr = (if xc = 0 then none else some (s.reg xc)) ∧ o.state = s.firstState o)

/-- R371, R380, R382, R383, R385, R386: DPREF hands over a hint, or counts one that is refused; DSTAT reads the identity of
the last operation, takes the oldest user interrupt, and reads the counts; DCANCEL stops the operations that it names; DCFG
with a length of 0 ends the configuration, and with a valid record and a length installs one. -/
def Obligations.DraymanControl : Prop :=
  ∀ (s : State) (xd xa xb xc : Reg), s.quiet →
    let c := clusterOf s.cur
    let k := s.cluster c
    (s.has xa → s.has xb → s.has xc → (s.reg xb).toNat ≤ 2 ^ 32 →
      let h := s.reg xa
      let n := (s.reg xb).toNat
      let off := (h.extractLsb' 32 32).toNat
      let e := s.handleEntry s.me.owner (h.extractLsb' 12 20).toNat
      s.handleReads s.me.owner (h.extractLsb' 0 32) →
      s.handleTrap s.me.owner (h.extractLsb' 0 32) .pf off off (off + n : Nat) = none →
      ∃ t, exec (.dpref xa xb xc) s = .next t ∧ t.me = s.me.atPc (s.me.pc + 8) ∧ t.lmem = s.lmem ∧ t.pmem = s.pmem ∧
        (n = 0 → t = s.goesOn s.me) ∧
        (n ≠ 0 → 64 ≤ k.hints.length → t.cluster c = { k with hintsRefused := min (k.hintsRefused + 1) (2 ^ 32 - 1) }) ∧
        (n ≠ 0 → k.hints.length < 64 → ∃ g : Hint, t.cluster c = { k with hints := k.hints ++ [g] } ∧ g.uid = s.cur ∧
          g.owner = s.me.owner ∧ g.mode = s.me.mode ∧ g.handle = h.extractLsb' 0 32 ∧ g.deadline = s.reg xc ∧
          g.addr = entryBase e + BitVec.ofNat 64 off ∧ g.bytes = n ∧ g.module = s.entryModule e)) ∧
    exec (.dstat .last xd) s = .next (s.wrote xd s.me.kept.lastIdent) ∧
    (∃ t, exec (.dstat .int xd) s = .next t ∧ t.reg xd = (if xd = 0 then 0 else s.me.kept.intq.headD 0) ∧
      t.me.kept = { s.me.kept with intq := s.me.kept.intq.tail } ∧ (∀ r, r ≠ xd → t.reg r = s.reg r) ∧ OnlyMe s t) ∧
    (∃ w, exec (.dstat .inflt xd) s = .next (s.wrote xd w) ∧
      w.extractLsb' 0 16 = BitVec.ofNat 16 (s.opsOf s.me.holder).length) ∧
    (k.hintsRefused < 2 ^ 32 → k.hintsDropped < 2 ^ 32 → exec (.dstat .hint xd) s =
      .next (s.wrote xd (BitVec.ofNat 32 k.hintsDropped ++ BitVec.ofNat 32 k.hintsRefused))) ∧
    (s.has xa → ∃ t, exec (.dcancel xa) s = .next t ∧ t.me = s.me.atPc (s.me.pc + 8) ∧ t.lmem = s.lmem ∧
      t.pmem = s.pmem ∧ (∀ o ∈ (t.cluster c).ops, o.ident = s.reg xa → s.me.mode ≠ .user →
        o.state ≠ .serviced ∧ (o.state = .running → o.cancel = true)) ∧
      (s.me.mode = .user → (∀ e ∈ s.opsOf s.me.holder, e.2.ident ≠ s.reg xa) →
        t = s.goesOn s.me)) ∧
    (s.has xa → s.has xb → (s.reg xa).toNat % 64 = 0 → s.reg xb = 0 →
      ∃ t, exec (.dcfg xa xb) s = .next t ∧ t.me = ({ s.me with cfg := none, dcfgr := 0, dcfgl := 0 }).atPc (s.me.pc + 8) ∧
        t.lmem = s.lmem ∧ t.pmem = s.pmem ∧ ∀ v, v ≠ s.cur → t.strand v = s.strand v) ∧
    (∀ a, s.has xa → s.has xb → (s.reg xa).toNat % 64 = 0 → s.localAt (s.reg xa) 64 = some a → s.clean a 64 →
      let r := s.seenNat a 64
      let length := (s.reg xb).toNat
      0 < length → length < 2 ^ 32 → cfgValid r = true → (s.opsOf s.me.holder).length + cfgStreams r * cfgDepth r ≤ 64 →
      k.ops.length + cfgStreams r * cfgDepth r ≤ 256 →
      (∀ i, i < cfgStreams r → s.outsideWindow c (0x7e0000000000 + cfgRing r i) (cfgDepth r * cfgSlot r i) = none ∧
        let x := cfgHop r i
        let o := (x.extractLsb' 32 32).toNat
        s.handleReads s.me.owner (x.extractLsb' 0 32) ∧
        s.handleTrap s.me.owner (x.extractLsb' 0 32) .rd o o (o + length * cfgElem r i : Nat) = none) →
      ∃ t f, exec (.dcfg xa xb) s = .next t ∧ t.me.cfg = some f ∧ f.record = BitVec.ofNat 512 r ∧ f.length = length ∧
        f.mode = s.me.mode ∧ f.consumed = 0 ∧ f.err = false ∧ t.me.dcfgr = BitVec.ofNat 512 r ∧
        t.me.dcfgl = BitVec.ofNat 64 length ∧ t.me.pc = s.me.pc + 8 ∧ t.lmem = s.lmem ∧ t.pmem = s.pmem)

/-! ### Scheduling instructions -/

/-- R389, R393, R405 to R408, R410: LAUNCH, YIELD, TICKW and TQCTL. What the Cox decides at their event (R399), that of a
refused LAUNCH too, is the model's `coxRun`. How it decides where the rules leave it open is the model's reading (logs 50 to 53). -/
def Obligations.SchedulingForms : Prop :=
  ∀ (s : State) (xd xa xb : Reg), s.quiet → s.has xa → s.has xb →
    let u := s.cur
    let word := s.reg xa
    let permitted (q : Nat) : Prop := s.me.mode ≠ .user ∨ s.me.owner = (s.cox.queueOf q).owner
    let answered (s1 : State) : Host.Outcome State Fault Refusal := .next ((s1.coxRun.forget (.helm u)).movesOn u)
    let refused (code : Word) : Prop := ∃ s1 : State, exec (.launch xd xa xb) s = answered s1 ∧
      { s1 with arrived := s.arrived } = s.become (s.me.writeX xd code)
    (∀ a, s.tileOf u = none → word.toNat % 64 = 0 → s.localAt word 64 = some a → s.clean a 64 →
      let r := BitVec.ofNat 512 (s.seenNat a 64)
      let q := (s.reg xb).toNat
      let e := s.cox.queueOf q
      (taskBad r = true → exec (.launch xd xa xb) s = s.traps 1 0 word) ∧
      (taskBad r = false → taskCtgt r = 0 ∨ (s.localAt (taskCtgt r) 16).isSome →
        (63 < q → refused 7) ∧
        (q ≤ 63 → e.on = false → refused 3) ∧
        (q ≤ 63 → e.on = true → ¬permitted q → refused 2) ∧
        (q ≤ 63 → e.on = true → permitted q → s.inService.length < taskCrews r → refused 4) ∧
        (q ≤ 63 → e.on = true → permitted q → taskCrews r ≤ s.inService.length → 2 ^ e.size.toNat ≤ e.length →
          refused 1) ∧
        (q ≤ 63 → e.on = true → permitted q → taskCrews r ≤ s.inService.length → e.length < 2 ^ e.size.toNat →
          let task := BitVec.ofNat 64 (s.cox.nextSeq * 64 + q)
          ∃ s1 : State, exec (.launch xd xa xb) s = answered s1 ∧
            s1.strand u = s.me.writeX xd task ∧ s1.lmem = s.lmem ∧
            s1.cox.queueOf q = { e with tail := e.tail + 1 } ∧ s1.cox.nextSeq = s.cox.nextSeq + 1 ∧
            Tab.get [] s1.cox.waiting q = Tab.get [] s.cox.waiting q ++ [task] ∧
            { s1 with cox := s.cox, strands := s.strands, arrived := s.arrived } =
              { s.deviceWrite (e.slot e.tail) 64 r.toNat with cox := s.cox, strands := s.strands, arrived := s.arrived }))) ∧
    (∃ s1 : State, exec .yield s = .next (s1.movesOn u) ∧ (s1 = s.coxRun ∨ ∃ n, s1 = s.coxRun.stopGang n) ∧
      (s.coxRun.cox.gang (s.coxRun.strand u).gang = none → s1 = s.coxRun)) ∧
    (s.me.issue = .running ∨ s.me.issue = .idle → exec (.tickw xd) s = .next (s.become { s.me with issue := .tickw s.tick })) ∧
    (∀ since, s.me.issue = .tickw since → (since = s.tick → exec (.tickw xd) s = .next s) ∧
      (since ≠ s.tick → exec (.tickw xd) s = .next (s.goesOn (Strand.writeX { s.me with issue := .running } xd s.tick)))) ∧
    (s.tileOf u = none → s.opsOf s.me.holder = [] →
      (∀ o ∈ (s.cluster (clusterOf u)).matOps, o.holder ≠ s.me.holder) →
      (s.cluster (clusterOf u)).pendingFailure s.me.holder = none →
      exec (.tqctlExit xd xa xb) s = .next (s.strandEnds u word).coxRun) ∧
    (63 < word.toNat ∨ ¬permitted word.toNat → exec (.tqctlStat xd xa xb) s = .next (s.wrote xd (BitVec.allOnes 64))) ∧
    (word.toNat ≤ 63 → permitted word.toNat →
      let e := s.cox.queueOf word.toNat
      ∃ w, exec (.tqctlStat xd xa xb) s = .next (s.wrote xd w) ∧
        w.extractLsb' 0 16 = BitVec.ofNat 16 (min e.length 65535) ∧ w.extractLsb' 16 4 = e.level ∧ w.getLsbD 20 = e.en ∧
        w.getLsbD 21 = e.stop ∧ w.extractLsb' 32 16 = e.owner) ∧
    (∀ i b, (i = .tqctlStop xd xa xb ∧ b = true ∨ i = .tqctlStart xd xa xb ∧ b = false) →
      (63 < word.toNat → exec i s = .next (s.wrote xd 7)) ∧
      (word.toNat ≤ 63 → ¬permitted word.toNat → exec i s = .next (s.wrote xd 2)) ∧
      (word.toNat ≤ 63 → permitted word.toNat → ∃ s1 : State, exec i s = .next (s1.wrote xd 0) ∧
        s1.cox.queueOf word.toNat = { s.cox.queueOf word.toNat with stop := b } ∧
        (∀ q, q ≠ word.toNat → s1.cox.queueOf q = s.cox.queueOf q) ∧
        { s1 with cox := s.cox } = s)) ∧
    (let gang := s.cox.gangs.find? fun g => g.task = word && g.tile.isNone
      let q := word.toNat % 64
      (word = 0 ∨ (gang = none ∧ s.cox.waitingAt q word = none) → exec (.tqctlKill xd xa xb) s = .next (s.wrote xd 6)) ∧
      (word ≠ 0 → (gang ≠ none ∨ s.cox.waitingAt q word ≠ none) →
        (¬permitted q → exec (.tqctlKill xd xa xb) s = .next (s.wrote xd 2)) ∧
        (permitted q →
          let s1 := match gang with
            | some g => (s.killGang g.serial).coxRun
            | none => (s.finishRecord q word 2).coxRun
          exec (.tqctlKill xd xa xb) s = .next ((s1.setStrand u ((s1.strand u).writeX xd 0)).movesOn u)))) ∧
    (s.me.mode = .user → exec (.tqctlPeriod xd xa xb) s = .next (s.wrote xd (BitVec.allOnes 64))) ∧
    (s.me.mode ≠ .user →
      let old : Word := (s.tperiodNext.getD s.tperiod).setWidth 64
      let v := word.extractLsb' 0 32
      (v.toNat < 1100000 → exec (.tqctlPeriod xd xa xb) s = .next (s.wrote xd old)) ∧
      (1100000 ≤ v.toNat → exec (.tqctlPeriod xd xa xb) s = .next (State.wrote { s with tperiodNext := some v } xd old)))

/-! ### Rows of the table that are no instruction words: registers -/

/-- R5, R26, R32 to R34, R46, R65, R92, R121, R344, R379, R389, R390, R426, R435, R439, R454, R457: CONTROL_REGISTER_WRITE by a
strand in kernel or firmware mode completes at every aligned offset. The register that the offset names reads back what was
written, in the bits that the register holds; every other register, and everything but the register, stays. A misaligned
offset takes ALIGN, an offset that no table lists is ignored, and a strand in user mode takes the access trap of a CONTROL
violation, which is logged; while its column engine stands where nothing may stop it, neither trap is taken (log 93). Reserved
bits read as zero: that the fields of DCFGR keep none is a reading of R5 (log 80). How the rows name the writer, what address the trap names, and which mode may write MODNUM and
PPORTS, are readings (logs 63 and 64). -/
def Obligations.RegisterWrites : Prop :=
  ∀ (s : State) (uid : Uid) (v : Word),
    let u := uid.toNat
    let all : Word := BitVec.allOnes 64
    let low : Word := 0xffffffff
    let row (o : Nat) : Instr := .controlRegisterWrite uid (BitVec.ofNat 50 o) v
    let holds (o : Nat) (w k : Word) : Prop := ∃ t, exec (.controlRegisterWrite uid (BitVec.ofNat 50 o) v) s = .next t ∧
      t.controlRead u o = (v &&& w) ||| (s.controlRead u o &&& k) ∧
      (∀ o', o' % 8 = 0 → o' ≠ o → t.controlRead u o' = s.controlRead u o') ∧ t.lmem = s.lmem ∧ t.pmem = s.pmem ∧
      ∀ x, (s.strand x).pc = (t.strand x).pc ∧ (s.strand x).x = (t.strand x).x
    let log (o : Nat) : List (Nat × Word × Word) := [(o, 0x000fffffffffffe0, 0), (o + 8, 0x1f, 0), (o + 0x10, 0, all),
      (o + 0x18, all, 0), (o + 0x20, all, 0)]
    ((s.strand u).mode = .user → ∀ o, o < 2 ^ 50 → ∃ s1 : State, s.LogsOne s1 ∧ exec (row o) s =
      .next (if s.columnBusy u then s else s1.trapEntry u ⟨4, 3, BitVec.ofNat 64 (3 * 2 ^ 50 + o), none⟩)) ∧
    ((s.strand u).mode ≠ .user →
      (∀ off : BitVec 50, off.toNat % 8 = 0 → ∃ t, exec (.controlRegisterWrite uid off v) s = .next t) ∧
      (∀ o, o < 2 ^ 50 → o % 8 ≠ 0 → exec (row o) s =
        .next (s.trapOr u ⟨3, 0, BitVec.ofNat 64 (3 * 2 ^ 50 + o), none⟩ s)) ∧
      (∀ o, o < 2 ^ 50 → o % 8 = 0 → (o < 0x10000 ∨ 0x8000000 ≤ o ∨ (o < 0x60000 ∧ 0x2000 ≤ o % 0x10000)) →
        exec (row o) s = .next s) ∧
      (∀ e ∈ log 0x10060 ++ log 0x30028 ++ log 0x50000 ++
        [(0x10008, 0x000fffffffe00000, 0), (0x10010, 0, 0), (0x10098, all, 0), (0x100a0, all, 0),
          (0x100b0, 0x000fffffffe00000, 0), (0x100c8, 0x000fffffff000000, 0), (0x100d0, low, 0), (0x20008, 0, all),
          (0x20010, 0, all), (0x30000, 0, all), (0x30010, 0, all), (0x30018, 0x000fffffffe00000, 0), (0x30020, all, 0),
          (0x40008, low, 0), (0x50028, 0xfff, 0), (0x50030, low, 0), (0x50038, low, 0), (0x50040, all, 0),
          (0x50048, all, 0), (0x50058, low, 0), (0x50080, 0, all)],
        holds e.1 e.2.1 e.2.2) ∧
      (∀ q, q < 64 → ∀ e ∈ [(0, 0x0000000fffff001f, 0x20), (8, all, 0), (0x10, 0, all), (0x18, all, 0)],
        holds (0x40100 + 32 * q + e.1) e.2.1 e.2.2) ∧
      (∀ c j, c < 512 → 0 < j → j < 6 → holds (0x100000 + 64 * c + 8 * j) all 0 ∧ holds (0x110000 + 64 * c + 8 * j) all 0) ∧
      (∀ w, w < 4096 → w = u ∨ (s.strand w).resident = false →
        (∀ e ∈ [(0x8, 0xfffffffe, 0), (0x10, all, 0), (0x18, 7, 0), (0x30, 0, all), (0xc0, all, 0), (0xc8, 0xf1, 0),
          (0xd0, all, 0)], holds (0x4000000 + 0x4000 * w + e.1) e.2.1 e.2.2) ∧
        (∀ i, i < 8 → holds (0x4000040 + 0x4000 * w + 8 * i) 0xffffffff0000003f 0 ∧
          holds (0x4000080 + 0x4000 * w + 8 * i)
            ([0xffff000f, all, 0xffffffff01ffffff, 0x01ffffffffffffff, all, 0xffffffff01ffffff, 0x01ffffffffffffff, 0].getD i 0) 0 ∧
          holds (0x4000100 + 0x4000 * w + 8 * i) all 0) ∧
        ∀ i j, i < 128 → j < 8 → holds (0x4001000 + 0x4000 * w + 64 * i + 8 * j)
          (if j = 6 then 0x0000ffff003fffff else if j = 7 then 0 else all) 0) ∧
      (1100000 ≤ (v &&& low).toNat → holds 0x40000 low 0) ∧
      ((v &&& low).toNat < 1100000 → exec (row 0x40000) s = .next s) ∧
      (∀ e ∈ [(0x10000, (0x7ffff : Word)), (0x100a8, 0xfff)], if (s.strand u).mode = .firmware then holds e.1 e.2 0
        else exec (row e.1) s = .next s) ∧
      exec (row 0x10010) s = .next { s with keysel := v.extractLsb' 0 12 } ∧
      (∀ i : Fin 8, exec (row (0x10018 + 8 * i.val)) s = .next { s with keydata := s.keydata.set i v }))

/-- R32, R64, R65, R92, R96, R114, R121, R442, R443, R458, R467: the rows that are writes to registers with an effect of their
own, by a strand in kernel or firmware mode; the same effects follow CONTROL_REGISTER_WRITE at their offsets. In user mode
each of them takes the access trap of a CONTROL violation at its register, which is logged, unless its column engine stands
where nothing may stop it (log 93). Who makes such a write, and from where, is a reading (log 64); so is a PDONE that is ignored
or waits (log 56), and that a released part of the pool range reads as zero (log 63). That the local memory of a fenced
cluster, which R458 calls lost, reads as zero is log 3. -/
def Obligations.RegisterEffects : Prop :=
  ∀ (s : State) (uid window : Uid) (v ident : Word) (owner : Owner) (withdraw entering : BitVec 4) (w : BitVec 6) (cid : Cid),
    let u := uid.toNat
    let row (o : BitVec 50) : Instr := .controlRegisterWrite uid o v
    let x := Tab.get (⟨0, 0, 0⟩ : Window) s.windows w.toNat
    ((s.strand u).mode = .user → ∀ e ∈ ([(.keygo uid v, 0x10058), (.poolcszWrite uid v, 0x10088), (.pcflush uid, 0x10090),
      (.pcflushOwner uid owner, 0x10090), (.fqresume uid ident, 0x100b8), (.fqabort uid ident, 0x100c0),
      (.plctlGo uid withdraw entering, 0x30008), (.grantWindowLive uid w, 0x21010 + 32 * w.toNat),
      (.grantWindowFree uid w, 0x21010 + 32 * w.toNat), (.hevack uid v, 0x20018), (.fenceCluster uid cid, 0x50050),
      (.pdone uid window, 0x4000020 + 0x4000 * window.toNat), (.reshape uid window v, 0x4000028 + 0x4000 * window.toNat)] :
        List (Instr × Nat)), ∃ s1 : State, s.LogsOne s1 ∧
        exec e.1 s =
          .next (if s.columnBusy u then s else s1.trapEntry u ⟨4, 3, BitVec.ofNat 64 (3 * 2 ^ 50 + e.2), none⟩)) ∧
    ((s.strand u).mode ≠ .user →
      (exec (row 0x10058) s = exec (.keygo uid v) s ∧ exec (row 0x10088) s = exec (.poolcszWrite uid v) s ∧
        exec (row 0x100b8) s = exec (.fqresume uid v) s ∧ exec (row 0x100c0) s = exec (.fqabort uid v) s ∧
        exec (row 0x20018) s = exec (.hevack uid v) s) ∧
      (v.getLsbD 0 = false → exec (.keygo uid v) s = .next s) ∧
      (v.getLsbD 0 = true → (s.keysel = 0xfff ∨ (s.keysel = 0 ∧ (s.strand u).mode ≠ .firmware)) → ∃ s1 : State,
        s1.keys = s.keys ∧ s1.strands = s.strands ∧
        exec (.keygo uid v) s =
          .next (if s.columnBusy u then s else s1.trapEntry u ⟨4, 3, 0x000c000000010058, none⟩)) ∧
      (v.getLsbD 0 = true → s.keysel ≠ 0xfff → (s.keysel ≠ 0 ∨ (s.strand u).mode = .firmware) → ∃ k : BitVec 512,
        exec (.keygo uid v) s = .next { s with keys := Tab.set s.keys s.keysel.toNat k } ∧
        ∀ i : Fin 8, k.extractLsb' (64 * i.val) 64 = s.keydata[i]) ∧
      (∀ n, n = (v.extractLsb' 24 8).toNat →
        (8 < n → exec (.poolcszWrite uid v) s = .next s) ∧
        (n ≤ 8 → ∃ t : State, exec (.poolcszWrite uid v) s = .next t ∧ t.poolcsz = n ∧ (∀ die, t.poolLines die = []) ∧
          (∀ pa, kindOf pa = 0 → 0xc000000 - s.poolcsz * 2 ^ 24 ≤ pa % 2 ^ 28 → pa % 2 ^ 28 < 0xc000000 - n * 2 ^ 24 →
            Memory.read t.pmem pa = 0) ∧ t.strands = s.strands ∧ t.lmem = s.lmem)) ∧
      (∃ t : State, exec (.pcflush uid) s = .next t ∧ t.pcflush = 0 ∧ (∀ die, t.poolLines die = []) ∧
        t.strands = s.strands ∧ t.lmem = s.lmem) ∧
      (∃ t : State, exec (.pcflushOwner uid owner) s = .next t ∧ t.pcflush = (owner.setWidth 64 <<< 16) ||| 2 ∧
        (∀ die, ∀ l ∈ t.poolLines die, l.owner ≠ owner) ∧
        (∀ die, ∀ l ∈ s.poolLines die, (∀ e ∈ s.pool, ∀ k ∈ e.2, k.owner = owner → k.line ≠ l.line) →
          l ∈ t.poolLines die) ∧ t.strands = s.strands ∧ t.lmem = s.lmem) ∧
      (∃ t : State, exec (.fqresume uid ident) s = .next t ∧
        (∀ c, ∀ o ∈ (t.cluster c).ops, o.ident = ident → o.state ≠ .serviced) ∧
        (∀ c, ∀ o ∈ (s.cluster c).ops, o.ident = ident → o.state = .serviced →
          { o with state := .running } ∈ (t.cluster c).ops) ∧
        (∀ c o, s.servicedOp ident = some (c, o) → ∀ p ∈ (t.cluster c).matOps, p.ident = o.ident → p.serviced = false) ∧
        t.strands = s.strands ∧ t.lmem = s.lmem ∧ t.pmem = s.pmem) ∧
      (∃ t : State, exec (.fqabort uid ident) s = .next t ∧
        (∀ c, ∀ o ∈ (s.cluster c).ops, o.ident = ident → o.state = .serviced →
          ∃ o' ∈ (t.cluster c).ops, o'.ident = ident ∧ o'.state = .ending 3) ∧
        (∀ c o, s.servicedOp ident = some (c, o) → (∀ p ∈ (t.cluster c).matOps, p.holder ≠ o.holder) ∧
          (t.cluster c).matFail = (s.cluster c).matFail ++ [(o.holder.1, o.holder.2.1, o.holder.2.2,
            BitVec.ofNat 64 (3 + o.index * 2 ^ 16))]) ∧
        t.strands = s.strands ∧ t.lmem = s.lmem ∧ t.pmem = s.pmem) ∧
      (s.outstanding = [] → ∀ mask : BitVec 4, (∀ p, p < 4 → mask.getLsbD p =
          ((s.live.getLsbD p && !withdraw.getLsbD p) || (entering.getLsbD p && s.planeUp p && !s.spineDown.getLsbD p))) →
        (mask = s.live ∨ mask = 0 → exec (.plctlGo uid withdraw entering) s = .next s) ∧
        (mask ≠ s.live → mask ≠ 0 → ∃ t : State, exec (.plctlGo uid withdraw entering) s = .next t ∧ t.live = mask ∧
          t.rcount = s.rcount + 1 ∧ t.easyall = true ∧ t.strands = s.strands ∧ t.lmem = s.lmem)) ∧
      (exec (.grantWindowLive uid w) s = .next
        (if x.state ≠ 0 then s
         else if x.hlen = 0 ∨ ∃ e ∈ s.windows, e.1 ≠ w.toNat ∧ e.2.state ≠ 0 ∧
             e.2.hbase.toNat < x.hbase.toNat + x.hlen.toNat ∧ x.hbase.toNat < e.2.hbase.toNat + e.2.hlen.toNat then
           { s with hpstat := s.hpstat ||| 2 }
         else { s with windows := Tab.set s.windows w.toNat { x with state := 1 } })) ∧
      (exec (.grantWindowFree uid w) s = .next
        (if x.state = 1 ∨ x.state = 2 then { s with windows := Tab.set s.windows w.toNat { x with state := 0 } } else s)) ∧
      (exec (.hevack uid v) s = .next
        (if v.getLsbD 0 then { s with hostMessage := false, hevb := 0, hevl := 0 } else s)) ∧
      (∀ c, c = cid.toNat →
        (c ∈ s.fenced → exec (.fenceCluster uid cid) s = .next s) ∧
        (c ∉ s.fenced → s.gangsOn c = [] → (s.cluster c).launches = [] → ∃ s1 : State,
          exec (.fenceCluster uid cid) s = .next s1.coxRun ∧ (∀ d, d ∈ s1.fenced ↔ d = c ∨ d ∈ s.fenced) ∧
          (∀ n, clusterOf n = c → s1.strand n = Strand.empty) ∧ (∀ n, clusterOf n ≠ c → s1.strand n = s.strand n) ∧
          (∀ o ∈ (s1.cluster c).ops, ∃ k, o.state = .ending k) ∧ (s1.cluster c).matOps = [] ∧
          (∀ a, a / 2 ^ 20 = c ∨ (2 ^ 30 ≤ a ∧ (a - 2 ^ 30) / 2 ^ 23 = c) → Memory.read s1.lmem a = 0) ∧
          s1.pmem = s.pmem)) ∧
      (∀ n, n = window.toNat →
        (n ≠ u → (s.strand n).resident = true → exec (.pdone uid window) s = .next s) ∧
        (s.pdoneActs n = false → exec (.pdone uid window) s = .next s) ∧
        (n = u → s.pdoneActs n = true → s.elemsClear n = true →
          (s.strand n).writeBuffer = [] → s.bufferClear n = true →
          exec (.pdone uid window) s = .next ((s.strandSaved n).coxRun))) ∧
      (let n := window.toNat;
        let target := v.extractLsb' 0 2;
        let t := s.setStrand n { s.strand n with
          reshapeTarget := target
          reshapePend := v.getLsbD 2 && decide (2 ^ target.toNat < (s.strand n).lanes.length) };
        exec (.reshape uid window v) s = .next (if s.rbound = 0 then t.reshapeExpires n else t)))

/-! ### Rows of the table that are no instruction words: the host and the module -/

/-- R461 to R467: the host's mailbox, its boot window, and the loads of the kernel. A command that meets BUSY sets REJ and is
ignored; otherwise it is served, in a move of its own, and its result is written. Before BOOTSTAT is 2 the boot ROM serves BOOT,
ATTEST and IDKEY, and refuses the others; after it the firmware serves them. BOOT begins the checks, while which BOOTSTAT is 1;
the next move of the ROM ends them. A write through the boot window is the bytes that a read finds; once the window has closed,
each access to it completes with poison. The firmware measures the first kernel that it loads, and no other. The key of the boot
window, what firmware answers in the place of its program, when a command is served, and how the host's reads complete, are the
model's choices (logs 1, 29 and 72). -/
def Obligations.MailboxRows : Prop :=
  ∀ (s : State) (a b c d : Word) (code : Byte),
    let m := s.mailbox
    (∀ e ∈ ([(Instr.boot, 1, []), (.attest a b c d, 2, [a, b, c, d]), (.idkey, 3, []), (.grant a b, 4, [a, b]),
        (.withdraw a, 5, [a]), (.queue a b, 6, [a, b]), (.mailboxUnknown code, code, [])] : List (Instr × Byte × List Word)),
      exec e.1 s = .next (s.commanded e.2.1 e.2.2)) ∧
    (∀ i : BitVec 2, s.move (.mailArg i a) = .next { s with mailbox := { m with arg := m.arg.set i.toNat a } }) ∧
    s.move .rejClear = .next { s with mailbox := { m with rej := false } } ∧
    s.move (.mailRead 0x28) = .next { s with hostReply := .data (bytesOfNat 8
      (m.result.toNat + (if m.cmd = none then 0 else 2 ^ 8) + (if m.rej then 2 ^ 9 else 0) + m.bootstat.toNat * 2 ^ 16)) } ∧
    (∀ i : Fin 4, s.move (.mailRead (BitVec.ofNat 12 (8 + 8 * i.val))) =
      .next { s with hostReply := .data (bytesOfNat 8 m.arg[i].toNat) }) ∧
    (∀ i, i < 40 → s.move (.mailRead (BitVec.ofNat 12 (0x100 + 8 * i))) =
      .next { s with hostReply := .data ((m.out.drop (8 * i)).take 8) }) ∧
    (m.cmd = none → m.bootstat ≠ 1 → s.move .mailServe = .next s) ∧
    (∀ x : Vector Word 4, m.cmd = some (code, x) → m.bootstat ≠ 1 →
      let ends (t : State) (r : Byte) : Prop := s.move .mailServe = .next (t.answered r)
      let event (n : Nat) (len : Word) : State := { s with
        hostMessage := true, hevb := x[0], hevl := len, eventSet := s.eventSet ++ [⟨130, BitVec.ofNat 64 n⟩] }
      (code = 0 ∨ 6 < code.toNat → ends s (if m.bootstat = 2 then 3 else 2)) ∧
      (code = 1 → m.bootstat = 2 → ends s 2) ∧
      (code = 1 → m.bootstat ≠ 2 → ends { s with mailbox := { m with bootstat := 1 } } 0) ∧
      (code = 2 → ∃ o : List Byte, ends { s with mailbox := { m with out := o } } 0 ∧
        (∀ i : Fin 4, natOfBytes ((o.drop (8 * i.val)).take 8) = x[i].toNat) ∧
        natOfBytes ((o.drop 32).take 4) = s.modnum.toNat ∧
        natOfBytes ((o.drop 36).take 4) = (if s.fwvalid then s.runSvn else s.minSvn).toNat ∧
        o.getD 40 0 = BitVec.ofNat 8 s.kvalid.toNat ∧ o.getD 41 0 = BitVec.ofNat 8 s.fwvalid.toNat ∧
        natOfBytes ((o.drop 42).take 22) = 0 ∧
        natOfBytes ((o.drop 64).take 64) = (if s.fwvalid then s.fwmeas.toNat else 0) ∧
        natOfBytes ((o.drop 128).take 64) = (if s.kvalid then s.kmeas.toNat else 0)) ∧
      (code = 3 → ends { s with mailbox := m.put (edPublic identityBytes) } 0) ∧
      (m.bootstat ≠ 2 → code = 4 ∨ code = 5 ∨ code = 6 → ends s 2) ∧
      (m.bootstat = 2 → s.hostMessage = true → code = 4 ∨ code = 5 ∨ code = 6 → ends s 2) ∧
      (m.bootstat = 2 → s.hostMessage = false →
        (code = 4 → x[0].toNat % 4096 ≠ 0 ∨ x[1].toNat % 4096 ≠ 0 → ends s 1) ∧
        (code = 4 → x[0].toNat % 4096 = 0 → x[1].toNat % 4096 = 0 → ends (event 2 x[1]) 0) ∧
        (code = 5 → ends (event 3 s.hevl) 0) ∧ (code = 6 → ends (event 4 x[1]) 0))) ∧
    (m.bootstat = 1 →
      (natOfBytes (s.bootBytes 0 4) ≠ 0x57464243 →
        s.move .mailServe = .next { s with mailbox := { m with bootstat := 3 } }) ∧
      (∀ f, s.bootFailure (s.bootBytes 0 256) = some f →
        s.move .mailServe = .next { s with mailbox := { m with bootstat := f } }) ∧
      (s.bootFailure (s.bootBytes 0 256) = none → ∃ t : State, s.move .mailServe = .next t ∧
        t.mailbox = { m with bootstat := 2 } ∧ t.fwvalid = true ∧ t.bootOpen = false ∧ (t.strand 0).mode = .firmware ∧
        (t.strand 0).resident = true ∧ t.minSvn = BitVec.ofNat 32 (natOfBytes (s.bootBytes 24 4)) ∧ t.runSvn = t.minSvn ∧
        (t.strand 0).pc = (Config.bootImageBase + BitVec.ofNat 64 (natOfBytes (s.bootBytes 16 8))) &&& ~~~7 ∧
        (∀ u, u ≠ 0 → t.strand u = s.strand u) ∧ t.lmem = s.lmem ∧ t.pmem = s.pmem)) ∧
    (∀ (pa : BitVec 52) (n : Nat),
      (s.fwvalid = false → s.move (.kernelLoad pa n) = .next s) ∧
      (s.fwvalid = true → s.kvalid = true → s.move (.kernelLoad pa n) = .next { s with kload := some false }) ∧
      (s.fwvalid = true → s.kvalid = false → s.move (.kernelLoad pa n) = .next { s with
        kvalid := true, kload := some true
        kmeas := digestBits (shake256 (nats (s.physRead (s.encOf 1 false pa.toNat) pa.toNat n)) 64) })) ∧
    (∀ (off : BitVec 28) (l : List Byte) (data : Option (List Byte)), Memory.wf s.pmem → l.length ≤ 64 - off.toNat % 64 →
      (s.bootOpen = false → exec (.bootWindowAccess off data) s = .next { s with hostReply := .poison }) ∧
      (s.bootOpen = true → s.physMarked (bootPa off.toNat) (64 - off.toNat % 64) = false →
        exec (.bootWindowAccess off none) s =
          .next { s with hostReply := .data (s.bootBytes off.toNat (64 - off.toNat % 64)) }) ∧
      (s.bootOpen = true → s.physMarked (bootPa off.toNat) (64 - off.toNat % 64) = true →
        exec (.bootWindowAccess off none) s = .next { s with hostReply := .poison }) ∧
      (s.bootOpen = true → ∃ t : State, exec (.bootWindowAccess off (some l)) s = .next t ∧ t.hostReply = .done ∧
        t.bootBytes off.toNat l.length = l ∧ t.strands = s.strands ∧ t.lmem = s.lmem ∧
        ∀ x, x / 64 ≠ bootPa off.toNat / 64 → Memory.read t.pmem x = Memory.read s.pmem x))

/-- R6, R46, R63, R95, R98, R448, R453, R455, R456, R467, R469: resets and errors of the module: a reset leaves what lies
outside the module and the fused version; the host port's reset detaches its windows, drops the buffered stores that lie
there, and answers the load that is outstanding; its link comes up; heat lowers the matrix rate and leaves a record; a pool port
fails; the scrub, where its walk comes to a line, corrects a unit or marks it, counts, and goes on to the next line. What a reset
keeps is a reading of R6 (logs 31 and 71); that module SRAM reads 0 after it (log 3), what the THERMAL row itself does (log 72), and
which units a scrub step takes (log 105), are the model's choices. -/
def Obligations.ModuleRows : Prop :=
  ∀ (s : State) (die : BitVec 6) (port : BitVec 3) (uid : Uid) (word : BitVec 14),
    (∃ t : State, exec .moduleReset s = .next t ∧ t.lmem = [] ∧ t.cox = Cox.empty ∧ t.keys = [] ∧ t.tick = 0 ∧
      t.minSvn = s.minSvn ∧ t.bootOpen = true ∧ t.mailbox = Mailbox.empty ∧ t.stopped = false ∧
      (∀ u, t.strand u = State.reset.strand u) ∧
      ∀ a, Memory.read t.pmem a = if kindOf a = 1 ∨ kindOf a = 2 then Memory.read s.pmem a else 0) ∧
    (let detach (w : Window) : Window := if w.state = 1 then { w with state := 2 } else w
      let after : State := { s with
        windows := s.windows.map fun e => (e.1, detach e.2), hostCache := [], eventSet := s.eventSet ++ [⟨130, 1⟩]
        hpstat := BitVec.ofNat 64 ((s.hpstat.extractLsb' 1 1).toNat * 2 +
          ((s.hpstat.extractLsb' 8 8).toNat + 1) % 256 * 256) };
      s.incoming = [] →
      ((∀ e ∈ s.strands, ∀ b ∈ e.2.writeBuffer, b.target.hostHomed = false) →
        (∀ e ∈ s.clusters, ∀ q ∈ e.2.storeQueue, q.local?.isSome = true ∨ q.target.hostHomed = false) →
        ((∀ p ∈ s.ports, p.host = false) → exec .hostPortReset s = .next after) ∧
        ∀ p u n, s.ports = [p] → p.host = true → p.who = .helm u → p.op = .load n → exec .hostPortReset s =
          .next { after with
            ports := [], arrived := s.arrived ++ [⟨.helm u, p.target.module, p.target.pa, p.op, .hostDetached⟩] }) ∧
      (s.ports = [] → ∃ t : State, exec .hostPortReset s = .next t ∧ t.hostCache = [] ∧ t.lmem = s.lmem ∧
        t.windows = after.windows ∧ t.hpstat = after.hpstat ∧
        ∀ u b, b ∈ (t.strand u).writeBuffer ↔ b ∈ (s.strand u).writeBuffer ∧ b.target.hostHomed = false)) ∧
    exec .hostLinkUp s = .next { s with hpstat := s.hpstat ||| 1, eventSet := s.eventSet ++ [⟨130, 5⟩] } ∧
    (∃ t : State, exec (.thermal die) s = .next t ∧ t.slowMatrix = true ∧ t.strands = s.strands ∧ t.lmem = s.lmem ∧
      (s.elog.takes = false → t.pmem = s.pmem ∧ t.elog = { s.elog with lost := satInc s.elog.lost }) ∧
      (s.elog.takes = true → Memory.wf s.pmem → t.elog = { s.elog with head := s.elog.head + 1 } ∧
        t.deviceRead (s.elog.base.toNat % 2 ^ 52 + 32 * (s.elog.head.toNat % 2 ^ s.elog.size.toNat)) 32 =
          9 * 2 ^ 64 + die.toNat * 2 ^ 72 + s.tick.toNat % 2 ^ 32 * 2 ^ 128)) ∧
    exec (.poolPortFailure port) s = .next { s with poolPortsFailed := s.poolPortsFailed ||| ((1 : BitVec 8) <<< port.toNat) } ∧
    (∀ unit bad, s.scrub = 0 ∨ s.scrubReaches unit = false → exec (.scrub unit bad) s = .next s) ∧
    (let n := 2 ^ 14 * uid.toNat + word.toNat;
      s.scrubReaches (.tcm uid word) = true → (∀ k, k / 16 = n / 16 → k ≠ n → k ∉ s.localMarks) →
      let walk : Nat := 2 * clusterOf uid.toNat + 65;
      let next : Nat := (uid.toNat % 8 * 1024 + word.toNat / 16 + 1) % 8192;
      (∃ t : State, exec (.scrub (.tcm uid word) true) s = .next t ∧ n ∈ t.localMarks ∧
        (∀ k, k ≠ n → (k ∈ t.localMarks ↔ k ∈ s.localMarks)) ∧ t.uecount = satInc s.uecount ∧ t.cecount = s.cecount ∧
        Tab.get 0 t.scrubAt walk = next ∧ t.lmem = s.lmem ∧ t.strands = s.strands) ∧
      (n ∉ s.localMarks → ∃ t : State, exec (.scrub (.tcm uid word) false) s = .next t ∧ t.localMarks = s.localMarks ∧
        t.cecount = satInc s.cecount ∧ t.uecount = s.uecount ∧ Tab.get 0 t.scrubAt walk = next ∧ t.lmem = s.lmem ∧
        t.strands = s.strands))

/-! ### Rows of the table that are no instruction words: the fabric -/

/-- R101, R103, R105 to R107, R109, R111 to R116, R118, R120, R121, R378: what this module does as the fabric's events reach it:
for its own requests (a response, a refusal, a return, a failure, the answer to a probe), for those of other modules (a
request, a replayed one, a strip, the end of a fold entry, a response that is sent no more), and for its links and planes.
Where the manual names no row for something that the fabric does, the reading is the model's (logs 57, 58, 60 and 61); what
PLANE_LOST does to a spine module and that a plane comes up again are log 82. -/
def Obligations.FabricRows : Prop :=
  ∀ (s : State) (plane : BitVec 2) (link : BitVec 3) (m : ModNum) (tag : Nat) (view : PlaneView) (o : Outstanding),
    let n := 8 * plane.toNat + link.toNat
    let bit : BitVec 4 := (1 : BitVec 4) <<< plane.toNat
    let mine : PlaneView := ⟨s.live, s.rcount⟩
    let held (a k : Nat) : Prop := s.deviceReaches a k = true ∧ s.physMarked a k = false
    let upIn (t : State) (k : Nat) : Prop := t.linkup.getLsbD (8 * plane.toNat + k) = true
    let parallel : Prop := ∃ j, j < 8 ∧ j ≠ link.toNat ∧ upIn s j
    let first : Prop := s.outstanding = [o] ∧ o.tag = tag ∧ o.state = .sent ∧ s.learned = [] ∧ Memory.wf s.pmem
    let one : Prop := first ∧ s.peers = [] ∧ o.op ≠ .probe
    let probing : Prop := s.peers = [(o.target.toNat, .probing)]
    let answers (i : Instr) (u : Nat) (a : Answer) : Prop := ∃ t : State, exec i s = .next t ∧ t.outstanding = [] ∧
      t.arrived = s.arrived ++ [⟨.helm u, some o.target, o.pa, o.op, a⟩] ∧ t.strands = s.strands ∧ t.lmem = s.lmem
    let replies (i : Instr) (r : ModNum × Nat) (a : RemoteReply) : Prop := ∃ t : State, exec i s = .next t ∧
      (∃ x ∈ t.responses, x.dest = r.1 ∧ x.tag = r.2 ∧ x.reply = a ∧ x.view = mine) ∧
      t.pmem = s.pmem ∧ t.lmem = s.lmem ∧ t.strands = s.strands
    let isProbe (p : Outstanding) (dest : ModNum) (lowest : Nat) : Prop :=
      p.op = .probe ∧ p.who = .fabric ∧ p.target = dest ∧ p.tag = s.nextTag ∧ p.state = .sent ∧ p.view = s.peerView dest ∧
      lowest ≤ p.plane.toNat ∧ (s.bothMask dest).getLsbD p.plane.toNat = true ∧
      ∀ k, lowest ≤ k → k < p.plane.toNat → (s.bothMask dest).getLsbD k = false
    let adopts (i : Instr) (dest : ModNum) (l : List Outstanding → Prop) : Prop := ∃ t : State, exec i s = .next t ∧
      t.peerView dest = view ∧ t.peer dest = .running ∧ l t.outstanding ∧ t.strands = s.strands ∧ t.lmem = s.lmem
    -- links and planes
    exec (.flitCrcRetry plane link) s = .next s ∧
    exec (.linkUp plane link) s = .next { s with linkup := s.linkup ||| ((1 : BitVec 32) <<< n) } ∧
    (s.linkup.getLsbD n = false → exec (.linkDown plane link) s = .next s) ∧
    (s.linkup.getLsbD n = true → ∃ t : State, exec (.linkDown plane link) s = .next t ∧
      t.linkup = s.linkup &&& ~~~((1 : BitVec 32) <<< n) ∧
      t.frozen = s.frozen ++ [⟨plane, link, (s.received.filter fun e => e.plane = plane && e.link = link).map fun e =>
        (e.source, e.tag, e.reply)⟩] ∧
      t.received = (s.received.filter fun e => !(e.plane = plane && e.link = link)) ∧
      (parallel →
        (∀ x ∈ s.outstanding, x.state = .sent → x.plane = plane → x.link = link →
          ∃ y ∈ t.outstanding, y.tag = x.tag ∧ y.replay = true ∧ y.plane = plane ∧ upIn t y.link.toNat) ∧
        (∀ x ∈ s.responses, x.plane = plane → x.link = link →
          ∃ y ∈ t.responses, { y with link := x.link } = x ∧ upIn t y.link.toNat) ∧
        { t with linkup := s.linkup, frozen := s.frozen, received := s.received, outstanding := s.outstanding,
                 responses := s.responses } = s) ∧
      (¬parallel → s.outstanding = [] → t.live = s.live &&& ~~~bit ∧
        (s.live.getLsbD plane.toNat = true → t.rcount = s.rcount + 1 ∧ t.easyall = true) ∧
        (s.live.getLsbD plane.toNat = false → t.rcount = s.rcount ∧ t.pmem = s.pmem) ∧
        t.strands = s.strands ∧ t.lmem = s.lmem)) ∧
    exec (.frozenRecordRelease plane link) s =
      .next { s with frozen := s.frozen.filter fun f => !(f.plane = plane && f.link = link) } ∧
    exec .easyallEnd s = .next { s with easyall := false, frozen := s.frozen.filter fun f => s.live.getLsbD f.plane.toNat } ∧
    (let down : BitVec 4 := if s.planeUp plane.toNat then s.spineDown ||| bit else s.spineDown;
      (s.live.getLsbD plane.toNat = false → exec (.planeLost plane) s = .next { s with spineDown := down }) ∧
      (s.live.getLsbD plane.toNat = true → s.outstanding = [] → ∃ t : State, exec (.planeLost plane) s = .next t ∧
        t.live = s.live &&& ~~~bit ∧ t.rcount = s.rcount + 1 ∧ t.easyall = true ∧ t.spineDown = down ∧
        t.strands = s.strands ∧ t.lmem = s.lmem)) ∧
    s.move (.spineUp plane) = .next { s with spineDown := s.spineDown &&& ~~~bit } ∧
    -- its own requests
    (∀ a v, (s.outstanding.any fun x => x.tag = tag) = false → exec (.remoteResponse m tag a v) s = .next s ∧
      exec (.redrawn m tag v) s = .next s ∧ exec (.groupUnreachable tag) s = .next s ∧
      exec (.foldStripRetry tag) s = .next s ∧ exec (.returnUndelivered tag false 1) s = .next s) ∧
    (∀ v, exec (.remoteResponse m tag .redrawn v) s = exec (.redrawn m tag v) s) ∧
    (∀ u x l, one → (∀ i, o.op ≠ .release i) → o.who = .helm u → s.peerView o.target = view →
      answers (.remoteResponse o.target tag (.done (x :: l)) view) u (.bytes (x :: l)) ∧
      answers (.groupUnreachable tag) u (.failed 3)) ∧
    (one → view ≠ s.peerView o.target → s.live &&& view.mask ≠ 0 →
      adopts (.redrawn o.target tag view) o.target fun l => ∃ o' : Outstanding, l = [o'] ∧ o'.state = .sent ∧
        o'.view = view ∧ o'.replay = true ∧
        { o' with state := o.state, view := o.view, replay := o.replay, plane := o.plane, link := o.link } = o) ∧
    (∀ u d, one → o.who = .helm u → reissuable o = false → (d = 1 ∨ d = 2) →
      answers (.returnUndelivered tag true d) u (.failed d)) ∧
    (∀ d, one → (d = 1 ∨ d = 2) → let back := o.returned ||| ((1 : BitVec 4) <<< o.plane.toNat)
      s.bothMask o.target &&& ~~~back ≠ 0 → ∃ p, isProbe p o.target 0 ∧
        exec (.returnUndelivered tag false d) s = .next { s with
          outstanding := [{ o with state := .back, failure := d, returned := back }, p], nextTag := s.nextTag + 1,
          peers := [(o.target.toNat, .probing)] }) ∧
    -- probes
    (∀ d b, first → o.op = .probe → (d = 1 ∨ d = 2) →
      (∃ p, isProbe p o.target (o.plane.toNat + 1) ∧ exec (.returnUndelivered tag b d) s =
        .next { s with outstanding := [p], nextTag := s.nextTag + 1 }) ∨
      ((∀ k, o.plane.toNat < k → (s.bothMask o.target).getLsbD k = false) ∧
        exec (.returnUndelivered tag b d) s = .next { s with outstanding := [] })) ∧
    (∀ a, first → o.op = .probe → probing →
      (view = s.peerView o.target → exec (.remoteResponse o.target tag a view) s = .next { s with outstanding := [] }) ∧
      (view ≠ s.peerView o.target → s.live &&& view.mask ≠ 0 →
        adopts (.remoteResponse o.target tag a view) o.target fun l => l = [])) ∧
    (s.peer m ≠ .probing → ∀ a, exec (.probeRetry m a) s = .next s) ∧
    (s.peer m = .probing → s.bothMask m ≠ 0 →
      (s.probeOut m = true → exec (.probeRetry m none) s = .next s) ∧
      (s.probeOut m = false → ∃ p, isProbe p m 0 ∧
        exec (.probeRetry m none) s = .next { s with outstanding := s.outstanding ++ [p], nextTag := s.nextTag + 1 })) ∧
    (s.peers = [(m.toNat, .probing)] → s.learned = [] → s.outstanding = [] → s.bothMask m ≠ 0 → Memory.wf s.pmem →
      (view = s.peerView m → exec (.probeRetry m (some view)) s = .next { s with nextTag := s.nextTag + 1 }) ∧
      (view ≠ s.peerView m → s.live &&& view.mask ≠ 0 → adopts (.probeRetry m (some view)) m fun l => l = [])) ∧
    (s.peers = [(m.toNat, .probing)] → s.learned = [] → s.outstanding = [] → s.bothMask m = 0 →
      ∀ a, exec (.probeRetry m a) s = .next { s with peers := [] }) ∧
    (s.outstanding = [o] → o.tag = tag → o.strip.isSome = true → o.state = .back → s.peers = [] →
      s.bothMask o.target ≠ 0 → ∃ o' : Outstanding, exec (.foldStripRetry tag) s = .next { s with outstanding := [o'] } ∧
        o'.state = .sent ∧ o'.replay = true ∧ o'.view = s.peerView o.target ∧
        { o' with state := o.state, view := o.view, replay := o.replay, plane := o.plane, link := o.link } = o) ∧
    -- what other modules ask for
    (∀ r : Request, let at_ := (r.source, r.tag)
      (∀ a f, s.frozen = [f] → f.entries = [(r.source, r.tag, some a)] → a ≠ .redrawn → a ≠ .noEntry →
        replies (.replay r f.plane f.link) at_ a ∧ (r.replay = true → replies (.remoteRequest r) at_ a)) ∧
      (∀ f, s.frozen = [f] → f.entries = [(r.source, r.tag, none)] → ∃ t : State,
        exec (.replay r f.plane f.link) s = .next t ∧ { t with received := s.received } = s) ∧
      (s.frozen = [] → (∃ a ∈ s.incoming, a.served.source = r.source ∧ a.served.tag = r.tag) → ∃ t : State,
        exec (.replay r plane link) s = .next t ∧ { t with received := s.received } = s) ∧
      (s.frozen = [] → s.incoming = [] → r.view ≠ mine →
        replies (.remoteRequest r) at_ .redrawn ∧ replies (.replay r plane link) at_ .redrawn) ∧
      (s.frozen = [] → r.view = mine → s.incoming = [] → s.servedAt = [] → s.calm →
        (r.op = .probe → replies (.remoteRequest r) at_ (.done []) ∧ replies (.replay r plane link) at_ (.done [])) ∧
        (∀ k pa, r.op = .load k → r.virt = none → pa = r.pa.toNat → kindOf pa = 0 → s.ownerFault r.owner = none →
          s.physFault pa = none → 0 < k → pa % 256 + k ≤ 256 → s.physMarked pa k = false →
          replies (.remoteRequest r) at_ (.done (s.physRead (s.encOf r.owner r.clear pa) pa k)) ∧
          replies (.replay r plane link) at_ (.done (s.physRead (s.encOf r.owner r.clear pa) pa k))))) ∧
    (∀ p : Strip,
      (p.count ≤ p.index ∨ 65536 < p.count → exec (.foldStrip p) s = .next s) ∧
      (∀ f a, p.index < p.count → p.count ≤ 65536 → p.replay = true → s.frozen = [f] →
        f.entries = [(p.source, p.tag, some a)] → a ≠ .redrawn → a ≠ .noEntry →
        replies (.foldStrip p) (p.source, p.tag) a) ∧
      (p.index < p.count → p.count ≤ 65536 → p.replay = false → p.view ≠ mine → replies (.foldStrip p) (p.source, p.tag) .redrawn) ∧
      (p.index < p.count → p.count ≤ 65536 → p.replay = false → p.view = mine → s.incoming = [] → s.servedAt = [] →
        (s.foldtab = 0 → replies (.foldStrip p) (p.source, p.tag) .noEntry) ∧
        (∀ i, s.foldFind p.source p.ident = some i →
          (s.foldDone i p.index = true → replies (.foldStrip p) (p.source, p.tag) (.done [])) ∧
          (∀ v pa, s.foldDone i p.index = false → s.calm → Memory.wf s.pmem → p.elems = [some v] → p.virt = none →
            pa = p.pa.toNat → kindOf pa = 0 → pa % p.op.bytes = 0 → s.ownerFault p.owner = none →
            s.physFault pa = none → s.physMarked pa p.op.bytes = false → s.foldtab.toNat % 64 = 0 →
            held (s.foldEntry i + 64 + p.index / 8) 1 → held (s.foldEntry i + 20) 4 →
            pa / 64 < s.foldtab.toNat % 2 ^ 52 / 64 ∨ s.foldtab.toNat % 2 ^ 52 + 2 ^ 24 ≤ pa →
            let e := s.encOf p.owner p.clear pa
            ∃ t : State, exec (.foldStrip p) s = .next t ∧ t.foldDone i p.index = true ∧
              t.physRead e pa p.op.bytes = bytesOfNat p.op.bytes
                (p.op.apply (natOfBytes (s.physRead e pa p.op.bytes)) (v.toNat % 2 ^ (8 * p.op.bytes))) ∧
              (∃ x ∈ t.responses, x.dest = p.source ∧ x.tag = p.tag ∧ x.reply = .done []) ∧ t.strands = s.strands)))) ∧
    (∀ ident, let folds := s.consumedFolds.filter (· != (m, ident))
      (s.foldFind m ident = none → exec (.foldRelease m ident) s = .next { s with consumedFolds := folds }) ∧
      (∀ i, Memory.wf s.pmem → s.foldFind m ident = some i → held (s.foldEntry i) 8 → ∃ t : State,
        exec (.foldRelease m ident) s = .next t ∧ t.foldValid i = false ∧ t.consumedFolds = folds ∧
        t.strands = s.strands ∧ t.lmem = s.lmem) ∧
      (∀ i : BitVec 10, s.foldFind m ident = some i.toNat →
        exec (.foldEntryTimeout i) s = exec (.foldRelease m ident) s)) ∧
    (∀ i : BitVec 10, s.foldtab = 0 ∨ s.foldValid i.toNat = false → exec (.foldEntryTimeout i) s = .next s) ∧
    exec (.responseDrop m tag) s = .next { s with responses := s.responses.filter fun r => !(r.dest = m && r.tag = tag) } ∧
    (∃ t : State, s.move (.responseBack m tag) = .next t ∧ { t with responses := s.responses } = s ∧
      t.responses.length = s.responses.length ∧
      (∀ x ∈ s.responses, ¬(x.dest = m ∧ x.tag = tag) → x ∈ t.responses) ∧
      ∀ y ∈ t.responses, y.dest = m → y.tag = tag → y.view = mine ∧ ∃ x ∈ s.responses, y.reply = x.reply)

/-! ### Rows of the table that are no instruction words: events and the Cox -/

/-- R238, R247, R399, R403, R432, R440 to R443, R451, R457, R467: what the events of the table do. At a boundary a strand takes
a pre-emption that is ready for it, or, where MCTGT names it and KIE is 1, the oldest event of the event set; it enters the
kernel (in firmware mode the firmware) with that cause. Other rows leave the state as it is. The expiry of EVWAIT hands the
oldest event to firmware; that of the element-progress timer makes the oldest member's trap ready; that of RESHAPE asks the
strand to stop; that of RBOUND ends its wait for a strip boundary. At a tick the counter and the period go on, late tasks
are marked, and the Cox decides: `coxRun` and `considerStart` are the model's decisions of R395, R399 and R400. Which of several
ready events a boundary takes, what a row moves, and how the Cox decides where the rules leave it open, are the model's
readings (logs 28, 50 to 53 and 68); so are tinfo and tval of PROGRESS (log 70) and that it waits for an atomic of the column
engine (log 93). That the expiry of EVWAIT hands over one event is the model's choice (log 73). -/
def Obligations.EventRows : Prop :=
  ∀ (s : State) (uid : Uid) (reason : BitVec 2),
    let u := uid.toNat
    let me := s.strand u
    let taken (i : Instr) (code : Nat) (tval : Word) (rest : List Event) (pre : Option PreemptReq) : Prop :=
      ∃ t : State, exec i s = .next t ∧ t.eventSet = rest ∧ (t.strand u).preempt = pre ∧
        (me.mode ≠ .firmware → me.EnteredKernel (t.strand u) me.pc (BitVec.ofNat 64 code) tval) ∧
        (me.mode = .firmware → me.EnteredFirmware (t.strand u) me.pc (BitVec.ofNat 64 code) tval) ∧
        SameData me (t.strand u) ∧ (t.strand u).queue = [] ∧ (∀ v, v ≠ u → t.strand v = s.strand v) ∧
        t.lmem = s.lmem ∧ t.pmem = s.pmem
    let kernelRow (i : Instr) (code : Nat) : Prop :=
      (∀ e rest, s.eventSet = e :: rest → e.code = code → u = s.mctgtUid → s.atBoundary u = true → me.kie = true →
        taken i code e.tval rest me.preempt) ∧
      (u ≠ s.mctgtUid ∨ s.eventSet = [] ∨ s.atBoundary u = false ∨ me.kie = false → exec i s = .next s) ∧
      (∀ e rest, s.eventSet = e :: rest → e.code ≠ code → exec i s = .next s)
    kernelRow (.hostEvent uid) 130 ∧ kernelRow (.machineCheck uid) 131 ∧
    (∀ r, me.preempt = some r → r.reason = reason.toNat → s.atBoundary u = true → me.kie = true →
      (r.reason ≠ 0 ∨ r.bound = false ∨ me.queue = [] ∨
        ∃ m rest, me.queue = m :: rest ∧ startsStrip m.word = true ∧ m.done = false) →
      taken (.preempt uid reason) 128 (BitVec.ofNat 64 reason.toNat) s.eventSet none) ∧
    ((∀ r, me.preempt = some r → r.reason ≠ reason.toNat) ∨ s.atBoundary u = false ∨ me.kie = false →
      exec (.preempt uid reason) s = .next s) ∧
    exec (.stripStopBound uid) s =
      .next (s.setStrand u { me with preempt := me.preempt.map fun r => { r with bound := false } }) ∧
    (me.resident = false ∨ me.reshapePend = false → exec (.reshapeExpire uid) s = .next s) ∧
    (me.resident = true → me.reshapePend = true → s.cox.gang me.gang = none → exec (.reshapeExpire uid) s =
      .next (s.setStrand u { me with
        reshapePend := false, preempt := if me.preempt.isSome then me.preempt else some ⟨1, false⟩ })) ∧
    ((me.headMember = none ∧ me.heldMembers = []) ∨ me.resident = false ∨ s.columnAtomic u = true ∨ me.colTrap ≠ none ∨
        s.ptime = 0 ∨ u / 8 ∈ s.fenced → exec (.progress uid) s = .next s) ∧
    (me.resident = true → s.columnAtomic u = false → me.colTrap = none → s.ptime ≠ 0 → u / 8 ∉ s.fenced →
      let expires (place : Nat) (tinfo tval : Word) : Prop := ∃ s1 : State,
        exec (.progress uid) s = .next (s1.settleTrap u) ∧ { s1 with strands := s.strands } = s ∧
        (∀ v, v ≠ u → s1.strand v = s.strand v) ∧ s1.strand u = { me with
          tinfo := tinfo, colTrap := some ⟨BitVec.ofNat 64 (12 + place * 2 ^ 20), tval, none, 0⟩ }
      (∀ m, me.headMember = some m → me.heldMembers = [] → (∀ w, me.waitsOn = some w → s.timerPaused u w = false) →
        expires (memberNumber me m)
          (match me.waitsOn with
            | none => 0
            | some w => w.tinfo)
          (match me.waitsOn with
            | none => 0
            | some w => w.addr)) ∧
      (∀ l m place, me.held = [l] → (firstConvoy l)[place]? = some m → m.done = false →
        (∀ k x, k < place → (firstConvoy l)[k]? = some x → x.done = true) → expires place 0 0)) ∧
    (s.eventSet = [] → exec .evwaitExpire s = .next s) ∧
    (∀ e rest, s.eventSet = e :: rest →
      exec .evwaitExpire s = .next { s with eventSet := rest, fwEvents := s.fwEvents ++ [e] }) ∧
    exec .victimsStopped s = .next s.coxRun ∧
    (∀ q : BitVec 6, Tab.get [] s.cox.resume q.toNat = [] → exec (.resume q) s = .next s) ∧
    (∀ q : BitVec 6, Tab.get [] s.cox.resume q.toNat ≠ [] → exec (.resume q) s = .next s.coxRun) ∧
    (∃ s1 : State, exec .tick s = .next ((considerStart 8192 s1.readAgain).startAging.coxRun) ∧
      s1.tick = s.tick + 1 ∧ s1.tperiod = s.tperiodNext.getD s.tperiod ∧ s1.tperiodNext = none ∧ s1.lmem = s.lmem ∧
      s1.pmem = s.pmem ∧ (∀ c, (s1.cluster c).rebuilds = []) ∧ (∀ v, (s1.strand v).x = (s.strand v).x ∧
        (s1.strand v).pc = (s.strand v).pc) ∧
      (s.cox.candidates = [] → s.cox.gangs = [] → s1.strands = s.strands ∧ s1.cox = { s.cox with topLevel := 0 }) ∧
      (∀ g, s.cox.candidates = [] → s.cox.gangs = [g] → taskTb g.record = true → g.tile = none →
        (∃ g', s1.cox.gang g.serial = some g' ∧ g'.late = true) ∧
        (s1.cox.queueOf g.queue).late =
          if g.late then (s.cox.queueOf g.queue).late else satInc32 (s.cox.queueOf g.queue).late))

/-! ### Rows of the table that are no instruction words: the engines -/

/-- R41, R54, R145, R151, R165, R172, R175, R282, R300, R343, R351, R353, R366 to R371, R381, R383, R421, R458: one step of each
engine. The Drayman moves a sector, ends an operation whose rows are done or whose handle is no longer live, completes one
that has ended (its record, its counter, its interrupt, its lines), forks the fetches of a strip that is due, and handles a
line of a hint; the array runs a pass; the stream-load unit fills an element; the arbiters bind a strip; the column engine
retires a convoy and fires a barrier; the Assayer commits a line. An engine with nothing to do, or on a fenced cluster, does
nothing. What one move of an engine is, and which move comes next, are the model's choices (logs 1, 42 and 68); an identity
lost to a full interrupt queue is log 101, and the owner and the mode of a strip's fetches are log 100. -/
def Obligations.EngineRows : Prop :=
  ∀ (s : State) (cid : Cid) (uid : Uid) (n : BitVec 3),
    let c := cid.toNat
    let u := uid.toNat
    let k := s.cluster c
    let me := s.strand u
    let ops (l : List DOp) : State := s.setCluster c { k with ops := l }
    (c ∈ s.fenced → ∀ i ∈ [Instr.draymanSector cid, .hintLine cid, .matrixPass cid, .assayerCommit cid, .arbiterBind cid],
      exec i s = .next s) ∧
    (clusterOf u ∈ s.fenced → ∀ i ∈ [Instr.dcfgStripFetch uid, .streamFill uid n, .convoyRetire uid], exec i s = .next s) ∧
    (k.ops = [] → exec (.draymanSector cid) s = .next s ∧ exec (.draymanComplete cid) s = .next s) ∧
    (∀ o, c ∉ s.fenced → k.ops = [o] → o.state = .running → o.moving = none → o.cancel = false →
      (o.rows ≤ o.row ∨ o.rbytes = 0 → o.kind = .copy →
        exec (.draymanSector cid) s = .next (ops [{ o with state := .ending 1 }])) ∧
      (o.row < o.rows → o.rbytes ≠ 0 → s.handleLive o.owner o.handle = false →
        exec (.draymanSector cid) s = .next (ops [{ o with
          state := .ending 4
          fstrip := if o.held && o.put && o.kind != .copy && !o.ordered then some o.sector else o.fstrip }])) ∧
      (∀ a b, o.kind = .copy → o.put = false → o.module = none → o.held = false → o.rows = 1 → o.row = 0 → o.off = 0 → 0 < o.rbytes →
        s.handleLive o.owner o.handle = true → o.mode ≠ .user → clusterOf o.uid = c → s.launchActive c = false →
        windowAddr o.uid o.buf = some a → windowAddr o.uid o.loc = some b → o.buf.toNat % 64 + o.rbytes ≤ 64 →
        o.loc.toNat % 64 + o.rbytes ≤ 64 → a + o.rbytes ≤ b ∨ b + o.rbytes ≤ a → s.clean a o.rbytes →
        Memory.wf s.lmem → ∃ t : State, exec (.draymanSector cid) s = .next t ∧
          (t.cluster c).ops = [{ o with row := 1, sector := o.sector + 1, landed := o.landed + o.rbytes }] ∧
          readBytes t.lmem b o.rbytes = readBytes s.lmem a o.rbytes ∧
          (∀ x, x < b ∨ b + o.rbytes ≤ x → Memory.read t.lmem x = Memory.read s.lmem x) ∧
          (∀ l, l ∈ t.empties ↔ l ∈ s.empties ∧ l ≠ b / 128) ∧ t.strands = s.strands ∧ t.pmem = s.pmem)) ∧
    (∀ o st v, k.ops = [o] → o.state = .ending st → o.kind = .copy → o.stripsAt = [] → s.whereIs o.holder = some v →
      let kept (t : State) : Prop :=
        (t.strand v).kept.intq = (s.strand v).kept.intq ++
          (if o.ui ∧ (s.strand v).kept.intq.length < 64 then [o.ident] else []) ∧
        (∀ d : Fin 8, (t.strand v).kept.dctr[d] = if d ≠ 0 ∧ d.val = o.counter.toNat then (s.strand v).kept.dctr[d] - 1
          else (s.strand v).kept.dctr[d]) ∧
        (t.cluster c).ops = [] ∧ (∀ l, l ∈ t.empties ↔ l ∈ s.empties ∧ l ∉ o.linesLeft) ∧
        (∀ w, w ≠ v → t.strand w = s.strand w) ∧ (t.strand v).x = (s.strand v).x ∧ t.pmem = s.pmem
      (o.recordAddr = none → ∃ t, exec (.draymanComplete cid) s = .next t ∧ kept t ∧ t.lmem = s.lmem) ∧
      (∀ r a, o.recordAddr = some r → windowAddr o.uid r = some a → r.toNat % 64 = 0 → o.mode ≠ .user →
        clusterOf o.uid = c → s.launchActive c = false → s.calm → Memory.wf s.lmem →
        (∀ i, i < 64 → o.inDest (r + BitVec.ofNat 64 i) = false) → o.landed < 2 ^ 64 → st < 2 ^ 16 → o.faults < 2 ^ 16 →
        o.fstrip.getD 0 < 2 ^ 32 → o.bytes < 2 ^ 64 → ∃ t, exec (.draymanComplete cid) s = .next t ∧ kept t ∧
          (∀ x, x < a ∨ a + 64 ≤ x → Memory.read t.lmem x = Memory.read s.lmem x) ∧
          natOfBytes (readBytes t.lmem a 64) = o.landed + st * 2 ^ 64 + o.faults * 2 ^ 80 +
            o.fstrip.getD 0xffffffff * 2 ^ 96 + o.ident.toNat * 2 ^ 128 + o.bytes * 2 ^ 192 +
            s.tick.toNat % 2 ^ 32 * 2 ^ 256)) ∧
    (me.cfg = none ∨ (∃ f, me.cfg = some f ∧ f.due = []) → exec (.dcfgStripFetch uid) s = .next s) ∧
    (∀ f strip iid rest, clusterOf u = c → c ∉ s.fenced → me.cfg = some f → f.due = (strip, iid) :: rest →
      s.elemsOut u (iid - 1) = false → me.writeBuffer = [] → s.bufferClear u = true →
      let r := f.record.toNat
      let j := strip + cfgDepth r
      (s.opsOf me.holder).length + cfgStreams r ≤ 64 → k.ops.length + cfgStreams r ≤ 256 →
      ∃ t : State, exec (.dcfgStripFetch uid) s = .next t ∧ (t.strand u).cfg = some { f with due := rest } ∧
        t.lmem = s.lmem ∧ ∃ new : List DOp, (t.cluster c).ops = k.ops ++ new ∧
          new.length = (if j < f.strips then cfgStreams r else 0) ∧
          ∀ i o, new[i]? = some o → o.kind = .strip ∧ o.holder = me.holder ∧ o.owner = me.owner ∧ o.mode = f.mode ∧
            o.put = false ∧ o.rows = 1 ∧ o.handle = (cfgHop r i).extractLsb' 0 32 ∧
            o.rbytes = (min f.length ((j + 1) * cfgLen r) - j * cfgLen r) * cfgElem r i ∧
            o.loc = BitVec.ofNat 64 (0x7e0000000000 + cfgRing r i + j % cfgDepth r * cfgSlot r i)) ∧
    (k.hints = [] → exec (.hintLine cid) s = .next s) ∧
    (∀ h, c ∉ s.fenced → k.hints = [h] → h.module = none → (windowAddr h.uid h.addr).isSome →
      let part := 128 - h.addr.toNat % 128
      ∃ t : State, exec (.hintLine cid) s = .next t ∧ t.strands = s.strands ∧ t.lmem = s.lmem ∧ t.pmem = s.pmem ∧
        t.cluster c = { k with hints := if h.bytes ≤ part then [] else
          [{ h with addr := h.addr + BitVec.ofNat 64 part, bytes := h.bytes - part }] }) ∧
    (k.matOps = [] → exec (.matrixPass cid) s = .next s) ∧
    (∀ op v j rest, c ∉ s.fenced → clusterOf op.uid = c → k.matOps = [op] → op.serviced = false → op.jobs = j :: rest →
      s.holderUid c op.holder = some v → (s.strand v).inPreempt = false → op.uid = v →
      let ag : Agent := ⟨op.uid, op.mode, op.owner, 3, j.bhandle.getD 0, op.ident⟩
      (∀ h rows s1, j.bhandle = some h → op.places = [] → 0 < j.n → 64 * op.tile < j.kk →
        mapList (List.range j.m) (passRow ag op j (64 * op.tile) (min 64 (j.kk - 64 * op.tile))) s = .ok rows s1 →
        s1.cluster c = k → s1.handleLive op.owner h = false → ∃ t : State, exec (.matrixPass cid) s = .next t ∧
        t.strands = s1.strands ∧ t.lmem = s1.lmem ∧ t.cluster c = { k with matOps := [], matFail := k.matFail ++
          [(op.holder.1, op.holder.2.1, op.holder.2.2, BitVec.ofNat 64 (2 + op.index * 2 ^ 16))] }) ∧
      (∀ d s1 op', j.sparse = none → passData ag op j s = .ok d s1 → (s1.cluster c).matOps = [op'] →
        op'.holder = op.holder → ∃ t : State, exec (.matrixPass cid) s = .next t ∧
          (t.cluster c).acc = ((s1.cluster c).updateAcc op.holder j (densePass d)).acc ∧
          (t.cluster c).matOps = (match ({ op' with places := [] }).advance s.steps with
            | none => []
            | some o => [o]) ∧
          t.strands = s1.strands ∧ t.lmem = s1.lmem)) ∧
    (me.streams[n.toFin].bound = false → exec (.streamFill uid n) s = .next s) ∧
    (∀ a, clusterOf u ∉ s.fenced →
      let st := me.streams[n.toFin]
      let d := me.k[st.col.toNat]
      let size := etypeBytes (descType d)
      me.resident = true → st.bound = true → st.append = false → st.stuck = none → me.mode = st.mode → me.mode ≠ .user →
      descHaspos d = false → st.filled + 1 = descLen d → st.buffer.length < 4 * me.vlmax →
      s.launchActive (clusterOf u) = false → windowAddr u (descBase d + BitVec.ofNat 64 (st.filled * size)) = some a →
      s.clean a size → ∃ t : State, exec (.streamFill uid n) s = .next t ∧
        (∀ v, v ≠ u → t.strand v = s.strand v) ∧ t.lmem = s.lmem ∧ t.pmem = s.pmem ∧
        t.strand u = { me with streams := me.streams.set n.toFin { st with
          filled := st.filled + 1
          buffer := st.buffer ++ [(BitVec.ofNat 64 (natOfBytes (readBytes s.lmem a size)), false)] } }) ∧
    ((∀ v, clusterOf v = c → s.bindable v = false) → exec (.arbiterBind cid) s = .next s) ∧
    (∀ v, c ∉ s.fenced → clusterOf v = c → s.bindable v = true →
      (∀ w, clusterOf w = c → s.bindable w = true → w ≠ v → Tab.get 0 k.charge v < Tab.get 0 k.charge w ∨
        (Tab.get 0 k.charge v = Tab.get 0 k.charge w ∧ v < w)) →
      exec (.arbiterBind cid) s = .next (s.setStrand v { s.strand v with bound := true })) ∧
    (me.queue = [] ∨ me.held ≠ [] ∨ (∃ m ∈ firstConvoy me.queue, m.done = false) → exec (.convoyRetire uid) s = .next s) ∧
    (clusterOf u ∉ s.fenced → me.queue ≠ [] → me.held = [] → me.colTrap = none → me.detachNotes = [] → (∀ m ∈ firstConvoy me.queue, m.done = true) →
      let rest := me.queue.drop (firstConvoy me.queue).length
      let trap : Option ColTrap := match me.kept.diverge with
        | none => none
        | some d => if (firstConvoy me.queue).any (fun m => m.mode = d.1) then some d.2 else none
      let after : Strand := { me with
        queue := rest, colTrap := trap
        kept := if trap = none then me.kept else { me.kept with diverge := none }
        bound := me.bound && (match rest with
          | [] => false
          | m :: _ => !startsStrip m.word) }
      let logged : State := match trap with
        | none => s
        | some d => s.logDiverge u d
      (me.openInstrs = [] → exec (.convoyRetire uid) s = .next ((logged.setStrand u after).settleTrap u)) ∧
      (∀ e, me.kept.diverge = none → me.openInstrs = [e] → e.s = false →
        (e.executed = true → s.ownElemsOut u e.iid = false → exec (.convoyRetire uid) s =
          .next (s.setStrand u { after with openInstrs := [], kept := me.kept.lower e.d })) ∧
        (e.executed = false → exec (.convoyRetire uid) s = .next (s.setStrand u after)))) ∧
    ((∀ m, me.headMember = some m → ∀ b, decode m.word ≠ some (.bar b)) → exec (.barrierFire uid) s = .next s) ∧
    (∀ m b, me.headMember = some m → decode m.word = some (.bar b) → s.engineRuns u = true → me.colTrap = none →
      me.readAhead m = false → me.detachNotes = [] → s.elemsOut u m.iid = false → me.openInstrs = [] → me.writeBuffer = [] → s.bufferClear u = true → (b = true → s.remoteOut u = false) →
      exec (.barrierFire uid) s = .next (s.setStrand u { me with
        waitsOn := none
        queue := me.queue.map fun q => if q.iid = m.iid then { q with done := true, work := none } else q
        kept := if b then { me.kept with gangFired := me.kept.gangFired + 1 }
          else { me.kept with crewFired := me.kept.crewFired + 1 } })) ∧
    (k.committing = none → exec (.assayerCommit cid) s = .next s) ∧
    (∀ l j, c ∉ s.fenced → k.committing = some (l, j) →
      (j.pending = [] → exec (.assayerCommit cid) s =
        .next ((s.forget (.assayer c)).settleTile c l.serial { j with outcome := 1, cstat := 1 }).coxRun) ∧
      (∀ line bytes rest g s1, j.pending = (line, bytes) :: rest → s.localMarks = [] →
        s.resolve ⟨8 * c, l.mode, l.owner, 4, 0, BitVec.ofNat 64 j.index⟩ .write (BitVec.ofNat 64 (128 * line)) 128 =
          (.ok (.target g), s1) → g.module = none → kindOf g.pa = 0 → s1.physFault g.pa = none → s1.calm → Memory.wf s1.pmem →
        s1.clusters = s.clusters →
        let e := s1.encOf g.owner g.clear g.pa
        ∃ t : State, exec (.assayerCommit cid) s = .next t ∧ t.strands = s1.strands ∧ t.lmem = s1.lmem ∧
          (∀ i, i < 128 → t.physRead e (g.pa + i) 1 = match bytes.find? fun b => b.1 = i with
            | some b => [b.2]
            | none => s1.physRead e (g.pa + i) 1) ∧
          t.cluster c = k.modLaunch l.serial fun l => { l with judged := l.judged.map fun x =>
            if x.index = j.index then { x with pending := x.pending.tail, committed := x.committed + bytes.length } else x }))
end

