-- ==== Sys2Proof/Laws/Tables.lean ====
section
/-!
SUPPORT. Laws of sparse tables and of memory: reads after writes, the canonical form of memory and the operations that
keep it.
-/

namespace Sys2Proof.Machine

/-! ### Tables -/

@[simp] theorem Tab.get_set_same {α : Type} (d : α) (t : Tab α) (k : Nat) (a : α) : (t.set k a).get d k = a := by
  induction t with
  | nil => simp [Tab.set, Tab.get]
  | cons e t ih =>
    obtain ⟨j, b⟩ := e
    simp only [Tab.set]
    split
    · simp [Tab.get]
    · split
      · simp [Tab.get]
      · simp [Tab.get, *]

theorem Tab.get_set_other {α : Type} (d : α) (t : Tab α) {k j : Nat} (a : α) (h : k ≠ j) :
    (t.set k a).get d j = t.get d j := by
  induction t with
  | nil => simp [Tab.set, Tab.get, h]
  | cons e t ih =>
    obtain ⟨i, b⟩ := e
    simp only [Tab.set]
    split
    · subst_vars; simp [Tab.get, h]
    · split
      · simp [Tab.get, h]
      · simp [Tab.get, ih]

@[simp] theorem Tab.set_set {α : Type} (t : Tab α) (k : Nat) (a b : α) : (t.set k a).set k b = t.set k b := by
  induction t with
  | nil => simp [Tab.set]
  | cons e t ih =>
    obtain ⟨i, c⟩ := e
    simp only [Tab.set]
    split
    · simp [Tab.set]
    · split
      · simp [Tab.set]
      · simp [Tab.set, *]

theorem Tab.mem_set {α : Type} {t : Tab α} {k : Nat} {a : α} {e : Nat × α} (h : e ∈ t.set k a) : e = (k, a) ∨ e ∈ t := by
  induction t with
  | nil => simp [Tab.set] at h; exact .inl h
  | cons f t ih =>
    obtain ⟨j, b⟩ := f
    simp only [Tab.set] at h
    split at h
    · simp only [List.mem_cons] at h ⊢
      exact h.imp id .inr
    · split at h
      · simpa using h
      · simp only [List.mem_cons] at h ⊢
        rcases h with h | h
        · exact .inr (.inl h)
        · rcases ih h with h | h
          · exact .inl h
          · exact .inr (.inr h)

theorem Tab.mem_erase {α : Type} {t : Tab α} {k : Nat} {e : Nat × α} (h : e ∈ t.erase k) : e ∈ t := by
  induction t with
  | nil => simp [Tab.erase] at h
  | cons f t ih =>
    obtain ⟨j, b⟩ := f
    simp only [Tab.erase] at h
    split at h
    · exact List.mem_cons_of_mem _ h
    · simp only [List.mem_cons] at h ⊢
      exact h.imp id ih

/-- The keys of a table rise. -/
abbrev Tab.sorted {α : Type} (t : Tab α) : Prop := t.Pairwise fun c d => c.1 < d.1

theorem Tab.sorted_set {α : Type} {t : Tab α} (h : Tab.sorted t) (k : Nat) (a : α) : Tab.sorted (t.set k a) := by
  induction t with
  | nil => simp [Tab.set]
  | cons f t ih =>
    obtain ⟨j, b⟩ := f
    simp only [Tab.sorted, List.pairwise_cons] at h
    simp only [Tab.set]
    split
    · subst_vars; simpa using h
    · split
      · simp only [List.pairwise_cons]
        refine ⟨fun e he => ?_, h⟩
        simp only [List.mem_cons] at he
        rcases he with rfl | he
        · assumption
        · exact Nat.lt_trans (by assumption) (h.1 e he)
      · simp only [List.pairwise_cons]
        refine ⟨fun e he => ?_, ih h.2⟩
        rcases Tab.mem_set he with rfl | he
        · simp only; omega
        · exact h.1 e he

theorem Tab.sorted_erase {α : Type} {t : Tab α} (h : Tab.sorted t) (k : Nat) : Tab.sorted (t.erase k) := by
  induction t with
  | nil => simp [Tab.erase]
  | cons f t ih =>
    obtain ⟨j, b⟩ := f
    simp only [Tab.sorted, List.pairwise_cons] at h
    simp only [Tab.erase]
    split
    · exact h.2
    · simp only [List.pairwise_cons]
      exact ⟨fun e he => h.1 e (Tab.mem_erase he), ih h.2⟩

theorem Tab.get_erase_other {α : Type} (d : α) (t : Tab α) {k j : Nat} (h : k ≠ j) :
    (t.erase k).get d j = t.get d j := by
  induction t with
  | nil => simp [Tab.erase]
  | cons f t ih =>
    obtain ⟨i, b⟩ := f
    simp only [Tab.erase]
    split
    · subst_vars; simp [Tab.get, h]
    · simp [Tab.get, ih]

theorem Tab.get_below {α : Type} (d : α) {t : Tab α} {k : Nat} (h : ∀ e ∈ t, k < e.1) : t.get d k = d := by
  induction t with
  | nil => rfl
  | cons f t ih =>
    obtain ⟨i, b⟩ := f
    have := h (i, b) (by simp)
    simp only [Tab.get]
    rw [if_neg (by simp only at this; omega), ih fun e he => h e (by simp [he])]

theorem Tab.get_erase_same {α : Type} (d : α) {t : Tab α} (h : Tab.sorted t) (k : Nat) : (t.erase k).get d k = d := by
  induction t with
  | nil => rfl
  | cons f t ih =>
    obtain ⟨i, b⟩ := f
    simp only [Tab.sorted, List.pairwise_cons] at h
    simp only [Tab.erase]
    split
    · subst_vars; exact Tab.get_below d h.1
    · rename_i hne
      simp only [Tab.get, if_neg hne]
      exact ih h.2

/-! ### Memory -/

theorem Memory.wf_nil : Memory.wf [] := by simp [Memory.wf]

/-- A write keeps the canonical form. -/
theorem Memory.wf_write {m : Memory} (h : Memory.wf m) (a : Nat) (b : Byte) : Memory.wf (Memory.write m a b) := by
  unfold Memory.write
  split
  · exact ⟨Tab.sorted_erase h.1 a, fun c hc => h.2 c (Tab.mem_erase hc)⟩
  · refine ⟨Tab.sorted_set h.1 a b, fun c hc => ?_⟩
    rcases Tab.mem_set hc with rfl | hc
    · assumption
    · exact h.2 c hc

/-- A write to one address leaves the others alone. -/
theorem Memory.read_write_other (m : Memory) {a c : Nat} (b : Byte) (h : a ≠ c) :
    Memory.read (Memory.write m a b) c = Memory.read m c := by
  unfold Memory.write Memory.read
  split
  · exact Tab.get_erase_other _ _ h
  · exact Tab.get_set_other _ _ _ h

/-- A read after a write to the same address gives the byte written. -/
theorem Memory.read_write_same {m : Memory} (h : Memory.wf m) (a : Nat) (b : Byte) :
    Memory.read (Memory.write m a b) a = b := by
  unfold Memory.write Memory.read
  split
  · subst_vars; exact Tab.get_erase_same _ h.1 a
  · simp

/-- Storing bytes keeps the canonical form. -/
theorem storeBytes_wf {m : Memory} (h : Memory.wf m) (a : Nat) (l : List (Option Byte)) : Memory.wf (storeBytes m a l) := by
  induction l generalizing m a with
  | nil => exact h
  | cons b l ih =>
    cases b with
    | none => exact ih h _
    | some b => exact ih (Memory.wf_write h a b) _

/-- Storing bytes leaves the other addresses alone. -/
theorem storeBytes_other (m : Memory) {a c : Nat} (l : List (Option Byte)) (h : c < a ∨ a + l.length ≤ c) :
    Memory.read (storeBytes m a l) c = Memory.read m c := by
  induction l generalizing m a with
  | nil => rfl
  | cons b l ih =>
    simp only [List.length_cons] at h
    cases b with
    | none => exact ih m (by omega)
    | some b =>
      rw [storeBytes, ih _ (by omega)]
      exact Memory.read_write_other m b (by omega)

theorem storeBytes_append (m : Memory) (a : Nat) (l k : List (Option Byte)) :
    storeBytes m a (l ++ k) = storeBytes (storeBytes m a l) (a + l.length) k := by
  induction l generalizing m a with
  | nil => rfl
  | cons b l ih =>
    cases b with
    | none => rw [List.cons_append, storeBytes, storeBytes, ih, List.length_cons]; congr 1; omega
    | some b => rw [List.cons_append, storeBytes, storeBytes, ih, List.length_cons]; congr 1; omega

/-- What a range reads after all of its bytes are stored. -/
theorem readBytes_storeBytes {m : Memory} (h : Memory.wf m) (a : Nat) (l : List Byte) :
    readBytes (storeBytes m a (writeAll l)) a l.length = l := by
  induction l generalizing m a with
  | nil => rfl
  | cons b l ih =>
    simp only [writeAll, List.map_cons, storeBytes, List.length_cons, readBytes, List.cons.injEq]
    refine ⟨?_, ih (Memory.wf_write h a b) (a + 1)⟩
    rw [storeBytes_other _ _ (Or.inl (by omega)), Memory.read_write_same h]

@[simp] theorem readBytes_length (m : Memory) (a n : Nat) : (readBytes m a n).length = n := by
  induction n generalizing a with
  | zero => rfl
  | succ n ih => simp [readBytes, ih]

end Sys2Proof.Machine
end

