-- ==== Sys2Proof/Laws/Run.lean ====
section
/-!
SUPPORT. How an operation of the monad `M` runs: one equation for each way of building one, so that a meaning is run by
simp without unfolding the monad.
-/

namespace Sys2Proof.Machine

/-! ### Strands, clusters and helms of a state -/

@[simp] theorem strand_setStrand_same (s : State) (u : Nat) (t : Strand) : (s.setStrand u t).strand u = t :=
  Tab.get_set_same _ _ _ _

theorem strand_setStrand_other (s : State) {u v : Nat} (t : Strand) (h : u ≠ v) : (s.setStrand u t).strand v = s.strand v :=
  Tab.get_set_other _ _ _ h

@[simp] theorem setStrand_setStrand (s : State) (u : Nat) (t t' : Strand) :
    (s.setStrand u t).setStrand u t' = s.setStrand u t' := by simp [State.setStrand]

@[simp] theorem cluster_setCluster_same (s : State) (c : Nat) (k : Cluster) : (s.setCluster c k).cluster c = k :=
  Tab.get_set_same _ _ _ _

@[simp] theorem setCluster_setCluster (s : State) (c : Nat) (k k' : Cluster) :
    (s.setCluster c k).setCluster c k' = s.setCluster c k' := by simp [State.setCluster]

@[simp] theorem helm_setHelm_same (s : State) (h : Nat) (k : Helm) : (s.setHelm h k).helm h = k :=
  Tab.get_set_same _ _ _ _

@[simp] theorem setHelm_setHelm (s : State) (h : Nat) (k k' : Helm) : (s.setHelm h k).setHelm h k' = s.setHelm h k' := by
  simp [State.setHelm]

/-! ### The monad -/

@[simp] theorem run_pure {α : Type} (a : α) (s : State) : (pure a : M α) s = .ok a s := rfl

@[simp] theorem run_throw {α : Type} (e : Stop) (s : State) : (throw e : M α) s = .error e s := rfl

theorem run_bind {α β : Type} (x : M α) (f : α → M β) (s : State) :
    (x >>= f) s = match x s with
      | .ok a s' => f a s'
      | .error e s' => .error e s' := by
  show EStateM.bind x f s = _
  unfold EStateM.bind
  cases x s <;> rfl

/-- An operation that answers hands its answer and its state on. -/
theorem bind_ok {α β : Type} {x : M α} {f : α → M β} {s s' : State} {a : α} (h : x s = .ok a s') :
    (x >>= f) s = f a s' := by rw [run_bind, h]

/-- An operation that stops stops what follows. -/
theorem bind_error {α β : Type} {x : M α} {f : α → M β} {s s' : State} {e : Stop} (h : x s = .error e s') :
    (x >>= f) s = .error e s' := by rw [run_bind, h]

@[simp] theorem run_pure_bind {α β : Type} (a : α) (f : α → M β) (s : State) : ((pure a : M α) >>= f) s = f a s := rfl

@[simp] theorem run_throw_bind {α β : Type} (e : Stop) (f : α → M β) (s : State) :
    ((throw e : M α) >>= f) s = .error e s := rfl

@[simp] theorem run_map {α β : Type} (f : α → β) (x : M α) (s : State) :
    (f <$> x) s = match x s with
      | .ok a s' => .ok (f a) s'
      | .error e s' => .error e s' := by
  show EStateM.map f x s = _
  unfold EStateM.map
  cases x s <;> rfl

@[simp] theorem run_getS_bind {β : Type} (f : State → M β) (s : State) : (getS >>= f) s = f s s := rfl

@[simp] theorem run_getStrand_bind {β : Type} (u : Nat) (f : Strand → M β) (s : State) :
    (getStrand u >>= f) s = f (s.strand u) s := rfl

@[simp] theorem run_getCluster_bind {β : Type} (c : Nat) (f : Cluster → M β) (s : State) :
    (getCluster c >>= f) s = f (s.cluster c) s := rfl

@[simp] theorem run_modS (f : State → State) (s : State) : modS f s = .ok () (f s) := rfl

@[simp] theorem run_modS_bind {β : Type} (g : State → State) (f : Unit → M β) (s : State) :
    (modS g >>= f) s = f () (g s) := rfl

@[simp] theorem run_modStrand (u : Nat) (f : Strand → Strand) (s : State) :
    modStrand u f s = .ok () (s.setStrand u (f (s.strand u))) := rfl

@[simp] theorem run_modStrand_bind {β : Type} (u : Nat) (g : Strand → Strand) (f : Unit → M β) (s : State) :
    (modStrand u g >>= f) s = f () (s.setStrand u (g (s.strand u))) := rfl

@[simp] theorem run_modCluster_bind {β : Type} (c : Nat) (g : Cluster → Cluster) (f : Unit → M β) (s : State) :
    (modCluster c g >>= f) s = f () (s.setCluster c (g (s.cluster c))) := rfl

@[simp] theorem run_waitUnless_true_bind {β : Type} (f : Unit → M β) (s : State) : (waitUnless true >>= f) s = f () s := rfl

@[simp] theorem run_waitUnless_true (s : State) : waitUnless true s = .ok () s := rfl

/-- A sequence of operations, regrouped. -/
@[simp] theorem bind_bind {α β γ : Type} (x : M α) (f : α → M β) (g : β → M γ) :
    ((x >>= f) >>= g) = (x >>= fun a => f a >>= g) := by
  funext s
  rw [run_bind, run_bind, run_bind]
  cases x s with
  | ok a s' => simp only; rw [run_bind]
  | error e s' => rfl

end Sys2Proof.Machine
end

