-- ==== Sys2Proof/Laws/Caches.lean ====
section
/-!
SUPPORT. The caches stay within their sets (R68, R71, R83): the operation that puts an entry in makes room for it. And what an
instruction that orders older loads does to its strand before it executes.
-/

namespace Sys2Proof.Machine

/-- How many entries of a list lie in the set of `n`. -/
def inSet {α : Type} (sets : Nat) (key : α → Nat) (n : Nat) (l : List α) : Nat :=
  l.countP fun e => setOf sets (key e) = setOf sets n

/-- Without the entry that the cache gives up, the set of the new entry has room. `offers`: a full set has an entry that may
go; `among`: what may go is of the set. -/
theorem dropVictim_room {α : Type} [DecidableEq α] {sets ways pick n : Nat} {key : α → Nat} {may : List α → List α} {l : List α}
    (held : inSet sets key n l ≤ ways) (_ : 0 < ways)
    (offers : may (l.filter fun e => setOf sets (key e) = setOf sets n) ≠ [])
    (among : may (l.filter fun e => setOf sets (key e) = setOf sets n) ⊆ l.filter fun e => setOf sets (key e) = setOf sets n) :
    inSet sets key n (dropVictim (cacheVictim sets ways pick key may n l) l) < ways := by
  have short : inSet sets key n l ≤ l.length := List.countP_le_length
  unfold cacheVictim
  split
  · simp only [dropVictim]; omega
  · dsimp only
    split
    · next h => rwa [← List.countP_eq_length_filter] at h
    · generalize hc : may (l.filter fun e => setOf sets (key e) = setOf sets n) = choices at offers among
      have lt : pick % max 1 choices.length < choices.length := by
        have := List.length_pos_iff.2 offers
        rw [Nat.max_eq_right this]
        exact Nat.mod_lt _ this
      rw [List.getElem?_eq_getElem lt]
      have mem := List.mem_filter.1 (among (List.getElem_mem lt))
      have gone := (List.perm_cons_erase mem.1).countP_eq fun e => setOf sets (key e) = setOf sets n
      simp only [List.countP_cons, mem.2, if_true] at gone
      simp only [dropVictim]
      unfold inSet at held ⊢
      omega

/-- An entry of a translation cache that enters leaves its set within its 8 ways (R83). -/
theorem tlbInsert_bounded {pick : Nat} {e : TlbEntry} {l : List TlbEntry} (held : inSet 512 TlbEntry.page e.page l ≤ 8) :
    inSet 512 TlbEntry.page e.page (tlbInsert pick e l) ≤ 8 := by
  have room : inSet 512 TlbEntry.page e.page (dropVictim (cacheVictim 512 8 pick TlbEntry.page (List.drop 1) e.page l) l) < 8 := by
    by_cases full : inSet 512 TlbEntry.page e.page l < 2
    · unfold dropVictim
      split
      · exact Nat.lt_of_le_of_lt (List.Sublist.countP_le List.erase_sublist) (by unfold inSet at full; omega)
      · omega
    · refine dropVictim_room held (by omega) ?_ (List.drop_subset ..)
      rw [Ne, List.drop_eq_nil_iff, ← List.countP_eq_length_filter]
      unfold inSet at full
      omega
  unfold tlbInsert inSet at *
  rw [List.countP_cons]
  split <;> omega

/-- A line leaves its set of a helm cache room among the 4 ways, where not all of the set is pinned (R68, R71). -/
theorem makeRoom_room {pick : Nat} {e : CacheLine} {l : List CacheLine} (held : inSet 128 CacheLine.line e.line l ≤ 4)
    (free : ∃ f ∈ l, setOf 128 f.line = setOf 128 e.line ∧ f.pinned = false) :
    inSet 128 CacheLine.line e.line (makeRoom pick e l) < 4 := by
  obtain ⟨f, mem, same, unpinned⟩ := free
  refine dropVictim_room held (by omega) (List.ne_nil_of_mem (a := f) ?_) (fun _ h => (List.mem_filter.1 h).1)
  exact List.mem_filter.2 ⟨List.mem_filter.2 ⟨mem, decide_eq_true same⟩, by rw [unpinned]; rfl⟩

/-- What an instruction does to its strand's older loads before it executes: nothing else of the machine changes. -/
theorem endsLate_cases (s : State) (u : Nat) (i : Instr) :
    s.endsLate u i = s ∨
      (leavesLate i = false ∧ s.endsLate u i = s.setStrand u { s.strand u with late := (s.strand u).guesses }) := by
  unfold State.endsLate
  dsimp only
  split
  · exact .inl rfl
  · next h => exact .inr ⟨by simp at h; exact h.1, rfl⟩

theorem endsLate_canonical {s : State} (h : s.Canonical) (u : Nat) (i : Instr) : (s.endsLate u i).Canonical := by
  obtain h' | ⟨-, h'⟩ := endsLate_cases s u i <;> rw [h'] <;> exact h

/-- An instruction that orders the older loads of its strand leaves late only those whose values the strand has gone on
from. -/
theorem endsLate_late (s : State) (u : Nat) {i : Instr} (h : leavesLate i = false) :
    ((s.endsLate u i).strand u).late = (s.strand u).guesses := by
  unfold State.endsLate
  simp only [h, Bool.false_or]
  split
  · next e => simp [Strand.guesses, List.isEmpty_iff.1 e]
  · rw [strand_setStrand_same]

end Sys2Proof.Machine
end

