-- ==== Sys2Proof/Laws/Helm.lean ====
section
/-!
SUPPORT. What an instruction that the helm executes does, once: where it goes on, where it waits and where it traps.
-/

namespace Sys2Proof.Machine

@[simp] theorem cur_setStrand (s : State) (u : Nat) (t : Strand) : (s.setStrand u t).cur = s.cur := rfl

@[simp] theorem me_setStrand (s : State) (t : Strand) : (s.setStrand s.cur t).me = t := by simp [State.me]
@[simp] theorem atPc_pc (t : Strand) (p : Word) : (t.atPc p).pc = p := rfl
@[simp] theorem atPc_atPc (t : Strand) (p q : Word) : (t.atPc p).atPc q = t.atPc q := rfl
@[simp] theorem raise_pc (t : Strand) (f : Flags) : (t.raise f).pc = t.pc := rfl
@[simp] theorem raise_zero (t : Strand) : t.raise 0 = t := by simp [Strand.raise]

theorem noChain_run {s : State} (h : s.between) : noChain s.cur s = .ok () s := by
  have : (s.strand s.cur).assembling = [] := h
  simp [noChain, this]

theorem readX_run {s : State} {u : Nat} {r : Reg}
    (h : (s.strand u).awaits r = false ∧ (s.strand u).late.any (fun l => (s.strand u).lateNames l r && l.guess.isNone) = false) :
    readX u r s = .ok ((s.strand u).readX r) s := by
  simp only [readX, run_getStrand_bind, h.1, h.2]
  rfl

@[simp] theorem writeX_run (u : Nat) (r : Reg) (w : Word) (s : State) :
    writeX u r w s = .ok () (s.setStrand u ((s.strand u).writeX r w)) := rfl

@[simp] theorem writeX_bind {β : Type} (u : Nat) (r : Reg) (w : Word) (f : Unit → M β) (s : State) :
    (writeX u r w >>= f) s = f () (s.setStrand u ((s.strand u).writeX r w)) := rfl

@[simp] theorem raiseFlags_run (u : Nat) (f : Flags) (s : State) :
    raiseFlags u f s = .ok () (s.setStrand u ((s.strand u).raise f)) := rfl

/-- An operation that answers moves on to the next word. -/
theorem helmOp_ok {body : Nat → M Unit} {s t : State} (h : s.between) (hb : body s.cur s = .ok () t) :
    helmOp body s = .next (t.setStrand s.cur ((t.strand s.cur).atPc ((t.strand s.cur).pc + 8))) := by
  unfold helmOp
  rw [bind_ok (noChain_run h), bind_ok hb]
  rfl

/-- An operation that waits leaves the program counter where it was. -/
theorem helmOp_wait {body : Nat → M Unit} {s t : State} (h : s.between) (hb : body s.cur s = .error .wait t) :
    helmOp body s = .next t := by
  unfold helmOp
  rw [bind_ok (noChain_run h), bind_error hb]
  rfl

/-- An operation that traps enters the trap handler. -/
theorem helmOp_trap {body : Nat → M Unit} {s t : State} {tr : Trap} (h : s.between)
    (hb : body s.cur s = .error (.trap tr) t) : helmOp body s = .next (s.trapOr s.cur tr t) := by
  unfold helmOp
  rw [bind_ok (noChain_run h), bind_error hb]
  rfl

theorem helmJump_ok {body : Nat → M Word} {s t : State} {pc : Word} (h : s.between) (hb : body s.cur s = .ok pc t) :
    helmJump body s = .next (t.setStrand s.cur ((t.strand s.cur).atPc pc)) := by
  unfold helmJump
  rw [bind_ok (noChain_run h), bind_ok hb]
  rfl

theorem helmJump_trap {body : Nat → M Word} {s t : State} {tr : Trap} (h : s.between)
    (hb : body s.cur s = .error (.trap tr) t) : helmJump body s = .next (s.trapOr s.cur tr t) := by
  unfold helmJump
  rw [bind_ok (noChain_run h), bind_error hb]
  rfl

@[simp] theorem writeX_pc (t : Strand) (r : Reg) (w : Word) : (t.writeX r w).pc = t.pc := by
  unfold Strand.writeX; split <;> rfl

@[simp] theorem writeX_modeReg (t : Strand) (r : Reg) (w : Word) : (t.writeX r w).modeReg = t.modeReg := by
  unfold Strand.writeX; split <;> rfl

@[simp] theorem writeX_mode (t : Strand) (r : Reg) (w : Word) : (t.writeX r w).mode = t.mode := by
  unfold Strand.writeX; split <;> rfl

/-- A register other than the one written reads as before. -/
theorem readX_writeX_other (t : Strand) {r q : Reg} (w : Word) (h : r ≠ q) : (t.writeX r w).readX q = t.readX q := by
  have hn : r.toNat ≠ q.toNat := fun e => h (BitVec.eq_of_toNat_eq e)
  unfold Strand.writeX Strand.readX
  by_cases hr : r = 0
  · simp only [if_pos hr]
  · simp only [if_neg hr, Vector.getElem_set_ne _ _ hn]

/-- The register written reads as the value written; x0 reads as zero. -/
theorem readX_writeX_same (t : Strand) (r : Reg) (w : Word) : (t.writeX r w).readX r = if r = 0 then 0 else w := by
  unfold Strand.writeX Strand.readX
  split <;> simp

theorem readX_zero (t : Strand) : t.readX 0 = 0 := rfl

/-- An operation whose one effect is the write of a register. -/
theorem helmOp_write {body : Nat → M Unit} {s : State} {xd : Reg} {w : Word} (h : s.between)
    (hb : body s.cur s = .ok () (s.setStrand s.cur ((s.strand s.cur).writeX xd w))) :
    helmOp body s = .next (s.wrote xd w) := by
  rw [helmOp_ok h hb]; simp [State.wrote, State.goesOn, State.become, State.me]

theorem alu2_run {s : State} {f : Word → Word → Word} {xd xa xb : Reg} (h : s.between) (ha : s.has xa) (hb : s.has xb) :
    alu2 f xd xa xb s = .next (s.wrote xd (f (s.reg xa) (s.reg xb))) := by
  apply helmOp_write h
  rw [bind_ok (readX_run ha), bind_ok (readX_run hb)]
  rfl

theorem alu1_run {s : State} {f : Word → Word} {xd xa : Reg} (h : s.between) (ha : s.has xa) :
    alu1 f xd xa s = .next (s.wrote xd (f (s.reg xa))) := by
  apply helmOp_write h
  rw [bind_ok (readX_run ha)]
  rfl

/-- A floating-point instruction writes its result and raises its flags. -/
theorem fpOp_run {xd : Reg} {m : M (BitVec 2 → Nat × Flags)} {g : BitVec 2 → Nat × Flags} {s : State} (h : s.between)
    (hm : m s = .ok g s) :
    helmOp (fun u => fpOp xd m u) s =
      .next (s.goesOn ((s.me.writeX xd (BitVec.ofNat 64 (g s.me.rm).1)).raise (g s.me.rm).2)) := by
  have : fpOp xd m s.cur s =
      .ok () (s.setStrand s.cur ((s.me.writeX xd (BitVec.ofNat 64 (g s.me.rm).1)).raise (g s.me.rm).2)) := by
    unfold fpOp
    rw [bind_ok hm]
    simp [State.me]
  rw [helmOp_ok h this]
  simp [State.goesOn, State.become, State.me]

theorem fp2_run {f : FFmt → BitVec 2 → Nat → Nat → Nat × Flags} {t : FTy} {xd xa xb : Reg} {s : State} (h : s.between)
    (ha : s.has xa) (hb : s.has xb) :
    fp2 f t xd xa xb s =
      .next (s.goesOn ((s.me.writeX xd
        (BitVec.ofNat 64 (f t.ffmt s.me.rm (FTyCode t (s.reg xa)) (FTyCode t (s.reg xb))).1)).raise
          (f t.ffmt s.me.rm (FTyCode t (s.reg xa)) (FTyCode t (s.reg xb))).2)) := by
  have e : ∀ u, (fun u => fpOp xd (do
      let a ← readX u xa
      let b ← readX u xb
      pure fun rm => f t.ffmt rm (FTyCode t a) (FTyCode t b)) u) u = fpOp xd (do
      let a ← readX u xa
      let b ← readX u xb
      pure fun rm => f t.ffmt rm (FTyCode t a) (FTyCode t b)) u := fun _ => rfl
  have hm : (do
      let a ← readX s.cur xa
      let b ← readX s.cur xb
      pure fun rm => f t.ffmt rm (FTyCode t a) (FTyCode t b)) s =
        .ok (fun rm => f t.ffmt rm (FTyCode t (s.reg xa)) (FTyCode t (s.reg xb))) s := by
    rw [bind_ok (readX_run ha), bind_ok (readX_run hb)]; rfl
  have r := fpOp_run (xd := xd) h hm
  unfold fp2
  unfold helmOp at r ⊢
  exact r

end Sys2Proof.Machine
end

