-- ==== Sys2Proof/Laws/ScalarVal.lean ====
section
/-!
SUPPORT. The results of the scalar instructions, as operations on 64-bit words that core Lean gives.
-/

namespace Sys2Proof.Machine

theorem mulh_eq (a b : Word) : mulhVal a b = (a.signExtend 128 * b.signExtend 128).extractLsb' 64 64 := by
  apply BitVec.eq_of_toInt_eq
  unfold mulhVal
  have h1 : (a.signExtend 128).toInt = a.toInt := BitVec.toInt_signExtend_of_le (by decide)
  have h2 : (b.signExtend 128).toInt = b.toInt := BitVec.toInt_signExtend_of_le (by decide)
  have : a.signExtend 128 * b.signExtend 128 = BitVec.ofInt 128 (a.toInt * b.toInt) := by
    apply BitVec.eq_of_toInt_eq
    rw [BitVec.toInt_mul, h1, h2, BitVec.toInt_ofInt]
  rw [this]
  rw [show (BitVec.ofInt 128 (a.toInt * b.toInt)).extractLsb' 64 64 = BitVec.ofInt 64 (a.toInt * b.toInt / 2 ^ 64) from ?_]
  apply BitVec.eq_of_toNat_eq
  simp only [BitVec.extractLsb'_toNat, BitVec.toNat_ofInt, Nat.shiftRight_eq_div_pow]
  generalize a.toInt * b.toInt = z
  omega

theorem mulhu_eq (a b : Word) : mulhuVal a b = (a.setWidth 128 * b.setWidth 128).extractLsb' 64 64 := by
  apply BitVec.eq_of_toNat_eq
  unfold mulhuVal
  have := Nat.mul_lt_mul'' a.isLt b.isLt
  simp only [BitVec.extractLsb'_toNat, BitVec.toNat_mul, BitVec.toNat_setWidth, BitVec.toNat_ofNat, Nat.shiftRight_eq_div_pow]
  rw [Nat.mod_eq_of_lt (a := a.toNat) (by omega), Nat.mod_eq_of_lt (a := b.toNat) (by omega), Nat.mod_eq_of_lt (a := _ * _) (by omega)]

theorem shiftCount_eq (b : Word) : shiftCount b = count6 b := by simp [shiftCount, count6]

theorem clz_spec (a : Word) : ∃ n, LeadingZeros a n ∧ clzVal a = BitVec.ofNat 64 n := by
  refine ⟨64 - bitLen a.toNat, ?_, rfl⟩
  unfold LeadingZeros bitLen
  have hl := a.isLt
  by_cases h : a.toNat = 0
  · simp [h]
  · have h1 := Nat.log2_self_le h
    have h2 := @Nat.lt_log2_self a.toNat
    have h3 : a.toNat.log2 < 64 := (Nat.log2_lt h).2 hl
    rw [if_neg h]
    refine ⟨by omega, ?_, fun _ => ?_⟩
    · rw [show 64 - (64 - (a.toNat.log2 + 1)) = a.toNat.log2 + 1 by omega]; exact h2
    · rw [show 63 - (64 - (a.toNat.log2 + 1)) = a.toNat.log2 by omega]; exact h1

theorem popc_spec (a : Word) : popcVal a = BitVec.ofNat 64 (onesOf a) := by
  have h : ∀ l : List Nat, (l.filter fun i => a.getLsbD i).length = (l.map fun i => (a.getLsbD i).toNat).sum := by
    intro l
    induction l with
    | nil => rfl
    | cons i l ih =>
      rw [List.filter_cons, List.map_cons, List.sum_cons, ← ih]
      cases a.getLsbD i <;> simp <;> omega
  rw [popcVal, onesOf, h]

theorem word_div_eq (a b : Word) : wordDiv a b = if b = 0 then -1 else a.sdiv b := by
  unfold wordDiv
  split
  · rfl
  · apply BitVec.eq_of_toInt_eq
    rw [BitVec.toInt_sdiv, BitVec.toInt_ofInt]

theorem word_rem_eq (a b : Word) : wordRem a b = if b = 0 then a else a.srem b := by
  unfold wordRem
  split
  · rfl
  · rw [word_div_eq, if_neg ‹_›]
    have h1 : a.sdiv b = BitVec.ofInt 64 (a.toInt.tdiv b.toInt) := by
      apply BitVec.eq_of_toInt_eq; rw [BitVec.toInt_sdiv, BitVec.toInt_ofInt]
    have h2 : a.srem b = BitVec.ofInt 64 (a.toInt.tmod b.toInt) := by
      rw [← BitVec.toInt_srem, BitVec.ofInt_toInt]
    have h3 (x y : Int) : BitVec.ofInt 64 (x - y) = BitVec.ofInt 64 x - BitVec.ofInt 64 y := by
      apply BitVec.eq_of_toInt_eq; rw [BitVec.toInt_sub, BitVec.toInt_ofInt, BitVec.toInt_ofInt, BitVec.toInt_ofInt]
      simp
    rw [h1, h2, Int.tmod_def, h3, BitVec.ofInt_mul, BitVec.ofInt_toInt, BitVec.ofInt_toInt]

theorem divu_eq (a b : Word) : divuVal a b = if b = 0 then -1 else a / b := by
  unfold divuVal
  split
  · rfl
  · apply BitVec.eq_of_toNat_eq
    rw [BitVec.toNat_ofNat, BitVec.toNat_udiv, Nat.mod_eq_of_lt]
    exact Nat.lt_of_le_of_lt (Nat.div_le_self _ _) a.isLt

theorem remu_eq (a b : Word) : remuVal a b = if b = 0 then a else a % b := by
  unfold remuVal
  rw [divu_eq]
  split
  · rfl
  · apply BitVec.eq_of_toNat_eq
    have h1 := Nat.div_add_mod a.toNat b.toNat
    have h2 := Nat.mul_div_le a.toNat b.toNat
    have h3 := a.isLt
    rw [BitVec.toNat_sub, BitVec.toNat_mul, BitVec.toNat_udiv, BitVec.toNat_umod, Nat.mod_eq_of_lt (a := b.toNat * _) (by omega)]
    omega

theorem aligned_word (w : Word) : (w.extractLsb' 0 3 = 0) ↔ w.toNat % 8 = 0 := by
  constructor
  · intro e; simpa using congrArg BitVec.toNat e
  · intro e; apply BitVec.eq_of_toNat_eq; simpa using e

theorem branchTarget_eq (pc : Word) (off : BitVec 32) : branchTarget pc off = pc + 8 * off.signExtend 64 := by
  unfold branchTarget immVal
  congr 1
  apply BitVec.eq_of_toNat_eq
  simp [Nat.shiftLeft_eq]
  omega

end Sys2Proof.Machine
end

