-- ==== Sys2Proof/Laws/LocalMem.lean ====
section
/-!
SUPPORT. Accesses of the helm to the windows: where they go, what they read and what they leave (R18, R35, R55).
-/

namespace Sys2Proof.Machine

theorem settle_run {s : State} {u : Nat} (h : (s.strand u).openInstrs = []) (d : (s.strand u).detachNotes = []) :
    s.settle u = s := by
  simp [State.settle, State.reportDetached, State.detachedOver, State.completedOpens, h, d]

theorem sHold_run {s : State} {u : Nat} (h : (s.strand u).openInstrs = [] ∧ (s.strand u).detachNotes = []) :
    sHold u s = .ok () s := by
  simp [sHold, settleM, settle_run h.1 h.2, h.1]

theorem resolve_local {s : State} {va : Word} {n a : Nat} {ag : Agent} {acc : Acc} (hu : ag.uid = s.cur) (hf : acc ≠ .fetch)
    (h : s.localAt va n = some a) : s.resolve ag acc va n = (.ok (.local a), s) := by
  unfold State.localAt at h
  unfold State.resolve
  rw [hu]
  split at h
  · rename_i off hr
    simp only [hr]
    split at h
    · exact absurd h (by simp)
    · rename_i hc
      rw [if_neg (by simp [hf] at hc ⊢; exact hc)]
      simpa using h
  · rename_i off hr
    simp only [hr]
    rw [if_neg hf]
    simpa using h
  all_goals exact absurd h (by simp)

theorem resolveM_local {s : State} {va : Word} {n a : Nat} {ag : Agent} {acc : Acc} (hu : ag.uid = s.cur) (hf : acc ≠ .fetch)
    (h : s.localAt va n = some a) : resolveM ag acc va n s = .ok (.ok (.local a)) s := by
  unfold resolveM; rw [resolve_local hu hf h]

theorem placeM_local {s : State} {va : Word} {n a : Nat} {ag : Agent} {acc : Acc} (hu : ag.uid = s.cur) (hf : acc ≠ .fetch)
    (h : s.localAt va n = some a) : placeM ag acc va n s = .ok (.local a) s := by
  unfold placeM; rw [bind_ok (resolveM_local hu hf h)]; rfl

/-- A window access that meets an empty line waits. -/
theorem localM_empty {s : State} {a : Nat} {ag : Agent} {op : RemoteOp} (h : s.localFull a (opSize op) = false) :
    localM ag a op s = .error .wait s := by
  unfold localM
  simp only [run_getS_bind, h]
  rfl

theorem clean_unmarked {s : State} {a n : Nat} (h : s.clean a n) (m : Mode) (o : Owner) : s.localMarked m o a n = false := by
  unfold State.localMarked
  rw [List.any_eq_false]
  intro w hw
  rw [h.2 w hw]
  simp

theorem localM_load {s : State} {a n : Nat} {ag : Agent} (h : s.clean a n) :
    localM ag a (.load n) s = .ok (.bytes (s.localRead ag.mode ag.owner a n)) s := by
  unfold localM
  have h1 := h.1
  have h2 := clean_unmarked h ag.mode ag.owner
  simp [opSize, h1, State.localOp, h2, opApply, opReads]

theorem localM_store {s : State} {a : Nat} {l : List (Option Byte)} {ag : Agent} (h : s.clean a l.length) :
    localM ag a (.store l) s = .ok .acked (s.localWrite ag.mode ag.owner a l) := by
  unfold localM
  have h1 := h.1
  simp [opSize, h1, State.localOp, opReads, opAtomic, opApply, addMarks, opMarks, markedLines, State.claimLines]

@[simp] theorem bytesOfNat_length (n v : Nat) : (bytesOfNat n v).length = n := by
  induction n generalizing v with
  | zero => rfl
  | succ n ih => simp [bytesOfNat, ih]

@[simp] theorem writeAll_length (l : List Byte) : (writeAll l).length = l.length := by simp [writeAll]

theorem unitsOf_one {k a n : Nat} (hn : 0 < n) (h : a % k + n ≤ k) : unitsOf k a n = [a / k] := by
  have hk : 0 < k := by omega
  have : (a + n - 1) / k = a / k := by
    have e := Nat.div_add_mod a k
    rw [show a + n - 1 = k * (a / k) + (a % k + n - 1) by omega, Nat.mul_add_div hk, Nat.div_eq_of_lt (a := a % k + n - 1) (by omega)]
    omega
  simp [unitsOf, this, Nat.pos_iff_ne_zero.1 hn]

theorem storeBytes_read {m : Memory} (h : Memory.wf m) (a n v : Nat) {i : Nat} (hi : i < n) :
    (Memory.read (storeBytes m a (writeAll (bytesOfNat n v))) (a + i)).toNat = v / 256 ^ i % 256 := by
  induction n generalizing m a v i with
  | zero => omega
  | succ n ih =>
    simp only [bytesOfNat, writeAll, List.map_cons, storeBytes]
    cases i with
    | zero =>
      rw [storeBytes_other _ _ (Or.inl (by omega)), Nat.add_zero, Memory.read_write_same h]
      simp
    | succ i =>
      rw [show a + (i + 1) = a + 1 + i by omega]
      have := ih (Memory.wf_write h a (BitVec.ofNat 8 v)) (a + 1) (v / 256) (i := i) (by omega)
      simp only [writeAll] at this
      rw [this, Nat.pow_succ, Nat.mul_comm, Nat.div_div_eq_div_mul]

theorem storeBytes_zeros {m : Memory} (h : Memory.wf m) (a n : Nat) {c : Nat} (hc : a ≤ c ∧ c < a + n) :
    Memory.read (storeBytes m a (List.replicate n (some 0))) c = 0 := by
  induction n generalizing m a with
  | zero => omega
  | succ n ih =>
    simp only [List.replicate_succ, storeBytes]
    by_cases hca : c = a
    · subst hca
      rw [storeBytes_other _ _ (Or.inl (by omega)), Memory.read_write_same h]
    · exact ih (Memory.wf_write h a 0) (a + 1) (by omega)

/-- A window store within one line (R35, R36). -/
theorem localWrite_one {s : State} {m : Mode} {o : Owner} {a n v : Nat} (hn : 0 < n) (h : a % 128 + n ≤ 128) :
    s.localWrite m o a (writeAll (bytesOfNat n v)) =
      (let s' := s.claimLine m o (a / 128)
       { s' with lmem := storeBytes s'.lmem a (writeAll (bytesOfNat n v))
                 localMarks := clearMarks 8 s'.localMarks a (writeAll (bytesOfNat n v)) }) := by
  unfold State.localWrite
  rw [writeAll_length, bytesOfNat_length, unitsOf_one hn h]
  have : (List.range 128).any (fun i => decide (a ≤ 128 * (a / 128) + i) &&
      ((writeAll (bytesOfNat n v)).getD (128 * (a / 128) + i - a) none).isSome) = true := by
    rw [List.any_eq_true]
    refine ⟨a % 128, by simp; omega, ?_⟩
    have e := Nat.div_add_mod a 128
    rw [show 128 * (a / 128) + a % 128 = a by omega]
    cases n with
    | zero => omega
    | succ n => simp [bytesOfNat, writeAll]
  simp only [List.filter_cons, this, if_true, List.filter_nil, State.claimLines, List.foldl_cons, List.foldl_nil]

theorem localWrite_stored {s : State} {a n v : Nat} (hw : Memory.wf s.lmem) (hn : 0 < n) (h : a % 128 + n ≤ 128) :
    StoredLocal s (s.localWrite s.me.mode s.me.owner a (writeAll (bytesOfNat n v))) a n v := by
  rw [localWrite_one hn h]
  have hline : ∀ c, c / 128 = a / 128 ↔ 128 * (a / 128) ≤ c ∧ c < 128 * (a / 128) + 128 := by
    intro c; omega
  unfold State.claimLine StoredLocal State.seen
  by_cases ht : Tab.get 0 s.tags (a / 128) = s.me.owner
  · simp only [if_pos ht]
    refine ⟨fun i hi => storeBytes_read hw a n v hi, fun c hc => ?_, fun c hc hr => ?_, ht, by simp⟩
    · exact storeBytes_other _ _ (by simp; omega)
    · rw [if_neg (by rw [hc]; exact fun e => e.2 ht)]
      exact storeBytes_other _ _ (by simpa using hr)
  · simp only [if_neg ht]
    cases hm : s.me.mode with
    | user =>
      have hw' := storeBytes_wf hw (128 * (a / 128)) (List.replicate 128 (some 0))
      have hout : ∀ c, c / 128 ≠ a / 128 →
          Memory.read (storeBytes s.lmem (128 * (a / 128)) (List.replicate 128 (some 0))) c = Memory.read s.lmem c := by
        intro c hc
        have h2 : c < 128 * (a / 128) ∨ 128 * (a / 128) + (List.replicate 128 (some (0 : Byte))).length ≤ c := by
          rw [List.length_replicate]; omega
        exact storeBytes_other _ _ h2
      have hin : ∀ c, c / 128 = a / 128 →
          Memory.read (storeBytes s.lmem (128 * (a / 128)) (List.replicate 128 (some 0))) c = 0 :=
        fun c hc => storeBytes_zeros hw _ _ ((hline c).1 hc)
      simp only
      revert hw' hout hin
      generalize storeBytes s.lmem (128 * (a / 128)) (List.replicate 128 (some 0)) = m'
      intro hw' hout hin
      refine ⟨fun i hi => storeBytes_read hw' a n v hi, fun c hc => ?_, fun c hc hr => ?_, Tab.get_set_same _ _ _ _, fun l hl => ?_, trivial⟩
      · rw [← hout c hc]
        exact storeBytes_other _ _ (by rw [writeAll_length, bytesOfNat_length]; omega)
      · rw [if_pos ⟨trivial, by rw [hc]; exact ht⟩, ← hin c hc]
        exact storeBytes_other _ _ (by simpa using hr)
      · exact Tab.get_set_other _ _ _ (Ne.symm hl)
    | kernel | firmware =>
      refine ⟨fun i hi => storeBytes_read hw a n v hi, fun c hc => ?_, fun c hc hr => ?_, by simp, fun l hl => ?_, rfl⟩
      · rw [storeBytes_other _ _ (by simp; omega)]
      · rw [if_neg (by simp)]
        exact storeBytes_other _ _ (by simpa using hr)
      · exact Tab.get_set_other _ _ _ (Ne.symm hl)

/-- The bytes of a window read are those that the strand sees. -/
theorem localRead_seen (s : State) (a n : Nat) :
    s.localRead s.me.mode s.me.owner a n = (List.range n).map fun i => s.seen (a + i) := by
  unfold State.localRead State.seen State.sees
  apply List.map_congr_left
  intro i _
  cases s.me.mode <;> simp

theorem natOfBytes_seen (s : State) (a n : Nat) : natOfBytes (s.localRead s.me.mode s.me.owner a n) = s.seenNat a n := by
  rw [localRead_seen]
  induction n generalizing a with
  | zero => rfl
  | succ n ih =>
    rw [List.range_succ_eq_map, List.map_cons, List.map_map, natOfBytes, State.seenNat, ← ih]
    have : (fun i => s.seen (a + i)) ∘ Nat.succ = fun i => s.seen (a + 1 + i) := by
      funext i; simp only [Function.comp]; congr 1; omega
    rw [this]; rfl

theorem natOfBytes_lt (l : List Byte) : natOfBytes l < 256 ^ l.length := by
  induction l with
  | nil => simp [natOfBytes]
  | cons b l ih => simp only [natOfBytes, List.length_cons, Nat.pow_succ]; omega

theorem extended_eq (sgn : Bool) (l : List Byte) (h : 0 < l.length) : extended sgn l = loaded sgn l.length (natOfBytes l) := by
  unfold extended loaded
  cases sgn with
  | false => rfl
  | true =>
    simp only [if_true]
    have hl := natOfBytes_lt l
    rw [show (256 : Nat) = 2 ^ 8 by rfl, ← Nat.pow_mul] at hl
    have hs : 2 * 2 ^ (8 * l.length - 1) = 2 ^ (8 * l.length) := by
      rw [Nat.mul_comm, ← Nat.pow_succ]; congr 1; omega
    rw [BitVec.signExtend, BitVec.toInt_eq_toNat_cond, BitVec.toNat_ofNat, Nat.mod_eq_of_lt hl, sintOf, Nat.mod_eq_of_lt hl]
    congr 1
    split <;> split <;> first | rfl | omega

theorem memSize_bytes (size : MemSize) : 0 < size.bytes ∧ 128 % size.bytes = 0 := by cases size <;> decide

theorem loadScalar_local {s : State} {va : Word} {n a : Nat} (h : s.ready) (hal : va.toNat % n = 0) (ha : s.localAt va n = some a)
    (hc : s.clean a n) : loadScalar s.cur va n s = .ok (s.localRead s.me.mode s.me.owner a n, none) s := by
  unfold loadScalar needAligned aligned
  rw [if_pos (by simpa using hal)]
  simp only [run_pure_bind]
  rw [bind_ok (sHold_run h.2)]
  simp only [run_getS_bind]
  rw [bind_ok (placeM_local rfl (by decide) ha)]
  simp only
  rw [bind_ok (localM_load hc)]
  rfl

theorem localRead_length (s : State) (m o a n) : (s.localRead m o a n).length = n := by simp [State.localRead]

theorem localAt_line {s : State} {va : Word} {n a : Nat} (hd : 128 % n = 0) (hal : va.toNat % n = 0) (ha : s.localAt va n = some a) :
    a % 128 + n ≤ 128 := by
  have hdiv : n ∣ 128 := Nat.dvd_of_mod_eq_zero hd
  have key : a % n = 0 := by
    have h128 : ∀ k m, (128 * k + m) % n = m % n := by
      intro k m
      obtain ⟨j, hj⟩ := hdiv
      rw [hj, Nat.mul_assoc, Nat.mul_add_mod]
    unfold State.localAt at ha
    have hr : ∀ off b, va.toNat = 128 * b + off → off % n = 0 := by
      intro off b e
      rw [← h128 b off, ← e]; exact hal
    split at ha
    · rename_i off e
      have : va.toNat = 128 * (0x7e0000000000 / 128) + off := by
        unfold regionOf at e
        simp only at e
        (repeat' split at e) <;> simp at e <;> omega
      split at ha
      · simp at ha
      · simp only [Option.some.injEq] at ha
        rw [← ha, spadAddr, show 2 ^ 30 + 2 ^ 23 * clusterOf s.cur + off = 128 * (2 ^ 23 + 2 ^ 16 * clusterOf s.cur) + off by omega, h128]
        exact hr off _ this
    · rename_i off e
      have : va.toNat = 128 * (0x7f0000000000 / 128) + off := by
        unfold regionOf at e
        simp only at e
        (repeat' split at e) <;> simp at e <;> omega
      simp only [Option.some.injEq] at ha
      rw [← ha, tcmAddr, show 2 ^ 17 * s.cur + off = 128 * (2 ^ 10 * s.cur) + off by omega, h128]
      exact hr off _ this
    all_goals simp at ha
  have h2 : a % 128 % n = 0 := by
    rw [Nat.mod_mod_of_dvd _ hdiv]; exact key
  obtain ⟨j, hj⟩ := hdiv
  obtain ⟨m, hm⟩ := Nat.dvd_of_mod_eq_zero h2
  have : a % 128 < 128 := Nat.mod_lt _ (by decide)
  have : m < j := by
    rw [hm, hj] at this
    exact Nat.lt_of_mul_lt_mul_left this
  rw [hm, hj]
  calc n * m + n = n * (m + 1) := by rw [Nat.mul_add, Nat.mul_one]
    _ ≤ n * j := Nat.mul_le_mul_left _ this

theorem storeScalar_local {s : State} {va : Word} {n v a : Nat} (h : s.ready) (hal : va.toNat % n = 0)
    (ha : s.localAt va n = some a) (hc : s.clean a n) :
    storeScalar s.cur va (bytesOfNat n v) s = .ok false (s.localWrite s.me.mode s.me.owner a (writeAll (bytesOfNat n v))) := by
  unfold storeScalar needAligned aligned
  rw [bytesOfNat_length, if_pos (by simpa using hal)]
  simp only [run_pure_bind]
  rw [bind_ok (sHold_run h.2)]
  simp only [run_getS_bind]
  rw [bind_ok (resolveM_local rfl (by decide) ha)]
  simp only
  rw [bind_ok (localM_store (by simpa using hc))]
  rfl

theorem storeOp_ok {body : Nat → M Bool} {s t : State} (h : s.between) (hb : body s.cur s = .ok false t) :
    storeOp body s = .next (t.setStrand s.cur ((t.strand s.cur).atPc ((t.strand s.cur).pc + 8))) := by
  unfold storeOp
  rw [bind_ok (noChain_run h), bind_ok hb]
  rfl
theorem storeOp_trap {body : Nat → M Bool} {s t : State} {tr} (h : s.between) (hb : body s.cur s = .error (.trap tr) t) :
    storeOp body s = .next (s.trapOr s.cur tr t) := by
  unfold storeOp
  rw [bind_ok (noChain_run h), bind_error hb]
  rfl
theorem storeOp_wait {body : Nat → M Bool} {s t : State} (h : s.between) (hb : body s.cur s = .error .wait t) :
    storeOp body s = .next t := by
  unfold storeOp
  rw [bind_ok (noChain_run h), bind_error hb]
  rfl

theorem foldl_keeps {α : Type} {β : Type} (f : α → β → α) (g : α → γ) (h : ∀ a b, g (f a b) = g a) (l : List β) (a : α) :
    g (l.foldl f a) = g a := by
  induction l generalizing a with
  | nil => rfl
  | cons b l ih => rw [List.foldl_cons, ih, h]

@[simp] theorem claimLine_strands (s : State) (m : Mode) (o : Owner) (l : Nat) : (s.claimLine m o l).strands = s.strands := by
  unfold State.claimLine; split; rfl; split <;> rfl

@[simp] theorem claimLine_cur (s : State) (m : Mode) (o : Owner) (l : Nat) : (s.claimLine m o l).cur = s.cur := by
  unfold State.claimLine; split; rfl; split <;> rfl

@[simp] theorem localWrite_strands (s : State) (m : Mode) (o : Owner) (a : Nat) (w : List (Option Byte)) :
    (s.localWrite m o a w).strands = s.strands := by
  unfold State.localWrite State.claimLines
  exact foldl_keeps _ State.strands (fun s l => claimLine_strands s m o l) _ s

@[simp] theorem localWrite_cur (s : State) (m : Mode) (o : Owner) (a : Nat) (w : List (Option Byte)) :
    (s.localWrite m o a w).cur = s.cur := by
  unfold State.localWrite State.claimLines
  exact foldl_keeps _ State.cur (fun s l => claimLine_cur s m o l) _ s

@[simp] theorem localWrite_strand (s : State) (m : Mode) (o : Owner) (a : Nat) (w : List (Option Byte)) (u : Nat) :
    (s.localWrite m o a w).strand u = s.strand u := by simp [State.strand]

theorem needAligned_bad {a : Word} {n : Nat} {s : State} (h : a.toNat % n ≠ 0) : needAligned a n s = .error (.trap ⟨3, 0, a, none⟩) s := by
  unfold needAligned aligned
  rw [if_neg (by simpa using h)]
  rfl

end Sys2Proof.Machine
end

