-- ==== Sys2Proof/Laws/Memory.lean ====
section
/-!
SUPPORT. Every operation on memory keeps the canonical form (`State.Canonical`): the operations on local and physical memory,
and what takes bytes away (a fenced cluster, a smaller pool cache, a reset).
-/

namespace Sys2Proof.Machine

theorem reset_canonical_memory : State.reset.Canonical := by
  constructor <;> exact Memory.wf_nil

/-- Bytes taken away leave the form as it is. -/
theorem Memory.wf_filter {m : Memory} (h : Memory.wf m) (p : Host.Cell → Bool) : Memory.wf (m.filter p) :=
  ⟨h.1.filter _, fun c hc => h.2 c (List.mem_filter.mp hc).1⟩

/-- A list of stores keeps the form. -/
theorem foldl_keeps_inv {α β : Type} (P : α → Prop) (f : α → β → α) (hf : ∀ a b, P a → P (f a b)) (l : List β) :
    ∀ a, P a → P (l.foldl f a) := by
  induction l with
  | nil => exact fun _ h => h
  | cons b t ih => exact fun a h => ih _ (hf a b h)

/-! ### Local memory -/

theorem storeLocal_canonical {s t : State} (h : s.Canonical) (a : Nat) (w : List (Option Byte))
    (hl : t.lmem = storeBytes s.lmem a w) (hp : t.pmem = s.pmem) : t.Canonical := by
  refine ⟨?_, hp ▸ h.2⟩
  rw [hl]
  exact storeBytes_wf h.1 a w

theorem claimLine_canonical {s : State} (h : s.Canonical) (m : Mode) (o : Owner) (l : Nat) : (s.claimLine m o l).Canonical := by
  unfold State.claimLine
  split
  · exact h
  · split
    · exact storeLocal_canonical h (128 * l) (List.replicate 128 (some 0)) (by with_reducible rfl) (by with_reducible rfl)
    · exact h
    · exact h

theorem claimLines_canonical {s : State} (h : s.Canonical) (m : Mode) (o : Owner) (l : List Nat) :
    (s.claimLines m o l).Canonical :=
  foldl_keeps_inv State.Canonical (fun s l => s.claimLine m o l) (fun _ l h => claimLine_canonical h m o l) l s h

theorem localWrite_canonical {s : State} (h : s.Canonical) (m : Mode) (o : Owner) (a : Nat) (w : List (Option Byte)) :
    (s.localWrite m o a w).Canonical := by
  have k := claimLines_canonical h m o ((unitsOf 128 a w.length).filter fun l =>
    (List.range 128).any fun i => decide (a ≤ 128 * l + i) && (w.getD (128 * l + i - a) none).isSome)
  exact ⟨storeBytes_wf k.1 _ _, k.2⟩

theorem localOp_canonical {s : State} (h : s.Canonical) (m : Mode) (o : Owner) (a : Nat) (op : RemoteOp) :
    (s.localOp m o a op).2.Canonical := by
  unfold State.localOp
  dsimp only
  split
  · exact h
  · dsimp only
    split
    · exact h
    · exact claimLines_canonical (localWrite_canonical h m o a _) m o _

/-! ### Physical memory -/

theorem adoptUnit_canonical {s : State} (h : s.Canonical) (e : Enc) (u : Nat) : (s.adoptUnit e u).Canonical := by
  have k : (if sameKey (Tab.get .unwritten s.units u) e then s
      else { s with pmem := storeBytes s.pmem (64 * u) (writeAll (s.readUnit e u)) }).Canonical := by
    split
    · exact h
    · exact ⟨h.1, storeBytes_wf h.2 _ _⟩
  unfold State.adoptUnit
  dsimp only
  split
  · exact k
  · exact k

theorem physWrite_canonical {s : State} (h : s.Canonical) (e : Enc) (a : Nat) (w : List (Option Byte)) :
    (s.physWrite e a w).Canonical := by
  have k := foldl_keeps_inv State.Canonical (fun s u => s.adoptUnit e u) (fun s u h => adoptUnit_canonical h e u)
    (unitsOf 64 a w.length) s h
  exact ⟨k.1, storeBytes_wf k.2 _ _⟩

theorem physOp_canonical {s : State} (h : s.Canonical) (e : Enc) (a : Nat) (op : RemoteOp) : (s.physOp e a op).2.Canonical := by
  unfold State.physOp
  dsimp only
  split
  · exact h
  · dsimp only
    split
    · exact h
    · exact physWrite_canonical h e a _

theorem deviceStore_canonical {s : State} (h : s.Canonical) (a n v : Nat) : (s.deviceStore a n v).Canonical := by
  unfold State.deviceStore
  split
  · exact physWrite_canonical h _ _ _
  · exact h

theorem appendLog_canonical {s : State} (h : s.Canonical) (l : Log) (r : Nat) : (s.appendLog l r).1.Canonical := by
  unfold State.appendLog
  split
  · exact deviceStore_canonical h _ _ _
  · exact h

theorem logViolation_canonical {s : State} (h : s.Canonical) (ag : Agent) (m : ModNum) (a : Word) (p : Bool) (acc : Acc)
    (k : Nat) : (s.logViolation ag m a p acc k).Canonical := appendLog_canonical h s.vlog _

theorem deviceLost_canonical {s : State} (h : s.Canonical) (a n : Nat) (acc : Acc) : (s.deviceLost a n acc).Canonical := by
  unfold State.deviceLost
  split
  · exact h
  · exact logViolation_canonical h _ _ _ _ _ _

theorem deviceWrite_canonical {s : State} (h : s.Canonical) (a n v : Nat) : (s.deviceWrite a n v).Canonical :=
  deviceLost_canonical (deviceStore_canonical h _ _ _) _ _ _

theorem logChecked_canonical {s : State} (h : s.Canonical) (l : Log) : (s.logChecked l).Canonical := by
  unfold State.logChecked
  split
  · exact deviceLost_canonical h _ _ _
  · exact h

theorem logError_canonical {s : State} (h : s.Canonical) (a k l u g : Nat) (o : Owner) (e : Nat) (i : Word) :
    (s.logError a k l u g o e i).1.Canonical := by
  unfold State.logError
  generalize record _ = r
  have c : ({ (s.appendLog s.elog r).1 with elog := (s.appendLog s.elog r).2 } : State).Canonical :=
    appendLog_canonical h s.elog r
  have q := logChecked_canonical c s.elog
  dsimp only
  split <;> exact q

theorem writeBack_canonical {s : State} (h : s.Canonical) (l : PoolLine) : (s.writeBack l).Canonical := by
  unfold State.writeBack
  split
  · exact h
  · split
    · exact logError_canonical h _ _ _ _ _ _ _ _
    · exact physWrite_canonical h _ _ _

theorem dropPool_canonical {s : State} (h : s.Canonical) (d : Nat) (l : PoolLine) : (s.dropPool d l).Canonical :=
  writeBack_canonical h l

theorem flushPool_canonical {s : State} (h : s.Canonical) (p : PoolLine → Bool) : (s.flushPool p).Canonical :=
  foldl_keeps_inv State.Canonical (fun (s : State) (e : Nat × List PoolLine) =>
      (e.2.filter p).foldl (fun s l => s.dropPool e.1 l) s) (fun _ e h =>
    foldl_keeps_inv State.Canonical (fun (s : State) (l : PoolLine) => s.dropPool e.1 l)
      (fun _ l h => dropPool_canonical h e.1 l) (e.2.filter p) _ h) s.pool s h

/-! ### Bytes that are lost -/

theorem setPoolSize_canonical {s : State} (h : s.Canonical) (w : Word) : (s.setPoolSize w).Canonical := by
  have k := flushPool_canonical h fun _ => true
  unfold State.setPoolSize
  dsimp only
  split
  · exact h
  · exact ⟨k.1, Memory.wf_filter k.2 _⟩

theorem endPass_canonical {s : State} (h : s.Canonical) (c u : Nat) (o : Holder) : (s.endPass c u o).Canonical := h

theorem leaves_canonical {s : State} (h : s.Canonical) (u : Nat) : (s.leaves u).Canonical :=
  endPass_canonical h (clusterOf u) u (s.strand u).holder

theorem loseCluster_canonical {s : State} (h : s.Canonical) (c : Nat) : (s.loseCluster c).Canonical := by
  unfold State.loseCluster
  dsimp only
  exact foldl_keeps_inv State.Canonical (fun (s : State) u => (s.leaves u).setStrand u Strand.empty)
    (fun s u h => leaves_canonical h u) (clusterStrands c) _ ⟨Memory.wf_filter h.1 _, h.2⟩

theorem afterReset_canonical {s : State} (h : s.Canonical) : s.afterReset.Canonical :=
  ⟨Memory.wf_nil, Memory.wf_filter h.2 _⟩

/-! ### Fetching -/

theorem placePlain_canonical {s : State} (h : s.Canonical) (l : List (Nat × List Byte)) : (s.placePlain l).Canonical :=
  ⟨h.1, foldl_keeps_inv Memory.wf (fun m (e : Nat × List Byte) => storeBytes m e.1 (writeAll e.2))
    (fun _ e h => storeBytes_wf h e.1 (writeAll e.2)) l s.pmem h.2⟩

/-- A state into which an instruction has been placed has canonical memory. -/
theorem withFetchWord_canonical {s : State} (h : s.Canonical) (nbits w : Nat) : (s.withFetchWord nbits w).Canonical := by
  unfold State.withFetchWord
  generalize placedBytes (w % 2 ^ nbits % 2 ^ 64) = l
  exact placePlain_canonical (s := { s with
    agenda := [], phase := true, stopped := false, owntab := 0, eventSet := [], fwEvents := []
    fenced := s.fenced.filter fun c => c != clusterOf s.cur
    walks := Tab.erase s.walks (dieOf (clusterOf s.cur)) }) h l

end Sys2Proof.Machine
end

