-- ==== Sys2Proof/Laws/PerInstr.lean ====
section
/-!
SUPPORT. What holds of every instruction as syntax, one lemma per constructor: the opcode that its word has (R178, R183).
-/

namespace Sys2Proof

theorem encS_opcode (opc : BitVec 8) (xd xa xb : BitVec 5) (f9 : BitVec 9) (imm : BitVec 32) :
    (encS opc xd xa xb f9 imm).extractLsb' 56 8 = opc := by
  apply BitVec.eq_of_getLsbD_eq
  intro i hi
  rw [BitVec.getLsbD_extractLsb']
  unfold encS
  simp only [hi, decide_true, Bool.true_and]
  erw [BitVec.getLsbD_append, if_neg (by omega)]
  erw [BitVec.getLsbD_append, if_neg (by omega)]
  erw [BitVec.getLsbD_append, if_neg (by omega)]
  erw [BitVec.getLsbD_append, if_neg (by omega)]
  erw [BitVec.getLsbD_append, if_neg (by omega)]
  congr 1
  omega

theorem encB_opcode (opc : BitVec 8) (xa xb : BitVec 5) (cond : BitVec 4) (rsv : BitVec 10) (imm : BitVec 32) :
    (encB opc xa xb cond rsv imm).extractLsb' 56 8 = opc := by
  apply BitVec.eq_of_getLsbD_eq
  intro i hi
  rw [BitVec.getLsbD_extractLsb']
  unfold encB
  simp only [hi, decide_true, Bool.true_and]
  erw [BitVec.getLsbD_append, if_neg (by omega)]
  erw [BitVec.getLsbD_append, if_neg (by omega)]
  erw [BitVec.getLsbD_append, if_neg (by omega)]
  erw [BitVec.getLsbD_append, if_neg (by omega)]
  erw [BitVec.getLsbD_append, if_neg (by omega)]
  congr 1
  omega

theorem encV_opcode (opc : BitVec 8) (c : BitVec 1) (g : BitVec 4) (n z : BitVec 1) (vd va vb vc : BitVec 5) (pd pe : BitVec 4) (f5 : BitVec 5) (imm : BitVec 16) :
    (encV opc c g n z vd va vb vc pd pe f5 imm).extractLsb' 56 8 = opc := by
  apply BitVec.eq_of_getLsbD_eq
  intro i hi
  rw [BitVec.getLsbD_extractLsb']
  unfold encV
  simp only [hi, decide_true, Bool.true_and]
  erw [BitVec.getLsbD_append, if_neg (by omega)]
  erw [BitVec.getLsbD_append, if_neg (by omega)]
  erw [BitVec.getLsbD_append, if_neg (by omega)]
  erw [BitVec.getLsbD_append, if_neg (by omega)]
  erw [BitVec.getLsbD_append, if_neg (by omega)]
  erw [BitVec.getLsbD_append, if_neg (by omega)]
  erw [BitVec.getLsbD_append, if_neg (by omega)]
  erw [BitVec.getLsbD_append, if_neg (by omega)]
  erw [BitVec.getLsbD_append, if_neg (by omega)]
  erw [BitVec.getLsbD_append, if_neg (by omega)]
  erw [BitVec.getLsbD_append, if_neg (by omega)]
  erw [BitVec.getLsbD_append, if_neg (by omega)]
  congr 1
  omega

theorem encM_opcode (opc : BitVec 8) (c : BitVec 1) (g : BitVec 4) (n z : BitVec 1) (vd xa xb : BitVec 5) (fmt : BitVec 4) (o s : BitVec 1) (d : BitVec 3) (scope pol : BitVec 2) (off : BitVec 21) :
    (encM opc c g n z vd xa xb fmt o s d scope pol off).extractLsb' 56 8 = opc := by
  apply BitVec.eq_of_getLsbD_eq
  intro i hi
  rw [BitVec.getLsbD_extractLsb']
  unfold encM
  simp only [hi, decide_true, Bool.true_and]
  erw [BitVec.getLsbD_append, if_neg (by omega)]
  erw [BitVec.getLsbD_append, if_neg (by omega)]
  erw [BitVec.getLsbD_append, if_neg (by omega)]
  erw [BitVec.getLsbD_append, if_neg (by omega)]
  erw [BitVec.getLsbD_append, if_neg (by omega)]
  erw [BitVec.getLsbD_append, if_neg (by omega)]
  erw [BitVec.getLsbD_append, if_neg (by omega)]
  erw [BitVec.getLsbD_append, if_neg (by omega)]
  erw [BitVec.getLsbD_append, if_neg (by omega)]
  erw [BitVec.getLsbD_append, if_neg (by omega)]
  erw [BitVec.getLsbD_append, if_neg (by omega)]
  erw [BitVec.getLsbD_append, if_neg (by omega)]
  erw [BitVec.getLsbD_append, if_neg (by omega)]
  erw [BitVec.getLsbD_append, if_neg (by omega)]
  congr 1
  omega

theorem encK_opcode (opc : BitVec 8) (kd ka kb kc : BitVec 4) (xd xa : BitVec 5) (op : BitVec 4) (imm : BitVec 26) :
    (encK opc kd ka kb kc xd xa op imm).extractLsb' 56 8 = opc := by
  apply BitVec.eq_of_getLsbD_eq
  intro i hi
  rw [BitVec.getLsbD_extractLsb']
  unfold encK
  simp only [hi, decide_true, Bool.true_and]
  erw [BitVec.getLsbD_append, if_neg (by omega)]
  erw [BitVec.getLsbD_append, if_neg (by omega)]
  erw [BitVec.getLsbD_append, if_neg (by omega)]
  erw [BitVec.getLsbD_append, if_neg (by omega)]
  erw [BitVec.getLsbD_append, if_neg (by omega)]
  erw [BitVec.getLsbD_append, if_neg (by omega)]
  erw [BitVec.getLsbD_append, if_neg (by omega)]
  erw [BitVec.getLsbD_append, if_neg (by omega)]
  congr 1
  omega

theorem encX_opcode (opc : BitVec 8) (xa xb xc : BitVec 5) (fa fb : BitVec 4) (mode : BitVec 3) (imm : BitVec 30) :
    (encX opc xa xb xc fa fb mode imm).extractLsb' 56 8 = opc := by
  apply BitVec.eq_of_getLsbD_eq
  intro i hi
  rw [BitVec.getLsbD_extractLsb']
  unfold encX
  simp only [hi, decide_true, Bool.true_and]
  erw [BitVec.getLsbD_append, if_neg (by omega)]
  erw [BitVec.getLsbD_append, if_neg (by omega)]
  erw [BitVec.getLsbD_append, if_neg (by omega)]
  erw [BitVec.getLsbD_append, if_neg (by omega)]
  erw [BitVec.getLsbD_append, if_neg (by omega)]
  erw [BitVec.getLsbD_append, if_neg (by omega)]
  erw [BitVec.getLsbD_append, if_neg (by omega)]
  congr 1
  omega

theorem encD_opcode (opc : BitVec 8) (xd xa xb xc : BitVec 5) (d : BitVec 3) (u : BitVec 1) (f3 : BitVec 3) (rsv op : BitVec 4) (off : BitVec 21) :
    (encD opc xd xa xb xc d u f3 rsv op off).extractLsb' 56 8 = opc := by
  apply BitVec.eq_of_getLsbD_eq
  intro i hi
  rw [BitVec.getLsbD_extractLsb']
  unfold encD
  simp only [hi, decide_true, Bool.true_and]
  erw [BitVec.getLsbD_append, if_neg (by omega)]
  erw [BitVec.getLsbD_append, if_neg (by omega)]
  erw [BitVec.getLsbD_append, if_neg (by omega)]
  erw [BitVec.getLsbD_append, if_neg (by omega)]
  erw [BitVec.getLsbD_append, if_neg (by omega)]
  erw [BitVec.getLsbD_append, if_neg (by omega)]
  erw [BitVec.getLsbD_append, if_neg (by omega)]
  erw [BitVec.getLsbD_append, if_neg (by omega)]
  erw [BitVec.getLsbD_append, if_neg (by omega)]
  erw [BitVec.getLsbD_append, if_neg (by omega)]
  congr 1
  omega

namespace Laws.Opcode

/-- The opcode of an instruction (R183); none for a step of another agent, which has no word. -/
def code : Instr → Option (BitVec 8)
  | .add _ _ _ => some 0x01
  | .sub _ _ _ => some 0x02
  | .mul _ _ _ => some 0x03
  | .mulh _ _ _ => some 0x04
  | .mulhu _ _ _ => some 0x05
  | .div _ _ _ => some 0x06
  | .divu _ _ _ => some 0x07
  | .rem _ _ _ => some 0x08
  | .remu _ _ _ => some 0x09
  | .and _ _ _ => some 0x0a
  | .or _ _ _ => some 0x0b
  | .xor _ _ _ => some 0x0c
  | .shl _ _ _ => some 0x0d
  | .shr _ _ _ => some 0x0e
  | .sra _ _ _ => some 0x0f
  | .slt _ _ _ => some 0x10
  | .sltu _ _ _ => some 0x11
  | .min _ _ _ => some 0x12
  | .max _ _ _ => some 0x13
  | .clz _ _ => some 0x14
  | .popc _ _ => some 0x15
  | .csel _ _ _ _ => some 0x16
  | .addi _ _ _ => some 0x18
  | .andi _ _ _ => some 0x19
  | .ori _ _ _ => some 0x1a
  | .xori _ _ _ => some 0x1b
  | .shli _ _ _ => some 0x1c
  | .shri _ _ _ => some 0x1d
  | .srai _ _ _ => some 0x1e
  | .limm _ _ => some 0x1f
  | .addpc _ _ => some 0x20
  | .fadd _ _ _ _ => some 0x21
  | .fsub _ _ _ _ => some 0x22
  | .fmul _ _ _ _ => some 0x23
  | .fma _ _ _ _ _ => some 0x24
  | .fdiv _ _ _ _ => some 0x25
  | .fsqrt _ _ _ => some 0x26
  | .fmin _ _ _ _ => some 0x27
  | .fmax _ _ _ _ => some 0x28
  | .fcmp _ _ _ _ _ => some 0x29
  | .fcvt _ _ _ _ => some 0x2a
  | .br _ => some 0x30
  | .bcmp _ _ _ _ => some 0x31
  | .call _ _ => some 0x32
  | .ret _ => some 0x33
  | .jmp _ _ => some 0x34
  | .ld _ _ _ _ _ => some 0x38
  | .ldIndexed _ _ _ _ _ => some 0x39
  | .st _ _ _ _ => some 0x3a
  | .stIndexed _ _ _ _ => some 0x3b
  | .amo _ _ _ _ _ _ _ => some 0x3c
  | .cas _ _ _ _ _ _ => some 0x3d
  | .setvl _ _ _ => some 0x40
  | .setvt _ => some 0x41
  | .vfold _ _ _ => some 0x42
  | .vadd _ _ _ _ _ _ => some 0x43
  | .vaddX _ _ _ _ _ _ => some 0x61
  | .vaddI _ _ _ _ _ _ => some 0x6e
  | .vsub _ _ _ _ _ _ => some 0x44
  | .vsubX _ _ _ _ _ _ => some 0x62
  | .vmul _ _ _ _ _ _ => some 0x45
  | .vmulX _ _ _ _ _ _ => some 0x63
  | .vfma _ _ _ _ _ => some 0x46
  | .vfmaX _ _ _ _ _ => some 0x64
  | .vfms _ _ _ _ _ => some 0x47
  | .vfmsX _ _ _ _ _ => some 0x65
  | .vdiv _ _ _ _ _ => some 0x48
  | .vsqrt _ _ _ => some 0x49
  | .vrcp _ _ _ => some 0x4a
  | .vrsq _ _ _ => some 0x4b
  | .vexp2 _ _ _ => some 0x4c
  | .vlog2 _ _ _ => some 0x4d
  | .vmin _ _ _ _ _ => some 0x4e
  | .vminX _ _ _ _ _ => some 0x66
  | .vmax _ _ _ _ _ => some 0x4f
  | .vmaxX _ _ _ _ _ => some 0x67
  | .vabs _ _ _ => some 0x50
  | .vneg _ _ _ => some 0x51
  | .vand _ _ _ _ => some 0x52
  | .vandX _ _ _ _ => some 0x68
  | .vandI _ _ _ _ => some 0x6f
  | .vor _ _ _ _ => some 0x53
  | .vorX _ _ _ _ => some 0x69
  | .vorI _ _ _ _ => some 0x70
  | .vxor _ _ _ _ => some 0x54
  | .vxorX _ _ _ _ => some 0x6a
  | .vxorI _ _ _ _ => some 0x71
  | .vshl _ _ _ _ => some 0x55
  | .vshlX _ _ _ _ => some 0x6b
  | .vshlI _ _ _ _ => some 0x72
  | .vshr _ _ _ _ => some 0x56
  | .vshrX _ _ _ _ => some 0x6c
  | .vshrI _ _ _ _ => some 0x73
  | .vsra _ _ _ _ => some 0x57
  | .vsraX _ _ _ _ => some 0x6d
  | .vsraI _ _ _ _ => some 0x74
  | .vcvt _ _ _ _ => some 0x58
  | .vcmp _ _ _ _ _ _ => some 0x59
  | .vsel _ _ _ _ _ => some 0x5a
  | .vmov _ _ _ => some 0x5b
  | .vmvxToScalar _ _ _ _ => some 0x5c
  | .vmvxToVector _ _ _ _ => some 0x5c
  | .vred _ _ _ _ _ => some 0x5d
  | .vslide _ _ _ _ _ => some 0x5e
  | .vperm _ _ _ _ => some 0x5f
  | .viota _ _ => some 0x60
  | .pand _ _ _ _ => some 0x78
  | .por _ _ _ _ => some 0x79
  | .pxor _ _ _ _ => some 0x7a
  | .pandn _ _ _ _ => some 0x7b
  | .pset _ _ _ => some 0x7c
  | .pcnt _ _ _ => some 0x7d
  | .pfirst _ _ _ => some 0x7e
  | .pmov _ _ _ => some 0x7f
  | .vld _ _ _ _ _ => some 0x80
  | .vldStrided _ _ _ _ _ _ => some 0x81
  | .vst _ _ _ _ _ => some 0x82
  | .vstStrided _ _ _ _ _ _ => some 0x83
  | .vldff _ _ _ _ _ => some 0x84
  | .vgath _ _ _ _ _ _ => some 0x85
  | .vscat _ _ _ _ _ _ => some 0x86
  | .vscadd _ _ _ _ _ _ => some 0x87
  | .vldb _ _ _ _ _ _ => some 0x88
  | .vstb _ _ _ _ _ _ => some 0x89
  | .vldz _ _ _ _ _ _ _ => some 0x8a
  | .ctab _ _ _ => some 0xca
  | .vcompress _ _ _ _ => some 0x8c
  | .vexpand _ _ _ _ => some 0x8d
  | .vpcnt _ _ _ => some 0x8e
  | .vconf _ _ _ => some 0x8f
  | .vscan _ _ _ _ _ _ => some 0x90
  | .vlut _ _ _ _ => some 0x91
  | .vbfx _ _ _ _ _ => some 0x92
  | .vexit _ _ _ => some 0x93
  | .fence _ _ => some 0x98
  | .lsync => some 0x99
  | .pfence => some 0x9a
  | .bar _ => some 0x9b
  | .barw _ => some 0x9c
  | .waitd _ _ => some 0x9d
  | .claim _ _ _ _ => some 0x9e
  | .signal _ _ => some 0x9f
  | .kdef _ _ _ => some 0xa0
  | .klen _ _ => some 0xa1
  | .klenSet _ _ => some 0xa1
  | .ksel _ _ _ _ _ => some 0xa2
  | .kselp _ _ _ _ _ => some 0xa3
  | .kjoin _ _ _ _ _ => some 0xa4
  | .kmjoin _ _ _ _ _ => some 0xa5
  | .ksemi _ _ _ _ => some 0xa6
  | .ksemiAnti _ _ _ _ => some 0xa6
  | .kgroup _ _ _ _ => some 0xa7
  | .kagg _ _ _ _ _ => some 0xa8
  | .ksort _ _ _ => some 0xa9
  | .ktopk _ _ _ _ _ => some 0xaa
  | .kgath _ _ _ => some 0xab
  | .kcat _ _ _ _ => some 0xac
  | .kbind _ _ => some 0xc8
  | .kbindAppend _ _ => some 0xc8
  | .kunbind _ => some 0xc9
  | .mattach _ => some 0xb0
  | .mdetach => some 0xb1
  | .mzero => some 0xb2
  | .mma _ _ _ _ _ _ _ => some 0xb3
  | .mmag _ _ => some 0xb4
  | .mmas _ _ _ _ _ _ _ _ _ _ => some 0xb5
  | .mext _ _ _ _ _ _ _ _ => some 0xb6
  | .glaunch _ _ _ => some 0xb8
  | .assay _ => some 0xb9
  | .gend => some 0xba
  | .dcfg _ _ => some 0xc0
  | .dcopy _ => some 0xc1
  | .dcopy2d _ => some 0xc2
  | .dred _ _ _ _ _ _ _ _ _ => some 0xc3
  | .dpref _ _ _ => some 0xc4
  | .dstat _ _ => some 0xc5
  | .dcancel _ => some 0xc6
  | .launch _ _ _ => some 0xd0
  | .yield => some 0xd1
  | .tickw _ => some 0xd2
  | .tqctlExit _ _ _ => some 0xd3
  | .tqctlStat _ _ _ => some 0xd3
  | .tqctlStop _ _ _ => some 0xd3
  | .tqctlStart _ _ _ => some 0xd3
  | .tqctlKill _ _ _ => some 0xd3
  | .tqctlPeriod _ _ _ => some 0xd3
  | .trap _ => some 0xe0
  | .eret => some 0xe1
  | .uiret => some 0xe2
  | .csrr _ _ => some 0xe3
  | .csrw _ _ _ => some 0xe4
  | .csrs _ _ _ => some 0xe5
  | .csrc _ _ _ => some 0xe6
  | .fencei => some 0xe7
  | .ipref _ _ _ => some 0xe8
  | .ipin _ _ _ => some 0xe8
  | .iunpin _ _ _ => some 0xe8
  | .tlbinv _ _ _ _ => some 0xe9
  | .idle => some 0xea
  | .savev _ _ => some 0xeb
  | .restv _ _ => some 0xec
  | .savek _ _ => some 0xed
  | .restk _ _ => some 0xee
  | .controlRegisterWrite _ _ _ => none
  | .keygo _ _ => none
  | .poolcszWrite _ _ => none
  | .pcflush _ => none
  | .pcflushOwner _ _ => none
  | .fqresume _ _ => none
  | .fqabort _ _ => none
  | .plctlGo _ _ _ => none
  | .grantWindowLive _ _ => none
  | .grantWindowFree _ _ => none
  | .hevack _ _ => none
  | .fenceCluster _ _ => none
  | .pdone _ _ => none
  | .reshape _ _ _ => none
  | .boot => none
  | .attest _ _ _ _ => none
  | .idkey => none
  | .grant _ _ => none
  | .withdraw _ => none
  | .queue _ _ => none
  | .mailboxUnknown _ => none
  | .bootWindowAccess _ _ => none
  | .moduleReset => none
  | .hostPortReset => none
  | .hostLinkUp => none
  | .hostSnoop _ => none
  | .flitCrcRetry _ _ => none
  | .linkDown _ _ => none
  | .replay _ _ _ => none
  | .planeLost _ => none
  | .remoteRequest _ => none
  | .remoteResponse _ _ _ _ => none
  | .redrawn _ _ _ => none
  | .returnUndelivered _ _ _ => none
  | .probeRetry _ _ => none
  | .groupUnreachable _ => none
  | .responseDrop _ _ => none
  | .easyallEnd => none
  | .foldStrip _ => none
  | .foldRelease _ _ => none
  | .foldEntryTimeout _ => none
  | .foldStripRetry _ => none
  | .tick => none
  | .victimsStopped => none
  | .preempt _ _ => none
  | .stripStopBound _ => none
  | .reshapeExpire _ => none
  | .resume _ => none
  | .progress _ => none
  | .userInterrupt _ => none
  | .hostEvent _ => none
  | .machineCheck _ => none
  | .evwaitExpire => none
  | .writeBufferDrain _ => none
  | .dataCacheExpire _ _ => none
  | .scrub _ _ => none
  | .thermal _ => none
  | .shutdown => none
  | .poolPortFailure _ => none
  | .draymanSector _ => none
  | .draymanComplete _ => none
  | .dcfgStripFetch _ => none
  | .hintLine _ => none
  | .matrixPass _ => none
  | .streamFill _ _ => none
  | .arbiterBind _ => none
  | .convoyRetire _ => none
  | .replyWrite _ => none
  | .lineFullWake _ => none
  | .barrierFire _ => none
  | .assayerCommit _ => none
  | .frozenRecordRelease _ _ => none
  | .linkUp _ _ => none
  | .hostResponse _ _ => none
  | .poolPortResponse _ => none

/-- The word of an instruction has its opcode in bits 63:56; a step of another agent encodes as the unassigned word 0. -/
def Statement (i : Instr) : Prop :=
  match code i with
  | some c => (encode i).extractLsb' 56 8 = c
  | none => encode i = 0

theorem add (xd : Reg) (xa : Reg) (xb : Reg) : Statement (.add xd xa xb) := encS_opcode ..
theorem sub (xd : Reg) (xa : Reg) (xb : Reg) : Statement (.sub xd xa xb) := encS_opcode ..
theorem mul (xd : Reg) (xa : Reg) (xb : Reg) : Statement (.mul xd xa xb) := encS_opcode ..
theorem mulh (xd : Reg) (xa : Reg) (xb : Reg) : Statement (.mulh xd xa xb) := encS_opcode ..
theorem mulhu (xd : Reg) (xa : Reg) (xb : Reg) : Statement (.mulhu xd xa xb) := encS_opcode ..
theorem div (xd : Reg) (xa : Reg) (xb : Reg) : Statement (.div xd xa xb) := encS_opcode ..
theorem divu (xd : Reg) (xa : Reg) (xb : Reg) : Statement (.divu xd xa xb) := encS_opcode ..
theorem rem (xd : Reg) (xa : Reg) (xb : Reg) : Statement (.rem xd xa xb) := encS_opcode ..
theorem remu (xd : Reg) (xa : Reg) (xb : Reg) : Statement (.remu xd xa xb) := encS_opcode ..
theorem and (xd : Reg) (xa : Reg) (xb : Reg) : Statement (.and xd xa xb) := encS_opcode ..
theorem or (xd : Reg) (xa : Reg) (xb : Reg) : Statement (.or xd xa xb) := encS_opcode ..
theorem xor (xd : Reg) (xa : Reg) (xb : Reg) : Statement (.xor xd xa xb) := encS_opcode ..
theorem shl (xd : Reg) (xa : Reg) (xb : Reg) : Statement (.shl xd xa xb) := encS_opcode ..
theorem shr (xd : Reg) (xa : Reg) (xb : Reg) : Statement (.shr xd xa xb) := encS_opcode ..
theorem sra (xd : Reg) (xa : Reg) (xb : Reg) : Statement (.sra xd xa xb) := encS_opcode ..
theorem slt (xd : Reg) (xa : Reg) (xb : Reg) : Statement (.slt xd xa xb) := encS_opcode ..
theorem sltu (xd : Reg) (xa : Reg) (xb : Reg) : Statement (.sltu xd xa xb) := encS_opcode ..
theorem min (xd : Reg) (xa : Reg) (xb : Reg) : Statement (.min xd xa xb) := encS_opcode ..
theorem max (xd : Reg) (xa : Reg) (xb : Reg) : Statement (.max xd xa xb) := encS_opcode ..
theorem clz (xd : Reg) (xa : Reg) : Statement (.clz xd xa) := encS_opcode ..
theorem popc (xd : Reg) (xa : Reg) : Statement (.popc xd xa) := encS_opcode ..
theorem csel (xd : Reg) (xa : Reg) (xb : Reg) (xc : Reg) : Statement (.csel xd xa xb xc) := encS_opcode ..
theorem addi (xd : Reg) (xa : Reg) (imm : BitVec 32) : Statement (.addi xd xa imm) := encS_opcode ..
theorem andi (xd : Reg) (xa : Reg) (imm : BitVec 32) : Statement (.andi xd xa imm) := encS_opcode ..
theorem ori (xd : Reg) (xa : Reg) (imm : BitVec 32) : Statement (.ori xd xa imm) := encS_opcode ..
theorem xori (xd : Reg) (xa : Reg) (imm : BitVec 32) : Statement (.xori xd xa imm) := encS_opcode ..
theorem shli (xd : Reg) (xa : Reg) (n : BitVec 6) : Statement (.shli xd xa n) := encS_opcode ..
theorem shri (xd : Reg) (xa : Reg) (n : BitVec 6) : Statement (.shri xd xa n) := encS_opcode ..
theorem srai (xd : Reg) (xa : Reg) (n : BitVec 6) : Statement (.srai xd xa n) := encS_opcode ..
theorem limm (xd : Reg) (imm : BitVec 32) : Statement (.limm xd imm) := encS_opcode ..
theorem addpc (xd : Reg) (imm : BitVec 32) : Statement (.addpc xd imm) := encS_opcode ..
theorem fadd (t : FTy) (xd : Reg) (xa : Reg) (xb : Reg) : Statement (.fadd t xd xa xb) := encS_opcode ..
theorem fsub (t : FTy) (xd : Reg) (xa : Reg) (xb : Reg) : Statement (.fsub t xd xa xb) := encS_opcode ..
theorem fmul (t : FTy) (xd : Reg) (xa : Reg) (xb : Reg) : Statement (.fmul t xd xa xb) := encS_opcode ..
theorem fma (t : FTy) (xd : Reg) (xa : Reg) (xb : Reg) (xc : Reg) : Statement (.fma t xd xa xb xc) := encS_opcode ..
theorem fdiv (t : FTy) (xd : Reg) (xa : Reg) (xb : Reg) : Statement (.fdiv t xd xa xb) := encS_opcode ..
theorem fsqrt (t : FTy) (xd : Reg) (xa : Reg) : Statement (.fsqrt t xd xa) := encS_opcode ..
theorem fmin (t : FTy) (xd : Reg) (xa : Reg) (xb : Reg) : Statement (.fmin t xd xa xb) := encS_opcode ..
theorem fmax (t : FTy) (xd : Reg) (xa : Reg) (xb : Reg) : Statement (.fmax t xd xa xb) := encS_opcode ..
theorem fcmp (t : FTy) (c : Cond) (xd : Reg) (xa : Reg) (xb : Reg) : Statement (.fcmp t c xd xa xb) := encS_opcode ..
theorem fcvt (dst : CvtTy) (src : CvtTy) (xd : Reg) (xa : Reg) : Statement (.fcvt dst src xd xa) := encS_opcode ..
theorem br (off : BitVec 32) : Statement (.br off) := encS_opcode ..
theorem bcmp (c : Cond) (xa : Reg) (xb : Reg) (off : BitVec 32) : Statement (.bcmp c xa xb off) := encB_opcode ..
theorem call (xd : Reg) (off : BitVec 32) : Statement (.call xd off) := encS_opcode ..
theorem ret (xa : Reg) : Statement (.ret xa) := encS_opcode ..
theorem jmp (xa : Reg) (off : BitVec 32) : Statement (.jmp xa off) := encS_opcode ..
theorem ld (size : MemSize) (sgn : Bool) (xd : Reg) (xa : Reg) (off : BitVec 32) : Statement (.ld size sgn xd xa off) := encS_opcode ..
theorem ldIndexed (size : MemSize) (sgn : Bool) (xd : Reg) (xa : Reg) (xb : Reg) : Statement (.ldIndexed size sgn xd xa xb) := encS_opcode ..
theorem st (size : MemSize) (xd : Reg) (xa : Reg) (off : BitVec 32) : Statement (.st size xd xa off) := encS_opcode ..
theorem stIndexed (size : MemSize) (xd : Reg) (xa : Reg) (xb : Reg) : Statement (.stIndexed size xd xa xb) := encS_opcode ..
theorem amo (op : AmoOp) (size : AmoSize) (scope : Scope) (order : Order) (xd : Reg) (xa : Reg) (xb : Reg) : Statement (.amo op size scope order xd xa xb) := encS_opcode ..
theorem cas (size : AmoSize) (scope : Scope) (order : Order) (xd : Reg) (xa : Reg) (xb : Reg) : Statement (.cas size scope order xd xa xb) := encS_opcode ..
theorem setvl (t : ElemTy) (xd : Reg) (src : LenSrc) : Statement (.setvl t xd src) := encV_opcode ..
theorem setvt (t : ElemTy) : Statement (.setvt t) := encV_opcode ..
theorem vfold (vd : Reg) (va : Reg) (f : BitVec 2) : Statement (.vfold vd va f) := encV_opcode ..
theorem vadd (k : VCtl) (u : Bool) (sat : Bool) (vd : Reg) (va : Reg) (vb : Reg) : Statement (.vadd k u sat vd va vb) := encV_opcode ..
theorem vaddX (k : VCtl) (u : Bool) (sat : Bool) (vd : Reg) (va : Reg) (xb : Reg) : Statement (.vaddX k u sat vd va xb) := encV_opcode ..
theorem vaddI (k : VCtl) (u : Bool) (sat : Bool) (vd : Reg) (va : Reg) (imm : BitVec 16) : Statement (.vaddI k u sat vd va imm) := encV_opcode ..
theorem vsub (k : VCtl) (u : Bool) (sat : Bool) (vd : Reg) (va : Reg) (vb : Reg) : Statement (.vsub k u sat vd va vb) := encV_opcode ..
theorem vsubX (k : VCtl) (u : Bool) (sat : Bool) (vd : Reg) (va : Reg) (xb : Reg) : Statement (.vsubX k u sat vd va xb) := encV_opcode ..
theorem vmul (k : VCtl) (u : Bool) (h : Bool) (vd : Reg) (va : Reg) (vb : Reg) : Statement (.vmul k u h vd va vb) := encV_opcode ..
theorem vmulX (k : VCtl) (u : Bool) (h : Bool) (vd : Reg) (va : Reg) (xb : Reg) : Statement (.vmulX k u h vd va xb) := encV_opcode ..
theorem vfma (k : VCtl) (vd : Reg) (va : Reg) (vb : Reg) (vc : Reg) : Statement (.vfma k vd va vb vc) := encV_opcode ..
theorem vfmaX (k : VCtl) (vd : Reg) (va : Reg) (xb : Reg) (vc : Reg) : Statement (.vfmaX k vd va xb vc) := encV_opcode ..
theorem vfms (k : VCtl) (vd : Reg) (va : Reg) (vb : Reg) (vc : Reg) : Statement (.vfms k vd va vb vc) := encV_opcode ..
theorem vfmsX (k : VCtl) (vd : Reg) (va : Reg) (xb : Reg) (vc : Reg) : Statement (.vfmsX k vd va xb vc) := encV_opcode ..
theorem vdiv (k : VCtl) (u : Bool) (vd : Reg) (va : Reg) (vb : Reg) : Statement (.vdiv k u vd va vb) := encV_opcode ..
theorem vsqrt (k : VCtl) (vd : Reg) (va : Reg) : Statement (.vsqrt k vd va) := encV_opcode ..
theorem vrcp (k : VCtl) (vd : Reg) (va : Reg) : Statement (.vrcp k vd va) := encV_opcode ..
theorem vrsq (k : VCtl) (vd : Reg) (va : Reg) : Statement (.vrsq k vd va) := encV_opcode ..
theorem vexp2 (k : VCtl) (vd : Reg) (va : Reg) : Statement (.vexp2 k vd va) := encV_opcode ..
theorem vlog2 (k : VCtl) (vd : Reg) (va : Reg) : Statement (.vlog2 k vd va) := encV_opcode ..
theorem vmin (k : VCtl) (u : Bool) (vd : Reg) (va : Reg) (vb : Reg) : Statement (.vmin k u vd va vb) := encV_opcode ..
theorem vminX (k : VCtl) (u : Bool) (vd : Reg) (va : Reg) (xb : Reg) : Statement (.vminX k u vd va xb) := encV_opcode ..
theorem vmax (k : VCtl) (u : Bool) (vd : Reg) (va : Reg) (vb : Reg) : Statement (.vmax k u vd va vb) := encV_opcode ..
theorem vmaxX (k : VCtl) (u : Bool) (vd : Reg) (va : Reg) (xb : Reg) : Statement (.vmaxX k u vd va xb) := encV_opcode ..
theorem vabs (k : VCtl) (vd : Reg) (va : Reg) : Statement (.vabs k vd va) := encV_opcode ..
theorem vneg (k : VCtl) (vd : Reg) (va : Reg) : Statement (.vneg k vd va) := encV_opcode ..
theorem vand (k : VCtl) (vd : Reg) (va : Reg) (vb : Reg) : Statement (.vand k vd va vb) := encV_opcode ..
theorem vandX (k : VCtl) (vd : Reg) (va : Reg) (xb : Reg) : Statement (.vandX k vd va xb) := encV_opcode ..
theorem vandI (k : VCtl) (vd : Reg) (va : Reg) (imm : BitVec 16) : Statement (.vandI k vd va imm) := encV_opcode ..
theorem vor (k : VCtl) (vd : Reg) (va : Reg) (vb : Reg) : Statement (.vor k vd va vb) := encV_opcode ..
theorem vorX (k : VCtl) (vd : Reg) (va : Reg) (xb : Reg) : Statement (.vorX k vd va xb) := encV_opcode ..
theorem vorI (k : VCtl) (vd : Reg) (va : Reg) (imm : BitVec 16) : Statement (.vorI k vd va imm) := encV_opcode ..
theorem vxor (k : VCtl) (vd : Reg) (va : Reg) (vb : Reg) : Statement (.vxor k vd va vb) := encV_opcode ..
theorem vxorX (k : VCtl) (vd : Reg) (va : Reg) (xb : Reg) : Statement (.vxorX k vd va xb) := encV_opcode ..
theorem vxorI (k : VCtl) (vd : Reg) (va : Reg) (imm : BitVec 16) : Statement (.vxorI k vd va imm) := encV_opcode ..
theorem vshl (k : VCtl) (vd : Reg) (va : Reg) (vb : Reg) : Statement (.vshl k vd va vb) := encV_opcode ..
theorem vshlX (k : VCtl) (vd : Reg) (va : Reg) (xb : Reg) : Statement (.vshlX k vd va xb) := encV_opcode ..
theorem vshlI (k : VCtl) (vd : Reg) (va : Reg) (n : BitVec 6) : Statement (.vshlI k vd va n) := encV_opcode ..
theorem vshr (k : VCtl) (vd : Reg) (va : Reg) (vb : Reg) : Statement (.vshr k vd va vb) := encV_opcode ..
theorem vshrX (k : VCtl) (vd : Reg) (va : Reg) (xb : Reg) : Statement (.vshrX k vd va xb) := encV_opcode ..
theorem vshrI (k : VCtl) (vd : Reg) (va : Reg) (n : BitVec 6) : Statement (.vshrI k vd va n) := encV_opcode ..
theorem vsra (k : VCtl) (vd : Reg) (va : Reg) (vb : Reg) : Statement (.vsra k vd va vb) := encV_opcode ..
theorem vsraX (k : VCtl) (vd : Reg) (va : Reg) (xb : Reg) : Statement (.vsraX k vd va xb) := encV_opcode ..
theorem vsraI (k : VCtl) (vd : Reg) (va : Reg) (n : BitVec 6) : Statement (.vsraI k vd va n) := encV_opcode ..
theorem vcvt (k : VCtl) (t : ElemTy) (vd : Reg) (va : Reg) : Statement (.vcvt k t vd va) := encV_opcode ..
theorem vcmp (k : VCtl) (c : Cond) (pd : PReg) (pe : PReg) (va : Reg) (vb : Reg) : Statement (.vcmp k c pd pe va vb) := encV_opcode ..
theorem vsel (k : VCtl) (vd : Reg) (va : Reg) (vb : Reg) (pe : PReg) : Statement (.vsel k vd va vb pe) := encV_opcode ..
theorem vmov (k : VCtl) (vd : Reg) (va : Reg) : Statement (.vmov k vd va) := encV_opcode ..
theorem vmvxToScalar (k : GCtl) (xd : Reg) (va : Reg) (i : BitVec 14) : Statement (.vmvxToScalar k xd va i) := encV_opcode ..
theorem vmvxToVector (k : VCtl) (vd : Reg) (xa : Reg) (i : BitVec 14) : Statement (.vmvxToVector k vd xa i) := encV_opcode ..
theorem vred (k : GCtl) (op : RedOp) (tree : Bool) (xd : Reg) (va : Reg) : Statement (.vred k op tree xd va) := encV_opcode ..
theorem vslide (k : VCtl) (down : Bool) (vd : Reg) (va : Reg) (amt : SlideAmt) : Statement (.vslide k down vd va amt) := encV_opcode ..
theorem vperm (k : VCtl) (vd : Reg) (va : Reg) (vb : Reg) : Statement (.vperm k vd va vb) := encV_opcode ..
theorem viota (k : VCtl) (vd : Reg) : Statement (.viota k vd) := encV_opcode ..
theorem pand (k : VCtl) (pd : PReg) (pe : PReg) (pf : PReg) : Statement (.pand k pd pe pf) := encV_opcode ..
theorem por (k : VCtl) (pd : PReg) (pe : PReg) (pf : PReg) : Statement (.por k pd pe pf) := encV_opcode ..
theorem pxor (k : VCtl) (pd : PReg) (pe : PReg) (pf : PReg) : Statement (.pxor k pd pe pf) := encV_opcode ..
theorem pandn (k : VCtl) (pd : PReg) (pe : PReg) (pf : PReg) : Statement (.pandn k pd pe pf) := encV_opcode ..
theorem pset (k : VCtl) (pd : PReg) (n : BitVec 16) : Statement (.pset k pd n) := encV_opcode ..
theorem pcnt (k : GCtl) (xd : Reg) (pe : PReg) : Statement (.pcnt k xd pe) := encV_opcode ..
theorem pfirst (k : GCtl) (xd : Reg) (pe : PReg) : Statement (.pfirst k xd pe) := encV_opcode ..
theorem pmov (k : VCtl) (pd : PReg) (pe : PReg) : Statement (.pmov k pd pe) := encV_opcode ..
theorem vld (k : VCtl) (m : MCtl) (vd : Reg) (xa : Reg) (off : BitVec 21) : Statement (.vld k m vd xa off) := encM_opcode ..
theorem vldStrided (k : VCtl) (m : MCtl) (vd : Reg) (xa : Reg) (xb : Reg) (off : BitVec 21) : Statement (.vldStrided k m vd xa xb off) := encM_opcode ..
theorem vst (k : GCtl) (m : MCtl) (vs : Reg) (xa : Reg) (off : BitVec 21) : Statement (.vst k m vs xa off) := encM_opcode ..
theorem vstStrided (k : GCtl) (m : MCtl) (vs : Reg) (xa : Reg) (xb : Reg) (off : BitVec 21) : Statement (.vstStrided k m vs xa xb off) := encM_opcode ..
theorem vldff (k : VCtl) (m : MCtl) (vd : Reg) (xa : Reg) (off : BitVec 21) : Statement (.vldff k m vd xa off) := encM_opcode ..
theorem vgath (k : VCtl) (m : MCtl) (vd : Reg) (xa : Reg) (vi : Reg) (off : BitVec 21) : Statement (.vgath k m vd xa vi off) := encM_opcode ..
theorem vscat (k : GCtl) (m : MCtl) (vs : Reg) (xa : Reg) (vi : Reg) (off : BitVec 21) : Statement (.vscat k m vs xa vi off) := encM_opcode ..
theorem vscadd (k : GCtl) (m : MCtl) (vs : Reg) (xa : Reg) (vi : Reg) (off : BitVec 21) : Statement (.vscadd k m vs xa vi off) := encM_opcode ..
theorem vldb (k : VCtl) (m : MCtl) (vd : Reg) (xa : Reg) (vsc : Reg) (off : BitVec 21) : Statement (.vldb k m vd xa vsc off) := encM_opcode ..
theorem vstb (k : GCtl) (m : MCtl) (vs : Reg) (xa : Reg) (vsc : Reg) (off : BitVec 21) : Statement (.vstb k m vs xa vsc off) := encM_opcode ..
theorem vldz (k : VCtl) (m : MCtl) (vd : Reg) (xd : Reg) (xa : Reg) (xb : Reg) (bank : Bool) : Statement (.vldz k m vd xd xa xb bank) := encM_opcode ..
theorem ctab (bank : Bool) (xa : Reg) (off : BitVec 32) : Statement (.ctab bank xa off) := encS_opcode ..
theorem vcompress (k : VCtl) (vd : Reg) (va : Reg) (pe : PReg) : Statement (.vcompress k vd va pe) := encV_opcode ..
theorem vexpand (k : VCtl) (vd : Reg) (va : Reg) (pe : PReg) : Statement (.vexpand k vd va pe) := encV_opcode ..
theorem vpcnt (k : VCtl) (vd : Reg) (pe : PReg) : Statement (.vpcnt k vd pe) := encV_opcode ..
theorem vconf (k : VCtl) (vd : Reg) (va : Reg) : Statement (.vconf k vd va) := encV_opcode ..
theorem vscan (k : VCtl) (op : ScanOp) (excl : Bool) (vd : Reg) (va : Reg) (pe : PReg) : Statement (.vscan k op excl vd va pe) := encV_opcode ..
theorem vlut (k : VCtl) (vd : Reg) (va : Reg) (vb : Reg) : Statement (.vlut k vd va vb) := encV_opcode ..
theorem vbfx (k : VCtl) (vd : Reg) (va : Reg) (s : BitVec 6) (w1 : BitVec 6) : Statement (.vbfx k vd va s w1) := encV_opcode ..
theorem vexit (k : VCtl) (pd : PReg) (pe : PReg) : Statement (.vexit k pd pe) := encV_opcode ..
theorem fence (scope : Scope) (order : Order) : Statement (.fence scope order) := encS_opcode ..
theorem lsync : Statement (.lsync) := encS_opcode ..
theorem pfence : Statement (.pfence) := encS_opcode ..
theorem bar (gang : Bool) : Statement (.bar gang) := encS_opcode ..
theorem barw (gang : Bool) : Statement (.barw gang) := encS_opcode ..
theorem waitd (n : BitVec 3) (v : BitVec 16) : Statement (.waitd n v) := encS_opcode ..
theorem claim (scope : Scope) (xd : Reg) (xa : Reg) (xb : Reg) : Statement (.claim scope xd xa xb) := encS_opcode ..
theorem signal (xa : Reg) (xb : Reg) : Statement (.signal xa xb) := encS_opcode ..
theorem kdef (kd : PReg) (xa : Reg) (off : BitVec 26) : Statement (.kdef kd xa off) := encK_opcode ..
theorem klen (xd : Reg) (ka : PReg) : Statement (.klen xd ka) := encK_opcode ..
theorem klenSet (kd : PReg) (xa : Reg) : Statement (.klenSet kd xa) := encK_opcode ..
theorem ksel (c : Cond) (kd : PReg) (xd : Reg) (ka : PReg) (xa : Reg) : Statement (.ksel c kd xd ka xa) := encK_opcode ..
theorem kselp (c : Cond) (kd : PReg) (xd : Reg) (ka : PReg) (kb : PReg) : Statement (.kselp c kd xd ka kb) := encK_opcode ..
theorem kjoin (kd : PReg) (kc : PReg) (xd : Reg) (ka : PReg) (kb : PReg) : Statement (.kjoin kd kc xd ka kb) := encK_opcode ..
theorem kmjoin (kd : PReg) (kc : PReg) (xd : Reg) (ka : PReg) (kb : PReg) : Statement (.kmjoin kd kc xd ka kb) := encK_opcode ..
theorem ksemi (kd : PReg) (xd : Reg) (ka : PReg) (kb : PReg) : Statement (.ksemi kd xd ka kb) := encK_opcode ..
theorem ksemiAnti (kd : PReg) (xd : Reg) (ka : PReg) (kb : PReg) : Statement (.ksemiAnti kd xd ka kb) := encK_opcode ..
theorem kgroup (kd : PReg) (kc : PReg) (xd : Reg) (ka : PReg) : Statement (.kgroup kd kc xd ka) := encK_opcode ..
theorem kagg (op : AggOp) (kd : PReg) (xd : Reg) (ka : PReg) (kb : PReg) : Statement (.kagg op kd xd ka kb) := encK_opcode ..
theorem ksort (kd : PReg) (xd : Reg) (ka : PReg) : Statement (.ksort kd xd ka) := encK_opcode ..
theorem ktopk (least : Bool) (kd : PReg) (xd : Reg) (ka : PReg) (xa : Reg) : Statement (.ktopk least kd xd ka xa) := encK_opcode ..
theorem kgath (kd : PReg) (xd : Reg) (ka : PReg) : Statement (.kgath kd xd ka) := encK_opcode ..
theorem kcat (kd : PReg) (xd : Reg) (ka : PReg) (kb : PReg) : Statement (.kcat kd xd ka kb) := encK_opcode ..
theorem kbind (n : BitVec 3) (ka : PReg) : Statement (.kbind n ka) := encK_opcode ..
theorem kbindAppend (n : BitVec 3) (ka : PReg) : Statement (.kbindAppend n ka) := encK_opcode ..
theorem kunbind (n : BitVec 3) : Statement (.kunbind n) := encK_opcode ..
theorem mattach (xa : Reg) : Statement (.mattach xa) := encX_opcode ..
theorem mdetach : Statement (.mdetach) := encX_opcode ..
theorem mzero : Statement (.mzero) := encX_opcode ..
theorem mma (fa : Fmt) (fb : Fmt) (xa : Reg) (xb : Reg) (row : Byte) (n1 : Byte) (kk : BitVec 14) : Statement (.mma fa fb xa xb row n1 kk) := encX_opcode ..
theorem mmag (xa : Reg) (xb : Reg) : Statement (.mmag xa xb) := encX_opcode ..
theorem mmas (fa : Fmt) (fb : Fmt) (pat : Pattern) (za : Bool) (xa : Reg) (xb : Reg) (xc : Reg) (row : Byte) (n1 : Byte) (kk : BitVec 14) : Statement (.mmas fa fb pat za xa xb xc row n1 kk) := encX_opcode ..
theorem mext (k : VCtl) (b : Bool) (e : Bool) (m : Bool) (vd : Reg) (xa : Reg) (row : Byte) (col : Byte) : Statement (.mext k b e m vd xa row col) := encV_opcode ..
theorem glaunch (xa : Reg) (xb : Reg) (xc : Reg) : Statement (.glaunch xa xb xc) := encX_opcode ..
theorem assay (xa : Reg) : Statement (.assay xa) := encX_opcode ..
theorem gend : Statement (.gend) := encX_opcode ..
theorem dcfg (xa : Reg) (xb : Reg) : Statement (.dcfg xa xb) := encD_opcode ..
theorem dcopy (a : CopyArgs) : Statement (.dcopy a) := encD_opcode ..
theorem dcopy2d (a : CopyArgs) : Statement (.dcopy2d a) := encD_opcode ..
theorem dred (op : FoldOp) (ordered : Bool) (xd : Reg) (xa : Reg) (xb : Reg) (xc : Reg) (d : BitVec 3) (u : Bool) (off : BitVec 21) : Statement (.dred op ordered xd xa xb xc d u off) := encD_opcode ..
theorem dpref (xa : Reg) (xb : Reg) (xc : Reg) : Statement (.dpref xa xb xc) := encD_opcode ..
theorem dstat (sel : DstatSel) (xd : Reg) : Statement (.dstat sel xd) := encD_opcode ..
theorem dcancel (xa : Reg) : Statement (.dcancel xa) := encD_opcode ..
theorem launch (xd : Reg) (xa : Reg) (xb : Reg) : Statement (.launch xd xa xb) := encS_opcode ..
theorem yield : Statement (.yield) := encS_opcode ..
theorem tickw (xd : Reg) : Statement (.tickw xd) := encS_opcode ..
theorem tqctlExit (xd : Reg) (xa : Reg) (xb : Reg) : Statement (.tqctlExit xd xa xb) := encS_opcode ..
theorem tqctlStat (xd : Reg) (xa : Reg) (xb : Reg) : Statement (.tqctlStat xd xa xb) := encS_opcode ..
theorem tqctlStop (xd : Reg) (xa : Reg) (xb : Reg) : Statement (.tqctlStop xd xa xb) := encS_opcode ..
theorem tqctlStart (xd : Reg) (xa : Reg) (xb : Reg) : Statement (.tqctlStart xd xa xb) := encS_opcode ..
theorem tqctlKill (xd : Reg) (xa : Reg) (xb : Reg) : Statement (.tqctlKill xd xa xb) := encS_opcode ..
theorem tqctlPeriod (xd : Reg) (xa : Reg) (xb : Reg) : Statement (.tqctlPeriod xd xa xb) := encS_opcode ..
theorem trap (n : BitVec 16) : Statement (.trap n) := encS_opcode ..
theorem eret : Statement (.eret) := encS_opcode ..
theorem uiret : Statement (.uiret) := encS_opcode ..
theorem csrr (xd : Reg) (csr : BitVec 12) : Statement (.csrr xd csr) := encS_opcode ..
theorem csrw (xd : Reg) (xa : Reg) (csr : BitVec 12) : Statement (.csrw xd xa csr) := encS_opcode ..
theorem csrs (xd : Reg) (xa : Reg) (csr : BitVec 12) : Statement (.csrs xd xa csr) := encS_opcode ..
theorem csrc (xd : Reg) (xa : Reg) (csr : BitVec 12) : Statement (.csrc xd xa csr) := encS_opcode ..
theorem fencei : Statement (.fencei) := encS_opcode ..
theorem ipref (xa : Reg) (xb : Reg) (off : BitVec 32) : Statement (.ipref xa xb off) := encS_opcode ..
theorem ipin (xa : Reg) (xb : Reg) (off : BitVec 32) : Statement (.ipin xa xb off) := encS_opcode ..
theorem iunpin (xa : Reg) (xb : Reg) (off : BitVec 32) : Statement (.iunpin xa xb off) := encS_opcode ..
theorem tlbinv (scope : Scope) (f : InvKind) (xa : Reg) (xb : Reg) : Statement (.tlbinv scope f xa xb) := encS_opcode ..
theorem idle : Statement (.idle) := encS_opcode ..
theorem savev (xa : Reg) (mask : BitVec 32) : Statement (.savev xa mask) := encS_opcode ..
theorem restv (xa : Reg) (mask : BitVec 32) : Statement (.restv xa mask) := encS_opcode ..
theorem savek (xa : Reg) (mask : BitVec 16) : Statement (.savek xa mask) := encS_opcode ..
theorem restk (xa : Reg) (mask : BitVec 16) : Statement (.restk xa mask) := encS_opcode ..
theorem controlRegisterWrite (uid : Uid) (off : BitVec 50) (v : Word) : Statement (.controlRegisterWrite uid off v) := rfl
theorem keygo (uid : Uid) (v : Word) : Statement (.keygo uid v) := rfl
theorem poolcszWrite (uid : Uid) (v : Word) : Statement (.poolcszWrite uid v) := rfl
theorem pcflush (uid : Uid) : Statement (.pcflush uid) := rfl
theorem pcflushOwner (uid : Uid) (owner : Owner) : Statement (.pcflushOwner uid owner) := rfl
theorem fqresume (uid : Uid) (ident : Word) : Statement (.fqresume uid ident) := rfl
theorem fqabort (uid : Uid) (ident : Word) : Statement (.fqabort uid ident) := rfl
theorem plctlGo (uid : Uid) (withdraw : BitVec 4) (entering : BitVec 4) : Statement (.plctlGo uid withdraw entering) := rfl
theorem grantWindowLive (uid : Uid) (w : BitVec 6) : Statement (.grantWindowLive uid w) := rfl
theorem grantWindowFree (uid : Uid) (w : BitVec 6) : Statement (.grantWindowFree uid w) := rfl
theorem hevack (uid : Uid) (v : Word) : Statement (.hevack uid v) := rfl
theorem fenceCluster (uid : Uid) (cid : Cid) : Statement (.fenceCluster uid cid) := rfl
theorem pdone (uid : Uid) (window : Uid) : Statement (.pdone uid window) := rfl
theorem reshape (uid : Uid) (window : Uid) (v : Word) : Statement (.reshape uid window v) := rfl
theorem boot : Statement (.boot) := rfl
theorem attest (a0 : Word) (a1 : Word) (a2 : Word) (a3 : Word) : Statement (.attest a0 a1 a2 a3) := rfl
theorem idkey : Statement (.idkey) := rfl
theorem grant (base : Word) (len : Word) : Statement (.grant base len) := rfl
theorem withdraw (base : Word) : Statement (.withdraw base) := rfl
theorem queue (base : Word) (len : Word) : Statement (.queue base len) := rfl
theorem mailboxUnknown (code : Byte) : Statement (.mailboxUnknown code) := rfl
theorem bootWindowAccess (off : BitVec 28) (data : Option (List Byte)) : Statement (.bootWindowAccess off data) := rfl
theorem moduleReset : Statement (.moduleReset) := rfl
theorem hostPortReset : Statement (.hostPortReset) := rfl
theorem hostLinkUp : Statement (.hostLinkUp) := rfl
theorem hostSnoop (line : BitVec 44) : Statement (.hostSnoop line) := rfl
theorem flitCrcRetry (plane : BitVec 2) (link : BitVec 3) : Statement (.flitCrcRetry plane link) := rfl
theorem linkDown (plane : BitVec 2) (link : BitVec 3) : Statement (.linkDown plane link) := rfl
theorem replay (req : Request) (fromPlane : BitVec 2) (fromLink : BitVec 3) : Statement (.replay req fromPlane fromLink) := rfl
theorem planeLost (plane : BitVec 2) : Statement (.planeLost plane) := rfl
theorem remoteRequest (req : Request) : Statement (.remoteRequest req) := rfl
theorem remoteResponse (source : ModNum) (tag : Nat) (reply : RemoteReply) (view : PlaneView) : Statement (.remoteResponse source tag reply view) := rfl
theorem redrawn (source : ModNum) (tag : Nat) (view : PlaneView) : Statement (.redrawn source tag view) := rfl
theorem returnUndelivered (tag : Nat) (doubtful : Bool) (failure : BitVec 4) : Statement (.returnUndelivered tag doubtful failure) := rfl
theorem probeRetry (target : ModNum) (answer : Option PlaneView) : Statement (.probeRetry target answer) := rfl
theorem groupUnreachable (tag : Nat) : Statement (.groupUnreachable tag) := rfl
theorem responseDrop (dest : ModNum) (tag : Nat) : Statement (.responseDrop dest tag) := rfl
theorem easyallEnd : Statement (.easyallEnd) := rfl
theorem foldStrip (strip : Strip) : Statement (.foldStrip strip) := rfl
theorem foldRelease (source : ModNum) (ident : Word) : Statement (.foldRelease source ident) := rfl
theorem foldEntryTimeout (entry : BitVec 10) : Statement (.foldEntryTimeout entry) := rfl
theorem foldStripRetry (tag : Nat) : Statement (.foldStripRetry tag) := rfl
theorem tick : Statement (.tick) := rfl
theorem victimsStopped : Statement (.victimsStopped) := rfl
theorem preempt (uid : Uid) (reason : BitVec 2) : Statement (.preempt uid reason) := rfl
theorem stripStopBound (uid : Uid) : Statement (.stripStopBound uid) := rfl
theorem reshapeExpire (uid : Uid) : Statement (.reshapeExpire uid) := rfl
theorem resume (queue : BitVec 6) : Statement (.resume queue) := rfl
theorem progress (uid : Uid) : Statement (.progress uid) := rfl
theorem userInterrupt (uid : Uid) : Statement (.userInterrupt uid) := rfl
theorem hostEvent (uid : Uid) : Statement (.hostEvent uid) := rfl
theorem machineCheck (uid : Uid) : Statement (.machineCheck uid) := rfl
theorem evwaitExpire : Statement (.evwaitExpire) := rfl
theorem writeBufferDrain (uid : Uid) : Statement (.writeBufferDrain uid) := rfl
theorem dataCacheExpire (helm : BitVec 11) (line : BitVec 45) : Statement (.dataCacheExpire helm line) := rfl
theorem scrub (unit : MarkUnit) (uncorrectable : Bool) : Statement (.scrub unit uncorrectable) := rfl
theorem thermal (die : BitVec 6) : Statement (.thermal die) := rfl
theorem shutdown : Statement (.shutdown) := rfl
theorem poolPortFailure (port : BitVec 3) : Statement (.poolPortFailure port) := rfl
theorem draymanSector (cid : Cid) : Statement (.draymanSector cid) := rfl
theorem draymanComplete (cid : Cid) : Statement (.draymanComplete cid) := rfl
theorem dcfgStripFetch (uid : Uid) : Statement (.dcfgStripFetch uid) := rfl
theorem hintLine (cid : Cid) : Statement (.hintLine cid) := rfl
theorem matrixPass (cid : Cid) : Statement (.matrixPass cid) := rfl
theorem streamFill (uid : Uid) (n : BitVec 3) : Statement (.streamFill uid n) := rfl
theorem arbiterBind (cid : Cid) : Statement (.arbiterBind cid) := rfl
theorem convoyRetire (uid : Uid) : Statement (.convoyRetire uid) := rfl
theorem replyWrite (uid : Uid) : Statement (.replyWrite uid) := rfl
theorem lineFullWake (uid : Uid) : Statement (.lineFullWake uid) := rfl
theorem barrierFire (uid : Uid) : Statement (.barrierFire uid) := rfl
theorem assayerCommit (cid : Cid) : Statement (.assayerCommit cid) := rfl
theorem frozenRecordRelease (plane : BitVec 2) (link : BitVec 3) : Statement (.frozenRecordRelease plane link) := rfl
theorem linkUp (plane : BitVec 2) (link : BitVec 3) : Statement (.linkUp plane link) := rfl
theorem hostResponse (id : Nat) (data : Option (List Byte)) : Statement (.hostResponse id data) := rfl
theorem poolPortResponse (id : Nat) : Statement (.poolPortResponse id) := rfl

end Laws.Opcode

end Sys2Proof
end

