-- ==== Sys2Proof/Laws/Records.lean ====
section
/-!
SUPPORT. What the operations on the module's own tables, logs and fault queues change: physical memory, the logs, and the
events that a record raises, and nothing else (R46, R92, R98, R454).
-/

namespace Sys2Proof.Machine

theorem OnlyRecords.refl (s : State) : OnlyRecords s s := rfl

theorem OnlyRecords.trans {s t x : State} (h : OnlyRecords s t) (k : OnlyRecords t x) : OnlyRecords s x := by
  unfold OnlyRecords at *
  rw [← h]
  conv => rhs; rw [← k]

theorem OnlyRecords.strands {s t : State} (h : OnlyRecords s t) : t.strands = s.strands := by rw [← h]
theorem OnlyRecords.strand {s t : State} (h : OnlyRecords s t) (u : Nat) : t.strand u = s.strand u := by rw [← h]; rfl
theorem OnlyRecords.cur {s t : State} (h : OnlyRecords s t) : t.cur = s.cur := by rw [← h]
theorem OnlyRecords.lmem {s t : State} (h : OnlyRecords s t) : t.lmem = s.lmem := by rw [← h]
theorem OnlyRecords.clusters {s t : State} (h : OnlyRecords s t) : t.clusters = s.clusters := by rw [← h]
theorem OnlyRecords.helms {s t : State} (h : OnlyRecords s t) : t.helms = s.helms := by rw [← h]

theorem OnlyRecords.foldl {α : Type} {f : State → α → State} (hf : ∀ s a, OnlyRecords s (f s a)) (l : List α) :
    ∀ s, OnlyRecords s (l.foldl f s) := by
  induction l with
  | nil => exact .refl
  | cons a l ih => exact fun s => (hf s a).trans (ih _)

theorem OnlyRecords.ite {s t x : State} {p : Prop} [Decidable p] (h : OnlyRecords s t) (k : OnlyRecords s x) :
    OnlyRecords s (if p then t else x) := by split <;> assumption

theorem adoptUnit_records (s : State) (e : Enc) (u : Nat) : OnlyRecords s (s.adoptUnit e u) := by
  unfold State.adoptUnit
  dsimp only
  split <;> split <;> rfl

theorem physWrite_records (s : State) (e : Enc) (a : Nat) (w : List (Option Byte)) : OnlyRecords s (s.physWrite e a w) :=
  (OnlyRecords.foldl (fun s u => adoptUnit_records s e u) (unitsOf 64 a w.length) s).trans rfl

theorem deviceStore_records (s : State) (a n v : Nat) : OnlyRecords s (s.deviceStore a n v) :=
  .ite (physWrite_records _ _ _ _) (.refl s)

theorem appendLog_records (s : State) (l : Log) (r : Nat) : OnlyRecords s (s.appendLog l r).1 := by
  unfold State.appendLog
  split
  · exact deviceStore_records _ _ _ _
  · exact .refl s

theorem logViolation_records (s : State) (ag : Agent) (m : ModNum) (a : Word) (p : Bool) (acc : Acc) (k : Nat) :
    OnlyRecords s (s.logViolation ag m a p acc k) :=
  (appendLog_records s s.vlog _).trans rfl

theorem deviceLost_records (s : State) (a n : Nat) (acc : Acc) : OnlyRecords s (s.deviceLost a n acc) :=
  .ite (.refl s) (logViolation_records _ _ _ _ _ _ _)

theorem deviceWrite_records (s : State) (a n v : Nat) : OnlyRecords s (s.deviceWrite a n v) :=
  (deviceStore_records s a n v).trans (deviceLost_records _ _ _ _)

theorem logChecked_records (s : State) (l : Log) : OnlyRecords s (s.logChecked l) :=
  .ite (deviceLost_records _ _ _ _) (.refl s)

theorem logError_records (s : State) (a k l u g : Nat) (o : Owner) (e : Nat) (i : Word) :
    OnlyRecords s (s.logError a k l u g o e i).1 := by
  unfold State.logError
  generalize hr : record _ = r
  have h : OnlyRecords s ({ (s.appendLog s.elog r).1 with elog := (s.appendLog s.elog r).2 }.logChecked s.elog) :=
    OnlyRecords.trans (t := { (s.appendLog s.elog r).1 with elog := (s.appendLog s.elog r).2 })
      ((appendLog_records s s.elog r).trans rfl) (logChecked_records _ _)
  exact h.trans (.ite rfl (.refl _))

theorem deviceLog_records (s : State) (a n : Nat) : OnlyRecords s (s.deviceLog a n) :=
  .ite (logError_records _ _ _ _ _ _ _ _ _) (deviceLost_records _ _ _ _)

theorem fqAppend_records (s : State) (o : Owner) (r : Nat) : OnlyRecords s (s.fqAppend o r) :=
  (deviceLog_records s _ 32).trans (.ite ((deviceWrite_records _ _ _ _).trans (deviceWrite_records _ _ _ _))
    (deviceWrite_records _ _ _ _))

theorem recordDetached_records (s : State) (u n : Nat) (d : DetachNote) : OnlyRecords s (s.recordDetached u n d) :=
  fqAppend_records _ _ _

end Sys2Proof.Machine
end

