-- ==== Sys2Proof/Laws/Push.lean ====
section
/-!
SUPPORT. What the issue of an instruction of the column engine does, once: where it is pushed, where it waits and where it
traps.
-/

namespace Sys2Proof.Machine

theorem joinConvoy_run {s : State} {i : Instr} (h : s.joins i) : joinConvoy s.cur (encode i) s = .ok () s := by
  unfold joinConvoy
  rw [run_getStrand_bind]
  rcases h with h | ⟨h, hc⟩
  · have : (s.strand s.cur).assembling = [] := h
    simp [this]
  · have hl : ¬4 ≤ (s.strand s.cur).assembling.length := by have : (s.strand s.cur).assembling.length < 4 := h; omega
    cases (s.strand s.cur).assembling.getLast? with
    | none => rfl
    | some m => simp [hc, hl]

theorem joinConvoy_trap {s : State} {w : Word} {m : Member} (hm : s.me.assembling.getLast? = some m)
    (h : 4 ≤ s.me.assembling.length ∨ startsConvoy w = true) :
    joinConvoy s.cur w s = .error (.trap ⟨1, 0, m.addr, none⟩) s := by
  have hm' : (s.strand s.cur).assembling.getLast? = some m := hm
  unfold joinConvoy
  rw [run_getStrand_bind, hm']
  have : (decide (4 ≤ (s.strand s.cur).assembling.length) || startsConvoy w) = true := by simpa [State.me] using h
  simp only [this, if_true]
  rfl

theorem waitUnless_run {b : Bool} (h : b = true) (s : State) : waitUnless b s = .ok () s := by subst h; rfl

theorem waitUnless_wait {b : Bool} (h : b = false) (s : State) : waitUnless b s = .error .wait s := by subst h; rfl

theorem settleM_run (u : Nat) (s : State) : settleM u s = .ok () (s.settle u) := rfl

@[simp] theorem strand_setHelm (s : State) (h : Nat) (k : Helm) (u : Nat) : (s.setHelm h k).strand u = s.strand u := rfl

/-- Records that are owed are written; the strand owes them no more. -/
theorem reportDetached_strand (s : State) (u : Nat) :
    (s.reportDetached u).cur = s.cur ∧ ∃ l, (s.reportDetached u).strand u = { s.strand u with detachNotes := l } := by
  unfold State.reportDetached
  dsimp only
  split
  · exact ⟨rfl, _, rfl⟩
  · have h := OnlyRecords.foldl (fun s n => recordDetached_records s u 1 n) (s.detachedOver u)
      (s.setStrand u { s.strand u with
        detachNotes := (s.strand u).detachNotes.filter fun n => !(s.detachedOver u).contains n })
    exact ⟨h.cur, _, (h.strand u).trans (strand_setStrand_same _ _ _)⟩

/-- The strand after its accesses that have been performed no longer count. -/
theorem settle_strand (s : State) (u : Nat) :
    (s.settle u).cur = s.cur ∧
      ∃ l k d, (s.settle u).strand u = { s.strand u with openInstrs := l, kept := k, detachNotes := d } := by
  obtain ⟨hc, d, hd⟩ := reportDetached_strand s u
  unfold State.settle
  dsimp only
  generalize s.reportDetached u = r at hc hd ⊢
  split
  · exact ⟨hc, (s.strand u).openInstrs, (s.strand u).kept, d, hd⟩
  · split
    all_goals exact ⟨hc, _, _, d, (strand_setStrand_same _ _ _).trans (by rw [hd])⟩

@[simp] theorem settle_cur (s : State) (u : Nat) : (s.settle u).cur = s.cur := (settle_strand s u).1

theorem settle_queue (s : State) (u : Nat) : ((s.settle u).strand u).queue = (s.strand u).queue := by
  obtain ⟨-, l, k, d, h⟩ := settle_strand s u
  rw [h]

theorem settle_replies (s : State) (u : Nat) : ((s.settle u).strand u).replies = (s.strand u).replies := by
  obtain ⟨-, l, k, d, h⟩ := settle_strand s u
  rw [h]

/-- There is room, so the issue goes on, and accesses that have been performed no longer count. -/
theorem roomFor_run {s : State} {i : Instr} (h : s.hasRoom i) : roomFor s.cur i s = .ok () (s.settle s.cur) := by
  obtain ⟨h1, h2, h3⟩ := h
  unfold roomFor
  rw [bind_ok (settleM_run _ _), run_getStrand_bind, settle_queue, settle_replies]
  have e1 : (decide (replyReg i = 0) || decide ((s.strand s.cur).replies.length < 16)) = true := by
    simpa [State.me] using h1
  have e2 : decide (convoys (s.strand s.cur).queue < 32) = true := by simpa [State.me] using h2
  rw [bind_ok (waitUnless_run e1 _), bind_ok (waitUnless_run e2 _)]
  cases hc : memCtl i with
  | none => rfl
  | some c =>
    apply waitUnless_run
    have := h3 c hc
    simp only [State.me, settle_cur] at this
    by_cases hd : c.d = 0
    · simp [hd]
    · have := this hd
      simpa using Or.inr this

/-- Without room the issue waits. -/
theorem roomFor_wait {s : State} {i : Instr} (h : ¬s.hasRoom i) :
    roomFor s.cur i s = .error .wait (s.settle s.cur) := by
  unfold roomFor
  rw [bind_ok (settleM_run _ _), run_getStrand_bind, settle_queue, settle_replies]
  by_cases h1 : replyReg i = 0 ∨ s.me.replies.length < 16
  · have e1 : (decide (replyReg i = 0) || decide ((s.strand s.cur).replies.length < 16)) = true := by
      simpa [State.me] using h1
    rw [bind_ok (waitUnless_run e1 _)]
    by_cases h2 : convoys s.me.queue < 32
    · have e2 : decide (convoys (s.strand s.cur).queue < 32) = true := by simpa [State.me] using h2
      rw [bind_ok (waitUnless_run e2 _)]
      cases hc : memCtl i with
      | none => exact absurd ⟨h1, h2, fun c hc' => by simp [hc] at hc'⟩ h
      | some c =>
        apply waitUnless_wait
        apply Bool.eq_false_iff.mpr
        intro hn
        refine h ⟨h1, h2, fun c' hc' hd => ?_⟩
        rw [hc] at hc'
        obtain rfl := Option.some.inj hc'
        have hd' : ¬c.d = 0#3 := hd
        simpa [State.me, hd'] using hn
    · have e2 : decide (convoys (s.strand s.cur).queue < 32) = false := by simpa [State.me] using h2
      rw [bind_error (waitUnless_wait e2 _)]
  · have e1 : (decide (replyReg i = 0) || decide ((s.strand s.cur).replies.length < 16)) = false := by
      simpa [State.me, not_or] using h1
    rw [bind_error (waitUnless_wait e1 _)]

theorem typeOk {s : State} {i : Instr} (h : needsType (encode i) = true → s.me.typeMissing = false) :
    ¬(needsType (encode i) && (s.strand s.cur).typeMissing) = true := by
  simpa [State.me] using h

/-- An issue that goes through. -/
theorem pushThen_ok {i : Instr} {opnds : Nat → M Opnds} {check : Nat → Opnds → M Unit} {after : Nat → M Unit} {s t : State}
    {o : Opnds} (hj : s.joins i) (ht : needsType (encode i) = true → s.me.typeMissing = false)
    (ho : opnds s.cur s = .ok o s) (hc : check s.cur o s = .ok () s) (hr : s.hasRoom i)
    (ha : after s.cur ((s.settle s.cur).become ((s.settle s.cur).me.take i o)) = .ok () t) :
    pushThen i opnds check after s = .next t := by
  unfold pushThen
  rw [bind_ok (joinConvoy_run hj), run_getStrand_bind]
  rw [if_neg (typeOk ht)]
  dsimp only
  rw [bind_ok ho, bind_ok hc, bind_ok (roomFor_run hr)]
  have : modStrand s.cur (fun t => t.take i o) (s.settle s.cur) =
      .ok () ((s.settle s.cur).become ((s.settle s.cur).me.take i o)) := by
    simp [modStrand, State.become, State.me]
  rw [bind_ok this, ha]
  rfl

/-- An issue whose operands or whose own check stops it. -/
theorem pushThen_stop {i : Instr} {opnds : Nat → M Opnds} {check : Nat → Opnds → M Unit} {after : Nat → M Unit} {s : State}
    {e : Stop} (hj : s.joins i) (ht : needsType (encode i) = true → s.me.typeMissing = false)
    (h : (opnds s.cur >>= check s.cur) s = .error e s) :
    pushThen i opnds check after s = conclude s.cur s (.error e s) := by
  unfold pushThen
  rw [bind_ok (joinConvoy_run hj), run_getStrand_bind]
  rw [if_neg (typeOk ht)]
  dsimp only
  refine congrArg (conclude s.cur s) ?_
  rw [run_bind] at h ⊢
  split at h
  · exact bind_error h
  · exact h

/-- An issue that has no room. -/
theorem pushThen_full {i : Instr} {opnds : Nat → M Opnds} {check : Nat → Opnds → M Unit} {after : Nat → M Unit} {s : State}
    {o : Opnds} (hj : s.joins i) (ht : needsType (encode i) = true → s.me.typeMissing = false)
    (ho : opnds s.cur s = .ok o s) (hc : check s.cur o s = .ok () s) (hr : ¬s.hasRoom i) :
    pushThen i opnds check after s = .next (s.settle s.cur) := by
  unfold pushThen
  rw [bind_ok (joinConvoy_run hj), run_getStrand_bind]
  rw [if_neg (typeOk ht)]
  dsimp only
  rw [bind_ok ho, bind_ok hc, bind_error (roomFor_wait hr)]
  rfl

/-- An issue that breaks the rules of its convoy (R204). -/
theorem pushThen_convoy {i : Instr} {opnds : Nat → M Opnds} {check : Nat → Opnds → M Unit} {after : Nat → M Unit}
    {s : State} {m : Member} (hm : s.me.assembling.getLast? = some m)
    (h : 4 ≤ s.me.assembling.length ∨ startsConvoy (encode i) = true) :
    pushThen i opnds check after s = s.traps 1 0 m.addr := by
  unfold pushThen
  rw [bind_error (joinConvoy_trap hm h)]
  rfl

/-- An issue of an element instruction without a legal vtype (R177). -/
theorem pushThen_type {i : Instr} {opnds : Nat → M Opnds} {check : Nat → Opnds → M Unit} {after : Nat → M Unit} {s : State}
    (hj : s.joins i) (h1 : needsType (encode i) = true) (h2 : s.me.typeMissing = true) :
    pushThen i opnds check after s = s.traps 1 0 s.me.pc := by
  unfold pushThen
  rw [bind_ok (joinConvoy_run hj), run_getStrand_bind]
  have h2' : (s.strand s.cur).typeMissing = true := h2
  rw [if_pos (by simp [h1, h2'])]
  rfl

/-! ### Operands -/

theorem opndA_run {s : State} {xa : Reg} (h : s.has xa) : opndA xa s.cur s = .ok ⟨s.reg xa, 0, 0, 0⟩ s := by
  unfold opndA; rw [bind_ok (readX_run h)]; rfl

theorem opndB_run {s : State} {xb : Reg} (h : s.has xb) : opndB xb s.cur s = .ok ⟨0, s.reg xb, 0, 0⟩ s := by
  unfold opndB; rw [bind_ok (readX_run h)]; rfl

theorem opndAB_run {s : State} {xa xb : Reg} (ha : s.has xa) (hb : s.has xb) :
    opndAB xa xb s.cur s = .ok ⟨s.reg xa, s.reg xb, 0, 0⟩ s := by
  unfold opndAB; rw [bind_ok (readX_run ha), bind_ok (readX_run hb)]; rfl

theorem opndABC_run {s : State} {xa xb xc : Reg} (ha : s.has xa) (hb : s.has xb) (hc : s.has xc) :
    opndABC xa xb xc s.cur s = .ok ⟨s.reg xa, s.reg xb, s.reg xc, 0⟩ s := by
  unfold opndABC; rw [bind_ok (readX_run ha), bind_ok (readX_run hb), bind_ok (readX_run hc)]; rfl

theorem noOpnds_run (s : State) : noOpnds s.cur s = .ok ⟨0, 0, 0, 0⟩ s := rfl

theorem needAligned_run {a : Word} {n : Nat} (h : a.toNat % n = 0) (s : State) : needAligned a n s = .ok () s := by
  simp [needAligned, aligned, h]

end Sys2Proof.Machine
end

