-- ==== Sys2Proof/Laws/State.lean ====
section
/-!
SUPPORT. What an update of the state, or of a strand, leaves as it was: one lemma for each field and each update.
-/

namespace Sys2Proof.Machine

/-! ### A strand is replaced -/

@[simp] theorem State.setStrand_helms (s : State) (u : Nat) (t : Strand) : (s.setStrand u t).helms = s.helms := rfl
@[simp] theorem State.setStrand_clusters (s : State) (u : Nat) (t : Strand) : (s.setStrand u t).clusters = s.clusters := rfl
@[simp] theorem State.setStrand_lmem (s : State) (u : Nat) (t : Strand) : (s.setStrand u t).lmem = s.lmem := rfl
@[simp] theorem State.setStrand_tags (s : State) (u : Nat) (t : Strand) : (s.setStrand u t).tags = s.tags := rfl
@[simp] theorem State.setStrand_empties (s : State) (u : Nat) (t : Strand) : (s.setStrand u t).empties = s.empties := rfl
@[simp] theorem State.setStrand_pmem (s : State) (u : Nat) (t : Strand) : (s.setStrand u t).pmem = s.pmem := rfl
@[simp] theorem State.setStrand_units (s : State) (u : Nat) (t : Strand) : (s.setStrand u t).units = s.units := rfl
@[simp] theorem State.setStrand_localMarks (s : State) (u : Nat) (t : Strand) : (s.setStrand u t).localMarks = s.localMarks := rfl
@[simp] theorem State.setStrand_physMarks (s : State) (u : Nat) (t : Strand) : (s.setStrand u t).physMarks = s.physMarks := rfl
@[simp] theorem State.setStrand_pool (s : State) (u : Nat) (t : Strand) : (s.setStrand u t).pool = s.pool := rfl
@[simp] theorem State.setStrand_hostCache (s : State) (u : Nat) (t : Strand) : (s.setStrand u t).hostCache = s.hostCache := rfl
@[simp] theorem State.setStrand_walks (s : State) (u : Nat) (t : Strand) : (s.setStrand u t).walks = s.walks := rfl
@[simp] theorem State.setStrand_keys (s : State) (u : Nat) (t : Strand) : (s.setStrand u t).keys = s.keys := rfl
@[simp] theorem State.setStrand_modnum (s : State) (u : Nat) (t : Strand) : (s.setStrand u t).modnum = s.modnum := rfl
@[simp] theorem State.setStrand_owntab (s : State) (u : Nat) (t : Strand) : (s.setStrand u t).owntab = s.owntab := rfl
@[simp] theorem State.setStrand_keysel (s : State) (u : Nat) (t : Strand) : (s.setStrand u t).keysel = s.keysel := rfl
@[simp] theorem State.setStrand_keydata (s : State) (u : Nat) (t : Strand) : (s.setStrand u t).keydata = s.keydata := rfl
@[simp] theorem State.setStrand_vlog (s : State) (u : Nat) (t : Strand) : (s.setStrand u t).vlog = s.vlog := rfl
@[simp] theorem State.setStrand_poolcsz (s : State) (u : Nat) (t : Strand) : (s.setStrand u t).poolcsz = s.poolcsz := rfl
@[simp] theorem State.setStrand_pcflush (s : State) (u : Nat) (t : Strand) : (s.setStrand u t).pcflush = s.pcflush := rfl
@[simp] theorem State.setStrand_pchit (s : State) (u : Nat) (t : Strand) : (s.setStrand u t).pchit = s.pchit := rfl
@[simp] theorem State.setStrand_pcmiss (s : State) (u : Nat) (t : Strand) : (s.setStrand u t).pcmiss = s.pcmiss := rfl
@[simp] theorem State.setStrand_pports (s : State) (u : Nat) (t : Strand) : (s.setStrand u t).pports = s.pports := rfl
@[simp] theorem State.setStrand_fqtab (s : State) (u : Nat) (t : Strand) : (s.setStrand u t).fqtab = s.fqtab := rfl
@[simp] theorem State.setStrand_foldtab (s : State) (u : Nat) (t : Strand) : (s.setStrand u t).foldtab = s.foldtab := rfl
@[simp] theorem State.setStrand_ptime (s : State) (u : Nat) (t : Strand) : (s.setStrand u t).ptime = s.ptime := rfl
@[simp] theorem State.setStrand_hpstat (s : State) (u : Nat) (t : Strand) : (s.setStrand u t).hpstat = s.hpstat := rfl
@[simp] theorem State.setStrand_windows (s : State) (u : Nat) (t : Strand) : (s.setStrand u t).windows = s.windows := rfl
@[simp] theorem State.setStrand_hevb (s : State) (u : Nat) (t : Strand) : (s.setStrand u t).hevb = s.hevb := rfl
@[simp] theorem State.setStrand_hevl (s : State) (u : Nat) (t : Strand) : (s.setStrand u t).hevl = s.hevl := rfl
@[simp] theorem State.setStrand_hostMessage (s : State) (u : Nat) (t : Strand) : (s.setStrand u t).hostMessage = s.hostMessage := rfl
@[simp] theorem State.setStrand_live (s : State) (u : Nat) (t : Strand) : (s.setStrand u t).live = s.live := rfl
@[simp] theorem State.setStrand_rcount (s : State) (u : Nat) (t : Strand) : (s.setStrand u t).rcount = s.rcount := rfl
@[simp] theorem State.setStrand_easyall (s : State) (u : Nat) (t : Strand) : (s.setStrand u t).easyall = s.easyall := rfl
@[simp] theorem State.setStrand_linkup (s : State) (u : Nat) (t : Strand) : (s.setStrand u t).linkup = s.linkup := rfl
@[simp] theorem State.setStrand_spineDown (s : State) (u : Nat) (t : Strand) : (s.setStrand u t).spineDown = s.spineDown := rfl
@[simp] theorem State.setStrand_pptbase (s : State) (u : Nat) (t : Strand) : (s.setStrand u t).pptbase = s.pptbase := rfl
@[simp] theorem State.setStrand_reissue (s : State) (u : Nat) (t : Strand) : (s.setStrand u t).reissue = s.reissue := rfl
@[simp] theorem State.setStrand_flog (s : State) (u : Nat) (t : Strand) : (s.setStrand u t).flog = s.flog := rfl
@[simp] theorem State.setStrand_outstanding (s : State) (u : Nat) (t : Strand) : (s.setStrand u t).outstanding = s.outstanding := rfl
@[simp] theorem State.setStrand_nextTag (s : State) (u : Nat) (t : Strand) : (s.setStrand u t).nextTag = s.nextTag := rfl
@[simp] theorem State.setStrand_peers (s : State) (u : Nat) (t : Strand) : (s.setStrand u t).peers = s.peers := rfl
@[simp] theorem State.setStrand_learned (s : State) (u : Nat) (t : Strand) : (s.setStrand u t).learned = s.learned := rfl
@[simp] theorem State.setStrand_received (s : State) (u : Nat) (t : Strand) : (s.setStrand u t).received = s.received := rfl
@[simp] theorem State.setStrand_frozen (s : State) (u : Nat) (t : Strand) : (s.setStrand u t).frozen = s.frozen := rfl
@[simp] theorem State.setStrand_responses (s : State) (u : Nat) (t : Strand) : (s.setStrand u t).responses = s.responses := rfl
@[simp] theorem State.setStrand_incoming (s : State) (u : Nat) (t : Strand) : (s.setStrand u t).incoming = s.incoming := rfl
@[simp] theorem State.setStrand_servedAt (s : State) (u : Nat) (t : Strand) : (s.setStrand u t).servedAt = s.servedAt := rfl
@[simp] theorem State.setStrand_consumedFolds (s : State) (u : Nat) (t : Strand) : (s.setStrand u t).consumedFolds = s.consumedFolds := rfl
@[simp] theorem State.setStrand_arrived (s : State) (u : Nat) (t : Strand) : (s.setStrand u t).arrived = s.arrived := rfl
@[simp] theorem State.setStrand_ports (s : State) (u : Nat) (t : Strand) : (s.setStrand u t).ports = s.ports := rfl
@[simp] theorem State.setStrand_nextPort (s : State) (u : Nat) (t : Strand) : (s.setStrand u t).nextPort = s.nextPort := rfl
@[simp] theorem State.setStrand_tperiod (s : State) (u : Nat) (t : Strand) : (s.setStrand u t).tperiod = s.tperiod := rfl
@[simp] theorem State.setStrand_tperiodNext (s : State) (u : Nat) (t : Strand) : (s.setStrand u t).tperiodNext = s.tperiodNext := rfl
@[simp] theorem State.setStrand_rbound (s : State) (u : Nat) (t : Strand) : (s.setStrand u t).rbound = s.rbound := rfl
@[simp] theorem State.setStrand_fwTvec (s : State) (u : Nat) (t : Strand) : (s.setStrand u t).fwTvec = s.fwTvec := rfl
@[simp] theorem State.setStrand_cox (s : State) (u : Nat) (t : Strand) : (s.setStrand u t).cox = s.cox := rfl
@[simp] theorem State.setStrand_tick (s : State) (u : Nat) (t : Strand) : (s.setStrand u t).tick = s.tick := rfl
@[simp] theorem State.setStrand_cycle (s : State) (u : Nat) (t : Strand) : (s.setStrand u t).cycle = s.cycle := rfl
@[simp] theorem State.setStrand_elog (s : State) (u : Nat) (t : Strand) : (s.setStrand u t).elog = s.elog := rfl
@[simp] theorem State.setStrand_mctgt (s : State) (u : Nat) (t : Strand) : (s.setStrand u t).mctgt = s.mctgt := rfl
@[simp] theorem State.setStrand_scrub (s : State) (u : Nat) (t : Strand) : (s.setStrand u t).scrub = s.scrub := rfl
@[simp] theorem State.setStrand_scrubAt (s : State) (u : Nat) (t : Strand) : (s.setStrand u t).scrubAt = s.scrubAt := rfl
@[simp] theorem State.setStrand_rebuildlim (s : State) (u : Nat) (t : Strand) : (s.setStrand u t).rebuildlim = s.rebuildlim := rfl
@[simp] theorem State.setStrand_cecount (s : State) (u : Nat) (t : Strand) : (s.setStrand u t).cecount = s.cecount := rfl
@[simp] theorem State.setStrand_uecount (s : State) (u : Nat) (t : Strand) : (s.setStrand u t).uecount = s.uecount := rfl
@[simp] theorem State.setStrand_evwait (s : State) (u : Nat) (t : Strand) : (s.setStrand u t).evwait = s.evwait := rfl
@[simp] theorem State.setStrand_fenced (s : State) (u : Nat) (t : Strand) : (s.setStrand u t).fenced = s.fenced := rfl
@[simp] theorem State.setStrand_eventSet (s : State) (u : Nat) (t : Strand) : (s.setStrand u t).eventSet = s.eventSet := rfl
@[simp] theorem State.setStrand_fwEvents (s : State) (u : Nat) (t : Strand) : (s.setStrand u t).fwEvents = s.fwEvents := rfl
@[simp] theorem State.setStrand_poolPortsFailed (s : State) (u : Nat) (t : Strand) : (s.setStrand u t).poolPortsFailed = s.poolPortsFailed := rfl
@[simp] theorem State.setStrand_mailbox (s : State) (u : Nat) (t : Strand) : (s.setStrand u t).mailbox = s.mailbox := rfl
@[simp] theorem State.setStrand_bootOpen (s : State) (u : Nat) (t : Strand) : (s.setStrand u t).bootOpen = s.bootOpen := rfl
@[simp] theorem State.setStrand_minSvn (s : State) (u : Nat) (t : Strand) : (s.setStrand u t).minSvn = s.minSvn := rfl
@[simp] theorem State.setStrand_runSvn (s : State) (u : Nat) (t : Strand) : (s.setStrand u t).runSvn = s.runSvn := rfl
@[simp] theorem State.setStrand_fwvalid (s : State) (u : Nat) (t : Strand) : (s.setStrand u t).fwvalid = s.fwvalid := rfl
@[simp] theorem State.setStrand_fwmeas (s : State) (u : Nat) (t : Strand) : (s.setStrand u t).fwmeas = s.fwmeas := rfl
@[simp] theorem State.setStrand_kvalid (s : State) (u : Nat) (t : Strand) : (s.setStrand u t).kvalid = s.kvalid := rfl
@[simp] theorem State.setStrand_kmeas (s : State) (u : Nat) (t : Strand) : (s.setStrand u t).kmeas = s.kmeas := rfl
@[simp] theorem State.setStrand_kload (s : State) (u : Nat) (t : Strand) : (s.setStrand u t).kload = s.kload := rfl
@[simp] theorem State.setStrand_hostReply (s : State) (u : Nat) (t : Strand) : (s.setStrand u t).hostReply = s.hostReply := rfl
@[simp] theorem State.setStrand_slowMatrix (s : State) (u : Nat) (t : Strand) : (s.setStrand u t).slowMatrix = s.slowMatrix := rfl
@[simp] theorem State.setStrand_stopped (s : State) (u : Nat) (t : Strand) : (s.setStrand u t).stopped = s.stopped := rfl
@[simp] theorem State.setStrand_agenda (s : State) (u : Nat) (t : Strand) : (s.setStrand u t).agenda = s.agenda := rfl
@[simp] theorem State.setStrand_cur (s : State) (u : Nat) (t : Strand) : (s.setStrand u t).cur = s.cur := rfl
@[simp] theorem State.setStrand_phase (s : State) (u : Nat) (t : Strand) : (s.setStrand u t).phase = s.phase := rfl
@[simp] theorem State.setStrand_steps (s : State) (u : Nat) (t : Strand) : (s.setStrand u t).steps = s.steps := rfl
@[simp] theorem State.setStrand_draws (s : State) (u : Nat) (t : Strand) : (s.setStrand u t).draws = s.draws := rfl

/-! ### A cluster is replaced -/

@[simp] theorem State.setCluster_strands (s : State) (c : Nat) (k : Cluster) : (s.setCluster c k).strands = s.strands := rfl
@[simp] theorem State.setCluster_helms (s : State) (c : Nat) (k : Cluster) : (s.setCluster c k).helms = s.helms := rfl
@[simp] theorem State.setCluster_lmem (s : State) (c : Nat) (k : Cluster) : (s.setCluster c k).lmem = s.lmem := rfl
@[simp] theorem State.setCluster_tags (s : State) (c : Nat) (k : Cluster) : (s.setCluster c k).tags = s.tags := rfl
@[simp] theorem State.setCluster_empties (s : State) (c : Nat) (k : Cluster) : (s.setCluster c k).empties = s.empties := rfl
@[simp] theorem State.setCluster_pmem (s : State) (c : Nat) (k : Cluster) : (s.setCluster c k).pmem = s.pmem := rfl
@[simp] theorem State.setCluster_units (s : State) (c : Nat) (k : Cluster) : (s.setCluster c k).units = s.units := rfl
@[simp] theorem State.setCluster_localMarks (s : State) (c : Nat) (k : Cluster) : (s.setCluster c k).localMarks = s.localMarks := rfl
@[simp] theorem State.setCluster_physMarks (s : State) (c : Nat) (k : Cluster) : (s.setCluster c k).physMarks = s.physMarks := rfl
@[simp] theorem State.setCluster_pool (s : State) (c : Nat) (k : Cluster) : (s.setCluster c k).pool = s.pool := rfl
@[simp] theorem State.setCluster_hostCache (s : State) (c : Nat) (k : Cluster) : (s.setCluster c k).hostCache = s.hostCache := rfl
@[simp] theorem State.setCluster_walks (s : State) (c : Nat) (k : Cluster) : (s.setCluster c k).walks = s.walks := rfl
@[simp] theorem State.setCluster_keys (s : State) (c : Nat) (k : Cluster) : (s.setCluster c k).keys = s.keys := rfl
@[simp] theorem State.setCluster_modnum (s : State) (c : Nat) (k : Cluster) : (s.setCluster c k).modnum = s.modnum := rfl
@[simp] theorem State.setCluster_owntab (s : State) (c : Nat) (k : Cluster) : (s.setCluster c k).owntab = s.owntab := rfl
@[simp] theorem State.setCluster_keysel (s : State) (c : Nat) (k : Cluster) : (s.setCluster c k).keysel = s.keysel := rfl
@[simp] theorem State.setCluster_keydata (s : State) (c : Nat) (k : Cluster) : (s.setCluster c k).keydata = s.keydata := rfl
@[simp] theorem State.setCluster_vlog (s : State) (c : Nat) (k : Cluster) : (s.setCluster c k).vlog = s.vlog := rfl
@[simp] theorem State.setCluster_poolcsz (s : State) (c : Nat) (k : Cluster) : (s.setCluster c k).poolcsz = s.poolcsz := rfl
@[simp] theorem State.setCluster_pcflush (s : State) (c : Nat) (k : Cluster) : (s.setCluster c k).pcflush = s.pcflush := rfl
@[simp] theorem State.setCluster_pchit (s : State) (c : Nat) (k : Cluster) : (s.setCluster c k).pchit = s.pchit := rfl
@[simp] theorem State.setCluster_pcmiss (s : State) (c : Nat) (k : Cluster) : (s.setCluster c k).pcmiss = s.pcmiss := rfl
@[simp] theorem State.setCluster_pports (s : State) (c : Nat) (k : Cluster) : (s.setCluster c k).pports = s.pports := rfl
@[simp] theorem State.setCluster_fqtab (s : State) (c : Nat) (k : Cluster) : (s.setCluster c k).fqtab = s.fqtab := rfl
@[simp] theorem State.setCluster_foldtab (s : State) (c : Nat) (k : Cluster) : (s.setCluster c k).foldtab = s.foldtab := rfl
@[simp] theorem State.setCluster_ptime (s : State) (c : Nat) (k : Cluster) : (s.setCluster c k).ptime = s.ptime := rfl
@[simp] theorem State.setCluster_hpstat (s : State) (c : Nat) (k : Cluster) : (s.setCluster c k).hpstat = s.hpstat := rfl
@[simp] theorem State.setCluster_windows (s : State) (c : Nat) (k : Cluster) : (s.setCluster c k).windows = s.windows := rfl
@[simp] theorem State.setCluster_hevb (s : State) (c : Nat) (k : Cluster) : (s.setCluster c k).hevb = s.hevb := rfl
@[simp] theorem State.setCluster_hevl (s : State) (c : Nat) (k : Cluster) : (s.setCluster c k).hevl = s.hevl := rfl
@[simp] theorem State.setCluster_hostMessage (s : State) (c : Nat) (k : Cluster) : (s.setCluster c k).hostMessage = s.hostMessage := rfl
@[simp] theorem State.setCluster_live (s : State) (c : Nat) (k : Cluster) : (s.setCluster c k).live = s.live := rfl
@[simp] theorem State.setCluster_rcount (s : State) (c : Nat) (k : Cluster) : (s.setCluster c k).rcount = s.rcount := rfl
@[simp] theorem State.setCluster_easyall (s : State) (c : Nat) (k : Cluster) : (s.setCluster c k).easyall = s.easyall := rfl
@[simp] theorem State.setCluster_linkup (s : State) (c : Nat) (k : Cluster) : (s.setCluster c k).linkup = s.linkup := rfl
@[simp] theorem State.setCluster_spineDown (s : State) (c : Nat) (k : Cluster) : (s.setCluster c k).spineDown = s.spineDown := rfl
@[simp] theorem State.setCluster_pptbase (s : State) (c : Nat) (k : Cluster) : (s.setCluster c k).pptbase = s.pptbase := rfl
@[simp] theorem State.setCluster_reissue (s : State) (c : Nat) (k : Cluster) : (s.setCluster c k).reissue = s.reissue := rfl
@[simp] theorem State.setCluster_flog (s : State) (c : Nat) (k : Cluster) : (s.setCluster c k).flog = s.flog := rfl
@[simp] theorem State.setCluster_outstanding (s : State) (c : Nat) (k : Cluster) : (s.setCluster c k).outstanding = s.outstanding := rfl
@[simp] theorem State.setCluster_nextTag (s : State) (c : Nat) (k : Cluster) : (s.setCluster c k).nextTag = s.nextTag := rfl
@[simp] theorem State.setCluster_peers (s : State) (c : Nat) (k : Cluster) : (s.setCluster c k).peers = s.peers := rfl
@[simp] theorem State.setCluster_learned (s : State) (c : Nat) (k : Cluster) : (s.setCluster c k).learned = s.learned := rfl
@[simp] theorem State.setCluster_received (s : State) (c : Nat) (k : Cluster) : (s.setCluster c k).received = s.received := rfl
@[simp] theorem State.setCluster_frozen (s : State) (c : Nat) (k : Cluster) : (s.setCluster c k).frozen = s.frozen := rfl
@[simp] theorem State.setCluster_responses (s : State) (c : Nat) (k : Cluster) : (s.setCluster c k).responses = s.responses := rfl
@[simp] theorem State.setCluster_incoming (s : State) (c : Nat) (k : Cluster) : (s.setCluster c k).incoming = s.incoming := rfl
@[simp] theorem State.setCluster_servedAt (s : State) (c : Nat) (k : Cluster) : (s.setCluster c k).servedAt = s.servedAt := rfl
@[simp] theorem State.setCluster_consumedFolds (s : State) (c : Nat) (k : Cluster) : (s.setCluster c k).consumedFolds = s.consumedFolds := rfl
@[simp] theorem State.setCluster_arrived (s : State) (c : Nat) (k : Cluster) : (s.setCluster c k).arrived = s.arrived := rfl
@[simp] theorem State.setCluster_ports (s : State) (c : Nat) (k : Cluster) : (s.setCluster c k).ports = s.ports := rfl
@[simp] theorem State.setCluster_nextPort (s : State) (c : Nat) (k : Cluster) : (s.setCluster c k).nextPort = s.nextPort := rfl
@[simp] theorem State.setCluster_tperiod (s : State) (c : Nat) (k : Cluster) : (s.setCluster c k).tperiod = s.tperiod := rfl
@[simp] theorem State.setCluster_tperiodNext (s : State) (c : Nat) (k : Cluster) : (s.setCluster c k).tperiodNext = s.tperiodNext := rfl
@[simp] theorem State.setCluster_rbound (s : State) (c : Nat) (k : Cluster) : (s.setCluster c k).rbound = s.rbound := rfl
@[simp] theorem State.setCluster_fwTvec (s : State) (c : Nat) (k : Cluster) : (s.setCluster c k).fwTvec = s.fwTvec := rfl
@[simp] theorem State.setCluster_cox (s : State) (c : Nat) (k : Cluster) : (s.setCluster c k).cox = s.cox := rfl
@[simp] theorem State.setCluster_tick (s : State) (c : Nat) (k : Cluster) : (s.setCluster c k).tick = s.tick := rfl
@[simp] theorem State.setCluster_cycle (s : State) (c : Nat) (k : Cluster) : (s.setCluster c k).cycle = s.cycle := rfl
@[simp] theorem State.setCluster_elog (s : State) (c : Nat) (k : Cluster) : (s.setCluster c k).elog = s.elog := rfl
@[simp] theorem State.setCluster_mctgt (s : State) (c : Nat) (k : Cluster) : (s.setCluster c k).mctgt = s.mctgt := rfl
@[simp] theorem State.setCluster_scrub (s : State) (c : Nat) (k : Cluster) : (s.setCluster c k).scrub = s.scrub := rfl
@[simp] theorem State.setCluster_scrubAt (s : State) (c : Nat) (k : Cluster) : (s.setCluster c k).scrubAt = s.scrubAt := rfl
@[simp] theorem State.setCluster_rebuildlim (s : State) (c : Nat) (k : Cluster) : (s.setCluster c k).rebuildlim = s.rebuildlim := rfl
@[simp] theorem State.setCluster_cecount (s : State) (c : Nat) (k : Cluster) : (s.setCluster c k).cecount = s.cecount := rfl
@[simp] theorem State.setCluster_uecount (s : State) (c : Nat) (k : Cluster) : (s.setCluster c k).uecount = s.uecount := rfl
@[simp] theorem State.setCluster_evwait (s : State) (c : Nat) (k : Cluster) : (s.setCluster c k).evwait = s.evwait := rfl
@[simp] theorem State.setCluster_fenced (s : State) (c : Nat) (k : Cluster) : (s.setCluster c k).fenced = s.fenced := rfl
@[simp] theorem State.setCluster_eventSet (s : State) (c : Nat) (k : Cluster) : (s.setCluster c k).eventSet = s.eventSet := rfl
@[simp] theorem State.setCluster_fwEvents (s : State) (c : Nat) (k : Cluster) : (s.setCluster c k).fwEvents = s.fwEvents := rfl
@[simp] theorem State.setCluster_poolPortsFailed (s : State) (c : Nat) (k : Cluster) : (s.setCluster c k).poolPortsFailed = s.poolPortsFailed := rfl
@[simp] theorem State.setCluster_mailbox (s : State) (c : Nat) (k : Cluster) : (s.setCluster c k).mailbox = s.mailbox := rfl
@[simp] theorem State.setCluster_bootOpen (s : State) (c : Nat) (k : Cluster) : (s.setCluster c k).bootOpen = s.bootOpen := rfl
@[simp] theorem State.setCluster_minSvn (s : State) (c : Nat) (k : Cluster) : (s.setCluster c k).minSvn = s.minSvn := rfl
@[simp] theorem State.setCluster_runSvn (s : State) (c : Nat) (k : Cluster) : (s.setCluster c k).runSvn = s.runSvn := rfl
@[simp] theorem State.setCluster_fwvalid (s : State) (c : Nat) (k : Cluster) : (s.setCluster c k).fwvalid = s.fwvalid := rfl
@[simp] theorem State.setCluster_fwmeas (s : State) (c : Nat) (k : Cluster) : (s.setCluster c k).fwmeas = s.fwmeas := rfl
@[simp] theorem State.setCluster_kvalid (s : State) (c : Nat) (k : Cluster) : (s.setCluster c k).kvalid = s.kvalid := rfl
@[simp] theorem State.setCluster_kmeas (s : State) (c : Nat) (k : Cluster) : (s.setCluster c k).kmeas = s.kmeas := rfl
@[simp] theorem State.setCluster_kload (s : State) (c : Nat) (k : Cluster) : (s.setCluster c k).kload = s.kload := rfl
@[simp] theorem State.setCluster_hostReply (s : State) (c : Nat) (k : Cluster) : (s.setCluster c k).hostReply = s.hostReply := rfl
@[simp] theorem State.setCluster_slowMatrix (s : State) (c : Nat) (k : Cluster) : (s.setCluster c k).slowMatrix = s.slowMatrix := rfl
@[simp] theorem State.setCluster_stopped (s : State) (c : Nat) (k : Cluster) : (s.setCluster c k).stopped = s.stopped := rfl
@[simp] theorem State.setCluster_agenda (s : State) (c : Nat) (k : Cluster) : (s.setCluster c k).agenda = s.agenda := rfl
@[simp] theorem State.setCluster_cur (s : State) (c : Nat) (k : Cluster) : (s.setCluster c k).cur = s.cur := rfl
@[simp] theorem State.setCluster_phase (s : State) (c : Nat) (k : Cluster) : (s.setCluster c k).phase = s.phase := rfl
@[simp] theorem State.setCluster_steps (s : State) (c : Nat) (k : Cluster) : (s.setCluster c k).steps = s.steps := rfl
@[simp] theorem State.setCluster_draws (s : State) (c : Nat) (k : Cluster) : (s.setCluster c k).draws = s.draws := rfl

/-! ### The caches of a helm are replaced -/

@[simp] theorem State.setHelm_strands (s : State) (h : Nat) (k : Helm) : (s.setHelm h k).strands = s.strands := rfl
@[simp] theorem State.setHelm_clusters (s : State) (h : Nat) (k : Helm) : (s.setHelm h k).clusters = s.clusters := rfl
@[simp] theorem State.setHelm_lmem (s : State) (h : Nat) (k : Helm) : (s.setHelm h k).lmem = s.lmem := rfl
@[simp] theorem State.setHelm_tags (s : State) (h : Nat) (k : Helm) : (s.setHelm h k).tags = s.tags := rfl
@[simp] theorem State.setHelm_empties (s : State) (h : Nat) (k : Helm) : (s.setHelm h k).empties = s.empties := rfl
@[simp] theorem State.setHelm_pmem (s : State) (h : Nat) (k : Helm) : (s.setHelm h k).pmem = s.pmem := rfl
@[simp] theorem State.setHelm_units (s : State) (h : Nat) (k : Helm) : (s.setHelm h k).units = s.units := rfl
@[simp] theorem State.setHelm_localMarks (s : State) (h : Nat) (k : Helm) : (s.setHelm h k).localMarks = s.localMarks := rfl
@[simp] theorem State.setHelm_physMarks (s : State) (h : Nat) (k : Helm) : (s.setHelm h k).physMarks = s.physMarks := rfl
@[simp] theorem State.setHelm_pool (s : State) (h : Nat) (k : Helm) : (s.setHelm h k).pool = s.pool := rfl
@[simp] theorem State.setHelm_hostCache (s : State) (h : Nat) (k : Helm) : (s.setHelm h k).hostCache = s.hostCache := rfl
@[simp] theorem State.setHelm_walks (s : State) (h : Nat) (k : Helm) : (s.setHelm h k).walks = s.walks := rfl
@[simp] theorem State.setHelm_keys (s : State) (h : Nat) (k : Helm) : (s.setHelm h k).keys = s.keys := rfl
@[simp] theorem State.setHelm_modnum (s : State) (h : Nat) (k : Helm) : (s.setHelm h k).modnum = s.modnum := rfl
@[simp] theorem State.setHelm_owntab (s : State) (h : Nat) (k : Helm) : (s.setHelm h k).owntab = s.owntab := rfl
@[simp] theorem State.setHelm_keysel (s : State) (h : Nat) (k : Helm) : (s.setHelm h k).keysel = s.keysel := rfl
@[simp] theorem State.setHelm_keydata (s : State) (h : Nat) (k : Helm) : (s.setHelm h k).keydata = s.keydata := rfl
@[simp] theorem State.setHelm_vlog (s : State) (h : Nat) (k : Helm) : (s.setHelm h k).vlog = s.vlog := rfl
@[simp] theorem State.setHelm_poolcsz (s : State) (h : Nat) (k : Helm) : (s.setHelm h k).poolcsz = s.poolcsz := rfl
@[simp] theorem State.setHelm_pcflush (s : State) (h : Nat) (k : Helm) : (s.setHelm h k).pcflush = s.pcflush := rfl
@[simp] theorem State.setHelm_pchit (s : State) (h : Nat) (k : Helm) : (s.setHelm h k).pchit = s.pchit := rfl
@[simp] theorem State.setHelm_pcmiss (s : State) (h : Nat) (k : Helm) : (s.setHelm h k).pcmiss = s.pcmiss := rfl
@[simp] theorem State.setHelm_pports (s : State) (h : Nat) (k : Helm) : (s.setHelm h k).pports = s.pports := rfl
@[simp] theorem State.setHelm_fqtab (s : State) (h : Nat) (k : Helm) : (s.setHelm h k).fqtab = s.fqtab := rfl
@[simp] theorem State.setHelm_foldtab (s : State) (h : Nat) (k : Helm) : (s.setHelm h k).foldtab = s.foldtab := rfl
@[simp] theorem State.setHelm_ptime (s : State) (h : Nat) (k : Helm) : (s.setHelm h k).ptime = s.ptime := rfl
@[simp] theorem State.setHelm_hpstat (s : State) (h : Nat) (k : Helm) : (s.setHelm h k).hpstat = s.hpstat := rfl
@[simp] theorem State.setHelm_windows (s : State) (h : Nat) (k : Helm) : (s.setHelm h k).windows = s.windows := rfl
@[simp] theorem State.setHelm_hevb (s : State) (h : Nat) (k : Helm) : (s.setHelm h k).hevb = s.hevb := rfl
@[simp] theorem State.setHelm_hevl (s : State) (h : Nat) (k : Helm) : (s.setHelm h k).hevl = s.hevl := rfl
@[simp] theorem State.setHelm_hostMessage (s : State) (h : Nat) (k : Helm) : (s.setHelm h k).hostMessage = s.hostMessage := rfl
@[simp] theorem State.setHelm_live (s : State) (h : Nat) (k : Helm) : (s.setHelm h k).live = s.live := rfl
@[simp] theorem State.setHelm_rcount (s : State) (h : Nat) (k : Helm) : (s.setHelm h k).rcount = s.rcount := rfl
@[simp] theorem State.setHelm_easyall (s : State) (h : Nat) (k : Helm) : (s.setHelm h k).easyall = s.easyall := rfl
@[simp] theorem State.setHelm_linkup (s : State) (h : Nat) (k : Helm) : (s.setHelm h k).linkup = s.linkup := rfl
@[simp] theorem State.setHelm_spineDown (s : State) (h : Nat) (k : Helm) : (s.setHelm h k).spineDown = s.spineDown := rfl
@[simp] theorem State.setHelm_pptbase (s : State) (h : Nat) (k : Helm) : (s.setHelm h k).pptbase = s.pptbase := rfl
@[simp] theorem State.setHelm_reissue (s : State) (h : Nat) (k : Helm) : (s.setHelm h k).reissue = s.reissue := rfl
@[simp] theorem State.setHelm_flog (s : State) (h : Nat) (k : Helm) : (s.setHelm h k).flog = s.flog := rfl
@[simp] theorem State.setHelm_outstanding (s : State) (h : Nat) (k : Helm) : (s.setHelm h k).outstanding = s.outstanding := rfl
@[simp] theorem State.setHelm_nextTag (s : State) (h : Nat) (k : Helm) : (s.setHelm h k).nextTag = s.nextTag := rfl
@[simp] theorem State.setHelm_peers (s : State) (h : Nat) (k : Helm) : (s.setHelm h k).peers = s.peers := rfl
@[simp] theorem State.setHelm_learned (s : State) (h : Nat) (k : Helm) : (s.setHelm h k).learned = s.learned := rfl
@[simp] theorem State.setHelm_received (s : State) (h : Nat) (k : Helm) : (s.setHelm h k).received = s.received := rfl
@[simp] theorem State.setHelm_frozen (s : State) (h : Nat) (k : Helm) : (s.setHelm h k).frozen = s.frozen := rfl
@[simp] theorem State.setHelm_responses (s : State) (h : Nat) (k : Helm) : (s.setHelm h k).responses = s.responses := rfl
@[simp] theorem State.setHelm_incoming (s : State) (h : Nat) (k : Helm) : (s.setHelm h k).incoming = s.incoming := rfl
@[simp] theorem State.setHelm_servedAt (s : State) (h : Nat) (k : Helm) : (s.setHelm h k).servedAt = s.servedAt := rfl
@[simp] theorem State.setHelm_consumedFolds (s : State) (h : Nat) (k : Helm) : (s.setHelm h k).consumedFolds = s.consumedFolds := rfl
@[simp] theorem State.setHelm_arrived (s : State) (h : Nat) (k : Helm) : (s.setHelm h k).arrived = s.arrived := rfl
@[simp] theorem State.setHelm_ports (s : State) (h : Nat) (k : Helm) : (s.setHelm h k).ports = s.ports := rfl
@[simp] theorem State.setHelm_nextPort (s : State) (h : Nat) (k : Helm) : (s.setHelm h k).nextPort = s.nextPort := rfl
@[simp] theorem State.setHelm_tperiod (s : State) (h : Nat) (k : Helm) : (s.setHelm h k).tperiod = s.tperiod := rfl
@[simp] theorem State.setHelm_tperiodNext (s : State) (h : Nat) (k : Helm) : (s.setHelm h k).tperiodNext = s.tperiodNext := rfl
@[simp] theorem State.setHelm_rbound (s : State) (h : Nat) (k : Helm) : (s.setHelm h k).rbound = s.rbound := rfl
@[simp] theorem State.setHelm_fwTvec (s : State) (h : Nat) (k : Helm) : (s.setHelm h k).fwTvec = s.fwTvec := rfl
@[simp] theorem State.setHelm_cox (s : State) (h : Nat) (k : Helm) : (s.setHelm h k).cox = s.cox := rfl
@[simp] theorem State.setHelm_tick (s : State) (h : Nat) (k : Helm) : (s.setHelm h k).tick = s.tick := rfl
@[simp] theorem State.setHelm_cycle (s : State) (h : Nat) (k : Helm) : (s.setHelm h k).cycle = s.cycle := rfl
@[simp] theorem State.setHelm_elog (s : State) (h : Nat) (k : Helm) : (s.setHelm h k).elog = s.elog := rfl
@[simp] theorem State.setHelm_mctgt (s : State) (h : Nat) (k : Helm) : (s.setHelm h k).mctgt = s.mctgt := rfl
@[simp] theorem State.setHelm_scrub (s : State) (h : Nat) (k : Helm) : (s.setHelm h k).scrub = s.scrub := rfl
@[simp] theorem State.setHelm_scrubAt (s : State) (h : Nat) (k : Helm) : (s.setHelm h k).scrubAt = s.scrubAt := rfl
@[simp] theorem State.setHelm_rebuildlim (s : State) (h : Nat) (k : Helm) : (s.setHelm h k).rebuildlim = s.rebuildlim := rfl
@[simp] theorem State.setHelm_cecount (s : State) (h : Nat) (k : Helm) : (s.setHelm h k).cecount = s.cecount := rfl
@[simp] theorem State.setHelm_uecount (s : State) (h : Nat) (k : Helm) : (s.setHelm h k).uecount = s.uecount := rfl
@[simp] theorem State.setHelm_evwait (s : State) (h : Nat) (k : Helm) : (s.setHelm h k).evwait = s.evwait := rfl
@[simp] theorem State.setHelm_fenced (s : State) (h : Nat) (k : Helm) : (s.setHelm h k).fenced = s.fenced := rfl
@[simp] theorem State.setHelm_eventSet (s : State) (h : Nat) (k : Helm) : (s.setHelm h k).eventSet = s.eventSet := rfl
@[simp] theorem State.setHelm_fwEvents (s : State) (h : Nat) (k : Helm) : (s.setHelm h k).fwEvents = s.fwEvents := rfl
@[simp] theorem State.setHelm_poolPortsFailed (s : State) (h : Nat) (k : Helm) : (s.setHelm h k).poolPortsFailed = s.poolPortsFailed := rfl
@[simp] theorem State.setHelm_mailbox (s : State) (h : Nat) (k : Helm) : (s.setHelm h k).mailbox = s.mailbox := rfl
@[simp] theorem State.setHelm_bootOpen (s : State) (h : Nat) (k : Helm) : (s.setHelm h k).bootOpen = s.bootOpen := rfl
@[simp] theorem State.setHelm_minSvn (s : State) (h : Nat) (k : Helm) : (s.setHelm h k).minSvn = s.minSvn := rfl
@[simp] theorem State.setHelm_runSvn (s : State) (h : Nat) (k : Helm) : (s.setHelm h k).runSvn = s.runSvn := rfl
@[simp] theorem State.setHelm_fwvalid (s : State) (h : Nat) (k : Helm) : (s.setHelm h k).fwvalid = s.fwvalid := rfl
@[simp] theorem State.setHelm_fwmeas (s : State) (h : Nat) (k : Helm) : (s.setHelm h k).fwmeas = s.fwmeas := rfl
@[simp] theorem State.setHelm_kvalid (s : State) (h : Nat) (k : Helm) : (s.setHelm h k).kvalid = s.kvalid := rfl
@[simp] theorem State.setHelm_kmeas (s : State) (h : Nat) (k : Helm) : (s.setHelm h k).kmeas = s.kmeas := rfl
@[simp] theorem State.setHelm_kload (s : State) (h : Nat) (k : Helm) : (s.setHelm h k).kload = s.kload := rfl
@[simp] theorem State.setHelm_hostReply (s : State) (h : Nat) (k : Helm) : (s.setHelm h k).hostReply = s.hostReply := rfl
@[simp] theorem State.setHelm_slowMatrix (s : State) (h : Nat) (k : Helm) : (s.setHelm h k).slowMatrix = s.slowMatrix := rfl
@[simp] theorem State.setHelm_stopped (s : State) (h : Nat) (k : Helm) : (s.setHelm h k).stopped = s.stopped := rfl
@[simp] theorem State.setHelm_agenda (s : State) (h : Nat) (k : Helm) : (s.setHelm h k).agenda = s.agenda := rfl
@[simp] theorem State.setHelm_cur (s : State) (h : Nat) (k : Helm) : (s.setHelm h k).cur = s.cur := rfl
@[simp] theorem State.setHelm_phase (s : State) (h : Nat) (k : Helm) : (s.setHelm h k).phase = s.phase := rfl
@[simp] theorem State.setHelm_steps (s : State) (h : Nat) (k : Helm) : (s.setHelm h k).steps = s.steps := rfl
@[simp] theorem State.setHelm_draws (s : State) (h : Nat) (k : Helm) : (s.setHelm h k).draws = s.draws := rfl

/-! ### The Cox is changed -/

@[simp] theorem State.modCox_strands (s : State) (f : Cox → Cox) : (s.modCox f).strands = s.strands := rfl
@[simp] theorem State.modCox_helms (s : State) (f : Cox → Cox) : (s.modCox f).helms = s.helms := rfl
@[simp] theorem State.modCox_clusters (s : State) (f : Cox → Cox) : (s.modCox f).clusters = s.clusters := rfl
@[simp] theorem State.modCox_lmem (s : State) (f : Cox → Cox) : (s.modCox f).lmem = s.lmem := rfl
@[simp] theorem State.modCox_tags (s : State) (f : Cox → Cox) : (s.modCox f).tags = s.tags := rfl
@[simp] theorem State.modCox_empties (s : State) (f : Cox → Cox) : (s.modCox f).empties = s.empties := rfl
@[simp] theorem State.modCox_pmem (s : State) (f : Cox → Cox) : (s.modCox f).pmem = s.pmem := rfl
@[simp] theorem State.modCox_units (s : State) (f : Cox → Cox) : (s.modCox f).units = s.units := rfl
@[simp] theorem State.modCox_localMarks (s : State) (f : Cox → Cox) : (s.modCox f).localMarks = s.localMarks := rfl
@[simp] theorem State.modCox_physMarks (s : State) (f : Cox → Cox) : (s.modCox f).physMarks = s.physMarks := rfl
@[simp] theorem State.modCox_pool (s : State) (f : Cox → Cox) : (s.modCox f).pool = s.pool := rfl
@[simp] theorem State.modCox_hostCache (s : State) (f : Cox → Cox) : (s.modCox f).hostCache = s.hostCache := rfl
@[simp] theorem State.modCox_walks (s : State) (f : Cox → Cox) : (s.modCox f).walks = s.walks := rfl
@[simp] theorem State.modCox_keys (s : State) (f : Cox → Cox) : (s.modCox f).keys = s.keys := rfl
@[simp] theorem State.modCox_modnum (s : State) (f : Cox → Cox) : (s.modCox f).modnum = s.modnum := rfl
@[simp] theorem State.modCox_owntab (s : State) (f : Cox → Cox) : (s.modCox f).owntab = s.owntab := rfl
@[simp] theorem State.modCox_keysel (s : State) (f : Cox → Cox) : (s.modCox f).keysel = s.keysel := rfl
@[simp] theorem State.modCox_keydata (s : State) (f : Cox → Cox) : (s.modCox f).keydata = s.keydata := rfl
@[simp] theorem State.modCox_vlog (s : State) (f : Cox → Cox) : (s.modCox f).vlog = s.vlog := rfl
@[simp] theorem State.modCox_poolcsz (s : State) (f : Cox → Cox) : (s.modCox f).poolcsz = s.poolcsz := rfl
@[simp] theorem State.modCox_pcflush (s : State) (f : Cox → Cox) : (s.modCox f).pcflush = s.pcflush := rfl
@[simp] theorem State.modCox_pchit (s : State) (f : Cox → Cox) : (s.modCox f).pchit = s.pchit := rfl
@[simp] theorem State.modCox_pcmiss (s : State) (f : Cox → Cox) : (s.modCox f).pcmiss = s.pcmiss := rfl
@[simp] theorem State.modCox_pports (s : State) (f : Cox → Cox) : (s.modCox f).pports = s.pports := rfl
@[simp] theorem State.modCox_fqtab (s : State) (f : Cox → Cox) : (s.modCox f).fqtab = s.fqtab := rfl
@[simp] theorem State.modCox_foldtab (s : State) (f : Cox → Cox) : (s.modCox f).foldtab = s.foldtab := rfl
@[simp] theorem State.modCox_ptime (s : State) (f : Cox → Cox) : (s.modCox f).ptime = s.ptime := rfl
@[simp] theorem State.modCox_hpstat (s : State) (f : Cox → Cox) : (s.modCox f).hpstat = s.hpstat := rfl
@[simp] theorem State.modCox_windows (s : State) (f : Cox → Cox) : (s.modCox f).windows = s.windows := rfl
@[simp] theorem State.modCox_hevb (s : State) (f : Cox → Cox) : (s.modCox f).hevb = s.hevb := rfl
@[simp] theorem State.modCox_hevl (s : State) (f : Cox → Cox) : (s.modCox f).hevl = s.hevl := rfl
@[simp] theorem State.modCox_hostMessage (s : State) (f : Cox → Cox) : (s.modCox f).hostMessage = s.hostMessage := rfl
@[simp] theorem State.modCox_live (s : State) (f : Cox → Cox) : (s.modCox f).live = s.live := rfl
@[simp] theorem State.modCox_rcount (s : State) (f : Cox → Cox) : (s.modCox f).rcount = s.rcount := rfl
@[simp] theorem State.modCox_easyall (s : State) (f : Cox → Cox) : (s.modCox f).easyall = s.easyall := rfl
@[simp] theorem State.modCox_linkup (s : State) (f : Cox → Cox) : (s.modCox f).linkup = s.linkup := rfl
@[simp] theorem State.modCox_spineDown (s : State) (f : Cox → Cox) : (s.modCox f).spineDown = s.spineDown := rfl
@[simp] theorem State.modCox_pptbase (s : State) (f : Cox → Cox) : (s.modCox f).pptbase = s.pptbase := rfl
@[simp] theorem State.modCox_reissue (s : State) (f : Cox → Cox) : (s.modCox f).reissue = s.reissue := rfl
@[simp] theorem State.modCox_flog (s : State) (f : Cox → Cox) : (s.modCox f).flog = s.flog := rfl
@[simp] theorem State.modCox_outstanding (s : State) (f : Cox → Cox) : (s.modCox f).outstanding = s.outstanding := rfl
@[simp] theorem State.modCox_nextTag (s : State) (f : Cox → Cox) : (s.modCox f).nextTag = s.nextTag := rfl
@[simp] theorem State.modCox_peers (s : State) (f : Cox → Cox) : (s.modCox f).peers = s.peers := rfl
@[simp] theorem State.modCox_learned (s : State) (f : Cox → Cox) : (s.modCox f).learned = s.learned := rfl
@[simp] theorem State.modCox_received (s : State) (f : Cox → Cox) : (s.modCox f).received = s.received := rfl
@[simp] theorem State.modCox_frozen (s : State) (f : Cox → Cox) : (s.modCox f).frozen = s.frozen := rfl
@[simp] theorem State.modCox_responses (s : State) (f : Cox → Cox) : (s.modCox f).responses = s.responses := rfl
@[simp] theorem State.modCox_incoming (s : State) (f : Cox → Cox) : (s.modCox f).incoming = s.incoming := rfl
@[simp] theorem State.modCox_servedAt (s : State) (f : Cox → Cox) : (s.modCox f).servedAt = s.servedAt := rfl
@[simp] theorem State.modCox_consumedFolds (s : State) (f : Cox → Cox) : (s.modCox f).consumedFolds = s.consumedFolds := rfl
@[simp] theorem State.modCox_arrived (s : State) (f : Cox → Cox) : (s.modCox f).arrived = s.arrived := rfl
@[simp] theorem State.modCox_ports (s : State) (f : Cox → Cox) : (s.modCox f).ports = s.ports := rfl
@[simp] theorem State.modCox_nextPort (s : State) (f : Cox → Cox) : (s.modCox f).nextPort = s.nextPort := rfl
@[simp] theorem State.modCox_tperiod (s : State) (f : Cox → Cox) : (s.modCox f).tperiod = s.tperiod := rfl
@[simp] theorem State.modCox_tperiodNext (s : State) (f : Cox → Cox) : (s.modCox f).tperiodNext = s.tperiodNext := rfl
@[simp] theorem State.modCox_rbound (s : State) (f : Cox → Cox) : (s.modCox f).rbound = s.rbound := rfl
@[simp] theorem State.modCox_fwTvec (s : State) (f : Cox → Cox) : (s.modCox f).fwTvec = s.fwTvec := rfl
@[simp] theorem State.modCox_tick (s : State) (f : Cox → Cox) : (s.modCox f).tick = s.tick := rfl
@[simp] theorem State.modCox_cycle (s : State) (f : Cox → Cox) : (s.modCox f).cycle = s.cycle := rfl
@[simp] theorem State.modCox_elog (s : State) (f : Cox → Cox) : (s.modCox f).elog = s.elog := rfl
@[simp] theorem State.modCox_mctgt (s : State) (f : Cox → Cox) : (s.modCox f).mctgt = s.mctgt := rfl
@[simp] theorem State.modCox_scrub (s : State) (f : Cox → Cox) : (s.modCox f).scrub = s.scrub := rfl
@[simp] theorem State.modCox_scrubAt (s : State) (f : Cox → Cox) : (s.modCox f).scrubAt = s.scrubAt := rfl
@[simp] theorem State.modCox_rebuildlim (s : State) (f : Cox → Cox) : (s.modCox f).rebuildlim = s.rebuildlim := rfl
@[simp] theorem State.modCox_cecount (s : State) (f : Cox → Cox) : (s.modCox f).cecount = s.cecount := rfl
@[simp] theorem State.modCox_uecount (s : State) (f : Cox → Cox) : (s.modCox f).uecount = s.uecount := rfl
@[simp] theorem State.modCox_evwait (s : State) (f : Cox → Cox) : (s.modCox f).evwait = s.evwait := rfl
@[simp] theorem State.modCox_fenced (s : State) (f : Cox → Cox) : (s.modCox f).fenced = s.fenced := rfl
@[simp] theorem State.modCox_eventSet (s : State) (f : Cox → Cox) : (s.modCox f).eventSet = s.eventSet := rfl
@[simp] theorem State.modCox_fwEvents (s : State) (f : Cox → Cox) : (s.modCox f).fwEvents = s.fwEvents := rfl
@[simp] theorem State.modCox_poolPortsFailed (s : State) (f : Cox → Cox) : (s.modCox f).poolPortsFailed = s.poolPortsFailed := rfl
@[simp] theorem State.modCox_mailbox (s : State) (f : Cox → Cox) : (s.modCox f).mailbox = s.mailbox := rfl
@[simp] theorem State.modCox_bootOpen (s : State) (f : Cox → Cox) : (s.modCox f).bootOpen = s.bootOpen := rfl
@[simp] theorem State.modCox_minSvn (s : State) (f : Cox → Cox) : (s.modCox f).minSvn = s.minSvn := rfl
@[simp] theorem State.modCox_runSvn (s : State) (f : Cox → Cox) : (s.modCox f).runSvn = s.runSvn := rfl
@[simp] theorem State.modCox_fwvalid (s : State) (f : Cox → Cox) : (s.modCox f).fwvalid = s.fwvalid := rfl
@[simp] theorem State.modCox_fwmeas (s : State) (f : Cox → Cox) : (s.modCox f).fwmeas = s.fwmeas := rfl
@[simp] theorem State.modCox_kvalid (s : State) (f : Cox → Cox) : (s.modCox f).kvalid = s.kvalid := rfl
@[simp] theorem State.modCox_kmeas (s : State) (f : Cox → Cox) : (s.modCox f).kmeas = s.kmeas := rfl
@[simp] theorem State.modCox_kload (s : State) (f : Cox → Cox) : (s.modCox f).kload = s.kload := rfl
@[simp] theorem State.modCox_hostReply (s : State) (f : Cox → Cox) : (s.modCox f).hostReply = s.hostReply := rfl
@[simp] theorem State.modCox_slowMatrix (s : State) (f : Cox → Cox) : (s.modCox f).slowMatrix = s.slowMatrix := rfl
@[simp] theorem State.modCox_stopped (s : State) (f : Cox → Cox) : (s.modCox f).stopped = s.stopped := rfl
@[simp] theorem State.modCox_agenda (s : State) (f : Cox → Cox) : (s.modCox f).agenda = s.agenda := rfl
@[simp] theorem State.modCox_cur (s : State) (f : Cox → Cox) : (s.modCox f).cur = s.cur := rfl
@[simp] theorem State.modCox_phase (s : State) (f : Cox → Cox) : (s.modCox f).phase = s.phase := rfl
@[simp] theorem State.modCox_steps (s : State) (f : Cox → Cox) : (s.modCox f).steps = s.steps := rfl
@[simp] theorem State.modCox_draws (s : State) (f : Cox → Cox) : (s.modCox f).draws = s.draws := rfl

/-! ### Strands, clusters and helms beside each other -/

@[simp] theorem State.strand_setCluster (s : State) (c : Nat) (k : Cluster) (u : Nat) : (s.setCluster c k).strand u = s.strand u := rfl
@[simp] theorem State.strand_setHelm (s : State) (h : Nat) (k : Helm) (u : Nat) : (s.setHelm h k).strand u = s.strand u := rfl
@[simp] theorem State.strand_modCox (s : State) (f : Cox → Cox) (u : Nat) : (s.modCox f).strand u = s.strand u := rfl
@[simp] theorem State.cluster_setStrand (s : State) (u : Nat) (t : Strand) (c : Nat) : (s.setStrand u t).cluster c = s.cluster c := rfl
@[simp] theorem State.cluster_setHelm (s : State) (h : Nat) (k : Helm) (c : Nat) : (s.setHelm h k).cluster c = s.cluster c := rfl
@[simp] theorem State.cluster_modCox (s : State) (f : Cox → Cox) (c : Nat) : (s.modCox f).cluster c = s.cluster c := rfl
@[simp] theorem State.helm_setStrand (s : State) (u : Nat) (t : Strand) (h : Nat) : (s.setStrand u t).helm h = s.helm h := rfl
@[simp] theorem State.helm_setCluster (s : State) (c : Nat) (k : Cluster) (h : Nat) : (s.setCluster c k).helm h = s.helm h := rfl
@[simp] theorem State.helm_modCox (s : State) (f : Cox → Cox) (h : Nat) : (s.modCox f).helm h = s.helm h := rfl

theorem State.cluster_setCluster_other (s : State) {c d : Nat} (k : Cluster) (h : c ≠ d) : (s.setCluster c k).cluster d = s.cluster d :=
  Tab.get_set_other _ _ _ h

theorem State.helm_setHelm_other (s : State) {g h : Nat} (k : Helm) (n : g ≠ h) : (s.setHelm g k).helm h = s.helm h :=
  Tab.get_set_other _ _ _ n

@[simp] theorem State.me_become (s : State) (t : Strand) : (s.become t).me = t := strand_setStrand_same _ _ _

@[simp] theorem State.me_goesOn (s : State) (t : Strand) : (s.goesOn t).me = t.atPc (s.me.pc + 8) := strand_setStrand_same _ _ _

theorem State.strand_become_other (s : State) (t : Strand) {v : Nat} (h : v ≠ s.cur) : (s.become t).strand v = s.strand v :=
  strand_setStrand_other _ _ (Ne.symm h)

/-! ### A scalar register is written (R163, R169) -/

@[simp] theorem Strand.writeX_resident (t : Strand) (r : Reg) (w : Word) : (t.writeX r w).resident = t.resident := by
  unfold Strand.writeX; split <;> rfl
@[simp] theorem Strand.writeX_gang (t : Strand) (r : Reg) (w : Word) : (t.writeX r w).gang = t.gang := by
  unfold Strand.writeX; split <;> rfl
@[simp] theorem Strand.writeX_crew (t : Strand) (r : Reg) (w : Word) : (t.writeX r w).crew = t.crew := by
  unfold Strand.writeX; split <;> rfl
@[simp] theorem Strand.writeX_pos (t : Strand) (r : Reg) (w : Word) : (t.writeX r w).pos = t.pos := by
  unfold Strand.writeX; split <;> rfl
@[simp] theorem Strand.writeX_pc (t : Strand) (r : Reg) (w : Word) : (t.writeX r w).pc = t.pc := by
  unfold Strand.writeX; split <;> rfl
@[simp] theorem Strand.writeX_shadow (t : Strand) (r : Reg) (w : Word) : (t.writeX r w).shadow = t.shadow := by
  unfold Strand.writeX; split <;> rfl
@[simp] theorem Strand.writeX_v (t : Strand) (r : Reg) (w : Word) : (t.writeX r w).v = t.v := by
  unfold Strand.writeX; split <;> rfl
@[simp] theorem Strand.writeX_p (t : Strand) (r : Reg) (w : Word) : (t.writeX r w).p = t.p := by
  unfold Strand.writeX; split <;> rfl
@[simp] theorem Strand.writeX_vMirror (t : Strand) (r : Reg) (w : Word) : (t.writeX r w).vMirror = t.vMirror := by
  unfold Strand.writeX; split <;> rfl
@[simp] theorem Strand.writeX_pMirror (t : Strand) (r : Reg) (w : Word) : (t.writeX r w).pMirror = t.pMirror := by
  unfold Strand.writeX; split <;> rfl
@[simp] theorem Strand.writeX_vl (t : Strand) (r : Reg) (w : Word) : (t.writeX r w).vl = t.vl := by
  unfold Strand.writeX; split <;> rfl
@[simp] theorem Strand.writeX_vtype (t : Strand) (r : Reg) (w : Word) : (t.writeX r w).vtype = t.vtype := by
  unfold Strand.writeX; split <;> rfl
@[simp] theorem Strand.writeX_lanes (t : Strand) (r : Reg) (w : Word) : (t.writeX r w).lanes = t.lanes := by
  unfold Strand.writeX; split <;> rfl
@[simp] theorem Strand.writeX_protectedMode (t : Strand) (r : Reg) (w : Word) : (t.writeX r w).protectedMode = t.protectedMode := by
  unfold Strand.writeX; split <;> rfl
@[simp] theorem Strand.writeX_modeReg (t : Strand) (r : Reg) (w : Word) : (t.writeX r w).modeReg = t.modeReg := by
  unfold Strand.writeX; split <;> rfl
@[simp] theorem Strand.writeX_ecarry (t : Strand) (r : Reg) (w : Word) : (t.writeX r w).ecarry = t.ecarry := by
  unfold Strand.writeX; split <;> rfl
@[simp] theorem Strand.writeX_msel (t : Strand) (r : Reg) (w : Word) : (t.writeX r w).msel = t.msel := by
  unfold Strand.writeX; split <;> rfl
@[simp] theorem Strand.writeX_fmask (t : Strand) (r : Reg) (w : Word) : (t.writeX r w).fmask = t.fmask := by
  unfold Strand.writeX; split <;> rfl
@[simp] theorem Strand.writeX_pmask (t : Strand) (r : Reg) (w : Word) : (t.writeX r w).pmask = t.pmask := by
  unfold Strand.writeX; split <;> rfl
@[simp] theorem Strand.writeX_amask (t : Strand) (r : Reg) (w : Word) : (t.writeX r w).amask = t.amask := by
  unfold Strand.writeX; split <;> rfl
@[simp] theorem Strand.writeX_spillcnt (t : Strand) (r : Reg) (w : Word) : (t.writeX r w).spillcnt = t.spillcnt := by
  unfold Strand.writeX; split <;> rfl
@[simp] theorem Strand.writeX_mgrant (t : Strand) (r : Reg) (w : Word) : (t.writeX r w).mgrant = t.mgrant := by
  unfold Strand.writeX; split <;> rfl
@[simp] theorem Strand.writeX_tol (t : Strand) (r : Reg) (w : Word) : (t.writeX r w).tol = t.tol := by
  unfold Strand.writeX; split <;> rfl
@[simp] theorem Strand.writeX_uivec (t : Strand) (r : Reg) (w : Word) : (t.writeX r w).uivec = t.uivec := by
  unfold Strand.writeX; split <;> rfl
@[simp] theorem Strand.writeX_uiepc (t : Strand) (r : Reg) (w : Word) : (t.writeX r w).uiepc = t.uiepc := by
  unfold Strand.writeX; split <;> rfl
@[simp] theorem Strand.writeX_uie (t : Strand) (r : Reg) (w : Word) : (t.writeX r w).uie = t.uie := by
  unfold Strand.writeX; split <;> rfl
@[simp] theorem Strand.writeX_uia (t : Strand) (r : Reg) (w : Word) : (t.writeX r w).uia = t.uia := by
  unfold Strand.writeX; split <;> rfl
@[simp] theorem Strand.writeX_mode (t : Strand) (r : Reg) (w : Word) : (t.writeX r w).mode = t.mode := by
  unfold Strand.writeX; split <;> rfl
@[simp] theorem Strand.writeX_pmode (t : Strand) (r : Reg) (w : Word) : (t.writeX r w).pmode = t.pmode := by
  unfold Strand.writeX; split <;> rfl
@[simp] theorem Strand.writeX_kie (t : Strand) (r : Reg) (w : Word) : (t.writeX r w).kie = t.kie := by
  unfold Strand.writeX; split <;> rfl
@[simp] theorem Strand.writeX_pkie (t : Strand) (r : Reg) (w : Word) : (t.writeX r w).pkie = t.pkie := by
  unfold Strand.writeX; split <;> rfl
@[simp] theorem Strand.writeX_prot (t : Strand) (r : Reg) (w : Word) : (t.writeX r w).prot = t.prot := by
  unfold Strand.writeX; split <;> rfl
@[simp] theorem Strand.writeX_fpmode (t : Strand) (r : Reg) (w : Word) : (t.writeX r w).fpmode = t.fpmode := by
  unfold Strand.writeX; split <;> rfl
@[simp] theorem Strand.writeX_fpkie (t : Strand) (r : Reg) (w : Word) : (t.writeX r w).fpkie = t.fpkie := by
  unfold Strand.writeX; split <;> rfl
@[simp] theorem Strand.writeX_tvec (t : Strand) (r : Reg) (w : Word) : (t.writeX r w).tvec = t.tvec := by
  unfold Strand.writeX; split <;> rfl
@[simp] theorem Strand.writeX_epc (t : Strand) (r : Reg) (w : Word) : (t.writeX r w).epc = t.epc := by
  unfold Strand.writeX; split <;> rfl
@[simp] theorem Strand.writeX_cause (t : Strand) (r : Reg) (w : Word) : (t.writeX r w).cause = t.cause := by
  unfold Strand.writeX; split <;> rfl
@[simp] theorem Strand.writeX_tval (t : Strand) (r : Reg) (w : Word) : (t.writeX r w).tval = t.tval := by
  unfold Strand.writeX; split <;> rfl
@[simp] theorem Strand.writeX_owner (t : Strand) (r : Reg) (w : Word) : (t.writeX r w).owner = t.owner := by
  unfold Strand.writeX; split <;> rfl
@[simp] theorem Strand.writeX_share (t : Strand) (r : Reg) (w : Word) : (t.writeX r w).share = t.share := by
  unfold Strand.writeX; split <;> rfl
@[simp] theorem Strand.writeX_kscratch (t : Strand) (r : Reg) (w : Word) : (t.writeX r w).kscratch = t.kscratch := by
  unfold Strand.writeX; split <;> rfl
@[simp] theorem Strand.writeX_ftvec (t : Strand) (r : Reg) (w : Word) : (t.writeX r w).ftvec = t.ftvec := by
  unfold Strand.writeX; split <;> rfl
@[simp] theorem Strand.writeX_fepc (t : Strand) (r : Reg) (w : Word) : (t.writeX r w).fepc = t.fepc := by
  unfold Strand.writeX; split <;> rfl
@[simp] theorem Strand.writeX_fcause (t : Strand) (r : Reg) (w : Word) : (t.writeX r w).fcause = t.fcause := by
  unfold Strand.writeX; split <;> rfl
@[simp] theorem Strand.writeX_ftval (t : Strand) (r : Reg) (w : Word) : (t.writeX r w).ftval = t.ftval := by
  unfold Strand.writeX; split <;> rfl
@[simp] theorem Strand.writeX_fscratch (t : Strand) (r : Reg) (w : Word) : (t.writeX r w).fscratch = t.fscratch := by
  unfold Strand.writeX; split <;> rfl
@[simp] theorem Strand.writeX_k (t : Strand) (r : Reg) (w : Word) : (t.writeX r w).k = t.k := by
  unfold Strand.writeX; split <;> rfl
@[simp] theorem Strand.writeX_pendingRec (t : Strand) (r : Reg) (w : Word) : (t.writeX r w).pendingRec = t.pendingRec := by
  unfold Strand.writeX; split <;> rfl
@[simp] theorem Strand.writeX_assembling (t : Strand) (r : Reg) (w : Word) : (t.writeX r w).assembling = t.assembling := by
  unfold Strand.writeX; split <;> rfl
@[simp] theorem Strand.writeX_held (t : Strand) (r : Reg) (w : Word) : (t.writeX r w).held = t.held := by
  unfold Strand.writeX; split <;> rfl
@[simp] theorem Strand.writeX_openInstrs (t : Strand) (r : Reg) (w : Word) : (t.writeX r w).openInstrs = t.openInstrs := by
  unfold Strand.writeX; split <;> rfl
@[simp] theorem Strand.writeX_detachNotes (t : Strand) (r : Reg) (w : Word) : (t.writeX r w).detachNotes = t.detachNotes := by
  unfold Strand.writeX; split <;> rfl
@[simp] theorem Strand.writeX_nextIid (t : Strand) (r : Reg) (w : Word) : (t.writeX r w).nextIid = t.nextIid := by
  unfold Strand.writeX; split <;> rfl
@[simp] theorem Strand.writeX_bound (t : Strand) (r : Reg) (w : Word) : (t.writeX r w).bound = t.bound := by
  unfold Strand.writeX; split <;> rfl
@[simp] theorem Strand.writeX_streams (t : Strand) (r : Reg) (w : Word) : (t.writeX r w).streams = t.streams := by
  unfold Strand.writeX; split <;> rfl
@[simp] theorem Strand.writeX_writeBuffer (t : Strand) (r : Reg) (w : Word) : (t.writeX r w).writeBuffer = t.writeBuffer := by
  unfold Strand.writeX; split <;> rfl
@[simp] theorem Strand.writeX_forwarded (t : Strand) (r : Reg) (w : Word) : (t.writeX r w).forwarded = t.forwarded := by
  unfold Strand.writeX; split <;> rfl
@[simp] theorem Strand.writeX_kept (t : Strand) (r : Reg) (w : Word) : (t.writeX r w).kept = t.kept := by
  unfold Strand.writeX; split <;> rfl
@[simp] theorem Strand.writeX_issue (t : Strand) (r : Reg) (w : Word) : (t.writeX r w).issue = t.issue := by
  unfold Strand.writeX; split <;> rfl
@[simp] theorem Strand.writeX_colTrap (t : Strand) (r : Reg) (w : Word) : (t.writeX r w).colTrap = t.colTrap := by
  unfold Strand.writeX; split <;> rfl
@[simp] theorem Strand.writeX_waitsOn (t : Strand) (r : Reg) (w : Word) : (t.writeX r w).waitsOn = t.waitsOn := by
  unfold Strand.writeX; split <;> rfl
@[simp] theorem Strand.writeX_preempt (t : Strand) (r : Reg) (w : Word) : (t.writeX r w).preempt = t.preempt := by
  unfold Strand.writeX; split <;> rfl
@[simp] theorem Strand.writeX_preempted (t : Strand) (r : Reg) (w : Word) : (t.writeX r w).preempted = t.preempted := by
  unfold Strand.writeX; split <;> rfl
@[simp] theorem Strand.writeX_cfg (t : Strand) (r : Reg) (w : Word) : (t.writeX r w).cfg = t.cfg := by
  unfold Strand.writeX; split <;> rfl
@[simp] theorem Strand.writeX_resumeMode (t : Strand) (r : Reg) (w : Word) : (t.writeX r w).resumeMode = t.resumeMode := by
  unfold Strand.writeX; split <;> rfl
@[simp] theorem Strand.writeX_pcount (t : Strand) (r : Reg) (w : Word) : (t.writeX r w).pcount = t.pcount := by
  unfold Strand.writeX; split <;> rfl
@[simp] theorem Strand.writeX_wfree (t : Strand) (r : Reg) (w : Word) : (t.writeX r w).wfree = t.wfree := by
  unfold Strand.writeX; split <;> rfl
@[simp] theorem Strand.writeX_svlmax (t : Strand) (r : Reg) (w : Word) : (t.writeX r w).svlmax = t.svlmax := by
  unfold Strand.writeX; split <;> rfl
@[simp] theorem Strand.writeX_rpend (t : Strand) (r : Reg) (w : Word) : (t.writeX r w).rpend = t.rpend := by
  unfold Strand.writeX; split <;> rfl
@[simp] theorem Strand.writeX_ctxptr (t : Strand) (r : Reg) (w : Word) : (t.writeX r w).ctxptr = t.ctxptr := by
  unfold Strand.writeX; split <;> rfl
@[simp] theorem Strand.writeX_rlanes (t : Strand) (r : Reg) (w : Word) : (t.writeX r w).rlanes = t.rlanes := by
  unfold Strand.writeX; split <;> rfl
@[simp] theorem Strand.writeX_reshapeTarget (t : Strand) (r : Reg) (w : Word) : (t.writeX r w).reshapeTarget = t.reshapeTarget := by
  unfold Strand.writeX; split <;> rfl
@[simp] theorem Strand.writeX_reshapePend (t : Strand) (r : Reg) (w : Word) : (t.writeX r w).reshapePend = t.reshapePend := by
  unfold Strand.writeX; split <;> rfl
@[simp] theorem Strand.writeX_tinfo (t : Strand) (r : Reg) (w : Word) : (t.writeX r w).tinfo = t.tinfo := by
  unfold Strand.writeX; split <;> rfl
@[simp] theorem Strand.writeX_dcfgr (t : Strand) (r : Reg) (w : Word) : (t.writeX r w).dcfgr = t.dcfgr := by
  unfold Strand.writeX; split <;> rfl
@[simp] theorem Strand.writeX_dcfgl (t : Strand) (r : Reg) (w : Word) : (t.writeX r w).dcfgl = t.dcfgl := by
  unfold Strand.writeX; split <;> rfl
@[simp] theorem Strand.writeX_fabpend (t : Strand) (r : Reg) (w : Word) : (t.writeX r w).fabpend = t.fabpend := by
  unfold Strand.writeX; split <;> rfl
@[simp] theorem Strand.writeX_fabcode (t : Strand) (r : Reg) (w : Word) : (t.writeX r w).fabcode = t.fabcode := by
  unfold Strand.writeX; split <;> rfl
@[simp] theorem Strand.writeX_fabaddr (t : Strand) (r : Reg) (w : Word) : (t.writeX r w).fabaddr = t.fabaddr := by
  unfold Strand.writeX; split <;> rfl
@[simp] theorem Strand.writeX_fabseq (t : Strand) (r : Reg) (w : Word) : (t.writeX r w).fabseq = t.fabseq := by
  unfold Strand.writeX; split <;> rfl
@[simp] theorem Strand.writeX_pq (t : Strand) (r : Reg) (w : Word) : (t.writeX r w).pq = t.pq := by
  unfold Strand.writeX; split <;> rfl

/-! ### The program counter moves -/

@[simp] theorem Strand.atPc_pc (t : Strand) (pc : Word) : (t.atPc pc).pc = pc := rfl
@[simp] theorem Strand.atPc_resident (t : Strand) (pc : Word) : (t.atPc pc).resident = t.resident := rfl
@[simp] theorem Strand.atPc_gang (t : Strand) (pc : Word) : (t.atPc pc).gang = t.gang := rfl
@[simp] theorem Strand.atPc_crew (t : Strand) (pc : Word) : (t.atPc pc).crew = t.crew := rfl
@[simp] theorem Strand.atPc_pos (t : Strand) (pc : Word) : (t.atPc pc).pos = t.pos := rfl
@[simp] theorem Strand.atPc_x (t : Strand) (pc : Word) : (t.atPc pc).x = t.x := rfl
@[simp] theorem Strand.atPc_shadow (t : Strand) (pc : Word) : (t.atPc pc).shadow = t.shadow := rfl
@[simp] theorem Strand.atPc_v (t : Strand) (pc : Word) : (t.atPc pc).v = t.v := rfl
@[simp] theorem Strand.atPc_p (t : Strand) (pc : Word) : (t.atPc pc).p = t.p := rfl
@[simp] theorem Strand.atPc_vMirror (t : Strand) (pc : Word) : (t.atPc pc).vMirror = t.vMirror := rfl
@[simp] theorem Strand.atPc_pMirror (t : Strand) (pc : Word) : (t.atPc pc).pMirror = t.pMirror := rfl
@[simp] theorem Strand.atPc_vl (t : Strand) (pc : Word) : (t.atPc pc).vl = t.vl := rfl
@[simp] theorem Strand.atPc_vtype (t : Strand) (pc : Word) : (t.atPc pc).vtype = t.vtype := rfl
@[simp] theorem Strand.atPc_lanes (t : Strand) (pc : Word) : (t.atPc pc).lanes = t.lanes := rfl
@[simp] theorem Strand.atPc_protectedMode (t : Strand) (pc : Word) : (t.atPc pc).protectedMode = t.protectedMode := rfl
@[simp] theorem Strand.atPc_modeReg (t : Strand) (pc : Word) : (t.atPc pc).modeReg = t.modeReg := rfl
@[simp] theorem Strand.atPc_ecarry (t : Strand) (pc : Word) : (t.atPc pc).ecarry = t.ecarry := rfl
@[simp] theorem Strand.atPc_msel (t : Strand) (pc : Word) : (t.atPc pc).msel = t.msel := rfl
@[simp] theorem Strand.atPc_fmask (t : Strand) (pc : Word) : (t.atPc pc).fmask = t.fmask := rfl
@[simp] theorem Strand.atPc_pmask (t : Strand) (pc : Word) : (t.atPc pc).pmask = t.pmask := rfl
@[simp] theorem Strand.atPc_amask (t : Strand) (pc : Word) : (t.atPc pc).amask = t.amask := rfl
@[simp] theorem Strand.atPc_spillcnt (t : Strand) (pc : Word) : (t.atPc pc).spillcnt = t.spillcnt := rfl
@[simp] theorem Strand.atPc_mgrant (t : Strand) (pc : Word) : (t.atPc pc).mgrant = t.mgrant := rfl
@[simp] theorem Strand.atPc_tol (t : Strand) (pc : Word) : (t.atPc pc).tol = t.tol := rfl
@[simp] theorem Strand.atPc_uivec (t : Strand) (pc : Word) : (t.atPc pc).uivec = t.uivec := rfl
@[simp] theorem Strand.atPc_uiepc (t : Strand) (pc : Word) : (t.atPc pc).uiepc = t.uiepc := rfl
@[simp] theorem Strand.atPc_uie (t : Strand) (pc : Word) : (t.atPc pc).uie = t.uie := rfl
@[simp] theorem Strand.atPc_uia (t : Strand) (pc : Word) : (t.atPc pc).uia = t.uia := rfl
@[simp] theorem Strand.atPc_mode (t : Strand) (pc : Word) : (t.atPc pc).mode = t.mode := rfl
@[simp] theorem Strand.atPc_pmode (t : Strand) (pc : Word) : (t.atPc pc).pmode = t.pmode := rfl
@[simp] theorem Strand.atPc_kie (t : Strand) (pc : Word) : (t.atPc pc).kie = t.kie := rfl
@[simp] theorem Strand.atPc_pkie (t : Strand) (pc : Word) : (t.atPc pc).pkie = t.pkie := rfl
@[simp] theorem Strand.atPc_prot (t : Strand) (pc : Word) : (t.atPc pc).prot = t.prot := rfl
@[simp] theorem Strand.atPc_fpmode (t : Strand) (pc : Word) : (t.atPc pc).fpmode = t.fpmode := rfl
@[simp] theorem Strand.atPc_fpkie (t : Strand) (pc : Word) : (t.atPc pc).fpkie = t.fpkie := rfl
@[simp] theorem Strand.atPc_tvec (t : Strand) (pc : Word) : (t.atPc pc).tvec = t.tvec := rfl
@[simp] theorem Strand.atPc_epc (t : Strand) (pc : Word) : (t.atPc pc).epc = t.epc := rfl
@[simp] theorem Strand.atPc_cause (t : Strand) (pc : Word) : (t.atPc pc).cause = t.cause := rfl
@[simp] theorem Strand.atPc_tval (t : Strand) (pc : Word) : (t.atPc pc).tval = t.tval := rfl
@[simp] theorem Strand.atPc_owner (t : Strand) (pc : Word) : (t.atPc pc).owner = t.owner := rfl
@[simp] theorem Strand.atPc_share (t : Strand) (pc : Word) : (t.atPc pc).share = t.share := rfl
@[simp] theorem Strand.atPc_kscratch (t : Strand) (pc : Word) : (t.atPc pc).kscratch = t.kscratch := rfl
@[simp] theorem Strand.atPc_ftvec (t : Strand) (pc : Word) : (t.atPc pc).ftvec = t.ftvec := rfl
@[simp] theorem Strand.atPc_fepc (t : Strand) (pc : Word) : (t.atPc pc).fepc = t.fepc := rfl
@[simp] theorem Strand.atPc_fcause (t : Strand) (pc : Word) : (t.atPc pc).fcause = t.fcause := rfl
@[simp] theorem Strand.atPc_ftval (t : Strand) (pc : Word) : (t.atPc pc).ftval = t.ftval := rfl
@[simp] theorem Strand.atPc_fscratch (t : Strand) (pc : Word) : (t.atPc pc).fscratch = t.fscratch := rfl
@[simp] theorem Strand.atPc_k (t : Strand) (pc : Word) : (t.atPc pc).k = t.k := rfl
@[simp] theorem Strand.atPc_pendingRec (t : Strand) (pc : Word) : (t.atPc pc).pendingRec = t.pendingRec := rfl
@[simp] theorem Strand.atPc_queue (t : Strand) (pc : Word) : (t.atPc pc).queue = t.queue := rfl
@[simp] theorem Strand.atPc_assembling (t : Strand) (pc : Word) : (t.atPc pc).assembling = t.assembling := rfl
@[simp] theorem Strand.atPc_held (t : Strand) (pc : Word) : (t.atPc pc).held = t.held := rfl
@[simp] theorem Strand.atPc_replies (t : Strand) (pc : Word) : (t.atPc pc).replies = t.replies := rfl
@[simp] theorem Strand.atPc_owed (t : Strand) (pc : Word) : (t.atPc pc).owed = t.owed := rfl
@[simp] theorem Strand.atPc_openInstrs (t : Strand) (pc : Word) : (t.atPc pc).openInstrs = t.openInstrs := rfl
@[simp] theorem Strand.atPc_detachNotes (t : Strand) (pc : Word) : (t.atPc pc).detachNotes = t.detachNotes := rfl
@[simp] theorem Strand.atPc_nextIid (t : Strand) (pc : Word) : (t.atPc pc).nextIid = t.nextIid := rfl
@[simp] theorem Strand.atPc_bound (t : Strand) (pc : Word) : (t.atPc pc).bound = t.bound := rfl
@[simp] theorem Strand.atPc_streams (t : Strand) (pc : Word) : (t.atPc pc).streams = t.streams := rfl
@[simp] theorem Strand.atPc_writeBuffer (t : Strand) (pc : Word) : (t.atPc pc).writeBuffer = t.writeBuffer := rfl
@[simp] theorem Strand.atPc_late (t : Strand) (pc : Word) : (t.atPc pc).late = t.late := rfl
@[simp] theorem Strand.atPc_forwarded (t : Strand) (pc : Word) : (t.atPc pc).forwarded = t.forwarded := rfl
@[simp] theorem Strand.atPc_kept (t : Strand) (pc : Word) : (t.atPc pc).kept = t.kept := rfl
@[simp] theorem Strand.atPc_issue (t : Strand) (pc : Word) : (t.atPc pc).issue = t.issue := rfl
@[simp] theorem Strand.atPc_colTrap (t : Strand) (pc : Word) : (t.atPc pc).colTrap = t.colTrap := rfl
@[simp] theorem Strand.atPc_waitsOn (t : Strand) (pc : Word) : (t.atPc pc).waitsOn = t.waitsOn := rfl
@[simp] theorem Strand.atPc_preempt (t : Strand) (pc : Word) : (t.atPc pc).preempt = t.preempt := rfl
@[simp] theorem Strand.atPc_preempted (t : Strand) (pc : Word) : (t.atPc pc).preempted = t.preempted := rfl
@[simp] theorem Strand.atPc_cfg (t : Strand) (pc : Word) : (t.atPc pc).cfg = t.cfg := rfl
@[simp] theorem Strand.atPc_resumeMode (t : Strand) (pc : Word) : (t.atPc pc).resumeMode = t.resumeMode := rfl
@[simp] theorem Strand.atPc_pcount (t : Strand) (pc : Word) : (t.atPc pc).pcount = t.pcount := rfl
@[simp] theorem Strand.atPc_wfree (t : Strand) (pc : Word) : (t.atPc pc).wfree = t.wfree := rfl
@[simp] theorem Strand.atPc_svlmax (t : Strand) (pc : Word) : (t.atPc pc).svlmax = t.svlmax := rfl
@[simp] theorem Strand.atPc_rpend (t : Strand) (pc : Word) : (t.atPc pc).rpend = t.rpend := rfl
@[simp] theorem Strand.atPc_ctxptr (t : Strand) (pc : Word) : (t.atPc pc).ctxptr = t.ctxptr := rfl
@[simp] theorem Strand.atPc_rlanes (t : Strand) (pc : Word) : (t.atPc pc).rlanes = t.rlanes := rfl
@[simp] theorem Strand.atPc_reshapeTarget (t : Strand) (pc : Word) : (t.atPc pc).reshapeTarget = t.reshapeTarget := rfl
@[simp] theorem Strand.atPc_reshapePend (t : Strand) (pc : Word) : (t.atPc pc).reshapePend = t.reshapePend := rfl
@[simp] theorem Strand.atPc_tinfo (t : Strand) (pc : Word) : (t.atPc pc).tinfo = t.tinfo := rfl
@[simp] theorem Strand.atPc_dcfgr (t : Strand) (pc : Word) : (t.atPc pc).dcfgr = t.dcfgr := rfl
@[simp] theorem Strand.atPc_dcfgl (t : Strand) (pc : Word) : (t.atPc pc).dcfgl = t.dcfgl := rfl
@[simp] theorem Strand.atPc_fabpend (t : Strand) (pc : Word) : (t.atPc pc).fabpend = t.fabpend := rfl
@[simp] theorem Strand.atPc_fabcode (t : Strand) (pc : Word) : (t.atPc pc).fabcode = t.fabcode := rfl
@[simp] theorem Strand.atPc_fabaddr (t : Strand) (pc : Word) : (t.atPc pc).fabaddr = t.fabaddr := rfl
@[simp] theorem Strand.atPc_fabseq (t : Strand) (pc : Word) : (t.atPc pc).fabseq = t.fabseq := rfl
@[simp] theorem Strand.atPc_pq (t : Strand) (pc : Word) : (t.atPc pc).pq = t.pq := rfl

end Sys2Proof.Machine
end

