-- ==== Sys2Proof/Tests/Slice0.lean ====
section
/-!
SUPPORT. Tests of the model: well-formedness refuses each ill-formed field; words written out from the encoding tables decode
to the instruction they stand for; and, for each statement, states and operands that meet its hypotheses.
-/

namespace Sys2Proof.Tests

open Sys2Proof.Machine

set_option Elab.async false

/-! ### Well-formedness -/

/-- One ill-formed term for each check of `Instr.wf` (R184 to R201, R263, R265), and none of them is well-formed. -/
theorem test_wf_scalar : ∀ i ∈ [
    Instr.fcmp .f32 .ltu 1 2 3, .fcmp .f32 .leu 1 2 3, .fcmp .f32 .gtu 1 2 3, .fcmp .f32 .geu 1 2 3,
    .fcvt .i64 .i64 1 2, .bcmp .uno 1 2 0, .bcmp .ord 1 2 0, .ld .d true 1 2 0, .ldIndexed .d true 1 2 3,
    .amo .add .q .module .relaxed 2 3 4, .amo .swap .q .module .relaxed 1 3 4, .amo .swap .q .module .relaxed 2 3 5,
    .amo .fadd .d .module .relaxed 2 3 4, .cas .q .module .relaxed 1 3 4, .cas .q .module .relaxed 2 3 5,
    .fence .module .relaxed, .waitd 0 1, .claim .strand 1 2 3, .tlbinv .strand .all 1 2], i.wf = false := by decide

/-- The same for the instructions of the column engine. -/
theorem test_wf_column : ∀ i ∈ [
    Instr.setvl .f32 1 (.reg 0), .vfold 1 2 0, .vcmp ⟨false, 0, false, false⟩ .eq 2 2 4 5, .vmvxToVector ⟨false, 0, false, true⟩ 1 2 3,
    .vld ⟨false, 0, false, false⟩ ⟨.e2m1, false, false, 0, .module, .default⟩ 1 2 0,
    .vst ⟨false, 0, false⟩ ⟨.f32, false, false, 0, .strand, .default⟩ 1 2 0,
    .vscadd ⟨false, 0, false⟩ ⟨.f16, false, false, 0, .module, .default⟩ 1 2 3 0,
    .vldz ⟨false, 0, false, false⟩ ⟨.i32, false, false, 0, .module, .default⟩ 1 2 3 4 false,
    .vldz ⟨false, 0, false, false⟩ ⟨.f32, true, false, 0, .module, .default⟩ 1 2 3 4 false,
    .mma .f32 .f16 1 2 0 0 1, .mma .f16 .e8m0 1 2 0 0 1, .mma .f16 .f16 1 2 0 0 0,
    .mmas .i32 .f16 .p2x4 false 1 2 3 0 0 1, .mmas .f16 .f16 .p2x4 false 1 2 3 0 0 0,
    .mext ⟨false, 0, false, false⟩ false true true 1 2 0 0, .mext ⟨false, 0, false, false⟩ false false false 1 2 0 0],
    i.wf = false := by decide


/-! ### Decoding -/

/-- A word of the scalar format: opcode, xd, xa, xb, func9, imm32 (R185). -/
def scalar (op : Byte) (xd xa xb : Reg) (func : BitVec 9) (imm : BitVec 32) : BitVec 64 := op ++ xd ++ xa ++ xb ++ func ++ imm

/-- A word of the vector format: opcode, C, G, N, Z, vd, va, vb, vc, pd, pe, func5, imm16 (R191). -/
def vector (op : Byte) (c : BitVec 1) (g : PReg) (n z : BitVec 1) (vd va vb vc : Reg) (pd pe : PReg) (func : BitVec 5)
    (imm : BitVec 16) : BitVec 64 :=
  op ++ c ++ g ++ n ++ z ++ vd ++ va ++ vb ++ vc ++ pd ++ pe ++ func ++ imm

/-- A word of the vector memory format: opcode, C, G, N, Z, vd, xa, xb, fmt, O, S, D, scope, pol, offset (R194). -/
def vmem (op : Byte) (c : BitVec 1) (g : PReg) (n z : BitVec 1) (vd xa xb : Reg) (fmt : BitVec 4) (o s : BitVec 1)
    (d : BitVec 3) (scope pol : BitVec 2) (off : BitVec 21) : BitVec 64 :=
  op ++ c ++ g ++ n ++ z ++ vd ++ xa ++ xb ++ fmt ++ o ++ s ++ d ++ scope ++ pol ++ off

/-- A word of the column format: opcode, kd, ka, kb, kc, xd, xa, op, imm (R196). -/
def column (op : Byte) (kd ka kb kc : PReg) (xd xa : Reg) (code : BitVec 4) (imm : BitVec 26) : BitVec 64 :=
  op ++ kd ++ ka ++ kb ++ kc ++ xd ++ xa ++ code ++ imm

/-- A word of the matrix format: opcode, xa, xb, xc, fmtA, fmtB, mode, imm (R198). -/
def matrix (op : Byte) (xa xb xc : Reg) (fa fb : BitVec 4) (mode : BitVec 3) (imm : BitVec 30) : BitVec 64 :=
  op ++ xa ++ xb ++ xc ++ fa ++ fb ++ mode ++ imm

/-- A word of the Drayman format: opcode, xd, xa, xb, xc, D, U, func3, RSV, op, offset (R200). -/
def drayman (op : Byte) (xd xa xb xc : Reg) (d : BitVec 3) (u : BitVec 1) (func : BitVec 3) (code : BitVec 4)
    (off : BitVec 21) : BitVec 64 :=
  op ++ xd ++ xa ++ xb ++ xc ++ d ++ u ++ func ++ (0 : BitVec 4) ++ code ++ off

/-- Each word of a list decodes to its instruction. -/
def Decodes (l : List (BitVec 64 × Instr)) : Prop := ∀ e ∈ l, decode e.1 = some e.2

/-- R181, R186: integer instructions. -/
theorem test_decode_integer : Decodes [
    (scalar 0x01 1 2 3 0 0, .add 1 2 3), (scalar 0x02 1 2 3 0 0, .sub 1 2 3), (scalar 0x03 1 2 3 0 0, .mul 1 2 3),
    (scalar 0x04 1 2 3 0 0, .mulh 1 2 3), (scalar 0x05 1 2 3 0 0, .mulhu 1 2 3), (scalar 0x06 1 2 3 0 0, .div 1 2 3),
    (scalar 0x07 1 2 3 0 0, .divu 1 2 3), (scalar 0x08 1 2 3 0 0, .rem 1 2 3), (scalar 0x09 1 2 3 0 0, .remu 1 2 3),
    (scalar 0x0a 1 2 3 0 0, .and 1 2 3), (scalar 0x0b 1 2 3 0 0, .or 1 2 3), (scalar 0x0c 1 2 3 0 0, .xor 1 2 3),
    (scalar 0x0d 1 2 3 0 0, .shl 1 2 3), (scalar 0x0e 1 2 3 0 0, .shr 1 2 3), (scalar 0x0f 1 2 3 0 0, .sra 1 2 3),
    (scalar 0x10 1 2 3 0 0, .slt 1 2 3), (scalar 0x11 1 2 3 0 0, .sltu 1 2 3), (scalar 0x12 1 2 3 0 0, .min 1 2 3),
    (scalar 0x13 1 2 3 0 0, .max 1 2 3), (scalar 0x14 1 2 0 0 0, .clz 1 2), (scalar 0x15 1 2 0 0 0, .popc 1 2),
    (scalar 0x16 1 2 3 4 0, .csel 1 2 3 4), (scalar 0x18 1 2 0 0 0xffffffff, .addi 1 2 0xffffffff),
    (scalar 0x19 1 2 0 0 7, .andi 1 2 7), (scalar 0x1a 1 2 0 0 7, .ori 1 2 7), (scalar 0x1b 1 2 0 0 7, .xori 1 2 7),
    (scalar 0x1c 1 2 0 0 63, .shli 1 2 63), (scalar 0x1d 1 2 0 0 63, .shri 1 2 63), (scalar 0x1e 1 2 0 0 63, .srai 1 2 63),
    (scalar 0x1f 31 0 0 0 0x80000000, .limm 31 0x80000000), (scalar 0x20 31 0 0 0 8, .addpc 31 8)] := by
  unfold Decodes; decide +kernel

/-- R181, R186, R187, R179: scalar floating point, control and memory. -/
theorem test_decode_scalar : Decodes [
    (scalar 0x21 1 2 3 1 0, .fadd .bf16 1 2 3), (scalar 0x22 1 2 3 0 0, .fsub .f32 1 2 3),
    (scalar 0x23 1 2 3 1 0, .fmul .bf16 1 2 3), (scalar 0x24 1 2 3 0b0000100_01 0, .fma .bf16 1 2 3 4),
    (scalar 0x25 1 2 3 0 0, .fdiv .f32 1 2 3), (scalar 0x26 1 2 0 1 0, .fsqrt .bf16 1 2),
    (scalar 0x27 1 2 3 0 0, .fmin .f32 1 2 3), (scalar 0x28 1 2 3 1 0, .fmax .bf16 1 2 3),
    (scalar 0x29 1 2 3 0b1011_01 0, .fcmp .bf16 .ord 1 2 3), (scalar 0x2a 1 2 0 0b100_001 0, .fcvt .i64 .bf16 1 2),
    (scalar 0x30 0 0 0 0 0xfffffffe, .br 0xfffffffe), ((0x31 : Byte) ++ (5 : Reg) ++ (6 : Reg) ++ 9#4 ++ 0#10 ++ 4#32, .bcmp .geu 5 6 4),
    (scalar 0x32 1 0 0 0 4, .call 1 4), (scalar 0x33 0 2 0 0 0, .ret 2), (scalar 0x34 0 2 0 0 16, .jmp 2 16),
    (scalar 0x38 1 2 0 0b1_01 0x10, .ld .h true 1 2 0x10), (scalar 0x39 1 2 3 0b0_11 0, .ldIndexed .d false 1 2 3),
    (scalar 0x3a 1 2 0 0 0x10, .st .b 1 2 0x10), (scalar 0x3b 1 2 3 2 0, .stIndexed .w 1 2 3),
    (scalar 0x3c 2 3 4 0b11_100_10 8, .amo .maxu .d .system .ar 2 3 4),
    (scalar 0x3d 2 3 4 0b01_001_11 0, .cas .q .cluster .acq 2 3 4)] := by
  unfold Decodes; decide +kernel

/-- R181, R192, R193: vector computation. -/
theorem test_decode_vector : Decodes [
    (vector 0x40 0 0 0 0 5 6 0 0 0 0 3 0, .setvl .bf16 5 (.reg 6)), (vector 0x40 0 0 0 0 5 0 0 0 0 0 1 64, .setvl .i64 5 (.imm 64)),
    (vector 0x41 0 0 0 0 0 0 0 0 0 0 2 0, .setvt .f32), (vector 0x42 0 0 0 0 1 2 0 0 0 0 0 3, .vfold 1 2 3),
    (vector 0x43 1 2 1 1 3 4 5 0 0 0 0b00011 0, .vadd ⟨true, 2, true, true⟩ true true 3 4 5),
    (vector 0x44 0 2 0 1 3 4 5 0 0 0 0b00010 0, .vsub ⟨false, 2, false, true⟩ false true 3 4 5),
    (vector 0x45 0 2 1 0 3 4 5 0 0 0 0b00101 0, .vmul ⟨false, 2, true, false⟩ true true 3 4 5),
    (vector 0x46 1 0 0 0 3 4 5 6 0 0 0 0, .vfma ⟨true, 0, false, false⟩ 3 4 5 6),
    (vector 0x47 1 0 0 0 3 4 5 6 0 0 0 0, .vfms ⟨true, 0, false, false⟩ 3 4 5 6),
    (vector 0x48 1 0 0 0 3 4 5 0 0 0 1 0, .vdiv ⟨true, 0, false, false⟩ true 3 4 5),
    (vector 0x49 1 0 0 0 3 4 0 0 0 0 0 0, .vsqrt ⟨true, 0, false, false⟩ 3 4),
    (vector 0x4a 1 0 0 0 3 4 0 0 0 0 0 0, .vrcp ⟨true, 0, false, false⟩ 3 4),
    (vector 0x4b 1 0 0 0 3 4 0 0 0 0 0 0, .vrsq ⟨true, 0, false, false⟩ 3 4),
    (vector 0x4c 1 0 0 0 3 4 0 0 0 0 0 0, .vexp2 ⟨true, 0, false, false⟩ 3 4),
    (vector 0x4d 1 0 0 0 3 4 0 0 0 0 0 0, .vlog2 ⟨true, 0, false, false⟩ 3 4),
    (vector 0x4e 1 0 0 0 3 4 5 0 0 0 1 0, .vmin ⟨true, 0, false, false⟩ true 3 4 5),
    (vector 0x4f 1 0 0 0 3 4 5 0 0 0 0 0, .vmax ⟨true, 0, false, false⟩ false 3 4 5),
    (vector 0x50 1 0 0 0 3 4 0 0 0 0 0 0, .vabs ⟨true, 0, false, false⟩ 3 4),
    (vector 0x51 1 0 0 0 3 4 0 0 0 0 0 0, .vneg ⟨true, 0, false, false⟩ 3 4),
    (vector 0x52 1 0 0 0 3 4 5 0 0 0 0 0, .vand ⟨true, 0, false, false⟩ 3 4 5),
    (vector 0x53 1 0 0 0 3 4 5 0 0 0 0 0, .vor ⟨true, 0, false, false⟩ 3 4 5),
    (vector 0x54 1 0 0 0 3 4 5 0 0 0 0 0, .vxor ⟨true, 0, false, false⟩ 3 4 5),
    (vector 0x55 1 0 0 0 3 4 5 0 0 0 0 0, .vshl ⟨true, 0, false, false⟩ 3 4 5),
    (vector 0x56 1 0 0 0 3 4 5 0 0 0 0 0, .vshr ⟨true, 0, false, false⟩ 3 4 5),
    (vector 0x57 1 0 0 0 3 4 5 0 0 0 0 0, .vsra ⟨true, 0, false, false⟩ 3 4 5),
    (vector 0x58 0 1 0 1 3 4 0 0 0 0 3 0, .vcvt ⟨false, 1, false, true⟩ .bf16 3 4),
    (vector 0x59 0 1 0 0 0 4 5 0 2 3 10 0, .vcmp ⟨false, 1, false, false⟩ .uno 2 3 4 5),
    (vector 0x5a 0 1 0 0 3 4 5 0 0 6 0 0, .vsel ⟨false, 1, false, false⟩ 3 4 5 6),
    (vector 0x5b 0 1 0 0 3 4 0 0 0 0 0 0, .vmov ⟨false, 1, false, false⟩ 3 4),
    (vector 0x5c 0 1 0 0 3 4 0 0 0 0 0 0x3fff, .vmvxToScalar ⟨false, 1, false⟩ 3 4 0x3fff),
    (vector 0x5c 0 1 0 0 3 4 0 0 0 0 1 7, .vmvxToVector ⟨false, 1, false, false⟩ 3 4 7),
    (vector 0x5d 0 1 0 0 3 4 0 0 0 0 0b01110 0, .vred ⟨false, 1, false⟩ .minu true 3 4),
    (vector 0x5e 0 1 0 0 3 4 0 0 0 0 0b00001 9, .vslide ⟨false, 1, false, false⟩ true 3 4 (.imm 9)),
    (vector 0x5e 0 1 0 0 3 4 5 0 0 0 0b00010 0, .vslide ⟨false, 1, false, false⟩ false 3 4 (.reg 5)),
    (vector 0x5f 0 1 0 0 3 4 5 0 0 0 0 0, .vperm ⟨false, 1, false, false⟩ 3 4 5),
    (vector 0x60 0 1 0 0 3 0 0 0 0 0 0 0, .viota ⟨false, 1, false, false⟩ 3)] := by
  unfold Decodes; decide +kernel

/-- The forms with a scalar or an immediate, predicates and lane movement (R192, R193). -/
theorem test_decode_vector_forms : Decodes [
    (vector 0x61 0 1 0 0 3 4 5 0 0 0 1 0, .vaddX ⟨false, 1, false, false⟩ true false 3 4 5),
    (vector 0x62 0 1 0 0 3 4 5 0 0 0 2 0, .vsubX ⟨false, 1, false, false⟩ false true 3 4 5),
    (vector 0x63 0 1 0 0 3 4 5 0 0 0 4 0, .vmulX ⟨false, 1, false, false⟩ false true 3 4 5),
    (vector 0x64 0 1 0 0 3 4 5 6 0 0 0 0, .vfmaX ⟨false, 1, false, false⟩ 3 4 5 6),
    (vector 0x65 0 1 0 0 3 4 5 6 0 0 0 0, .vfmsX ⟨false, 1, false, false⟩ 3 4 5 6),
    (vector 0x66 0 1 0 0 3 4 5 0 0 0 0 0, .vminX ⟨false, 1, false, false⟩ false 3 4 5),
    (vector 0x67 0 1 0 0 3 4 5 0 0 0 1 0, .vmaxX ⟨false, 1, false, false⟩ true 3 4 5),
    (vector 0x68 0 1 0 0 3 4 5 0 0 0 0 0, .vandX ⟨false, 1, false, false⟩ 3 4 5),
    (vector 0x69 0 1 0 0 3 4 5 0 0 0 0 0, .vorX ⟨false, 1, false, false⟩ 3 4 5),
    (vector 0x6a 0 1 0 0 3 4 5 0 0 0 0 0, .vxorX ⟨false, 1, false, false⟩ 3 4 5),
    (vector 0x6b 0 1 0 0 3 4 5 0 0 0 0 0, .vshlX ⟨false, 1, false, false⟩ 3 4 5),
    (vector 0x6c 0 1 0 0 3 4 5 0 0 0 0 0, .vshrX ⟨false, 1, false, false⟩ 3 4 5),
    (vector 0x6d 0 1 0 0 3 4 5 0 0 0 0 0, .vsraX ⟨false, 1, false, false⟩ 3 4 5),
    (vector 0x6e 0 1 0 0 3 4 0 0 0 0 3 0xffff, .vaddI ⟨false, 1, false, false⟩ true true 3 4 0xffff),
    (vector 0x6f 0 1 0 0 3 4 0 0 0 0 0 0xffff, .vandI ⟨false, 1, false, false⟩ 3 4 0xffff),
    (vector 0x70 0 1 0 0 3 4 0 0 0 0 0 0xffff, .vorI ⟨false, 1, false, false⟩ 3 4 0xffff),
    (vector 0x71 0 1 0 0 3 4 0 0 0 0 0 0xffff, .vxorI ⟨false, 1, false, false⟩ 3 4 0xffff),
    (vector 0x72 0 1 0 0 3 4 0 0 0 0 0 63, .vshlI ⟨false, 1, false, false⟩ 3 4 63),
    (vector 0x73 0 1 0 0 3 4 0 0 0 0 0 63, .vshrI ⟨false, 1, false, false⟩ 3 4 63),
    (vector 0x74 0 1 0 0 3 4 0 0 0 0 0 63, .vsraI ⟨false, 1, false, false⟩ 3 4 63),
    (vector 0x78 0 1 0 1 0 4 0 0 2 3 0 0, .pand ⟨false, 1, false, true⟩ 2 3 4),
    (vector 0x79 0 1 0 1 0 4 0 0 2 3 0 0, .por ⟨false, 1, false, true⟩ 2 3 4),
    (vector 0x7a 0 1 0 1 0 4 0 0 2 3 0 0, .pxor ⟨false, 1, false, true⟩ 2 3 4),
    (vector 0x7b 0 1 0 1 0 4 0 0 2 3 0 0, .pandn ⟨false, 1, false, true⟩ 2 3 4),
    (vector 0x7c 0 1 0 1 0 0 0 0 2 0 0 100, .pset ⟨false, 1, false, true⟩ 2 100),
    (vector 0x7d 0 1 0 0 5 0 0 0 0 3 0 0, .pcnt ⟨false, 1, false⟩ 5 3),
    (vector 0x7e 0 1 0 0 5 0 0 0 0 3 0 0, .pfirst ⟨false, 1, false⟩ 5 3),
    (vector 0x7f 0 1 0 0 0 0 0 0 2 3 0 0, .pmov ⟨false, 1, false, false⟩ 2 3),
    (vector 0x8c 0 1 0 0 3 4 0 0 0 5 0 0, .vcompress ⟨false, 1, false, false⟩ 3 4 5),
    (vector 0x8d 0 1 0 0 3 4 0 0 0 5 0 0, .vexpand ⟨false, 1, false, false⟩ 3 4 5),
    (vector 0x8e 0 1 0 0 3 0 0 0 0 5 0 0, .vpcnt ⟨false, 1, false, false⟩ 3 5),
    (vector 0x8f 0 1 0 0 3 4 0 0 0 0 0 0, .vconf ⟨false, 1, false, false⟩ 3 4),
    (vector 0x90 0 1 0 0 3 4 0 0 0 5 0b01010 0, .vscan ⟨false, 1, false, false⟩ .max true 3 4 5),
    (vector 0x91 0 1 0 0 3 4 5 0 0 0 0 0, .vlut ⟨false, 1, false, false⟩ 3 4 5),
    (vector 0x92 0 1 0 0 3 4 0 0 0 0 0 0b0000_000111_000100, .vbfx ⟨false, 1, false, false⟩ 3 4 4 7),
    (vector 0x93 0 1 0 0 0 0 0 0 2 3 0 0, .vexit ⟨false, 1, false, false⟩ 2 3),
    (vector 0xb6 0 1 0 0 3 4 0 0 0 0 0b00111 0x0210, .mext ⟨false, 1, false, false⟩ true true true 3 4 0x10 0x02)] := by
  unfold Decodes; decide +kernel

/-- R181, R194, R195: vector memory. -/
theorem test_decode_vector_memory : Decodes [
    (vmem 0x80 1 2 1 1 3 4 0 10 1 0 7 3 2 0x1fffff, .vld ⟨true, 2, true, true⟩ ⟨.e8m0, true, false, 7, .system, .keep⟩ 3 4 0x1fffff),
    (vmem 0x81 0 0 0 0 3 4 5 9 0 1 1 2 1 8, .vldStrided ⟨false, 0, false, false⟩ ⟨.i4x, false, true, 1, .module, .stream⟩ 3 4 5 8),
    (vmem 0x82 0 0 0 0 3 4 0 8 0 0 0 0 0 8, .vst ⟨false, 0, false⟩ ⟨.i4, false, false, 0, .cluster, .default⟩ 3 4 8),
    (vmem 0x83 0 0 0 0 3 4 5 7 0 0 0 1 0 8, .vstStrided ⟨false, 0, false⟩ ⟨.i8, false, false, 0, .die, .default⟩ 3 4 5 8),
    (vmem 0x84 0 0 0 0 3 4 0 6 0 0 0 2 0 8, .vldff ⟨false, 0, false, false⟩ ⟨.e5m2, false, false, 0, .module, .default⟩ 3 4 8),
    (vmem 0x85 0 0 0 0 3 4 5 5 0 0 0 2 0 8, .vgath ⟨false, 0, false, false⟩ ⟨.e4m3, false, false, 0, .module, .default⟩ 3 4 5 8),
    (vmem 0x86 0 0 0 0 3 4 5 4 0 0 0 2 0 8, .vscat ⟨false, 0, false⟩ ⟨.f16, false, false, 0, .module, .default⟩ 3 4 5 8),
    (vmem 0x87 0 0 0 0 3 4 5 3 0 0 0 2 0 8, .vscadd ⟨false, 0, false⟩ ⟨.bf16, false, false, 0, .module, .default⟩ 3 4 5 8),
    (vmem 0x88 0 0 0 0 3 4 5 2 0 0 0 2 0 8, .vldb ⟨false, 0, false, false⟩ ⟨.f32, false, false, 0, .module, .default⟩ 3 4 5 8),
    (vmem 0x89 0 0 0 0 3 4 5 1 0 0 0 2 0 8, .vstb ⟨false, 0, false⟩ ⟨.i64, false, false, 0, .module, .default⟩ 3 4 5 8),
    (vmem 0x8a 0 0 0 0 3 4 5 2 0 0 0 2 0 0b100110, .vldz ⟨false, 0, false, false⟩ ⟨.f32, false, false, 0, .module, .default⟩ 3 6 4 5 true)] := by
  unfold Decodes; decide +kernel

/-- R181, R188: synchronisation, scheduling and system instructions. -/
theorem test_decode_system : Decodes [
    (scalar 0x98 0 0 0 0b01_011 0, .fence .module .acq), (scalar 0x99 0 0 0 0 0, .lsync), (scalar 0x9a 0 0 0 0 0, .pfence),
    (scalar 0x9b 0 0 0 1 0, .bar true), (scalar 0x9c 0 0 0 0 0, .barw false), (scalar 0x9d 0 0 0 7 0xffff, .waitd 7 0xffff),
    (scalar 0x9e 1 2 3 4 0, .claim .system 1 2 3), (scalar 0x9f 0 2 3 0 0, .signal 2 3),
    (scalar 0xca 0 2 0 1 0x40, .ctab true 2 0x40), (scalar 0xd0 1 2 3 0 0, .launch 1 2 3), (scalar 0xd1 0 0 0 0 0, .yield),
    (scalar 0xd2 1 0 0 0 0, .tickw 1), (scalar 0xd3 1 2 3 0 0, .tqctlExit 1 2 3), (scalar 0xd3 1 2 3 1 0, .tqctlStat 1 2 3),
    (scalar 0xd3 1 2 3 2 0, .tqctlStop 1 2 3), (scalar 0xd3 1 2 3 3 0, .tqctlStart 1 2 3),
    (scalar 0xd3 1 2 3 4 0, .tqctlKill 1 2 3), (scalar 0xd3 1 2 3 5 0, .tqctlPeriod 1 2 3),
    (scalar 0xe0 0 0 0 0 0xff01, .trap 0xff01), (scalar 0xe1 0 0 0 0 0, .eret), (scalar 0xe2 0 0 0 0 0, .uiret),
    (scalar 0xe3 1 0 0 0 0x400, .csrr 1 0x400), (scalar 0xe4 1 2 0 0 1, .csrw 1 2 1), (scalar 0xe5 1 2 0 0 1, .csrs 1 2 1),
    (scalar 0xe6 1 2 0 0 1, .csrc 1 2 1), (scalar 0xe7 0 0 0 0 0, .fencei), (scalar 0xe8 0 2 3 0 8, .ipref 2 3 8),
    (scalar 0xe8 0 2 3 1 8, .ipin 2 3 8), (scalar 0xe8 0 2 3 2 8, .iunpin 2 3 8), (scalar 0xe9 0 2 3 0b10_100 0, .tlbinv .system .all 2 3),
    (scalar 0xea 0 0 0 0 0, .idle), (scalar 0xeb 0 2 0 0 0x80000001, .savev 2 0x80000001), (scalar 0xec 0 2 0 0 1, .restv 2 1),
    (scalar 0xed 0 2 0 0 0x8001, .savek 2 0x8001), (scalar 0xee 0 2 0 0 1, .restk 2 1)] := by
  unfold Decodes; decide +kernel

/-- R181, R196, R197: columns. -/
theorem test_decode_column : Decodes [
    (column 0xa0 1 0 0 0 0 7 0 0x3ffffe0, .kdef 1 7 0x3ffffe0), (column 0xa1 0 2 0 0 6 0 0 0, .klen 6 2),
    (column 0xa1 1 0 0 0 0 7 1 0, .klenSet 1 7), (column 0xa2 1 2 0 0 6 7 11 0, .ksel .ord 1 6 2 7),
    (column 0xa3 1 2 3 0 6 0 5 0, .kselp .ge 1 6 2 3), (column 0xa4 1 2 3 4 6 0 0 0, .kjoin 1 4 6 2 3),
    (column 0xa5 1 2 3 4 6 0 0 0, .kmjoin 1 4 6 2 3), (column 0xa6 1 2 3 0 6 0 0 0, .ksemi 1 6 2 3),
    (column 0xa6 1 2 3 0 6 0 1 0, .ksemiAnti 1 6 2 3), (column 0xa7 1 2 0 4 6 0 0 0, .kgroup 1 4 6 2),
    (column 0xa8 1 2 3 0 6 0 3 0, .kagg .max 1 6 2 3), (column 0xa9 1 2 0 0 6 0 0 0, .ksort 1 6 2),
    (column 0xaa 1 2 0 0 6 7 1 0, .ktopk true 1 6 2 7), (column 0xab 1 2 0 0 6 0 0 0, .kgath 1 6 2),
    (column 0xac 1 2 3 0 6 0 0 0, .kcat 1 6 2 3), (column 0xc8 0 2 0 0 0 0 0 7, .kbind 7 2),
    (column 0xc8 0 2 0 0 0 0 0 0b1101, .kbindAppend 5 2), (column 0xc9 0 0 0 0 0 0 0 1, .kunbind 1)] := by
  unfold Decodes; decide +kernel

/-- R181, R198 to R201: matrices, guarded launches and the Drayman. -/
theorem test_decode_engines : Decodes [
    (matrix 0xb0 1 0 0 0 0 0 0, .mattach 1), (matrix 0xb1 0 0 0 0 0 0 0, .mdetach), (matrix 0xb2 0 0 0 0 0 0 0, .mzero),
    (matrix 0xb3 1 2 0 3 11 0 0b11111111111111_00001111_00000010, .mma .bf16 .e2m1 1 2 2 15 0x3fff),
    (matrix 0xb4 1 2 0 0 0 0 0, .mmag 1 2),
    (matrix 0xb5 1 2 3 5 9 0b110 0b00000000000001_00001111_00000010, .mmas .e4m3 .i4x .p2x8 true 1 2 3 2 15 1),
    (matrix 0xb8 1 2 3 0 0 0 0, .glaunch 1 2 3), (matrix 0xb9 1 0 0 0 0 0 0, .assay 1), (matrix 0xba 0 0 0 0 0 0 0, .gend),
    (drayman 0xc0 0 2 3 0 0 0 0 0 0, .dcfg 2 3), (drayman 0xc1 1 2 3 4 7 1 1 0 0x1fffc0, .dcopy ⟨1, 2, 3, 4, 7, true, true, 0x1fffc0⟩),
    (drayman 0xc2 1 2 3 4 0 0 0 0 64, .dcopy2d ⟨1, 2, 3, 4, 0, false, false, 64⟩),
    (drayman 0xc3 1 2 3 4 2 1 1 4 8, .dred .fmax32 true 1 2 3 4 2 true 8), (drayman 0xc4 0 2 3 4 0 0 0 0 0, .dpref 2 3 4),
    (drayman 0xc5 1 0 0 0 0 0 3 0 0, .dstat .hint 1), (drayman 0xc6 0 2 0 0 0 0 0 0 0, .dcancel 2)] := by
  unfold Decodes; decide +kernel

/-- R182, R184, R186 to R202: words that no instruction has: a code that the row does not accept, a reserved field that is not
zero, and unassigned opcodes. -/
theorem test_decode_refused : ([
    scalar 0x00 0 0 0 0 0, scalar 0x17 0 0 0 0 0, scalar 0xff 0 0 0 0 0, scalar 0x01 1 2 3 1 0, scalar 0x14 1 2 3 0 0,
    scalar 0x1c 1 2 0 0 64, scalar 0x21 1 2 3 2 0, scalar 0x29 1 2 3 0b0110_00 0, scalar 0x2a 1 2 0 0b110_000 0,
    scalar 0x38 1 2 0 0b1_11 0, scalar 0x3c 2 3 4 0b00_101_10 0, scalar 0x3c 2 3 4 0b00_000_10 10, scalar 0x9d 0 0 0 0 0,
    scalar 0x98 0 0 0 0b00_011 0, scalar 0xd3 1 2 3 6 0, vector 0x40 0 1 0 0 5 6 0 0 0 0 3 0,
    vector 0x7d 0 1 0 1 5 0 0 0 0 3 0 0, vector 0x90 0 1 0 0 3 4 0 0 0 5 3 0, vmem 0x80 0 0 0 0 3 4 0 2 0 0 0 2 3 0,
    vmem 0x82 0 0 0 1 3 4 0 2 0 0 0 2 0 0, column 0xa8 1 2 3 0 6 0 4 0, matrix 0xb3 1 2 0 2 3 0 0b00000000000001_00000000_00000000,
    drayman 0xc3 1 2 3 4 2 1 1 5 8].all fun w => (decode w).isNone) = true := by
  decide +kernel

/-! ### What the hypotheses of the statements are met by

`strand0` is a strand in kernel mode under owner 1 with one lane group and a vector type of FP32; `one f` is the module with
that strand, changed by `f`, as the strand that issues. Register 1 holds a scratchpad address, register 2 a TCM address,
register 3 the least integer, register 4 minus one. Each theorem below names its statement. -/

/-- A resident strand in kernel mode, under owner 1. -/
def strand0 : Strand :=
  { Strand.empty with
    resident := true, lanes := [0], mode := .kernel, owner := 1, vtype := 2, vl := 64, pc := 0x1000, tvec := 0x2000
    x := (((Strand.empty.x.set 1 0x7e0000000000).set 2 0x7f000001fff8).set 3 0x8000000000000000).set 4 (-1) }

/-- The module with one strand. -/
def one (f : Strand → Strand) : State := { State.reset with strands := [(0, f strand0)] }

/-- The module with that strand as it is. -/
abbrev base : State := one id

/-- A member of a column queue that has not started, as strand 0 pushes it in kernel mode. -/
def member (i : Instr) : Member :=
  { word := encode i, addr := 0x40, opa := 0, opb := 0, opc := 0, opd := 0, idx := 0, pv := false, disc := false
    last := !chainBit (encode i), mode := .kernel, rm := 0, prot := false, owner := 1, iid := 1, done := false, mid := false
    consumed := false, work := none, ahead := [], reach := 0 }

theorem met_IntegerRegisterForms : base.between ∧ base.has 1 ∧ base.has 4 ∧ base.has 3 := by
  unfold State.between State.has State.settled; decide +kernel

/-- A divisor of zero, and the operands of the signed overflow. -/
theorem met_Division : base.between ∧ base.has 3 ∧ base.has 4 ∧ base.reg 0 = 0 ∧ base.reg 3 = BitVec.intMin 64 ∧
    base.reg 4 = -1 := by
  unfold State.between State.has State.settled; decide +kernel

theorem met_ImmediateForms : base.between ∧ base.has 1 := by unfold State.between State.has State.settled; decide +kernel

theorem met_FloatForms : base.between ∧ base.has 1 ∧ base.has 2 ∧ base.has 3 := by unfold State.between State.has State.settled; decide +kernel

/-- POISON of both types in a source. -/
theorem met_FloatPoison :
    let s := one fun t => { t with x := (t.x.set 5 0xfff00bad).set 6 0xfff0 }
    s.between ∧ (∀ r, s.has r) ∧ (s.reg 5).toNat % 2 ^ (FTy.ffmt .f32).width = (FTy.ffmt .f32).poison ∧
      (s.reg 6).toNat % 2 ^ (FTy.ffmt .bf16).width = (FTy.ffmt .bf16).poison ∧ (s.reg 5).toNat % 2 ^ 32 = 0xfff00bad ∧
      (s.reg 6).toNat % 2 ^ 16 = 0xfff0 := by
  unfold State.between State.has State.settled; decide +kernel

theorem met_ControlFlow : base.between ∧ base.has 1 ∧ base.has 2 ∧ (base.reg 1).toNat % 8 = 0 ∧ (base.reg 4).toNat % 8 = 7 := by
  unfold State.between State.has State.settled; decide +kernel

theorem met_ScalarFrame :
    computes (.add 5 1 2) = some (5, [1, 2], false) ∧ computes (.fma .f32 0 1 2 3) = some (0, [1, 2, 3], true) ∧ base.between ∧
      (∀ r ∈ ([1, 2, 3] : List Reg), base.has r) := by
  unfold State.between State.has State.settled; decide +kernel

/-- The first bytes of the scratchpad, and the last doubleword of the TCM. -/
theorem met_LoadWindow : base.ready ∧ base.has 1 ∧ base.has 2 ∧ (base.reg 1 + (0 : BitVec 32).signExtend 64).toNat % 8 = 0 ∧
    base.localAt (base.reg 1 + (0 : BitVec 32).signExtend 64) 8 = some (2 ^ 30) ∧ base.clean (2 ^ 30) 8 ∧
    base.localAt (base.reg 2 + base.reg 0 * BitVec.ofNat 64 8) 8 = some 0x1fff8 ∧ base.clean 0x1fff8 8 := by
  unfold State.ready State.between State.has State.settled State.clean; decide +kernel

/-- The same for a store, by a strand in user mode into a line that another owner holds. -/
theorem met_StoreWindow :
    let s := { (one fun t => { t with mode := .user }) with tags := [(2 ^ 23, 5)], lmem := [⟨2 ^ 30 + 9, 7⟩] }
    s.ready ∧ s.has 3 ∧ s.has 1 ∧ s.has 2 ∧ Memory.wf s.lmem ∧ (s.reg 1 + (0 : BitVec 32).signExtend 64).toNat % 4 = 0 ∧
      s.localAt (s.reg 1 + (0 : BitVec 32).signExtend 64) 4 = some (2 ^ 30) ∧ s.clean (2 ^ 30) 4 ∧
      s.localAt (s.reg 2 + s.reg 0 * BitVec.ofNat 64 4) 4 = some 0x1fff8 ∧ s.clean 0x1fff8 4 := by
  unfold State.ready State.between State.has State.settled State.clean; decide +kernel

theorem met_Misaligned : base.between ∧ (∀ r, base.has r) ∧
    (base.reg 1 + (1 : BitVec 32).signExtend 64).toNat % MemSize.bytes .h ≠ 0 ∧
    (base.reg 4 + base.reg 1 * BitVec.ofNat 64 (MemSize.bytes .d)).toNat % MemSize.bytes .d ≠ 0 ∧
    (base.reg 2).toNat % AmoSize.bytes .q ≠ 0 := by
  unfold State.between State.has State.settled; decide +kernel

theorem met_EmptyLineWaits :
    let s := { base with empties := [2 ^ 23] }
    s.ready ∧ s.has 3 ∧ s.has 1 ∧ (s.reg 1 + (0 : BitVec 32).signExtend 64).toNat % 1 = 0 ∧
      s.localAt (s.reg 1 + (0 : BitVec 32).signExtend 64) 1 = some (2 ^ 30) ∧ s.localFull (2 ^ 30) 1 = false := by
  unfold State.ready State.between State.has State.settled; decide +kernel

/-- A run of an operation that ends well, with what is claimed of its result. -/
theorem result_of {ε σ α : Type} {x : EStateM.Result ε σ α} (p : α → σ → Bool)
    (h : (match x with
      | .ok a s => p a s
      | .error _ _ => false) = true) : ∃ a s, x = .ok a s ∧ p a s = true := by
  cases x with
  | ok a s => exact ⟨a, s, rfl, h⟩
  | error _ _ => cases h

/-- A step that ends in a next state, with what is claimed of it. -/
theorem next_of {o : Host.Outcome State Fault Refusal} (p : State → Bool)
    (h : (match o with
      | .next t => p t
      | .fault _ => false
      | .refused _ => false) = true) : ∃ t, o = .next t ∧ p t = true := by
  cases o with
  | next t => exact ⟨t, rfl, h⟩
  | fault _ => cases h
  | refused _ => cases h

theorem met_DecodeEncode : ∀ i ∈ [Instr.add 1 2 3, .bcmp .geu 5 6 4, .cas .q .cluster .acq 2 4 6, .waitd 7 0xffff,
    .vldz ⟨false, 0, false, false⟩ ⟨.f32, false, false, 0, .module, .default⟩ 3 6 4 5 true, .mext ⟨false, 1, false, false⟩ true true true
    3 4 0x10 2, .ksel .ord 1 6 2 7, .mmas .e4m3 .i4x .p2x8 true 1 2 3 2 15 0x3fff], i.isWord = true ∧ i.wf = true := by
  decide

theorem met_DecodeAccepts : decode 0x31280400fffffffe = some (.bcmp .ne 5 0 0xfffffffe) ∧
    0xf0 ≤ ((0xff00000000000000 : BitVec 64).extractLsb' 56 8).toNat ∧ ((0x1 : BitVec 64).extractLsb' 56 8).toNat = 0 := by
  decide +kernel

/-- The module with an instruction where the next step fetches: its strand runs in kernel mode under owner 1. -/
abbrev placed (i : Instr) : State := State.reset.withFetchWord 64 (encode i).toNat

/-- A module about to fetch ADD, one about to fetch a word that decodes to nothing, and one whose line is cached. -/
theorem met_StepRunsDecoded :
    (placed (.add 1 2 3)).stopped = false ∧ (placed (.add 1 2 3)).agenda = [] ∧ (placed (.add 1 2 3)).phase = true ∧
    (placed (.add 1 2 3)).issues ∧ (∃ w t, fetchM (placed (.add 1 2 3)).cur (placed (.add 1 2 3)).turn = .ok w t ∧
      decode w = some (.add 1 2 3)) ∧
    (∃ w t, fetchM State.reset.cur (State.reset.withFetchWord 64 0).turn = .ok w t ∧ decode w = none ∧ t.cur = 0) := by
  refine ⟨by decide +kernel, by decide +kernel, by decide +kernel, by unfold State.issues; decide +kernel, ?_, ?_⟩
  · obtain ⟨w, t, h, hw⟩ := result_of (x := fetchM (placed (.add 1 2 3)).cur (placed (.add 1 2 3)).turn)
      (fun w _ => decode w == some (.add 1 2 3)) (by decide +kernel)
    exact ⟨w, t, h, by simpa using hw⟩
  · obtain ⟨w, t, h, hw⟩ := result_of (x := fetchM State.reset.cur (State.reset.withFetchWord 64 0).turn)
      (fun w t => decode w == none && t.cur == 0) (by decide +kernel)
    exact ⟨w, t, h, by simpa using hw⟩

/-- A strand whose line is in the instruction cache of its helm. -/
theorem met_StepRunsDecoded_cached :
    let s : State := { placed (.add 1 2 3) with
      helms := [(0, { icache := [⟨none, 512, 1, false, List.replicate 128 1, false⟩], dcache := [], stale := [] })] }
    s.turn.cur = s.cur ∧ ∃ p t, placeM (s.turn.scalarAgent s.cur) .fetch s.turn.me.pc 8 s.turn = .ok p t ∧
      (match p with
        | .target g => (findLine (t.helm (helmOf s.cur)).icache g.module (g.pa / 128) g.owner).isSome
        | _ => false) = true := by
  refine ⟨by decide +kernel, ?_⟩
  exact result_of _ (by decide +kernel)

/-- A step that stores a byte: the next state lists it, and the state before it has the canonical form. -/
theorem met_StepKeepsCanonical : (placed (.stIndexed .b 1 0 0)).Canonical ∧ ∃ t, step (placed (.stIndexed .b 1 0 0)) = .next t := by
  refine ⟨by unfold State.Canonical; decide +kernel, ?_⟩
  obtain ⟨t, h, _⟩ := next_of (o := step (placed (.stIndexed .b 1 0 0))) (fun _ => true) (by decide +kernel)
  exact ⟨t, h⟩

theorem met_StoppedUntilReset :
    let s := { base with stopped := true, agenda := [.row .tick] }
    let s' := { base with stopped := true, agenda := [.row .moduleReset, .issue 0] }
    s.stopped = true ∧ s.agenda.head? ≠ some (.row .moduleReset) ∧ s'.stopped = true ∧
      s'.agenda = .row .moduleReset :: [.issue 0] := by
  decide +kernel

/-- An event is pending when the step begins. -/
theorem met_EventsAtOnceWithoutWait :
    let s := { placed (.add 1 2 3) with evwait := 0, eventSet := [⟨130, 1⟩] }
    let r : State := { s with agenda := [.row .hostLinkUp] }
    s.stopped = false ∧ (r.evwait = 0 ∧ r.overflows = false ∧ r.agenda = .row .hostLinkUp :: []) ∧
      ∃ t, step s = .next t ∧ t.evwait = 0 := by
  refine ⟨by decide +kernel, by decide +kernel, ?_⟩
  obtain ⟨t, h, ht⟩ := next_of (o := step { placed (.add 1 2 3) with evwait := 0, eventSet := [⟨130, 1⟩] })
    (fun t => t.evwait == 0) (by decide +kernel)
  exact ⟨t, h, by simpa using ht⟩

/-- Strand 0 with register 5 holding an address that the placed page tables map, in module SRAM. -/
def mapped (f : Strand → Strand) : State :=
  let s := placed (.add 1 2 3)
  s.setStrand 0 (f { s.strand 0 with x := (s.strand 0).x.set 5 0x4008 })

/-- The line of that address in the write buffer. -/
def entry0 : BufEntry := ⟨⟨none, 0x4000, 1, false, .default, 0, 7⟩, (List.range 8).map fun k => (8 + k, 9), []⟩

/-- A read of the helm at a pool port, and one at the host. -/
def portRead (host : Bool) : PortRequest :=
  ⟨4, host, .helm 0, ⟨none, 0x8010000000000, 1, false, .default, 0, 7⟩, .load 8, none, []⟩

/-- A load of the strand's that may still take its value, in the line at 0x4000. -/
def late0 : LateLoad := ⟨3, 6, false, 0, ⟨none, 0x4008, 1, false, .default, 0, 7⟩, 8, false, none⟩

/-- An acquire behind a load that may still take its value, and behind one from whose value the strand has gone on. -/
theorem met_StepRunsDecoded_late :
    let p := placed (.fence .module .acq)
    let at_ (l : LateLoad) : State := p.setStrand 0 { p.strand 0 with late := [l] }
    let g : LateLoad := { late0 with guess := some 5 }
    leavesLate (.fence .module .acq) = false ∧ leavesLate (.add 1 2 3) = true ∧ (at_ late0).issues ∧
      ((∃ w t, fetchM (at_ late0).cur (at_ late0).turn = .ok w t ∧ (decode w == some (.fence .module .acq) &&
        (t.strand 0).late == [late0] && (t.strand 0).guesses == []) = true) ∧
      ∃ w t, fetchM (at_ g).cur (at_ g).turn = .ok w t ∧ (decode w == some (.fence .module .acq) &&
        (t.strand 0).guesses == [g]) = true) := by
  refine ⟨by decide, by decide, by unfold State.issues; decide +kernel, result_of _ (by decide +kernel), result_of _ (by decide +kernel)⟩

/-- The line of a load that takes its value late is in the data cache. -/
theorem met_LoadTranslated_late :
    let t : State := { (one fun t => { t with late := [late0] }) with
      helms := [(0, ⟨[], [⟨none, 128, 1, false, List.replicate 128 3, false⟩], []⟩)] }
    (t.strand 0).late.find? (fun l => l.seq = 3) = some late0 ∧ ((t.helm 0).cachedLine late0.target).isSome = true ∧
      late0.target.pa % 128 + late0.len ≤ 128 := by
  decide +kernel

/-- What the three clauses of LoadTranslated ask for, of a state and the state after the translation. -/
def loadable (s : State) (p : Target → State → Bool) : Prop :=
  s.ready ∧ s.has 5 ∧ (s.reg 5 + (0 : BitVec 32).signExtend 64).toNat % 8 = 0 ∧
    ∃ r t, resolveM (s.scalarAgent s.cur) .read (s.reg 5 + (0 : BitVec 32).signExtend 64) 8 s = .ok r t ∧
      (match r with
        | .ok (.target g) => g.module = none && kindOf g.pa == 0 && decide (g.pa % 128 + 8 ≤ 128) && t.tileOf s.cur == none &&
            t.ports.isEmpty && t.outstanding.isEmpty && t.arrived.isEmpty && t.cur == s.cur && t.me.guesses.isEmpty &&
            (t.helm (helmOf s.cur)).stale.isEmpty && p g t
        | _ => false) = true

/-- The bytes in the write buffer; the line in the data cache; neither, and no mark. -/
theorem met_LoadTranslated :
    (loadable (mapped fun t => { t with writeBuffer := [entry0] }) fun g t =>
      (t.me.bufEntry g).any (fun e => e.serves g) && t.me.bufferHolds g 8) ∧
    (loadable { (mapped id) with helms := [(0, ⟨[], [⟨none, 128, 1, false, List.replicate 128 3, false⟩], []⟩)] } fun g t =>
      (t.me.bufEntry g).isNone && ((t.helm 0).cachedLine g).any fun e => e.data.length == 128) ∧
    (loadable (mapped id) fun g t => (t.me.bufEntry g).isNone && ((t.helm 0).cachedLine g).isNone &&
      (t.physFault (g.pa / 128 * 128)).isNone && !t.physMarked (g.pa / 128 * 128) 128) := by
  unfold loadable State.ready State.between State.has State.settled
  refine ⟨⟨by decide +kernel, by decide +kernel, by decide +kernel, result_of _ (by decide +kernel)⟩,
    ⟨by decide +kernel, by decide +kernel, by decide +kernel, result_of _ (by decide +kernel)⟩,
    ⟨by decide +kernel, by decide +kernel, by decide +kernel, result_of _ (by decide +kernel)⟩⟩

theorem met_StoreTranslated : loadable (mapped id) fun g t => (t.me.bufEntry g).isNone && decide (t.me.writeBuffer.length < 16) := by
  unfold loadable State.ready State.between State.has State.settled
  exact ⟨by decide +kernel, by decide +kernel, by decide +kernel, result_of _ (by decide +kernel)⟩

theorem met_WriteBufferDrains :
    let s := mapped fun t => { t with writeBuffer := [entry0] }
    ((mapped id).strand 0).writeBuffer = [] ∧ (s.strand 0).writeBuffer = entry0 :: [] ∧
      entry0.Holds ⟨none, 0x4008, 1, false, .default, 0, 7⟩ (0x4008 % 128) 8 0x0909090909090909 ∧ kindOf 0x4008 = 0 ∧
      s.physFault 0x4008 = none ∧ Memory.wf s.pmem ∧ s.pipeFull (.store 0) = false ∧
      { s with ports := List.replicate 64 (portRead false) }.pipeFull (.store 0) = true := by
  unfold BufEntry.Holds; decide +kernel

theorem met_AtomicsWindow : base.quiet ∧ Memory.wf base.lmem ∧ base.has 1 ∧ base.hasWide .q 2 ∧ base.hasWide .q 4 ∧
    (base.reg 1).toNat % 16 = 0 ∧ base.localAt (base.reg 1) 16 = some (2 ^ 30) ∧ base.clean (2 ^ 30) 16 := by
  unfold State.quiet State.ready State.between State.calm State.hasWide State.has State.settled State.clean; decide +kernel

theorem met_SignalWindow : base.quiet ∧ Memory.wf base.lmem ∧ base.has 2 ∧ base.has 4 ∧ (base.reg 2).toNat % 8 = 0 ∧
    base.localAt (base.reg 2) 8 = some 0x1fff8 ∧ base.clean 0x1fff8 8 := by
  unfold State.quiet State.ready State.between State.calm State.has State.settled State.clean; decide +kernel

theorem met_PortResponses :
    let s := { base with ports := [portRead false] }
    let t := { base with ports := [portRead true] }
    s.incoming = [] ∧ s.portRequest false 4 = some (portRead false) ∧ (portRead false).who = .helm 0 ∧
      (portRead false).op = .load 8 ∧ s.poolcsz = 0 ∧ t.portRequest true 4 = some (portRead true) := by
  decide +kernel

theorem met_PrivilegedRefused : (one fun t => { t with mode := .user }).between ∧ (one fun t => { t with mode := .user }).me.mode = .user := by
  unfold State.between; decide +kernel

/-- A trap from user mode with a queue, one from kernel mode, one of the kernel's that goes to the firmware, and one from
firmware mode. -/
theorem met_TrapEntry :
    let u := one fun t => { t with mode := .user, queue := [member .lsync] }
    let f := one fun t => { t with mode := .firmware }
    let e := one fun t => { t with kie := false }
    u.between ∧ u.me.colTrap = none ∧ u.me.mode = .user ∧ base.between ∧ base.me.colTrap = none ∧
      (base.me.mode = .kernel ∧ 0xff00 ≤ (0xff00 : Word).toNat ∧ ¬0xff00 ≤ (0xfeff : Word).toNat) ∧ e.me.kie = false ∧
      f.between ∧ f.me.colTrap = none ∧ f.me.mode = .firmware := by
  unfold State.between; decide +kernel

/-- A register that no reply names, beside one that a reply names. -/
theorem met_TrapEntry_replies :
    let s := one fun t => { t with mode := .user, replies := [⟨4, false, 1, none, false, true⟩] }
    (∀ q ∈ s.me.replies, s.me.names q 5 = false) ∧ ¬∀ q ∈ s.me.replies, s.me.names q 4 = false := by
  decide +kernel

/-- A column engine that stands where nothing may stop it. -/
def inMid : State := one fun t => { t with queue := [{ member .lsync with mid := true }] }

theorem met_TrapInstruction : base.between ∧ base.columnBusy base.cur = false ∧ inMid.between ∧
    inMid.columnBusy inMid.cur = true := by
  unfold State.between; decide +kernel

/-- Returns to user mode with parked and with held members, to kernel mode with held members, from firmware mode, and with a
live queue. -/
theorem met_EretReturns :
    let m : Member := member .lsync
    let u := one fun t => { t with svlmax := 64, pcount := 1 }
    let k := one fun t => { t with pmode := .kernel, held := [[m], []] }
    let f := one fun t => { t with mode := .firmware, fpmode := .kernel, held := [[m]] }
    let l := one fun t => { t with queue := [m] }
    (∀ s ∈ [u, k, f, l], s.between ∧ s.me.mode ≠ .user ∧ s.me.resumeMode ≠ some s.me.returnMode) ∧
      u.me.returnMode = .user ∧ u.me.queue = [] ∧ u.me.svlmax = u.me.vlmax ∧ u.me.mode = .kernel ∧
      k.me.returnMode ≠ .user ∧ k.me.held = [m] :: [[]] ∧ f.me.mode = .firmware ∧ f.me.returnMode ≠ .user ∧
      l.me.returnMode = .user ∧ l.me.queue ≠ [] := by
  unfold State.between; decide +kernel

theorem met_UserInterrupts :
    let s := one fun t => { t with mode := .user, uie := true, kept := { t.kept with intq := [7] } }
    let r := one fun t => { t with mode := .user, uia := true }
    s.atBoundary 0 = true ∧ (s.strand 0).kept.intq ≠ [] ∧ (s.strand 0).uie = true ∧ (s.strand 0).uia = false ∧
      (base.strand 0).kept.intq = [] ∧ r.between ∧ r.me.uia = true ∧ base.between ∧ base.me.uia = false := by
  unfold State.between; decide +kernel

/-- A register of each level, one marked Q with an empty and with a full queue, an unlisted number, a read-only register, and
an access from too low a mode. -/
theorem met_CsrRead :
    let q := one fun t => { t with queue := [member .lsync] }
    let u := one fun t => { t with mode := .user }
    base.between ∧ q.between ∧ u.between ∧ Csr.ofNumber 0x007 = some .fmask ∧ Csr.fmask.waits = true ∧
      csrLevel 0x007 ≤ base.me.mode.level ∧ csrLevel 0x400 ≤ base.me.mode.level ∧ base.me.queue = [] ∧ q.me.queue ≠ [] ∧
      Csr.ofNumber 0xfff = none ∧ (∃ n c, Csr.ofNumber n = some c ∧ c.readOnly = true) ∧ Csr.ofNumber 0x400 = some .status ∧
      u.me.mode.level < csrLevel 0x400 ∧ Csr.status.readOnly = false := by
  refine ⟨?_, ?_, ?_, ?_, ?_, ?_, ?_, ?_, ?_, ?_, ⟨0, .vl, ?_, ?_⟩, ?_, ?_, ?_⟩ <;>
    first | (unfold State.between; decide +kernel) | decide +kernel

theorem met_CsrWrite : base.between ∧ base.has 4 ∧ Csr.ofNumber 0x400 = some .status ∧ Csr.status.readOnly = false ∧
    csrLevel 0x400 ≤ base.me.mode.level ∧ base.me.queue = [] := by
  unfold State.between State.has State.settled; decide +kernel

/-- Progress of a held convoy of two members, the second of which is done; of a parked one; and of none. -/
theorem met_CsrWrite_progress :
    let m : Member := { member (.vmov ⟨true, 0, false, false⟩ 1 2) with idx := 5, pv := true }
    let s := one fun t => { t with held := [[m, { member (.vmov ⟨false, 0, false, false⟩ 1 2) with done := true }]] }
    let p := one fun t => { t with pcount := 2 }
    Csr.ofNumber 0x405 = some .progress ∧ Csr.progress.readOnly = false ∧ csrLevel 0x405 ≤ base.me.mode.level ∧
      (s.between ∧ s.has 4 ∧ (∀ m ∈ s.me.held.headD [], m.done = true → m.work = none) ∧ s.me.pcount = 0 ∧
        (firstConvoy (s.me.held.headD [])).length = 2 ∧ ∀ k, k < 4 → (s.reg 3).extractLsb' (16 * k) 15 ≠ 0x7ffd) ∧
      (p.between ∧ p.has 4 ∧ p.me.pcount ≠ 0) ∧ base.me.held.headD [] = [] := by
  unfold State.between State.has State.settled; decide +kernel

/-- The window below VLMAX, and the first at it. -/
theorem met_MaskWindows :
    let s := one fun t => { t with msel := 1 }
    base.between ∧ base.has 4 ∧ base.me.queue = [] ∧ 64 * base.me.msel.toNat < base.me.vlmax ∧ s.between ∧
      ¬64 * s.me.msel.toNat < s.me.vlmax := by
  unfold State.between State.has State.settled; decide +kernel

theorem met_WaitsPass : base.quiet ∧ base.me.mode ≠ .user ∧ base.me.kept.gangA ≤ base.me.kept.gangW ∧
    base.me.kept.crewA ≤ base.me.kept.crewW ∧ base.me.kept.dctr[(7 : BitVec 3).toNat].toNat ≤ (0 : BitVec 16).toNat ∧
    ((base.helm (helmOf base.cur)).icache.filter fun e => e.pinned) = [] := by
  unfold State.quiet State.ready State.between State.calm; decide +kernel

/-- A gang of two strands, of which strand 0 is the first. -/
def gang0 : Gang :=
  { serial := 1, task := 64, queue := 0, level := 0, owner := 1, record := 0x400000000000000, state := .running
    strands := [⟨0, 0, 0, false, false, 0, 1, .user, Kept.start, 0⟩, ⟨0, 1, 1, false, false, 0, 1, .user, Kept.start, 0⟩]
    started := 1, released := true, late := false, killed := false, tile := none }

/-- The module with that gang. -/
def inGang (f : Strand → Strand) : State :=
  { (one fun t => f { t with gang := 1 }) with cox := { Cox.empty with gangs := [gang0], nextSeq := 2, nextGang := 2 } }

theorem met_WaitsHold :
    let s := inGang fun t => { t with kept := { t.kept with crewA := 1, gangA := 1, dctr := t.kept.dctr.set 7 0xffff } }
    s.ready ∧ s.me.kept.gangW < s.me.kept.gangA ∧ s.me.kept.crewW < s.me.kept.crewA ∧
      s.allFired s.cur true s.me.kept.gangA = false ∧ s.allFired s.cur false s.me.kept.crewA = false ∧
      (0xfffe : BitVec 16).toNat < s.me.kept.dctr[(7 : BitVec 3).toNat].toNat := by
  unfold State.ready State.between; decide +kernel

theorem met_FencesReport :
    let s := one fun t => { t with mode := .user, fabpend := true, fabcode := 3, fabaddr := 0x4000 }
    s.quiet ∧ s.me.mode = .user ∧ s.me.fabpend = true ∧ orderAcquires .rel = false ∧ orderAcquires .ar = true ∧
      Scope.die ≠ .module ∧ Scope.die ≠ .system := by
  unfold State.quiet State.ready State.between State.calm; decide +kernel

theorem met_CodeLines : base.between ∧ base.has 5 ∧ base.has 6 ∧ base.me.mode ≠ .user ∧ (6 : Reg) ≠ 0 ∧ base.reg 6 = 0 := by
  unfold State.between State.has State.settled; decide +kernel

theorem met_TlbinvInvalidates : base.between ∧ base.has 1 ∧ base.has 4 ∧ base.me.mode ≠ .user ∧ Scope.module ≠ .system ∧
    ∀ c, base.translationsUsed c = false := by
  refine ⟨?_, ?_, ?_, ?_, ?_, fun c => ?_⟩
  case refine_6 =>
    have h : (base.strands.any fun e => clusterOf e.1 = c && !e.2.guesses.isEmpty) = false := by
      rw [List.any_eq_false]
      intro e he
      have : ∀ e ∈ base.strands, e.2.guesses.isEmpty = true := by decide +kernel
      simp [this e he]
    unfold State.translationsUsed
    rw [h]
    rfl
  all_goals first | (unfold State.between; decide +kernel) | (unfold State.has State.settled; decide +kernel) | decide +kernel

/-- All sixteen registers, at the start of the scratchpad. -/
theorem met_ColumnStateMoves : base.quiet ∧ Memory.wf base.lmem ∧ base.has 1 ∧ base.me.mode ≠ .user ∧
    (base.reg 1).toNat % 64 = 0 ∧ base.span (base.reg 1) (base.me.columnImage 0xffff).length (2 ^ 30) ∧
    base.clean (2 ^ 30) (base.me.columnImage 0xffff).length := by
  unfold State.quiet State.ready State.between State.calm State.has State.settled State.span State.clean; decide +kernel

/-- An illegal type, a misaligned area, a save of two registers, and areas to load: one with a header of 64 slots, one with
none. -/
theorem met_VectorStateMoves :
    let i := one fun t => { t with vtype := 0x10 }
    let n := blockOffset base.me.slotCount 0x80000001 32
    let s := { base with lmem := [⟨2 ^ 30, 64⟩, ⟨2 ^ 30 + 4, 1⟩, ⟨2 ^ 30 + 7, 128⟩] }
    let saved := BitVec.ofNat 32 (s.seenNat (2 ^ 30 + 4) 4)
    (base.quiet ∧ Memory.wf base.lmem ∧ base.has 1) ∧ i.me.vtype.getLsbD 4 = true ∧ base.me.vtype.getLsbD 4 = false ∧
      (base.reg 2).toNat % 64 ≠ 0 ∧ (base.reg 1).toNat % 64 = 0 ∧ base.span (base.reg 1) n (2 ^ 30) ∧ base.clean (2 ^ 30) n ∧
      base.me.spillcnt = 0 ∧ base.seenNat (2 ^ 30) 4 ∉ [32, 64, 128, 256, 512] ∧ (s.quiet ∧ Memory.wf s.lmem ∧ s.has 1) ∧
      s.seenNat (2 ^ 30) 4 ∈ [32, 64, 128, 256, 512] ∧ saved = 0x80000001 ∧
      s.span (s.reg 1) (blockOffset 64 saved 32) (2 ^ 30) ∧ s.clean (2 ^ 30) (blockOffset 64 saved 32) := by
  unfold State.quiet State.ready State.between State.calm State.has State.settled State.span State.clean; decide +kernel

/-- A transfer that a fault has stopped at the second register, and RESTV with the header that it read. -/
theorem met_VectorStateMoves_resumed :
    let mask : BitVec 32 := 0x80000001
    let s := one fun t => { t with spillcnt := 1, kept := { t.kept with heads := [(0x7e0000000000, 64, 0x80000001)] } }
    let n := blockOffset 64 mask 32
    (s.quiet ∧ Memory.wf s.lmem ∧ s.has 1 ∧ s.me.vtype.getLsbD 4 = false ∧ (s.reg 1).toNat % 64 = 0) ∧
      (s.me.kept.heads.find? fun e => s.me.spillcnt != 0 && e.1 = s.reg 1) = some (0x7e0000000000, 64, 0x80000001) ∧
      s.span (s.reg 1) n (2 ^ 30) ∧ s.clean (2 ^ 30) n ∧ (mask.getLsbD 31 = true ∧ s.me.spillcnt.toNat ≤ maskRank mask 31) ∧
      ¬s.me.spillcnt.toNat ≤ maskRank mask 0 := by
  unfold State.quiet State.ready State.between State.calm State.has State.settled State.span State.clean; decide +kernel

/-- An element instruction that starts a convoy, one that joins the three that are assembled, and BAR. -/
theorem met_PushedForms :
    let m : Member := member (.vmov ⟨true, 0, false, false⟩ 1 2)
    let s := one fun t => { t with assembling := [m, m, m] }
    let i := Instr.vaddX ⟨false, 0, false, false⟩ false false 1 2 4
    let l := Instr.vld ⟨false, 0, false, false⟩ ⟨.f32, false, false, 7, .module, .default⟩ 1 1 4
    (pushReads i = some (0, 4, 0) ∧ (∀ r, s.has r) ∧ s.joins i ∧ s.me.typeMissing = false ∧
      firstMisaligned (issueAddrs i (s.reg 0) (s.reg 4)) = none) ∧
    (pushReads l = some (1, 0, 0) ∧ base.joins l ∧ base.me.typeMissing = false ∧
      firstMisaligned (issueAddrs l (base.reg 1) (base.reg 0)) = none) ∧
    (pushReads (.bar true) = some (0, 0, 0) ∧ base.joins (.bar true)) := by
  unfold State.has State.settled State.joins State.between; decide +kernel

/-- Room for them: reply slots, queue entries, counters and arrivals. -/
theorem met_PushedForms_room :
    base.hasRoom (.vld ⟨false, 0, false, false⟩ ⟨.f32, false, false, 7, .module, .default⟩ 1 1 4) ∧ base.hasRoom (.pcnt ⟨false, 0, false⟩ 5 1) ∧
      base.barRoom (.bar true) := by
  refine ⟨⟨by decide +kernel, by decide +kernel, ?_⟩, ⟨by decide +kernel, by decide +kernel, ?_⟩, ?_⟩
  · intro c hc _; revert c; decide +kernel
  · intro c hc; cases hc
  · intro g f hi hl; revert hl; cases hi; revert f; decide +kernel

/-- A full convoy, an instruction that starts one, a missing type, a misaligned address, a register that awaits a reply, and
too many arrivals. -/
theorem met_PushedStops :
    let m : Member := member (.vmov ⟨true, 0, false, false⟩ 1 2)
    let s := one fun t => { t with assembling := [m, m, m, m] }
    let n := one fun t => { t with vtype := 0x10 }
    let w := one fun t => { t with replies := [⟨4, false, 1, none, false, true⟩] }
    let i := Instr.vaddX ⟨false, 0, false, false⟩ false false 1 2 4
    let l := Instr.vld ⟨false, 0, false, false⟩ ⟨.f32, false, false, 0, .module, .default⟩ 1 1 2
    (s.me.assembling.getLast? = some m ∧ 4 ≤ s.me.assembling.length) ∧
      ((Instr.add 1 2 3).isWord = true ∧ pushReads (.add 1 2 3) = none) ∧ startsConvoy (encode (.setvt .f32)) = true ∧
      (n.joins i ∧ needsType (encode i) = true ∧ n.me.typeMissing = true) ∧
      (base.joins l ∧ (∀ r, base.has r) ∧ (firstMisaligned (issueAddrs l (base.reg 1) (base.reg 0))).isSome) ∧
      (w.joins i ∧ ¬w.has 4) := by
  unfold State.has State.settled State.joins State.between; decide +kernel

/-- A full reply queue, and fifteen arrivals that a member has not fired. -/
theorem met_PushedStops_room :
    let s := one fun t => { t with replies := List.replicate 16 ⟨9, false, 1, none, false, true⟩ }
    let g := inGang fun t => { t with kept := { t.kept with crewA := 15 } }
    s.joins (.pcnt ⟨false, 0, false⟩ 5 1) ∧ ¬s.hasRoom (.pcnt ⟨false, 0, false⟩ 5 1) ∧ s.barRoom (.pcnt ⟨false, 0, false⟩ 5 1) ∧
      ¬g.barRoom (.bar false) := by
  refine ⟨by unfold State.joins State.between; decide +kernel, ?_, ?_, ?_⟩
  · intro h; exact absurd h.1 (by decide +kernel)
  · intro g f hi; cases hi
  · intro h; exact absurd (h false 0 rfl (by decide +kernel)) (by decide +kernel)

/-- Strand 0 with the given members in its queue, its lane groups bound to their strip. -/
def engine (l : List Member) (f : Strand → Strand) : State := one fun t => f { t with queue := l, bound := true, nextIid := 9 }

/-- A group of VLD, with a counter and the S bit, whose lines are full, and the same with its first line empty. -/
theorem met_EmptyLineWaits_group :
    let i := Instr.vld ⟨false, 0, false, false⟩ ⟨.f32, false, true, 1, .module, .default⟩ 3 1 0
    let m := { member i with opa := 0x7e0000000000 }
    let s := engine [m] fun t => { t with openInstrs := [⟨1, 1, true, false⟩] }
    let e := { s with empties := [2 ^ 23] }
    let on (j : Nat) : Bool := decide (m.first ≤ j ∧ j < groupEnd .f32 m.first) && (s.strand 0).activeLane 0 false j
    (s.heads 0 m i .f32 ∧ e.heads 0 m i .f32 ∧ m.replays = false ∧ m.ahead = [] ∧ m.first < (s.strand 0).vl ∧ m.pv = false ∧
      (∀ r, (s.strand 0).streamOf r = none) ∧ (s.strand 0).detachNotes = [] ∧ s.tileOf 0 = none ∧ s.calm ∧
      (s.cluster 0).storeQueue = [] ∧ s.launchActive 0 = false ∧ (loadForm (s.strand 0) m 32 i).isSome) ∧
      (on 0 = true ∧ e.localFull (2 ^ 30) 4 = false) ∧
      ∀ j, on j = true → windowAddr 0 (m.opa + (0 : BitVec 21).signExtend 64 + BitVec.ofNat 64 (j * 4)) = some (2 ^ 30 + 4 * j) ∧
        s.clean (2 ^ 30 + 4 * j) 4 := by
  refine ⟨by unfold State.heads State.calm; decide +kernel, by decide +kernel, ?_⟩
  intro j h
  have h64 : j < 64 := (of_decide_eq_true (Bool.and_eq_true_iff.mp h).1).2
  have all : ∀ k : Fin 64, windowAddr 0 (0x7e0000000000 + (0 : BitVec 21).signExtend 64 + BitVec.ofNat 64 (k.val * 4)) =
      some (2 ^ 30 + 4 * k.val) ∧ State.clean (engine [] id) (2 ^ 30 + 4 * k.val) 4 := by
    unfold State.clean; decide +kernel
  exact all ⟨j, h64⟩

/-- A group of VSCAT, whose elements have room in the store queues. -/
theorem met_EmptyLineWaits_stores :
    let i := Instr.vscat ⟨false, 1, false⟩ ⟨.f32, false, false, 0, .module, .default⟩ 3 1 5 0
    let m := { member i with opa := 0x7e0000000000, mode := .user }
    let s := engine [m] fun t => { t with mode := .user, p := t.p.set 1 5, v := t.v.set 5 (9 + 2 ^ 64 * 40) }
    let place (j : Nat) : Nat := 2 ^ 30 + 4 * ((s.strand 0).lane 32 5 j).toNat
    let on (j : Nat) : Bool := decide (m.first ≤ j ∧ j < groupEnd .f32 m.first) && (s.strand 0).activeLane 1 false j
    (s.heads 0 m i .f32 ∧ m.first < (s.strand 0).vl ∧ s.calm ∧ s.launchActive 0 = false ∧ s.tileOf 0 = none ∧
      (storeForm (s.strand 0) m 32 i).isSome) ∧ (List.range 64).filter on = [0, 2] ∧
      (∀ j ∈ (List.range 64).filter on, s.localFull (place j) 4 = true ∧
        windowAddr 0 (m.opa + (0 : BitVec 21).signExtend 64 + BitVec.ofNat 64 (((s.strand 0).lane 32 5 j).toNat * 4)) =
          some (place j)) ∧
      s.fitting 0 [] (((List.range 64).filter on).map fun j =>
        some ((s.strand 0).lanes.getD (j / 64) 0, localSlice (place j), 0, m.iid, j / 64, place j / 128)) = 2 := by
  unfold State.heads State.calm; decide +kernel

theorem met_IntegerLanes :
    let i := Instr.vadd ⟨false, 1, true, true⟩ true true 3 4 5
    let m := { member i with pv := true, idx := 63 }
    let s := engine [m] fun t => { t with vtype := 0 }
    s.atHead 0 m i .i32 ∧ ElemTy.ffmt .i32 = none ∧ laneForm i = some (⟨false, 1, true, true⟩, 3, 4, .reg 5, 4) ∧
      (∀ r ∈ ([3, 4, 4] ++ LaneArg.regs (.reg 5) : List Reg), (s.strand 0).streamOf r = none) ∧ m.first < (s.strand 0).vl ∧
      ∀ j, (laneInt i j (((s.strand 0).readP (selector i)).getLsbD j) ((s.strand 0).lane 32 4 j) ((s.strand 0).lane 32 5 j)
        ((s.strand 0).lane 32 4 j)).isSome := by
  refine ⟨by unfold State.atHead State.counted State.heads; decide +kernel, by decide +kernel, by decide +kernel, by decide +kernel, by decide +kernel,
    fun j => rfl⟩

theorem met_FloatLanes :
    let i := Instr.vfma ⟨false, 0, false, false⟩ 3 4 5 6
    let s := engine [member i] id
    s.atHead 0 (member i) i .f32 ∧ ElemTy.ffmt .f32 = some .f32 ∧ laneForm i = some (⟨false, 0, false, false⟩, 3, 4, .reg 5, 6) ∧
      (∀ r ∈ ([3, 4, 6] ++ LaneArg.regs (.reg 5) : List Reg), (s.strand 0).streamOf r = none) ∧
      (member i).first < (s.strand 0).vl ∧ ∀ a b c, (laneFloat i .f32 0 a b c).isSome := by
  refine ⟨by unfold State.atHead State.counted State.heads; decide +kernel, by decide +kernel, by decide +kernel, by decide +kernel, by decide +kernel,
    fun _ _ _ => rfl⟩

/-- VCVT between types of one width, part-way, and of two, to the greatest VL of its destination. -/
theorem met_FloatLanes_convert :
    let i := Instr.vcvt ⟨false, 1, false, true⟩ .i32 3 4
    let n := Instr.vcvt ⟨false, 1, false, true⟩ .i64 3 4
    let m := { member i with pv := true, idx := 63 }
    let s := engine [m] id
    let t := engine [member n] fun t => { t with vl := 32 }
    s.atHead 0 m i .f32 ∧ ElemTy.bits .f32 = ElemTy.bits .i32 ∧ m.first < (s.strand 0).vl ∧
      (s.strand 0).vl ≤ vlmaxOf (s.strand 0).lanes.length false .i32 ∧ t.atHead 0 (member n) n .f32 ∧
      ElemTy.bits .f32 ≠ ElemTy.bits .i64 ∧ (t.strand 0).vl = vlmaxOf (t.strand 0).lanes.length false .i64 ∧
      (member n).pv = false ∧ ∀ r, (t.strand 0).streamOf r = none := by
  unfold State.atHead State.counted State.heads; decide +kernel

/-- PANDN, and VCMP on integers and on floating-point elements. -/
theorem met_PredicateLanes :
    let i := Instr.pandn ⟨false, 1, false, true⟩ 2 3 4
    let c := Instr.vcmp ⟨false, 0, false, false⟩ .ltu 2 3 4 5
    let s := engine [member i] id
    let t := engine [member c] fun t => { t with vtype := 1, vl := 1 }
    let f := engine [member c] id
    (f.atHead 0 (member c) c .f32 ∧ ElemTy.ffmt .f32 = some .f32 ∧ (member c).first < (f.strand 0).vl) ∧
    s.atHead 0 (member i) i .f32 ∧ (member i).first < (s.strand 0).vl ∧ (predForm (s.strand 0) i).isSome ∧
      t.atHead 0 (member c) c .i64 ∧ (member c).first < (t.strand 0).vl ∧ ElemTy.ffmt .i64 = none ∧
      (t.strand 0).streamOf 4 = none ∧ (t.strand 0).streamOf 5 = none := by
  unfold State.atHead State.counted State.heads; decide +kernel

theorem met_CrossingLanes :
    let i := Instr.vslide ⟨false, 0, false, true⟩ true 3 4 (.imm 63)
    let g := Instr.vperm ⟨false, 0, false, true⟩ 3 4 5
    let s := engine [member i] id
    let t := engine [member g] id
    s.atHead 0 (member i) i .f32 ∧ (member i).pv = false ∧ (∀ r, (s.strand 0).streamOf r = none) ∧
      (∀ j, ∃ src, moveFrom (s.strand 0) (member i) .f32 j i = some (⟨false, 0, false, true⟩, 3, 4, src)) ∧
      t.atHead 0 (member g) g .f32 ∧
      ∀ j, ∃ src, moveFrom (t.strand 0) (member g) .f32 j g = some (⟨false, 0, false, true⟩, 3, 4, src) := by
  refine ⟨by unfold State.atHead State.counted State.heads; decide +kernel, by decide +kernel, by decide +kernel, fun _ => ⟨_, rfl⟩,
    by unfold State.atHead State.counted State.heads; decide +kernel, fun _ => ⟨_, rfl⟩⟩

/-- VSCAN on integers, on a strip of six elements in two segments. -/
theorem met_CrossingLanes_scan :
    let i := Instr.vscan ⟨false, 1, false, true⟩ .sum true 3 4 2
    let s := engine [member i] fun t => { t with vtype := 0, vl := 6, p := (t.p.set 1 0x3b).set 2 9 }
    s.atHead 0 (member i) i .i32 ∧ (member i).pv = false ∧ (∀ r, (s.strand 0).streamOf r = none) ∧ ElemTy.ffmt .i32 = none := by
  unfold State.atHead State.counted State.heads; decide +kernel

/-- A column descriptor of INT32 elements, or of a position list. -/
def column0 (base : Nat) (len : Nat) (pbase : Option Nat) : BitVec 256 :=
  BitVec.ofNat 256 (base + len * 2 ^ 64 + 8 * 2 ^ 96 + (pbase.map fun p => 2 ^ 133 + p * 2 ^ 192).getD 0)

/-- Sources of four and two rows in the scratchpad, and destinations for positions (k1, k4) and values (k5); column
instruction `i` has come as far as `w` says. -/
def columns (i : Instr) (w : ColWork) (rows : List KeyRow) : State :=
  let s := engine [{ member i with work := some w }] fun t => { t with
    k := (((t.k.set 2 (column0 0x7e0000000000 4 none)).set 1 (column0 0x7e0000000000 0 (some 0x7e0000001000))).set 4
      (column0 0x7e0000000000 0 (some 0x7e0000002000))).set 5 (column0 0x7e0000003000 0 none)
    replies := [⟨6, false, 1, none, false, true⟩] }
  ({ s with lmem := [⟨2 ^ 30, 5⟩, ⟨2 ^ 30 + 4, 7⟩, ⟨2 ^ 30 + 8, 5⟩, ⟨2 ^ 30 + 12, 9⟩, ⟨2 ^ 30 + 64, 5⟩, ⟨2 ^ 30 + 68, 5⟩] }).setCluster
    0 { s.cluster 0 with keyStore := some ⟨0, 1, rows⟩ }

/-- The work of a column instruction on these sources. -/
def work0 (cura outn built : Nat) : ColWork :=
  { phase := 0, cura := cura, curb := 0, curc := 0, outn := outn, outn2 := outn, aux := 5, flags := 0
    srcs := [column0 0x7e0000000000 4 none, column0 0x7e0000000040 2 none], built := built, resumed := false }

/-- Such an instruction is at the head of its queue and takes its next step. -/
def columnsRun (i : Instr) (w : ColWork) (rows : List KeyRow) : Prop :=
  (columns i w rows).columnAt 0 { member i with work := some w } i w

/-- A step of KSEL, of KSELP and of KGATH at row 2; the last, at their ends. -/
theorem met_CrossingLanes_select :
    let i := Instr.ksel .eq 1 6 2 7
    let w := work0 2 1 0
    let s := columns i w []
    let m := { member i with work := some w }
    let p := Instr.kselp .ge 1 6 2 3
    let x := work0 1 1 0
    let g := Instr.kgath 5 6 2
    (columnsRun i w [] ∧ w.cura < descLen (w.src 0) ∧ (keyCond 0 .eq 5 (w.aux.toNat % 2 ^ 32)).1 = true ∧
      (keyCond 0 .eq 7 5).1 = false ∧ w.outn < descCap (s.strand 0).k[1] ∧ columnsRun p x [] ∧
      x.cura < descLen (x.src 1) ∧ columnsRun g w []) ∧
      (s.rowIs 0 m (w.src 0) 2 2 5 ∧ s.rowIs 0 m (w.src 1) 1 1 5 ∧ s.outputFits 0 w 1 none 1 (2 ^ 30 + 0x1004) ∧
        s.outputFits 0 w 5 none 1 (2 ^ 30 + 0x3004)) ∧
      (columnsRun i (work0 4 3 0) [] ∧
        descLen ((work0 4 3 0).src 0) ≤ (work0 4 3 0).cura) := by
  unfold State.rowIs State.holdsAt
  refine ⟨⟨?_, ?_, ?_, ?_, ?_, ?_, ?_, ?_⟩, ⟨⟨?_, 2 ^ 30 + 8, ?_, ?_, ?_, ?_⟩, ⟨?_, 2 ^ 30 + 68, ?_, ?_, ?_, ?_⟩, ?_, ?_⟩, ?_, ?_⟩ <;>
  first
    | decide +kernel
    | (unfold columnsRun State.columnAt State.calm; decide +kernel)
    | (unfold State.outputFits; decide +kernel)
    | (unfold State.clean; decide +kernel)

/-- A build step, a probe that matches and one that has met all its rows; a probe of KSEMI. -/
theorem met_CrossingLanes_join :
    let j := Instr.kjoin 1 4 6 2 3
    let b := work0 0 0 1
    let p := work0 2 1 2
    let e := { work0 2 1 2 with curc := 2 }
    let known : List KeyRow := [⟨0, 0, 5⟩, ⟨1, 1, 5⟩]
    let chain := known.filter fun r => keyHash r.key = keyHash 5
    (columnsRun j b [⟨0, 0, 5⟩] ∧ b.built < descLen (b.src 1) ∧ 0 < descLen (b.src 0)) ∧ columnsRun j p known ∧
      (descLen (p.src 1) ≤ p.built ∧ p.cura < descLen (p.src 0) ∧ chain[p.curc + 0]? = some ⟨0, 0, 5⟩) ∧
      (columns j p known).outputFits 0 p 1 (some 4) p.outn (2 ^ 30 + 0x1004) ∧
      (columns j p known).outputFits 0 p 4 (some 1) p.outn2 (2 ^ 30 + 0x2004) ∧ columnsRun j e known ∧ chain.drop e.curc = [] ∧
      columnsRun (.ksemi 1 6 2 3) p known ∧ (known.any fun r => r.key = 5) = true := by
  refine ⟨⟨?_, ?_, ?_⟩, ?_, ?_, ?_, ?_, ?_, ?_, ?_, ?_⟩ <;>
  first
    | decide +kernel
    | (unfold columnsRun State.columnAt State.calm; decide +kernel)
    | (unfold State.outputFits; decide +kernel)

/-- A group that is known and a new one; rows to sort and one to emit. -/
theorem met_CrossingLanes_group :
    let g := Instr.kgroup 5 4 6 2
    let q := work0 2 2 2
    let o := Instr.ksort 1 6 2
    let x := work0 0 1 4
    let known : List KeyRow := [⟨0, 0, 5⟩, ⟨1, 1, 5⟩]
    columnsRun g q known ∧ (q.cura ≤ q.built ∧ (known.findIdx? fun r => r.key = 5) = some 0 ∧ (∀ r ∈ known, r.key ≠ 9) ∧
        known.length < 1048576) ∧ columnsRun o (work0 0 0 1) known ∧ (work0 0 0 1).built < descLen ((work0 0 0 1).src 0) ∧
      columnsRun o x known ∧ (descLen (x.src 0) ≤ x.built ∧ x.outn < descLen (x.src 0) ∧ known[x.outn]? = some ⟨1, 1, 5⟩) := by
  refine ⟨?_, ?_, ?_, ?_, ?_, ?_⟩ <;>
  first
    | decide +kernel
    | (unfold columnsRun State.columnAt State.calm; decide +kernel)

/-- KAGG: a row that is counted, an identity, the turn to the rows, and a row that is added. -/
theorem met_CrossingLanes_aggregate :
    let i := Instr.kagg .sum 5 6 2 3
    let w := work0 1 0 0
    let z := { w with phase := 1, outn := 2 }
    let t := { w with phase := 1, outn := 5 }
    let r := { w with phase := 2 }
    (columnsRun i w [] ∧ w.phase = 0 ∧ w.cura < min (descLen (w.src 0)) (descLen (w.src 1))) ∧
      (columnsRun i z [] ∧ z.outn < z.aux.toNat) ∧ (columnsRun i t [] ∧ t.aux.toNat ≤ t.outn) ∧ columnsRun i r [] ∧ (columns i r []).outputFits 0 r 5 none 5 (2 ^ 30 + 0x3014) ∧
      (columns i r []).holdsAt 0 { member i with work := some r } 0x7e0000003014 4 0 := by
  unfold State.holdsAt
  refine ⟨⟨?_, ?_, ?_⟩, ⟨?_, ?_⟩, ⟨?_, ?_⟩, ?_, ?_, 2 ^ 30 + 0x3014, ?_, ?_, ?_, ?_⟩ <;>
  first
    | decide +kernel
    | (unfold columnsRun State.columnAt State.calm; decide +kernel)
    | (unfold State.outputFits; decide +kernel)
    | (unfold State.clean; decide +kernel)

/-- A reply that an instruction gives, one that is known at the head of the queue, and one that is not known yet. -/
theorem met_ScalarReplies :
    let i := Instr.pfirst ⟨false, 0, false⟩ 5 1
    let s := engine [member i] fun t => { t with replies := [⟨5, false, 1, none, false, true⟩] }
    let t := one fun t => { t with replies := [⟨5, false, 1, some 9, false, true⟩, ⟨0, true, 2, none, true, true⟩] }
    s.atHead 0 (member i) i .f32 ∧ (∀ r, (s.strand 0).streamOf r = none) ∧ (replyOf (s.strand 0) .f32 i).isSome ∧
      (s.strand 0).replies = [⟨5, false, 1, none, false, true⟩] ∧
      (t.strand 0).replies = ⟨5, false, 1, some 9, false, true⟩ :: [⟨0, true, 2, none, true, true⟩] := by
  unfold State.atHead State.counted State.heads; decide +kernel

/-- VRED on integers, and VRED.sum in order on floating-point elements. -/
theorem met_ScalarReplies_reduce :
    let i := Instr.vred ⟨false, 1, false⟩ .minu true 6 4
    let f := Instr.vred ⟨false, 1, false⟩ .sum false 6 4
    let s := engine [member i] fun t => { t with vtype := 0, p := t.p.set 1 6 }
    let t := engine [member f] fun t => { t with p := t.p.set 1 6 }
    s.atHead 0 (member i) i .i32 ∧ ElemTy.ffmt .i32 = none ∧ (member i).pv = false ∧ t.atHead 0 (member f) f .f32 ∧
      (∀ r, (t.strand 0).streamOf r = none) ∧
      ((List.range (t.strand 0).vl).filter ((t.strand 0).activeLane 1 false)).map ((t.strand 0).lane 32 4) = 0 :: [0] := by
  unfold State.atHead State.counted State.heads; decide +kernel

/-- SETVL under an illegal type, SETVT at the greatest VL of its type, and one below it. -/
theorem met_VectorLength :
    let i := Instr.setvl .bf16 5 (.imm 200)
    let m := { member i with opa := 200 }
    let s := engine [m] fun t => { t with vtype := 0x10, vl := 0 }
    let v := engine [member (.setvt .f32)] id
    let w := engine [member (.setvt .i64)] id
    (∀ s' ∈ [s, v, w], s'.engineRuns 0 = true ∧ (s'.strand 0).colTrap = none ∧ (s'.strand 0).reshapePend = false ∧
      (s'.strand 0).cfg = none) ∧
      (s.strand 0).headMember = some m ∧ decode m.word = some i ∧ (s.strand 0).vtype.getLsbD 4 = true ∧
      (v.strand 0).headMember = some (member (.setvt .f32)) ∧ decode (member (.setvt .f32)).word = some (.setvt .f32) ∧
      (v.strand 0).vl = vlmaxOf (v.strand 0).lanes.length (v.strand 0).protectedMode .f32 ∧
      (w.strand 0).headMember = some (member (.setvt .i64)) ∧ decode (member (.setvt .i64)).word = some (.setvt .i64) ∧
      vlmaxOf (w.strand 0).lanes.length (w.strand 0).protectedMode .i64 < (w.strand 0).vl ∧ w.midAccess 0 = false ∧
      ∀ q ∈ (w.strand 0).queue, q.inside = false ∧ q.partWay = false := by
  decide +kernel

/-- The module with a handle table for owner 1 whose slot 1 holds a buffer of 2^33 bytes at 0x100000, with every right and
generation 1; register 5 of the strand holds the handle, register 6 a size of 2^32, register 7 a record address. -/
def handled (f : Strand → Strand) : State :=
  (one fun t => f { t with x := ((t.x.set 5 0x1001).set 6 0x100000000).set 7 0x7e0000000040 }).placePlain
    [(48, bytesOfNat 8 0x8000 ++ bytesOfNat 8 2),
      (0x8020, bytesOfNat 8 0x100000 ++ bytesOfNat 8 0x200000000 ++ bytesOfNat 8 0x1001f00000 ++ bytesOfNat 8 0)]

/-- DCOPY of 2^32 bytes, DCOPY.2d of two rows and of none, and DRED. -/
theorem met_DraymanForks :
    let s := handled fun t => { t with x := t.x.set 8 16 }
    let d := { s with lmem := [⟨2 ^ 30, 2⟩, ⟨2 ^ 30 + 4, 16⟩, ⟨2 ^ 30 + 8, 32⟩] }
    let h := s.reg 5
    (s.quiet ∧ s.tileOf s.cur = none ∧ s.recordAt 7 ∧ (∀ r, s.has r) ∧ s.forkRoom 7) ∧
      (s.handleReads s.me.owner (h.extractLsb' 0 32) ∧ d.handleReads d.me.owner (h.extractLsb' 0 32)) ∧ (s.reg 6).toNat = 2 ^ 32 ∧
      s.handleTrap s.me.owner (h.extractLsb' 0 32) .wr 0 0 (2 ^ 32 : Nat) = none ∧
      ((s.reg 1).toNat % 32 = 0 ∧ s.localAt (s.reg 1) 32 = some (2 ^ 30) ∧ s.clean (2 ^ 30) 32) ∧ s.seenNat (2 ^ 30) 4 = 0 ∧
      (d.quiet ∧ d.tileOf d.cur = none ∧ d.recordAt 7 ∧ (∀ r, d.has r) ∧ d.forkRoom 7) ∧ d.clean (2 ^ 30) 32 ∧
      (d.seenNat (2 ^ 30 + 24) 8 = 0 ∧ d.seenNat (2 ^ 30) 4 = 2 ∧ d.seenNat (2 ^ 30 + 4) 4 = 16) ∧
      d.handleTrap d.me.owner (h.extractLsb' 0 32) .rd 0 0 (48 : Nat) = none ∧
      ((s.reg 8).toNat % FoldOp.bytes .add64 = 0 ∧ (s.reg 1 + (8 : BitVec 21).signExtend 64).toNat % FoldOp.bytes .add64 = 0 ∧
        (entryBase (s.handleEntry s.me.owner 1)).toNat % FoldOp.bytes .add64 = 0) ∧
      s.handleTrap s.me.owner (h.extractLsb' 0 32) .red 0 0 (16 : Nat) = none := by
  unfold State.recordAt State.has State.settled State.clean State.handleReads
  refine ⟨?_, by decide +kernel, by decide +kernel, by decide +kernel, by decide +kernel, by decide +kernel, ?_, by decide +kernel,
    by decide +kernel, by decide +kernel, by decide +kernel, by decide +kernel⟩ <;>
  · unfold State.quiet State.ready State.between State.calm State.forkRoom; decide +kernel

/-- DPREF with room for a hint and without, DCANCEL, and DCFG with a record of one stream. -/
theorem met_DraymanControl :
    let s := { (handled id) with lmem := [⟨2 ^ 30 + 2, 1⟩, ⟨2 ^ 30 + 8, 1⟩, ⟨2 ^ 30 + 9, 16⟩] }
    let full := s.setCluster 0 { s.cluster 0 with
      hints := List.replicate 64 ⟨0, 0, 1, .kernel, 0x1001, 0, none, 0, 0, 128⟩ }
    let r := s.seenNat (2 ^ 30) 64
    let length := (s.reg 8 + 5).toNat
    (s.quiet ∧ (∀ x, s.has x) ∧ (s.reg 6).toNat ≤ 2 ^ 32 ∧ s.handleReads s.me.owner ((s.reg 5).extractLsb' 0 32) ∧
      s.handleReads s.me.owner ((cfgHop r 0).extractLsb' 0 32) ∧
      s.handleTrap s.me.owner ((s.reg 5).extractLsb' 0 32) .pf 0 0 ((s.reg 6).toNat : Nat) = none) ∧
      (s.cluster 0).hints.length < 64 ∧ (full.quiet ∧ 64 ≤ (full.cluster 0).hints.length) ∧ (s.cluster 0).hintsRefused < 2 ^ 32 ∧
      (s.reg 1).toNat % 64 = 0 ∧ s.reg 0 = 0 ∧ s.localAt (s.reg 1) 64 = some (2 ^ 30) ∧ s.clean (2 ^ 30) 64 ∧ 0 < length ∧
      length < 2 ^ 32 ∧ cfgValid r = true ∧ (s.opsOf s.me.holder).length + cfgStreams r * cfgDepth r ≤ 64 ∧
      cfgStreams r = 1 ∧ s.outsideWindow 0 (0x7e0000000000 + cfgRing r 0) (cfgDepth r * cfgSlot r 0) = none ∧
      s.handleTrap s.me.owner ((cfgHop r 0).extractLsb' 0 32) .rd ((cfgHop r 0).extractLsb' 32 32).toNat
        ((cfgHop r 0).extractLsb' 32 32).toNat (((cfgHop r 0).extractLsb' 32 32).toNat + length * cfgElem r 0 : Nat) = none := by
  unfold State.quiet State.ready State.between State.calm State.has State.settled State.clean State.handleReads; decide +kernel

/-- The module with queue 0 enabled at level 3 for owner `o`, with room for 16 records, of which `n` wait. -/
def queued (o : Owner) (n : BitVec 32) (f : Strand → Strand) : State :=
  { (one f) with cox := { Cox.empty with queues := [(0, ⟨3, true, false, o, 4, 0x9000, 0, n, 0, 0⟩)] } }

/-- LAUNCH of a record of zeros and of one that is refused, to a queue that does not exist, is off, is not permitted, has no
cluster in service, is full, and has room. -/
theorem met_SchedulingForms_launch :
    let bad := { base with lmem := [⟨2 ^ 30, 1⟩] }
    let user := queued 5 0 fun t => { t with mode := .user }
    let out := { (queued 1 0 id) with lmem := [⟨2 ^ 30 + 24, 0xff⟩, ⟨2 ^ 30 + 25, 1⟩], fenced := [0] }
    let full := queued 1 16 id
    let s := queued 1 15 id
    (∀ s' ∈ [base, bad, user, out, full, s], s'.quiet ∧ s'.has 1 ∧ s'.has 4 ∧ s'.tileOf s'.cur = none ∧
      (s'.reg 1).toNat % 64 = 0 ∧ s'.localAt (s'.reg 1) 64 = some (2 ^ 30) ∧ s'.clean (2 ^ 30) 64) ∧
      taskBad (BitVec.ofNat 512 (bad.seenNat (2 ^ 30) 64)) = true ∧ taskBad 0 = false ∧ taskCtgt 0 = 0 ∧
      (∀ s' ∈ [base, user, full, s], s'.seenNat (2 ^ 30) 64 = 0) ∧ 63 < (base.reg 1).toNat ∧ (base.reg 0).toNat ≤ 63 ∧
      (base.cox.queueOf 0).on = false ∧ (user.cox.queueOf 0).on = true ∧
      ¬(user.me.mode ≠ .user ∨ user.me.owner = (user.cox.queueOf 0).owner) ∧ 
      (taskBad (BitVec.ofNat 512 (out.seenNat (2 ^ 30) 64)) = false ∧
        out.inService.length < taskCrews (BitVec.ofNat 512 (out.seenNat (2 ^ 30) 64))) ∧
      2 ^ (full.cox.queueOf 0).size.toNat ≤ (full.cox.queueOf 0).length ∧ taskCrews 0 ≤ s.inService.length ∧
      (s.cox.queueOf 0).length < 2 ^ (s.cox.queueOf 0).size.toNat := by
  unfold State.quiet State.ready State.between State.calm State.has State.settled State.clean; decide +kernel

/-- The other forms: YIELD of a strand without a gang, TICKW before and after a tick, EXIT with nothing in flight, and
periods. -/
theorem met_SchedulingForms :
    let s := one fun t => { t with x := (t.x.set 5 64).set 6 1100000 }
    let w := one fun t => { t with issue := .tickw 0 }
    let w' := { (one fun t => { t with issue := .tickw 0 }) with tick := 1 }
    (s.quiet ∧ (∀ r, s.has r)) ∧ (w.quiet ∧ w'.quiet) ∧ s.coxRun.cox.gang (s.coxRun.strand 0).gang = none ∧
      s.me.issue = .running ∧ w.me.issue = .tickw w.tick ∧ (w'.me.issue = .tickw 0 ∧ (0 : Word) ≠ w'.tick) ∧
      (s.tileOf s.cur = none ∧ s.opsOf s.me.holder = [] ∧ (s.cluster (clusterOf s.cur)).matOps = [] ∧
        (s.cluster (clusterOf s.cur)).pendingFailure s.me.holder = none) ∧
      ((s.reg 6).extractLsb' 0 32).toNat = 1100000 ∧ ((s.reg 5).extractLsb' 0 32).toNat < 1100000 := by
  unfold State.quiet State.ready State.between State.calm State.has State.settled; decide +kernel

/-- Queues that exist and that do not, and tasks to kill. -/
theorem met_SchedulingForms_queue :
    let s := one fun t => { t with x := t.x.set 5 64 }
    let g := inGang fun t => { t with x := t.x.set 5 64 }
    let user := queued 5 0 fun t => { t with mode := .user, x := t.x.set 5 64 }
    (s.quiet ∧ g.quiet ∧ user.quiet ∧ s.has 5 ∧ g.has 5 ∧ user.has 5) ∧ 63 < (s.reg 5).toNat ∧ (s.reg 0).toNat ≤ 63 ∧
      (user.me.mode = .user ∧ user.me.owner ≠ (user.cox.queueOf 0).owner) ∧
      (s.cox.gangs.find? fun g => g.task = s.reg 5 && g.tile.isNone) = none ∧ s.cox.waitingAt 0 (s.reg 5) = none ∧
      (g.cox.gangs.find? fun h => h.task = g.reg 5 && h.tile.isNone) ≠ none ∧ g.reg 5 ≠ 0 := by
  unfold State.quiet State.ready State.between State.calm State.has State.settled; decide +kernel

/-- A strand in user, in kernel and in firmware mode; offsets that are misaligned, unlisted and listed, a window of its own and
one without a strand; periods on both sides of the least. -/
theorem met_RegisterWrites :
    let u := one fun t => { t with mode := .user }
    let f := one fun t => { t with mode := .firmware }
    let low : Word := 0xffffffff
    (u.strand 0).mode = .user ∧ (base.strand 0).mode = .kernel ∧ (f.strand 0).mode = .firmware ∧ (0x10009 : Nat) % 8 ≠ 0 ∧
      ((0x12000 : Nat) % 8 = 0 ∧ 0x12000 < 0x60000 ∧ 0x2000 ≤ 0x12000 % 0x10000) ∧ (0x8000000 : Nat) < 2 ^ 50 ∧
      (base.strand 4095).resident = false ∧ 1100000 ≤ ((1100000 : Word) &&& low).toNat ∧ ((1099999 : Word) &&& low).toNat < 1100000 := by
  decide +kernel

/-- A module with a serviced Drayman operation 7 on cluster 0, and a serviced matrix operation 9. -/
def servicing : State :=
  base.setCluster 0 { base.cluster 0 with
    ops := [⟨7, 0, (0, 0, 0), 1, .kernel, .copy, 0x1001, 0x100000, none, 0x7e0000000000, false, 1, 64, 0, 0, none, 0, false, .serviced,
      0, 0, 0, none, 0, 1, none, false, false, none, false, false, false, false, []⟩]
    matOps := [⟨9, 0, (0, 0, 0), 1, .kernel, 0x1000, [], 0, 0, true, false, 0, []⟩] }

/-- KEYGO refused and accepted, POOLCSZ in and out of range, serviced operations, and planes. -/
theorem met_RegisterEffects :
    let u := one fun t => { t with mode := .user }
    let f := one fun t => { t with mode := .firmware }
    let n := { base with keysel := 0xfff }
    let k := { base with keysel := 0xffe }
    let p := { base with live := 3, linkup := 0x10000 }
    (u.strand 0).mode = .user ∧ (base.strand 0).mode ≠ .user ∧ (0 : Word).getLsbD 0 = false ∧ (1 : Word).getLsbD 0 = true ∧
      n.keysel = 0xfff ∧ (base.keysel = 0 ∧ (base.strand 0).mode ≠ .firmware) ∧ (f.strand 0).mode = .firmware ∧
      (k.keysel ≠ 0xfff ∧ k.keysel ≠ 0) ∧ 8 < ((0x9000000 : Word).extractLsb' 24 8).toNat ∧
      ((0x8000000 : Word).extractLsb' 24 8).toNat ≤ 8 ∧ (∃ o ∈ (servicing.cluster 0).ops, o.ident = 7 ∧ o.state = .serviced) ∧
      (servicing.servicedOp 9).isSome ∧ p.outstanding = [] ∧
      (∀ i, i < 4 → (6 : BitVec 4).getLsbD i = ((p.live.getLsbD i && !(1 : BitVec 4).getLsbD i) || ((4 : BitVec 4).getLsbD i && p.planeUp i &&
        !p.spineDown.getLsbD i))) ∧
      (6 : BitVec 4) ≠ p.live ∧ (6 : BitVec 4) ≠ 0 := by
  decide +kernel

/-- Grant windows in each state, an accepted and a missing message, a cluster to fence, and strands that PDONE ends and does
not. -/
theorem met_RegisterEffects_rest :
    let x := { base with windows := [(0, ⟨0x1000, 0x1000, 0⟩), (1, ⟨0x1800, 0x1000, 1⟩)], fenced := [3] }
    let g := { (inGang fun t => { t with preempted := some .kernel }) with
      cox := { Cox.empty with gangs := [{ gang0 with state := .stopping }] } }
    (Tab.get ⟨0, 0, 0⟩ x.windows 0).state = 0 ∧ (Tab.get ⟨0, 0, 0⟩ x.windows 1).state = 1 ∧
      (∃ e ∈ x.windows, e.1 ≠ 0 ∧ e.2.state ≠ 0 ∧ e.2.hbase.toNat < 0x1000 + 0x1000 ∧ 0x1000 < e.2.hbase.toNat + e.2.hlen.toNat) ∧
      (3 ∈ x.fenced ∧ 511 ∉ x.fenced ∧ x.gangsOn 511 = [] ∧ (x.cluster 511).launches = []) ∧
      (base.strand 0).resident = true ∧ base.pdoneActs 0 = false ∧ (g.pdoneActs 0 = true ∧ g.elemsClear 0 = true ∧
        (g.strand 0).writeBuffer = [] ∧ g.bufferClear 0 = true) := by
  decide +kernel

/-- A mailbox that is busy, one before and one after the boot, one with a message that waits, codes on both sides of the listed
ones, and the boot window open and closed. -/
theorem met_MailboxRows :
    let b := { State.reset with mailbox := { Mailbox.empty with cmd := some (4, Vector.replicate 4 0) } }
    let r := { State.reset with mailbox := { Mailbox.empty with bootstat := 2 }, bootOpen := false }
    let h := { r with hostMessage := true }
    (b.mailbox.cmd = some (4, Vector.replicate 4 0) ∧ b.mailbox.bootstat ≠ 1) ∧ State.reset.mailbox.cmd = none ∧ State.reset.mailbox.bootstat ≠ 2 ∧
      natOfBytes (State.reset.bootBytes 0 4) ≠ 0x57464243 ∧ (r.mailbox.bootstat = 2 ∧ r.hostMessage = false) ∧
      h.hostMessage = true ∧ (1 ≤ (6 : Byte).toNat ∧ (6 : Byte).toNat ≤ 6 ∧ 6 < (7 : Byte).toNat) ∧
      ((4096 : Word).toNat % 4096 = 0 ∧ (4097 : Word).toNat % 4096 ≠ 0) ∧ Memory.wf State.reset.pmem ∧
      (List.replicate 1 (9 : Byte)).length ≤ 64 - (63 : BitVec 28).toNat % 64 ∧ State.reset.bootOpen = true ∧ r.bootOpen = false := by
  decide +kernel

/-- A command of each kind that the boot ROM, the firmware and neither serve; the checks of a boot, with a header that is none;
kernels that are loaded without firmware, first, and later. -/
theorem met_MailboxRows_served :
    let rom (c : Byte) : State := { State.reset with mailbox := { Mailbox.empty with cmd := some (c, Vector.replicate 4 4096) } }
    let fw (c : Byte) : State := { rom c with mailbox := { (rom c).mailbox with bootstat := 2 }, fwvalid := true }
    let b := { State.reset with mailbox := { Mailbox.empty with bootstat := 1 } }
    (∀ c ∈ ([1, 2, 3, 4, 7] : List Byte), (rom c).mailbox.cmd = some (c, Vector.replicate 4 4096) ∧
      (rom c).mailbox.bootstat ≠ 1 ∧ (rom c).mailbox.bootstat ≠ 2 ∧ (fw c).mailbox.bootstat = 2 ∧ (fw c).hostMessage = false) ∧
      (b.mailbox.bootstat = 1 ∧ natOfBytes (b.bootBytes 0 4) ≠ 0x57464243 ∧ b.bootFailure (b.bootBytes 0 256) = some 3) ∧
      (b.fwvalid = false ∧ (fw 1).fwvalid = true ∧ (fw 1).kvalid = false ∧ ({ fw 1 with kvalid := true } : State).kvalid = true) ∧
      (State.reset.physMarked (bootPa 0) 64 = false ∧
        ({ State.reset with physMarks := [bootPa 0 / 64] } : State).physMarked (bootPa 0) 64 = true) := by
  decide +kernel

/-- A host port with nothing and with one read outstanding, a write buffer with a line of the host's, logs that take a record and
that do not, and a word with and without a mark. -/
theorem met_ModuleRows :
    let p := { base with ports := [portRead true] }
    let h : BufEntry := { entry0 with target := { entry0.target with pa := 2 ^ 51 } }
    let b := one fun t => { t with writeBuffer := [h] }
    let l := { base with elog := ⟨0x20000, 6, 0, 0, 0⟩ }
    let m := { base with localMarks := [2 ^ 14 * 4095 + 16383], scrub := 0 }
    ((∀ q ∈ base.ports, q.host = false) ∧ p.ports = [portRead true] ∧ (portRead true).host = true ∧ (portRead true).who = .helm 0 ∧
      (portRead true).op = .load 8) ∧
      (base.incoming = [] ∧ (∀ e ∈ base.strands, ∀ b ∈ e.2.writeBuffer, b.target.hostHomed = false) ∧
        ∀ e ∈ base.clusters, ∀ q ∈ e.2.storeQueue, q.local?.isSome = true ∨ q.target.hostHomed = false) ∧
      (b.incoming = [] ∧ b.ports = [] ∧ (b.strand 0).writeBuffer = [h] ∧ h.target.hostHomed = true) ∧
      base.elog.takes = false ∧ (l.elog.takes = true ∧ Memory.wf l.pmem) ∧ (base.scrub ≠ 0 ∧ m.scrub = 0) ∧
      2 ^ 14 * (4095 : Uid).toNat + (16383 : BitVec 14).toNat ∈ m.localMarks ∧
      2 ^ 14 * (4095 : Uid).toNat + (16383 : BitVec 14).toNat ∉ base.localMarks := by
  decide +kernel

/-- The last TCM word of a cluster: the scrub comes to it where it is the only marked one, and where none is marked. -/
theorem met_ModuleRows_scrub :
    let m := { base with localMarks := [2 ^ 14 * 4095 + 16383] }
    base.scrubReaches (.tcm 4095 16383) = true ∧ m.scrubReaches (.tcm 4095 16383) = true ∧
      { base with scrub := 0 }.scrubReaches (.tcm 4095 16383) = false := by
  decide +kernel

/-- A load of strand 0 on its way to module 5, under tag 7. -/
def sent0 : Outstanding :=
  ⟨7, .helm 0, 5, 0x4000, 0, 1, .load 8, 0, 0, .sent, 0, 0, ⟨3, 2⟩, false, 0, 0, none, 7, []⟩

/-- The module on planes 0 and 1 with the requests `l` outstanding; the peer plane table lists planes 0 and 1, and reduction
count 2, for module 5. -/
def fabric (l : List Outstanding) (p : Tab PeerState) : State :=
  { base with
    live := 3, linkup := 0x0103, pptbase := 0x6000, outstanding := l, peers := p, pmem := [⟨0x6014, 3⟩, ⟨0x6015, 2⟩] }

/-- Its own requests: one that is sent and its answers, a refusal with a new view, a store that returns in doubt, a return that
leaves a plane to try, a probe, targets that are probed with a probe on its way, without one, and with no plane left, and a
strip to send again. -/
theorem met_FabricRows_own :
    let s := fabric [sent0] []
    let d := { sent0 with op := .store [some 1] }
    let v : PlaneView := ⟨1, 3⟩
    let p := { sent0 with op := .probe, who := .fabric }
    let q := fabric [p] [(5, .probing)]
    let n := fabric [{ sent0 with state := .back }] [(5, .probing)]
    let z := { (fabric [] [(5, .probing)]) with live := 8 }
    let f := { sent0 with state := .back, strip := some (64, 0, 1) }
    let g := fabric [f] []
    (s.outstanding = [sent0] ∧ sent0.tag = 7 ∧ sent0.state = .sent ∧ s.peers = [] ∧ s.learned = [] ∧ Memory.wf s.pmem) ∧
      sent0.who = .helm 0 ∧ s.peerView sent0.target = ⟨3, 2⟩ ∧ (v ≠ s.peerView sent0.target ∧ s.live &&& v.mask ≠ 0) ∧
      reissuable d = false ∧ s.bothMask sent0.target &&& ~~~(sent0.returned ||| ((1 : BitVec 4) <<< sent0.plane.toNat)) ≠ 0 ∧
      (sent0.op ≠ .probe ∧ s.peer 5 ≠ .probing) ∧
      (q.outstanding = [p] ∧ p.op = .probe ∧ p.state = .sent ∧ q.learned = [] ∧ q.peers = [(p.target.toNat, .probing)] ∧
        v ≠ q.peerView p.target ∧ q.peerView p.target = ⟨3, 2⟩ ∧ q.live &&& v.mask ≠ 0) ∧
      (q.peer 5 = .probing ∧ q.bothMask 5 ≠ 0 ∧ q.probeOut 5 = true) ∧
      (n.peer 5 = .probing ∧ n.bothMask 5 ≠ 0 ∧ n.probeOut 5 = false) ∧
      (z.peers = [((5 : ModNum).toNat, .probing)] ∧ z.learned = [] ∧ z.outstanding = [] ∧ z.bothMask 5 = 0) ∧
      (g.outstanding = [f] ∧ f.strip.isSome = true ∧ f.state = .back ∧ g.peers = [] ∧ g.bothMask f.target ≠ 0) ∧
      (base.outstanding.any fun x => x.tag = 7) = false := by
  decide +kernel

/-- A target that is probed with no request outstanding, the values it has and new ones. -/
theorem met_FabricRows_answered :
    let a := fabric [] [(5, .probing)]
    let v : PlaneView := ⟨1, 3⟩
    (a.peers = [((5 : ModNum).toNat, .probing)] ∧ a.learned = [] ∧ a.outstanding = [] ∧ a.bothMask 5 ≠ 0 ∧
      Memory.wf a.pmem) ∧ a.peerView 5 = ⟨3, 2⟩ ∧ v ≠ a.peerView 5 ∧ a.live &&& v.mask ≠ 0 := by
  decide +kernel

/-- Links and planes that are up and down. -/
theorem met_FabricRows_links :
    let s := fabric [sent0] []
    s.linkup.getLsbD 31 = false ∧ s.linkup.getLsbD 0 = true ∧ (∃ j, j < 8 ∧ j ≠ 0 ∧ s.linkup.getLsbD (0 + j) = true) ∧
      s.live.getLsbD 3 = false ∧ (fabric [] []).live.getLsbD 1 = true ∧ (fabric [] []).outstanding = [] ∧
      (fabric [] []).linkup.getLsbD 8 = true ∧ (¬∃ j, j < 8 ∧ j ≠ 0 ∧ (fabric [] []).linkup.getLsbD (8 + j) = true) := by
  refine ⟨by decide +kernel, by decide +kernel, ⟨1, by decide, by decide, by decide +kernel⟩, by decide +kernel, by decide +kernel,
    by decide +kernel, by decide +kernel, ?_⟩
  rintro ⟨j, hj, h0, h⟩
  exact absurd h ((by decide +kernel : ∀ j : Fin 8, j.val ≠ 0 → ¬(fabric [] []).linkup.getLsbD (8 + j.val) = true) ⟨j, hj⟩ h0)

/-- A load of the last bytes of a 256-byte block, from another module. -/
def asked (v : PlaneView) : Request :=
  ⟨9, 4, 0x40f8, none, false, 1, ⟨0, false, 0, 0, 0⟩, .load 8, v, 0, true⟩

/-- A strip of one element for address 0x4008, from another module. -/
def strip0 (v : PlaneView) : Strip :=
  ⟨9, 4, 0x4008, none, false, 1, ⟨0, false, 0, 0, 0⟩, 64, 0, 1, .add64, [some 5], v, 0, false⟩

/-- Requests of other modules: one that a frozen record answers, one that it holds without an answer, one that waits to be
served, one under an old view, and one that is served. -/
theorem met_FabricRows_requests :
    let s := (fabric [] []).placePlain [(32, bytesOfNat 8 1)]
    let f : FrozenRecord := ⟨0, 0, [(9, 4, some (.done [1]))]⟩
    let z := { s with frozen := [f] }
    let g : FrozenRecord := ⟨0, 0, [(9, 4, none)]⟩
    let w := { s with incoming := [.request (asked ⟨3, 0⟩)] }
    (z.frozen = [f] ∧ f.entries = [((asked ⟨3, 0⟩).source, (asked ⟨3, 0⟩).tag, some (.done [1]))] ∧ (asked ⟨3, 0⟩).replay = true ∧
      RemoteReply.done [1] ≠ .redrawn ∧ RemoteReply.done [1] ≠ .noEntry) ∧
      ({ s with frozen := [g] }.frozen = [g] ∧ g.entries = [((asked ⟨3, 0⟩).source, (asked ⟨3, 0⟩).tag, none)]) ∧
      (w.frozen = [] ∧ ∃ a ∈ w.incoming, a.served.source = (asked ⟨3, 0⟩).source ∧ a.served.tag = (asked ⟨3, 0⟩).tag) ∧
      (s.frozen = [] ∧ (asked ⟨1, 0⟩).view ≠ ⟨s.live, s.rcount⟩) ∧
      ((asked ⟨3, 0⟩).view = ⟨s.live, s.rcount⟩ ∧ s.incoming = [] ∧ s.servedAt = [] ∧ s.ports = [] ∧ s.outstanding = [] ∧
        s.arrived = []) ∧ s.ownerFault 1 = none ∧ (kindOf 0x40f8 = 0 ∧ s.physFault 0x40f8 = none ∧ 0x40f8 % 256 + 8 ≤ 256 ∧ s.physMarked 0x40f8 8 = false) ∧
      s.ownerRefused 1 = false := by
  decide +kernel

/-- A replayed strip that a frozen record answers. -/
theorem met_FabricRows_replayed :
    let p := { strip0 ⟨3, 0⟩ with replay := true }
    let f : FrozenRecord := ⟨0, 0, [(p.source, p.tag, some (.done []))]⟩
    let s := { (fabric [] []) with frozen := [f] }
    p.index < p.count ∧ p.count ≤ 65536 ∧ p.replay = true ∧ s.frozen = [f] ∧
      f.entries = [(p.source, p.tag, some (.done []))] ∧ RemoteReply.done [] ≠ .redrawn ∧ RemoteReply.done [] ≠ .noEntry := by
  decide +kernel

/-- Strips: out of range, under an old view, with no fold table, applied already, and to be applied. -/
theorem met_FabricRows_strips :
    let s := (fabric [] []).placePlain [(32, bytesOfNat 8 1), (0x40000, bytesOfNat 8 (1 + 16 * 9) ++ bytesOfNat 8 64)]
    let t := { s with foldtab := 0x40000 }
    let d := t.placePlain [(0x40040, [1])]
    let p := strip0 ⟨3, 0⟩
    (65536 < (65537 : Nat) ∧ p.index < p.count ∧ p.count ≤ 65536 ∧ p.replay = false) ∧
      (t.servedAt = [] ∧ t.ownerFault p.owner = none ∧ (∀ e ∈ ([(t.foldEntry 0, 8), (t.foldEntry 0 + 64 + p.index / 8, 1),
        (t.foldEntry 0 + 20, 4)] : List (Nat × Nat)), t.deviceReaches e.1 e.2 = true ∧ t.physMarked e.1 e.2 = false)) ∧
      (strip0 ⟨1, 0⟩).view ≠ ⟨s.live, s.rcount⟩ ∧
      (p.view = ⟨s.live, s.rcount⟩ ∧ s.incoming = [] ∧ s.foldtab = 0) ∧ t.foldFind p.source p.ident = some 0 ∧
      t.foldDone 0 p.index = false ∧ (d.foldFind p.source p.ident = some 0 ∧ d.foldDone 0 p.index = true) ∧
      (Memory.wf t.pmem ∧ p.elems = [some 5] ∧ p.virt = none ∧ kindOf 0x4008 = 0 ∧ 0x4008 % p.op.bytes = 0 ∧
        t.ownerRefused p.owner = false ∧ t.physFault 0x4008 = none ∧ t.physMarked 0x4008 p.op.bytes = false ∧
        t.foldtab.toNat % 64 = 0 ∧ 0x4008 / 64 < t.foldtab.toNat % 2 ^ 52 / 64) ∧
      (s.foldFind 9 64 = none ∧ t.foldFind 9 64 = some 0) ∧ (t.foldtab ≠ 0 ∧ t.foldValid 0 = true ∧ t.foldValid 1023 = false) := by
  decide +kernel

/-- A boundary with an event that is pending for the strand, one with a pre-emption, and strands on which the timers act and do
not. -/
theorem met_EventRows :
    let e := { base with eventSet := [⟨130, 5⟩], mctgt := 0 }
    let p := one fun t => { t with preempt := some ⟨2, true⟩ }
    let f := one fun t => { t with mode := .firmware, preempt := some ⟨0, false⟩ }
    let r := one fun t => { t with reshapePend := true }
    let w := engine [member (.vadd ⟨false, 0, false, false⟩ false false 3 4 5)] fun t => { t with waitsOn := some ⟨some 3, 0x4000, 1, 2⟩ }
    (base.columnAtomic 0 = false ∧ w.columnAtomic 0 = false) ∧ (e.eventSet = [⟨130, 5⟩] ∧ 0 = e.mctgtUid ∧ e.atBoundary 0 = true ∧ (e.strand 0).kie = true) ∧ base.eventSet = [] ∧
      ((p.strand 0).preempt = some ⟨2, true⟩ ∧ p.atBoundary 0 = true ∧ (p.strand 0).kie = true ∧ (p.strand 0).queue = []) ∧
      ((f.strand 0).mode = .firmware ∧ f.atBoundary 0 = true ∧ (f.strand 0).kie = true) ∧
      ((r.strand 0).resident = true ∧ (r.strand 0).reshapePend = true ∧ r.cox.gang (r.strand 0).gang = none) ∧
      ((base.strand 0).reshapePend = false ∧ (base.strand 0).headMember = none) ∧
      ((w.strand 0).headMember.isSome = true ∧ (w.strand 0).resident = true ∧ (w.strand 0).held = [] ∧ (w.strand 0).colTrap = none ∧
        w.ptime ≠ 0 ∧ 0 ∉ w.fenced ∧ w.timerPaused 0 ⟨some 3, 0x4000, 1, 2⟩ = false) := by
  decide +kernel

/-- A held convoy whose first member is done, under the timer; and a strip at whose boundary a pre-emption may be taken. -/
theorem met_EventRows_held :
    let m : Member := { member (.vmov ⟨true, 0, false, false⟩ 1 2) with done := true }
    let x : Member := member (.vmov ⟨false, 0, false, false⟩ 1 2)
    let s := one fun t => { t with held := [[m, x]] }
    let b : Member := member (.setvl .f32 5 (.imm 4))
    let p := one fun t => { t with preempt := some ⟨0, true⟩, queue := [b] }
    ((s.strand 0).resident = true ∧ s.columnAtomic 0 = false ∧ (s.strand 0).colTrap = none ∧ s.ptime ≠ 0 ∧ 0 / 8 ∉ s.fenced) ∧
      ((s.strand 0).held = [[m, x]] ∧ (firstConvoy [m, x])[1]? = some x ∧ x.done = false ∧
        (∀ k : Fin 1, ∀ y, (firstConvoy [m, x])[k.val]? = some y → y.done = true)) ∧
      ((p.strand 0).preempt = some ⟨0, true⟩ ∧ p.atBoundary 0 = true ∧ (p.strand 0).kie = true ∧ (p.strand 0).queue = b :: [] ∧
        startsStrip b.word = true ∧ b.done = false) := by
  refine ⟨by decide +kernel, ⟨by decide +kernel, by decide +kernel, by decide +kernel, fun k y h => ?_⟩, by decide +kernel⟩
  match k, h with
  | ⟨0, _⟩, h =>
    cases h
    rfl

/-- A queue with and without a gang to resume, and a Cox with no gang and with one that is tick-bound. -/
theorem met_EventRows_cox :
    let s := { base with cox := { Cox.empty with resume := [(63, [1])] } }
    let g := { gang0 with record := 1 <<< 232 }
    let t := { base with cox := { Cox.empty with gangs := [g] } }
    Tab.get [] s.cox.resume (63 : BitVec 6).toNat ≠ [] ∧ Tab.get [] s.cox.resume (0 : BitVec 6).toNat = [] ∧
      (base.cox.candidates = [] ∧ base.cox.gangs = []) ∧ (t.cox.candidates = [] ∧ t.cox.gangs = [g] ∧ taskTb g.record = true ∧
        g.tile = none) := by
  decide +kernel

/-- A Drayman operation of strand 0, a copy of 16 bytes from the scratchpad to its TCM under handle 0x1001. -/
def op0 : DOp :=
  { ident := 64, uid := 0, holder := (0, 0, 0), owner := 1, mode := .kernel, kind := .copy, handle := 0x1001
    buf := 0x7e0000000000, module := none, loc := 0x7f0000000030, put := false, rows := 1, rbytes := 16, hstride := 0, lstride := 0
    recordAddr := none, counter := 7, ui := true, state := .running, row := 0, off := 0, sector := 0, moving := none, landed := 0
    faults := 0, partialSum := none, partialBad := false, final := false, fstrip := none, cancel := false, void := false, held := false, consumed := false
    stripsAt := [] }

/-- The module of `handled` with cluster 0 changed by `f`. -/
def engines (f : Cluster → Cluster) : State := (handled id).setCluster 0 (f ((handled id).cluster 0))

/-- The Drayman: an operation whose rows are done, one whose handle is stale, one that moves a sector between windows, and two
that have ended, without and with a record. -/
theorem met_EngineRows_drayman :
    let s := engines fun k => { k with ops := [op0] }
    let d := { op0 with row := 1 }
    let z := { op0 with handle := 0x1002 }
    let e := { op0 with state := .ending 1 }
    let r := { e with recordAddr := some 0x7e0000000040 }
    (0 ∉ s.fenced ∧ (s.cluster 0).ops = [op0] ∧ op0.state = .running ∧ op0.moving = none ∧ op0.cancel = false ∧
        op0.held = false ∧ op0.stripsAt = []) ∧
      (d.rows ≤ d.row ∧ d.kind = .copy) ∧ (z.row < z.rows ∧ z.rbytes ≠ 0 ∧ s.handleLive z.owner z.handle = false) ∧
      (op0.kind = .copy ∧ op0.put = false ∧ op0.module = none ∧ op0.rows = 1 ∧ op0.row = 0 ∧ op0.off = 0 ∧ 0 < op0.rbytes ∧
        s.handleLive op0.owner op0.handle = true ∧ op0.mode ≠ .user ∧ clusterOf op0.uid = 0 ∧ s.launchActive 0 = false) ∧
      (windowAddr op0.uid op0.buf = some (2 ^ 30) ∧ windowAddr op0.uid op0.loc = some 0x30 ∧ op0.buf.toNat % 64 + op0.rbytes ≤ 64 ∧
        op0.loc.toNat % 64 + op0.rbytes ≤ 64 ∧ 0x30 + op0.rbytes ≤ 2 ^ 30 ∧ s.clean (2 ^ 30) op0.rbytes ∧ Memory.wf s.lmem) ∧
      (e.state = .ending 1 ∧ e.kind = .copy ∧ s.whereIs e.holder = some 0 ∧ e.recordAddr = none ∧
        (s.strand 0).kept.intq.length < 64) ∧
      (r.recordAddr = some 0x7e0000000040 ∧ windowAddr r.uid 0x7e0000000040 = some (2 ^ 30 + 64) ∧ s.calm ∧
        (∀ i, i < 64 → r.inDest (0x7e0000000040 + BitVec.ofNat 64 i) = false) ∧ r.landed < 2 ^ 64 ∧ r.bytes < 2 ^ 64) := by
  unfold State.clean State.calm; decide +kernel

/-- Units that are fenced and units with nothing to do; a strip whose fetch is due; a hint for a window. -/
theorem met_EngineRows_idle :
    let f := { base with fenced := [0] }
    let c : StripCfg := ⟨0x1001#512 <<< 64 ||| 0x10000, 4, .kernel, 1, [(0, 5)], false⟩
    let s := one fun t => { t with cfg := some c }
    let h : Hint := ⟨0, 0, 1, .kernel, 0x1001, 0, none, 0, 0x7e0000000000, 129⟩
    let k := engines fun k => { k with hints := [h] }
    (0 ∈ f.fenced ∧ clusterOf 0 ∈ f.fenced) ∧ ((base.cluster 0).ops = [] ∧ (base.cluster 0).hints = [] ∧
      (base.cluster 0).matOps = [] ∧ (base.cluster 0).committing.isNone = true ∧ (base.strand 0).cfg = none) ∧
      (clusterOf 0 = 0 ∧ 0 ∉ s.fenced ∧ (s.strand 0).cfg = some c ∧ c.due = (0, 5) :: [] ∧ s.elemsOut 0 (5 - 1) = false ∧
        (s.strand 0).writeBuffer = [] ∧ s.bufferClear 0 = true ∧
        (s.opsOf (s.strand 0).holder).length + cfgStreams c.record.toNat ≤ 64 ∧
        (s.cluster 0).ops.length + cfgStreams c.record.toNat ≤ 256) ∧
      (0 ∉ k.fenced ∧ (k.cluster 0).hints = [h] ∧ h.module = none ∧ (windowAddr h.uid h.addr).isSome = true) := by
  decide +kernel

/-- A multiply of one row and one column of 64 numbers, from the scratchpad, and one whose handle is stale. -/
def job0 (h : Option (BitVec 32)) : MatJob := ⟨0, 1, 1, 64, .i8, .i8, none, false, none, 0x7e0000000000, 64, 0x7e0000000040, h, none, none⟩

/-- A matrix operation of strand 0. -/
def mat0 (h : Option (BitVec 32)) : MatOp := ⟨64, 0, (0, 0, 0), 1, .kernel, 0x1000, [job0 h], 0, 0, false, false, 0, []⟩

theorem met_EngineRows_matrix :
    let s := engines fun k => { k with matOps := [mat0 none] }
    let z := engines fun k => { k with matOps := [mat0 (some 0x1002)] }
    (0 ∉ s.fenced ∧ (s.cluster 0).matOps = [mat0 none] ∧ (mat0 none).jobs = job0 none :: [] ∧
      s.holderUid 0 (mat0 none).holder = some 0 ∧ (s.strand 0).inPreempt = false) ∧
      ((z.cluster 0).matOps = [mat0 (some 0x1002)] ∧ (mat0 (some 0x1002)).places = []) ∧
      (∃ rows s1, mapList (List.range 1) (passRow ⟨0, .kernel, 1, 3, 0x1002, 64⟩ (mat0 (some 0x1002)) (job0 (some 0x1002)) 0 64) z =
        .ok rows s1 ∧ (decide (s1.cluster 0 = z.cluster 0) && !s1.handleLive 1 0x1002) = true) ∧
      ∃ d s1, passData ⟨0, .kernel, 1, 3, 0, 64⟩ (mat0 none) (job0 none) s = .ok d s1 ∧
        decide ((s1.cluster 0).matOps = [mat0 none]) = true := by
  refine ⟨by decide +kernel, by decide +kernel, result_of _ (by decide +kernel), result_of _ (by decide +kernel)⟩

/-- A stream that reads a column of two FP32 numbers, the second of which is still to be filled; an unbound one. -/
theorem met_EngineRows_stream :
    let d : BitVec 256 := 0x7e0000000000 ||| 2 <<< 64 ||| 3 <<< 128
    let st : Stream := { Stream.start with col := 15, bound := true, filled := 1, mode := .kernel }
    let s := one fun t => { t with streams := t.streams.set 7 st, k := t.k.set 15 d }
    (base.strand 0).streams[(7 : BitVec 3).toFin].bound = false ∧ 0 ∉ s.fenced ∧ (s.strand 0).streams[(7 : BitVec 3).toFin] = st ∧
      (s.strand 0).k[st.col.toNat] = d ∧ (s.strand 0).resident = true ∧ (s.strand 0).mode = st.mode ∧ descHaspos d = false ∧
      st.filled + 1 = descLen d ∧ st.buffer.length < 4 * (s.strand 0).vlmax ∧ s.launchActive 0 = false ∧
      windowAddr 0 (descBase d + BitVec.ofNat 64 (st.filled * etypeBytes (descType d))) = some (2 ^ 30 + 4) ∧
      s.clean (2 ^ 30 + 4) (etypeBytes (descType d)) := by
  unfold State.clean; decide +kernel

/-- Of the module with strand 0 alone, no other strand is bindable. -/
theorem one_bindable (f : Strand → Strand) (v : Nat) (h : v ≠ 0) : (one f).bindable v = false := by
  have e : (one f).strand v = Strand.empty := by
    show Tab.get Strand.empty [(0, f strand0)] v = Strand.empty
    rw [Tab.get, if_neg (fun h' => h h'.symm), Tab.get]
  unfold State.bindable
  rw [e]
  rfl

/-- A strand whose strip waits to be bound, alone on its cluster; a convoy that is done, alone and with an instruction that is
open; a barrier at the head of the queue. -/
theorem met_EngineRows_queue :
    let m := { member (.vadd ⟨false, 0, false, false⟩ false false 3 4 5) with done := true }
    let b := member (.bar true)
    let s := one fun t => { t with queue := [b] }
    let r := engine [m] id
    let o := engine [m] fun t => { t with openInstrs := [⟨1, 7, false, true⟩] }
    let f := engine [b] id
    (0 ∉ s.fenced ∧ s.bindable 0 = true ∧ ∀ w, s.bindable w = true → w ≠ 0 → False) ∧ (base.bindable 0 = false) ∧
      ((r.strand 0).queue ≠ [] ∧ (r.strand 0).held = [] ∧ (r.strand 0).colTrap = none ∧
        (∀ x ∈ firstConvoy (r.strand 0).queue, x.done = true) ∧ (r.strand 0).openInstrs = [] ∧ (r.strand 0).detachNotes = []) ∧
      ((o.strand 0).kept.diverge = none ∧ (o.strand 0).openInstrs = [⟨1, 7, false, true⟩] ∧ o.ownElemsOut 0 1 = false) ∧
      (∃ x ∈ firstConvoy (f.strand 0).queue, x.done = false) ∧
      ((f.strand 0).headMember = some b ∧ decode b.word = some (.bar true) ∧ f.engineRuns 0 = true ∧ (f.strand 0).readAhead b = false ∧
        (f.strand 0).detachNotes = [] ∧ f.elemsOut 0 b.iid = false ∧ (f.strand 0).openInstrs = [] ∧
        (f.strand 0).writeBuffer = [] ∧ f.bufferClear 0 = true ∧ f.remoteOut 0 = false) := by
  refine ⟨⟨by decide +kernel, by decide +kernel, fun w hw h => ?_⟩, by decide +kernel, by decide +kernel, by decide +kernel,
    by decide +kernel, by decide +kernel⟩
  exact absurd (one_bindable _ w h) (by rw [hw]; decide)

/-- A judged tile that has the lines `p` left to commit. -/
def judged0 (p : List (Nat × Tab Byte)) : Judged := ⟨0, 1, 0, false, 0, 0, 0, 0, p, 0, some 0⟩

/-- A guarded launch in kernel mode under owner 1 whose tile 0 commits the lines `p`. -/
def launch0 (p : List (Nat × Tab Byte)) : Guarded :=
  { serial := 1, owner := 1, mode := .kernel, tol := 0, level := 0, n := 1, surrogate := 0, exact := 0, queue := 0, task := 64
    launcher := 1, nextTile := 1, tiles := [], judged := [judged0 p], exactWaiting := [], left := 0
    active := true, since := 0 }

/-- The module with that launch, after a translation of the line that it commits. -/
def committing (p : List (Nat × Tab Byte)) : State :=
  let s := ((placed (.add 1 2 3)).resolve ⟨0, .kernel, 1, 4, 0, 0⟩ .write 0x4000 128).2
  s.setCluster 0 { s.cluster 0 with launches := [launch0 p] }

/-- A commit with no line left, and one with a line that is mapped to module SRAM. -/
theorem met_EngineRows_assayer :
    let s := committing [(128, [(0, 7)])]
    let j := judged0 [(128, [(0, 7)])]
    (0 ∉ (committing []).fenced ∧ ((committing []).cluster 0).committing.map (·.2.pending) = some []) ∧
      (0 ∉ s.fenced ∧ (s.cluster 0).committing = some (launch0 [(128, [(0, 7)])], j) ∧ j.pending = (128, [(0, 7)]) :: [] ∧
        s.localMarks = []) ∧
      (match s.resolve ⟨0, .kernel, 1, 4, 0, BitVec.ofNat 64 j.index⟩ .write (BitVec.ofNat 64 (128 * 128)) 128 with
        | (.ok (.target g), s1) => decide (g.module = none ∧ kindOf g.pa = 0 ∧ s1.physFault g.pa = none ∧ s1.ports = [] ∧ s1.outstanding = [] ∧
            s1.arrived = [] ∧ Memory.wf s1.pmem ∧ s1.clusters = s.clusters)
        | _ => false) = true := by
  decide +kernel

/-! ### One step, on numbers worked out by hand -/

/-- What one step makes of the module in which strand 0, changed by `f`, fetches `i`. -/
def after (i : Instr) (f : Strand → Strand) (p : State → Bool) : Bool :=
  let s := placed i
  match step (s.setStrand 0 (f (s.strand 0))) with
  | .next t => p t
  | .fault _ => false
  | .refused _ => false

/-- Registers 1 and 2 of a strand. -/
def regs (a b : Word) (t : Strand) : Strand := { t with x := (t.x.set 1 a).set 2 b }

/-- R224: the sum wraps, and the strand goes on at the next word. -/
theorem test_add_wraps : after (.add 3 1 2) (regs (-1) 2) (fun t => t.me.readX 3 == 1 && t.me.pc == 0x10008) = true := by
  decide +kernel

/-- R184: x0 takes no result. -/
theorem test_add_x0 : after (.add 0 1 2) (regs 1 2) (fun t => t.me.readX 0 == 0) = true := by decide +kernel

/-- R224: -2 times 3, high halves signed and unsigned. -/
theorem test_mulh : after (.mulh 3 1 2) (regs (-2) 3) (fun t => t.me.readX 3 == -1) = true ∧
    after (.mulhu 3 1 2) (regs (-2) 3) (fun t => t.me.readX 3 == 2) = true := by decide +kernel

/-- R225: -7 by 2 rounds toward zero; by zero the quotient is all ones and the remainder the dividend. -/
theorem test_div : after (.div 3 1 2) (regs (-7) 2) (fun t => t.me.readX 3 == -3) = true ∧
    after (.rem 3 1 2) (regs (-7) 2) (fun t => t.me.readX 3 == -1) = true ∧
    after (.remu 3 1 2) (regs 7 0) (fun t => t.me.readX 3 == 7) = true := by decide +kernel

/-- R224: only bits 5:0 of a shift count count. -/
theorem test_shift_count : after (.sra 3 1 2) (regs 0x8000000000000000 65) (fun t => t.me.readX 3 == 0xc000000000000000) = true := by
  decide +kernel

/-- R212, R228: 1.5 plus 2.5 is 4, exactly; 1 divided by 0 raises DZ (bit 5 of mode) and gives infinity. -/
theorem test_float : after (.fadd .f32 3 1 2) (regs 0x3fc00000 0x40200000) (fun t => t.me.readX 3 == 0x40800000 && t.me.modeReg == 0) = true ∧
    after (.fdiv .f32 3 1 2) (regs 0x3f800000 0) (fun t => t.me.readX 3 == 0x7f800000 && t.me.modeReg == 0x20) = true := by
  decide +kernel

/-- R231: a store of two bytes to the scratchpad, and a signed load of one byte. -/
theorem test_store_load :
    after (.st .h 2 1 2) (regs 0x7e0000000000 0x12345) (fun t => Memory.read t.lmem (2 ^ 30 + 2) == 0x45 &&
      Memory.read t.lmem (2 ^ 30 + 3) == 0x23 && Memory.read t.lmem (2 ^ 30 + 4) == 0) = true ∧
    (match step { (placed (.ld .b true 3 1 0)).setStrand 0 (regs 0x7e0000000000 0 ((placed (.ld .b true 3 1 0)).strand 0)) with
        lmem := [⟨2 ^ 30, 0x80⟩] } with
      | .next t => t.me.readX 3 == 0xffffffffffffff80
      | _ => false) = true := by
  decide +kernel

/-- R179: a taken branch goes back by two words. -/
theorem test_branch : after (.bcmp .ltu 1 2 0xfffffffe) (regs 1 2) (fun t => t.me.pc == 0xfff0) = true ∧
    after (.bcmp .lt 1 2 0xfffffffe) (regs 1 (-2)) (fun t => t.me.pc == 0x10008) = true := by decide +kernel

/-- R236: TRAP saves the address after it. -/
theorem test_trap : after (.trap 5) id (fun t => t.me.epc == 0x10008 && t.me.cause == 7 && t.me.tval == 5 && t.me.pmode == .kernel) = true := by
  decide +kernel

/-- R202, R235: a word that decodes to nothing takes ILLEGAL with its address in epc and tval. -/
theorem test_illegal :
    (match step (State.reset.withFetchWord 64 0) with
      | .next t => t.me.cause == 1 && t.me.epc == 0x10000 && t.me.tval == 0x10000
      | _ => false) = true := by
  decide +kernel

/-- R282: a pushed instruction raises its counter. -/
theorem test_push : after (.vld ⟨false, 0, false, false⟩ ⟨.f32, false, false, 3, .module, .default⟩ 1 1 0)
    (fun t => { regs 0x7e0000000000 0 t with vtype := 2 }) (fun t => t.me.queue.length == 1 && t.me.kept.dctr[3] == 1) = true := by
  decide +kernel

/-- R173, R260: one element group of VADD on INT32; element 1 is not active and is left as it is. -/
theorem test_vadd :
    (match exec (.lineFullWake 0) (engine [member (.vadd ⟨false, 1, false, false⟩ false false 3 4 5)] fun t => { t with
        vtype := 0, vl := 2, p := t.p.set 1 1, v := ((t.v.set 3 0x900000000).set 4 0x500000007).set 5 0x600000008 }) with
      | .next t => (t.strand 0).v[3] == 0x90000000f
      | _ => false) = true := by
  decide +kernel

/-- The public key and the signature of a test image, as numbers: Ed448ph under the context CB64-FW (R462), of the seed whose
57 bytes are 0 to 56. -/
def testKey : Nat :=
  160228517979496389043194258500241232278934205070061289075771386078132690324172771511235097021776995157464930765622485646616054196588568

/-- The signature. -/
def testSig : Nat :=
  26771502638257939919987842791039681154189119758709087682865360071308709642469522711870084406582512801993216215500916929399785089210868074901628696594694118797745884138452105021177125755957421936662364535999224804385123030756825678622617899753650171892854089367593461552988

/-- A boot image of 320 bytes: a header, then 64 bytes of zeros (R461). -/
def testImage : List Byte :=
  bytesOfNat 4 0x57464243 ++ bytesOfNat 2 1 ++ bytesOfNat 2 0 ++ bytesOfNat 8 320 ++ bytesOfNat 8 256 ++ bytesOfNat 40 0 ++
    bytesOfNat 57 testKey ++ bytesOfNat 7 0 ++ bytesOfNat 114 testSig ++ bytesOfNat 78 0

/-- The module with that image in its boot window. -/
def imaged : State :=
  { State.reset with pmem := (testImage.zipIdx.filter fun e => e.1 != 0).map fun e => ⟨e.2, e.1⟩ }

/-- The checks of the boot ROM that need no fused key pass (R462). -/
theorem test_image_checks : bootHeaderOk (imaged.bootBytes 0 256) = true ∧ bootLenOk (imaged.bootBytes 0 256) = true ∧
    bootSvn (imaged.bootBytes 0 256) = 0 ∧ edVerify (bootKey (imaged.bootBytes 0 256)) 1 (ascii "CB64-FW")
      (imaged.bootDigest (imaged.bootBytes 0 256)) (bootSig (imaged.bootBytes 0 256)) = true := by
  decide +kernel

/-- A module in which the digest of that key is fused boots it. -/
theorem met_MailboxRows_boot
    (h : Config.keyDigest 0 = some (digestBits (shake256 (bootKey (imaged.bootBytes 0 256)) 64))) :
    imaged.bootFailure (imaged.bootBytes 0 256) = none ∧ imaged.mailbox.busy = false ∧ imaged.mailbox.bootstat ≠ 2 := by
  obtain ⟨h1, h2, h3, h4⟩ := test_image_checks
  have hk : keyFused (imaged.bootBytes 0 256) = true := by
    rw [keyFused, List.any_eq_true]
    exact ⟨0, List.mem_cons_self .., by rw [h]; exact beq_self_eq_true _⟩
  refine ⟨?_, rfl, by decide⟩
  unfold State.bootFailure
  rw [h1, h2, hk, h4, h3]
  rfl

end Sys2Proof.Tests
end

section
/-!
SUPPORT and proofs of the statements of scope: what the module holds right after reset (R6), and the record that its heat
leaves (R25, R469).
-/

namespace Sys2Proof.Machine

/-! ### Right after reset -/

/-- The type of an empty context is illegal, so that its VLMAX is 0 (R171, log 12). -/
theorem strand_empty_vlmax : Strand.empty.vlmax = 0 := by decide

/-- Settles O16: the fields of `State.reset`, and the empty context that every strand has while none is listed. -/
theorem resetValues : Obligations.ResetValues := by
  unfold Obligations.ResetValues
  exact ⟨fun u => ⟨rfl, rfl, rfl, rfl, strand_empty_vlmax, rfl⟩, rfl, rfl, rfl, rfl, rfl, rfl, rfl, rfl, rfl, rfl, rfl, rfl,
    rfl, fun q => rfl, rfl, rfl, rfl, rfl, rfl, rfl⟩

/-! ### Structures of the device that reach no storage -/

/-- A read of the device's own that reaches no storage finds free bytes, which depend on its address alone (logs 41 and 87). -/
theorem deviceRead_unreached {s : State} {a n : Nat} (h : s.deviceReaches a n = false) :
    s.deviceRead a n = natOfBytes ((List.range n).map fun i => Config.lostByte (a + i)) := by
  rw [State.deviceRead, h, Bool.false_and, if_neg Bool.false_ne_true]

/-- Module SRAM ends below 2^34 (R25): the device reaches no storage past it. -/
theorem deviceReaches_past_sram (s : State) {a : Nat} (n : Nat) (hk : kindOf a = 0) (h : 2 ^ 34 ≤ a % 2 ^ 50) :
    s.deviceReaches a n = false := by
  have fault : s.physFault a = some ⟨3, 7, 7, 1⟩ := by
    unfold State.physFault
    simp only [hk, decide_eq_true h, Bool.true_or, if_true]
  rw [State.deviceReaches, fault]
  rfl

/-- Refutes O57: a record of the error log whose slot lies past module SRAM is lost (R25), and what is then read there is no
record: after the heat of die 0 and after that of die 1 the same free bytes stand for it (logs 41 and 87). -/
theorem not_moduleRows : ¬ Obligations.ModuleRows := by
  unfold Obligations.ModuleRows
  intro h
  let s : State := { State.reset with elog := { base := 0x400000000, size := 6, head := 0, tail := 0, lost := 0 } }
  have takes : s.elog.takes = true := by decide
  have slot : s.elog.base.toNat % 2 ^ 52 + 32 * (s.elog.head.toNat % 2 ^ s.elog.size.toNat) = 0x400000000 := by decide
  have tick : s.tick.toNat % 2 ^ 32 * 2 ^ 128 = 0 := by decide
  have lost (t : State) : t.deviceReaches 0x400000000 32 = false := deviceReaches_past_sram t 32 (by decide) (by decide)
  have record (die : BitVec 6) : natOfBytes ((List.range 32).map fun i => Config.lostByte (0x400000000 + i)) =
      9 * 2 ^ 64 + die.toNat * 2 ^ 72 := by
    obtain ⟨-, -, -, ⟨t, -, -, -, -, -, logged⟩, -⟩ := h s die 0 0 0
    obtain ⟨-, read⟩ := logged takes Memory.wf_nil
    rwa [slot, tick, deviceRead_unreached (lost t), Nat.add_zero] at read
  have same : 9 * 2 ^ 64 + (0 : BitVec 6).toNat * 2 ^ 72 = 9 * 2 ^ 64 + (1 : BitVec 6).toNat * 2 ^ 72 :=
    (record 0).symm.trans (record 1)
  exact absurd same (by decide)

end Sys2Proof.Machine
end

section
/-!
SUPPORT and proof of the statement about writes of control registers (R5, R239 to R243): the fields of `status`, the rule for
CSRW, CSRS and CSRC, and the progress of a stopped convoy (R435).
-/

namespace Sys2Proof.Machine

/-! ### Fields of a word -/

/-- A field of a word, in its place, is the word under the field's mask. -/
theorem field_eq_mask (w : Word) (lo n : Nat) :
    (w.extractLsb' lo n).setWidth 64 <<< lo = w &&& (BitVec.allOnes n).setWidth 64 <<< lo := by
  apply BitVec.eq_of_getLsbD_eq
  intro i hi
  simp only [BitVec.getLsbD_shiftLeft, BitVec.getLsbD_setWidth, BitVec.getLsbD_extractLsb', BitVec.getLsbD_and,
    BitVec.getLsbD_allOnes]
  grind

/-- The same for the lowest field. -/
theorem lowField_eq_mask (w : Word) (n : Nat) : (w.extractLsb' 0 n).setWidth 64 = w &&& (BitVec.allOnes n).setWidth 64 := by
  simpa using field_eq_mask w 0 n

/-- The same for a single bit. -/
theorem bit_eq_mask (w : Word) (lo : Nat) : (BitVec.ofBool (w.getLsbD lo)).setWidth 64 <<< lo = w &&& (1 : Word) <<< lo := by
  apply BitVec.eq_of_getLsbD_eq
  intro i hi
  simp only [BitVec.getLsbD_shiftLeft, BitVec.getLsbD_setWidth, BitVec.getLsbD_ofBool, BitVec.getLsbD_and]
  grind

/-! ### `status` (R242) -/

/-- The fields of the number that `status` holds: it is made of them, each in its place, and the masks of those that a write
may leave as they were find them there. -/
theorem record_status : ∀ (m p f : BitVec 2) (kie pkie prot fpkie : Bool),
    let w : Word := BitVec.ofNat 64 (record [(m.toNat, 0), (p.toNat, 2), (kie.toNat, 4), (pkie.toNat, 5), (prot.toNat, 6),
      (f.toNat, 8), (fpkie.toNat, 10)])
    w = m.setWidth 64 ||| p.setWidth 64 <<< 2 ||| (BitVec.ofBool kie).setWidth 64 <<< 4 |||
        (BitVec.ofBool pkie).setWidth 64 <<< 5 ||| (BitVec.ofBool prot).setWidth 64 <<< 6 |||
        f.setWidth 64 <<< 8 ||| (BitVec.ofBool fpkie).setWidth 64 <<< 10 ∧
      w &&& (3 : Word) = m.setWidth 64 ∧ w &&& (0xc : Word) = p.setWidth 64 <<< 2 ∧
      w &&& (0x300 : Word) = f.setWidth 64 <<< 8 ∧
      w &&& (0x700 : Word) = f.setWidth 64 <<< 8 ||| (BitVec.ofBool fpkie).setWidth 64 <<< 10 := by
  decide +kernel

theorem statusWord_eq (t : Strand) : t.statusWord =
    t.mode.code.setWidth 64 ||| t.pmode.code.setWidth 64 <<< 2 ||| (BitVec.ofBool t.kie).setWidth 64 <<< 4 |||
      (BitVec.ofBool t.pkie).setWidth 64 <<< 5 ||| (BitVec.ofBool t.prot).setWidth 64 <<< 6 |||
      t.fpmode.code.setWidth 64 <<< 8 ||| (BitVec.ofBool t.fpkie).setWidth 64 <<< 10 := (record_status ..).1

theorem statusWord_masked (t : Strand) :
    t.statusWord &&& (3 : Word) = t.mode.code.setWidth 64 ∧ t.statusWord &&& (0xc : Word) = t.pmode.code.setWidth 64 <<< 2 ∧
      t.statusWord &&& (0x300 : Word) = t.fpmode.code.setWidth 64 <<< 8 ∧
      t.statusWord &&& (0x700 : Word) = t.fpmode.code.setWidth 64 <<< 8 ||| (BitVec.ofBool t.fpkie).setWidth 64 <<< 10 :=
  (record_status ..).2

/-- PMODE takes the codes 0 and 1, and keeps its value at another. -/
theorem pmode_written (e : BitVec 2) (p : Mode) :
    ((if e = 0 then Mode.user else if e = 1 then Mode.kernel else p).code.setWidth 64 <<< 2 : Word) =
      if e.setWidth 64 <<< 2 = (0 : Word) then (0 : Word) else if e.setWidth 64 <<< 2 = (4 : Word) then (4 : Word)
        else p.code.setWidth 64 <<< 2 := by
  cases p <;> revert e <;> decide

/-- FPMODE takes every code but 3, at which it keeps its value. -/
theorem fpmode_written (e : BitVec 2) (p : Mode) :
    ((if e != 3 then Mode.ofCode e else p).code.setWidth 64 <<< 8 : Word) =
      if e.setWidth 64 <<< 8 = (0x300 : Word) then p.code.setWidth 64 <<< 8 else e.setWidth 64 <<< 8 := by
  cases p <;> revert e <;> decide

/-- The three flags that a write to `status` sets in every mode. -/
theorem statusFlags_eq (w : Word) : w &&& (0x70 : Word) = (BitVec.ofBool (w.getLsbD 4)).setWidth 64 <<< 4 |||
    (BitVec.ofBool (w.getLsbD 5)).setWidth 64 <<< 5 ||| (BitVec.ofBool (w.getLsbD 6)).setWidth 64 <<< 6 := by
  rw [bit_eq_mask, bit_eq_mask, bit_eq_mask, ← BitVec.and_or_distrib_left, ← BitVec.and_or_distrib_left]
  rfl

/-- `status` after a write to it (R242, log 33). -/
theorem statusWord_setStatus (t : Strand) (w : Word) : (t.setStatus w).statusWord = csrKept t t.statusWord w .status := by
  obtain ⟨mode, pmode, fpmode, fpkie⟩ := statusWord_masked t
  have wp : w &&& (0xc : Word) = (w.extractLsb' 2 2).setWidth 64 <<< 2 := (field_eq_mask w 2 2).symm
  have wf : w &&& (0x300 : Word) = (w.extractLsb' 8 2).setWidth 64 <<< 8 := (field_eq_mask w 8 2).symm
  have wk : w &&& (0x400 : Word) = (BitVec.ofBool (w.getLsbD 10)).setWidth 64 <<< 10 := (bit_eq_mask w 10).symm
  simp only [csrKept]
  rw [statusWord_eq (t.setStatus w), mode, pmode, fpmode, fpkie, wp, wf, wk, statusFlags_eq]
  simp only [Strand.setStatus, pmode_written]
  by_cases fw : t.mode = .firmware
  · simp only [fw, decide_true, Bool.true_and, fpmode_written, if_true, BitVec.or_assoc]
  · simp only [fw, decide_false, Bool.false_and, if_false, Bool.false_eq_true, BitVec.or_assoc]

/-! ### What a write of a control register leaves of its strand -/

/-- A write to `progress` touches the parked and the held members alone. -/
theorem setProgress_eq (t : Strand) (w : Word) : ∃ q h, t.setProgress w = { t with pq := q, held := h } := by
  unfold Strand.setProgress
  split
  · exact ⟨_, _, rfl⟩
  · split <;> exact ⟨_, _, rfl⟩

/-- A write of a control register leaves the scalar registers and the program counter. -/
theorem csrWrite_leaves (t : Strand) (c : Csr) (w : Word) : (t.csrWrite c w).x = t.x ∧ (t.csrWrite c w).pc = t.pc := by
  cases c
  case progress =>
    obtain ⟨q, h, e⟩ := setProgress_eq t w
    simp only [Strand.csrWrite, e, and_self]
  case share => simp only [Strand.csrWrite]; split <;> exact ⟨rfl, rfl⟩
  all_goals exact ⟨rfl, rfl⟩

/-- A write of a scalar register touches, besides it, late loads, replies and the members that reply. -/
theorem writeX_eq (t : Strand) (r : Reg) (w : Word) : ∃ x l o rs q,
    t.writeX r w = { t with x := x, late := l, owed := o, replies := rs, queue := q } := by
  unfold Strand.writeX
  split <;> exact ⟨_, _, _, _, _, rfl⟩

/-! ### What a control register reads -/

/-- The program counter is part of no control register. -/
theorem csrValue_atPc {s t : State} {u : Nat} {c : Csr} {k : Strand} {p : Word} (hs : s.strand u = k)
    (ht : t.strand u = k.atPc p) (writable : c.readOnly = false) : t.csrValue u c = s.csrValue u c := by
  simp only [State.csrValue, hs, ht]
  cases c
  case vl | vtype | vlmax | grant | mgrant | tick | plive | cycle => cases writable
  all_goals rfl

/-- Nor are scalar registers, with what a write of one gives up. -/
theorem csrValue_writeX (s : State) (u : Nat) (c : Csr) (r : Reg) (w : Word) :
    (s.setStrand u ((s.strand u).writeX r w)).csrValue u c = s.csrValue u c := by
  obtain ⟨x, l, o, rs, q, e⟩ := writeX_eq (s.strand u) r w
  simp only [State.csrValue, strand_setStrand_same, e]
  cases c <;> rfl

/-- `uictl` after a write: UIA is read-only. -/
theorem uictl_written (w : Word) (uie uia : Bool) :
    BitVec.ofNat 64 ((w.getLsbD 0).toNat + 2 * uia.toNat) =
      (w &&& 1) ||| (BitVec.ofNat 64 (uie.toNat + 2 * uia.toNat) &&& 2) := by
  have low : w &&& (1 : Word) = (BitVec.ofBool (w.getLsbD 0)).setWidth 64 <<< 0 := (bit_eq_mask w 0).symm
  rw [low]
  cases w.getLsbD 0 <;> revert uie uia <;> decide

/-- `share` after a write: 0 leaves it as it was. -/
theorem share_written (t : Strand) (w : Word) :
    (t.csrWrite .share w).share.setWidth 64 = if w &&& 0xff = 0 then t.share.setWidth 64 else w &&& 0xff := by
  have low : w &&& (0xff : Word) = (w.extractLsb' 0 8).setWidth 64 := (lowField_eq_mask w 8).symm
  have zero : ∀ b : BitVec 8, b.setWidth 64 = (0 : Word) ↔ b = 0 := by decide
  rw [low]
  simp only [Strand.csrWrite, zero]
  split <;> rfl

/-- A register that is written reads as the fields it keeps of the word. -/
theorem csrValue_csrWrite {s t : State} {u : Nat} {c : Csr} {w : Word} (ht : t.strand u = (s.strand u).csrWrite c w)
    (writable : c.readOnly = false) (notF : c ≠ .fmask) (notP : c ≠ .pmask) (notG : c ≠ .progress) :
    t.csrValue u c = csrKept (s.strand u) (s.csrValue u c) w c := by
  simp only [State.csrValue, ht]
  cases c
  case vl | vtype | vlmax | grant | mgrant | tick | plive | cycle => cases writable
  case fmask => exact absurd rfl notF
  case pmask => exact absurd rfl notP
  case progress => exact absurd rfl notG
  case status => exact statusWord_setStatus ..
  case msel => exact lowField_eq_mask w 4
  case spillcnt => exact lowField_eq_mask w 6
  case amask | tol => exact lowField_eq_mask w 32
  case owner => exact lowField_eq_mask w 16
  case uictl => exact uictl_written ..
  case share => exact share_written ..
  all_goals rfl

/-! ### CSRW, CSRS and CSRC (R239) -/

/-- A wait that does not hold lets what follows run. -/
theorem gate_open {waits empty : Bool} (h : waits = true → empty = true) (x : M Unit) (s : State) :
    (if waits then waitUnless empty >>= fun _ => x else x) s = x s := by
  split
  · next w => rw [h w, run_waitUnless_true_bind]
  · rfl

/-- `t` is the state in which strand `s.cur` has written `w` to control register `c` and the old value to register `xd`, going
on at the next word. -/
structure CsrWritten (s t : State) (xd : Reg) (c : Csr) (w : Word) : Prop where
  cur : t.cur = s.cur
  strand : t.strand s.cur = ((s.me.writeX xd (s.csrValue s.cur c)).csrWrite c w).atPc (s.me.pc + 8)
  others : ∀ v, v ≠ s.cur → t.strand v = s.strand v
  lmem : t.lmem = s.lmem
  pmem : t.pmem = s.pmem

section
variable {s : State} {xd : Reg} {n : BitVec 12} {c : Csr} (between : s.between) (number : Csr.ofNumber n = some c)
  (writable : c.readOnly = false) (level : csrLevel n ≤ s.me.mode.level) (drained : c.waits = true → s.me.queue = [])
include number writable level drained

/-- An access that writes: the strand takes the new value, and the firmware's `tvec` is noted beside it (log 22). -/
theorem csrAccess_run {g : M (Word → Word)} {f : Word → Word} (operand : g s = .ok f s) :
    ∃ v, csrAccess xd n (some g) s.cur s = .ok () { s.become ((s.me.writeX xd (s.csrValue s.cur c)).csrWrite c
      (f (s.csrValue s.cur c))) with fwTvec := v } := by
  have empty (waits : c.waits = true) : (s.strand s.cur).queueEmpty = true := by
    have : (s.strand s.cur).queue = [] := drained waits
    rw [Strand.queueEmpty, this]
    rfl
  have allowed : ¬(s.strand s.cur).mode.level < csrLevel n := Nat.not_lt.2 level
  unfold csrAccess
  simp only [number, run_getStrand_bind, Option.isSome_some, writable, Bool.and_false, Bool.false_eq_true, if_false, allowed]
  rw [gate_open empty, bind_ok operand]
  simp only [run_getS_bind, writeX_bind, run_modStrand_bind, strand_setStrand_same, setStrand_setStrand]
  split <;> exact ⟨_, rfl⟩

include between

/-- The access as an instruction of the helm: the registers and the control register are written, and nothing else changes. -/
theorem helmOp_csrAccess {g : Nat → M (Word → Word)} {f : Word → Word} (operand : g s.cur s = .ok f s) :
    ∃ t, helmOp (fun u => csrAccess xd n (some (g u)) u) s = .next t ∧ CsrWritten s t xd c (f (s.csrValue s.cur c)) := by
  obtain ⟨v, run⟩ := csrAccess_run (xd := xd) number writable level drained operand
  generalize hk : (s.me.writeX xd (s.csrValue s.cur c)).csrWrite c (f (s.csrValue s.cur c)) = k at run
  have pc : k.pc = s.me.pc := by rw [← hk, (csrWrite_leaves ..).2, writeX_pc]
  have own : ({ s.become k with fwTvec := v } : State).strand s.cur = k := strand_setStrand_same ..
  refine ⟨_, helmOp_ok between run, rfl, ?_, fun w hw => ?_, rfl, rfl⟩
  · rw [strand_setStrand_same, own, hk, pc]
  · rw [strand_setStrand_other _ _ hw.symm]
    exact strand_setStrand_other _ _ hw.symm

variable {xa : Reg} (has : s.has xa)
include has

/-- CSRW writes the operand. -/
theorem csrw_written : ∃ t, exec (.csrw xd xa n) s = .next t ∧ CsrWritten s t xd c (s.reg xa) :=
  helmOp_csrAccess between number writable level drained (g := fun u => readX u xa >>= fun a => pure fun _ => a)
    (f := fun _ => s.reg xa) (bind_ok (readX_run has))

/-- CSRS sets the operand's bits. -/
theorem csrs_written (nonzero : xa ≠ 0) :
    ∃ t, exec (.csrs xd xa n) s = .next t ∧ CsrWritten s t xd c (s.csrValue s.cur c ||| s.reg xa) := by
  simp only [show exec (.csrs xd xa n) s = execCsrs xd xa n s from rfl, execCsrs, if_neg nonzero]
  exact helmOp_csrAccess between number writable level drained (g := fun u => readX u xa >>= fun a => pure fun old => old ||| a)
    (f := fun old => old ||| s.reg xa) (bind_ok (readX_run has))

/-- CSRC clears the operand's bits. -/
theorem csrc_written (nonzero : xa ≠ 0) :
    ∃ t, exec (.csrc xd xa n) s = .next t ∧ CsrWritten s t xd c (s.csrValue s.cur c &&& ~~~s.reg xa) := by
  simp only [show exec (.csrc xd xa n) s = execCsrc xd xa n s from rfl, execCsrc, if_neg nonzero]
  exact helmOp_csrAccess between number writable level drained
    (g := fun u => readX u xa >>= fun a => pure fun old => old &&& ~~~a)
    (f := fun old => old &&& ~~~s.reg xa) (bind_ok (readX_run has))

end

section
variable {s t : State} {xd : Reg} {c : Csr} {w : Word} (written : CsrWritten s t xd c w)
include written

/-- The strand that issues, where the write has ended. -/
theorem CsrWritten.me : t.me = ((s.me.writeX xd (s.csrValue s.cur c)).csrWrite c w).atPc (s.me.pc + 8) := by
  rw [State.me, written.cur, written.strand]

/-- A scalar register after it. -/
theorem CsrWritten.reg (r : Reg) : t.reg r = (s.me.writeX xd (s.csrValue s.cur c)).readX r := by
  rw [State.reg, written.me]
  simp only [Strand.readX, Strand.atPc_x, (csrWrite_leaves ..).1]

/-- The control register after it: what the write leaves in it, seen from the state in which register `xd` is written. -/
theorem CsrWritten.value (writable : c.readOnly = false) :
    let s' := s.setStrand s.cur (s.me.writeX xd (s.csrValue s.cur c))
    t.csrValue s.cur c = (s'.setStrand s.cur ((s'.strand s.cur).csrWrite c w)).csrValue s.cur c :=
  csrValue_atPc (strand_setStrand_same ..) (by rw [written.strand, strand_setStrand_same]) writable

/-- A register that is written reads as the fields it keeps of the word. -/
theorem CsrWritten.kept (writable : c.readOnly = false) (notF : c ≠ .fmask) (notP : c ≠ .pmask) (notG : c ≠ .progress) :
    t.csrValue s.cur c = csrKept s.me (s.csrValue s.cur c) w c := by
  rw [written.value writable, csrValue_csrWrite (strand_setStrand_same ..) writable notF notP notG, strand_setStrand_same]
  rw [State.me, csrValue_writeX]
  unfold csrKept
  simp only [writeX_mode]

end

/-! ### `progress` (R435) -/

/-! #### Its fields, bit by bit -/

/-- The progress fields of one member (R435): its index below its valid bit. -/
theorem progressField_getLsbD (m : Member) {j : Nat} (hj : j < 64) :
    (BitVec.ofNat 64 (m.idx.toNat + if m.pv then 2 ^ 14 else 0)).getLsbD j =
      if j = 14 then m.pv else m.idx.getLsbD j := by
  rw [BitVec.getLsbD_ofNat, decide_eq_true hj, Bool.true_and]
  cases m.pv
  · rw [if_neg Bool.false_ne_true, Nat.add_zero]
    split
    · next h => rw [h]; exact BitVec.getLsbD_of_ge _ _ (Nat.le_refl _)
    · rfl
  · rw [if_pos rfl, Nat.add_comm]
    split
    · next h => rw [h, Nat.testBit_two_pow_add_eq, Nat.testBit_lt_two_pow m.idx.isLt]; rfl
    · next h =>
      rcases Nat.lt_or_gt_of_ne h with h | h
      · rw [Nat.testBit_two_pow_add_gt h]; rfl
      · rw [BitVec.getLsbD_of_ge _ _ (Nat.le_of_lt h), Nat.testBit_lt_two_pow]
        calc 2 ^ 14 + m.idx.toNat < 2 ^ 14 + 2 ^ 14 := Nat.add_lt_add_left m.idx.isLt _
          _ = 2 ^ 15 := by decide
          _ ≤ 2 ^ j := Nat.pow_le_pow_right (by decide) h

/-- Bits above the lower part of two bit vectors put together. -/
theorem getLsbD_append_above {m n : Nat} (x : BitVec m) (y : BitVec n) (i : Nat) :
    (x ++ y).getLsbD (n + i) = x.getLsbD i := by
  rw [BitVec.getLsbD_append, if_neg (by omega), Nat.add_sub_cancel_left]

/-- The bits of a parked member from 384 on: its index, its valid bit, and, after its discard bit, its last bit (R436). -/
theorem toPQ_getLsbD (m : Member) (i : Nat) : m.toPQ.getLsbD (384 + i) =
    ((0 : BitVec 80) ++ m.owner ++ (0 : BitVec 10) ++ flagBit 1 m.prot ++ m.rm ++ m.mode.code ++ flagBit 1 m.last
      ++ flagBit 1 m.disc ++ flagBit 1 m.pv ++ m.idx).getLsbD i := by
  rw [show 384 + i = 64 + (64 + (64 + (64 + (64 + (64 + i))))) by omega]
  unfold Member.toPQ
  rw [getLsbD_append_above, getLsbD_append_above, getLsbD_append_above, getLsbD_append_above, getLsbD_append_above,
    getLsbD_append_above]

theorem flagBit_getLsbD (b : Bool) : (flagBit 1 b).getLsbD 0 = b := by cases b <;> rfl

/-- A member that is parked and pushed again has its index, its valid bit and its last bit. -/
theorem ofPQ_toPQ (m : Member) (iid vl : Nat) : (Member.ofPQ m.toPQ iid vl).idx = m.idx ∧
    (Member.ofPQ m.toPQ iid vl).pv = m.pv ∧ (Member.ofPQ m.toPQ iid vl).last = m.last := by
  refine ⟨BitVec.eq_of_getLsbD_eq fun i hi => ?_, ?_, ?_⟩
  · simp only [Member.ofPQ, BitVec.getLsbD_extractLsb', hi, decide_true, Bool.true_and]
    rw [toPQ_getLsbD, BitVec.getLsbD_append, if_pos hi]
  · show m.toPQ.getLsbD (384 + (14 + 0)) = m.pv
    rw [toPQ_getLsbD, getLsbD_append_above, BitVec.getLsbD_append, if_pos Nat.one_pos, flagBit_getLsbD]
  · show m.toPQ.getLsbD (384 + (14 + (1 + (1 + 0)))) = m.last
    rw [toPQ_getLsbD, getLsbD_append_above, getLsbD_append_above, getLsbD_append_above, BitVec.getLsbD_append,
      if_pos Nat.one_pos, flagBit_getLsbD]

/-- Bit `k` of the progress fields: a bit of the member whose field it lies in. -/
theorem progressOf_getLsbD (l : List Member) {i k : Nat} (hk : k < 64) :
    (progressOf l i).getLsbD k = (decide (16 * i ≤ k) && (l[k / 16 - i]?).any fun m =>
      if k % 16 = 14 then m.pv else m.idx.getLsbD (k % 16)) := by
  induction l generalizing i with
  | nil => simp [progressOf]
  | cons m l ih =>
    simp only [progressOf, BitVec.getLsbD_or, BitVec.getLsbD_shiftLeft, hk, decide_true, Bool.true_and, ih]
    rcases Nat.lt_trichotomy (k / 16) i with h | h | h
    · simp only [decide_eq_false (show ¬16 * i ≤ k by omega), decide_eq_false (show ¬16 * (i + 1) ≤ k by omega),
        decide_eq_true (show k < 16 * i by omega)]
      rfl
    · have off : k - 16 * i = k % 16 := by omega
      simp only [decide_eq_true (show 16 * i ≤ k by omega), decide_eq_false (show ¬16 * (i + 1) ≤ k by omega),
        decide_eq_false (show ¬k < 16 * i by omega), off, progressField_getLsbD m (show k % 16 < 64 by omega), h, Nat.sub_self]
      simp
    · have next : k / 16 - i = k / 16 - (i + 1) + 1 := by omega
      have far : (BitVec.ofNat 64 (m.idx.toNat + if m.pv then 2 ^ 14 else 0)).getLsbD (k - 16 * i) = false := by
        rw [progressField_getLsbD m (by omega), if_neg (by omega), BitVec.getLsbD_of_ge _ _ (by omega)]
      simp only [decide_eq_true (show 16 * i ≤ k by omega), decide_eq_true (show 16 * (i + 1) ≤ k by omega), far, next,
        List.getElem?_cons_succ, Bool.and_false, Bool.false_or]

/-! #### The first convoy -/

/-- Where the members end alike, the first convoy of both lists is as long. -/
theorem firstConvoy_eq_take {l l' : List Member} (ends : l'.map (·.last) = l.map (·.last)) :
    firstConvoy l' = l'.take (firstConvoy l).length := by
  induction l generalizing l' with
  | nil => rw [List.map_eq_nil_iff.1 ends]; rfl
  | cons m l ih =>
    match l' with
    | [] => cases ends
    | m' :: l' =>
      simp only [List.map_cons, List.cons.injEq] at ends
      obtain ⟨last, rest⟩ := ends
      simp only [firstConvoy, last]
      split
      · rfl
      · rw [ih rest]; rfl

theorem length_firstConvoy_le (l : List Member) : (firstConvoy l).length ≤ l.length := by
  induction l with
  | nil => exact Nat.le_refl 0
  | cons m l ih =>
    simp only [firstConvoy]
    split <;> simp only [List.length_cons, List.length_nil] <;> omega

/-- The member has the index and the valid bit that a written word has in the field of place `j`. -/
def Member.Shows (m : Member) (w : Word) (j : Nat) : Prop :=
  m.idx = w.extractLsb' (16 * j) 14 ∧ m.pv = w.getLsbD (16 * j + 14)

/-- The progress fields of a convoy whose first four members show a word: the bits of the word in the members' fields. -/
theorem progressOf_shows {l l' : List Member} {w : Word} (ends : l'.map (·.last) = l.map (·.last))
    (shows : ∀ j m, j < 4 → j < (firstConvoy l).length → l'[j]? = some m → m.Shows w j) {k : Nat} (hk : k < 64) :
    (progressOf (firstConvoy l') 0).getLsbD k =
      (w.getLsbD k && decide (k / 16 < (firstConvoy l).length) && decide (k % 16 ≠ 15)) := by
  have size : l'.length = l.length := by simpa using congrArg List.length ends
  have short := length_firstConvoy_le l
  rw [firstConvoy_eq_take ends, progressOf_getLsbD _ hk, decide_eq_true (show 16 * 0 ≤ k by omega), Bool.true_and, Nat.sub_zero]
  by_cases inside : k / 16 < (firstConvoy l).length
  · have at? : l'[k / 16]? = some (l'[k / 16]'(by omega)) := List.getElem?_eq_getElem _
    obtain ⟨idx, pv⟩ := shows (k / 16) _ (by omega) inside at?
    rw [List.getElem?_take_of_lt inside, at?, Option.any_some, idx, pv, BitVec.getLsbD_extractLsb', decide_eq_true inside]
    by_cases valid : k % 16 = 14
    · rw [if_pos valid, show 16 * (k / 16) + 14 = k by omega, decide_eq_true (show k % 16 ≠ 15 by omega)]
      simp
    · have index : decide (k % 16 < 14) = decide (k % 16 ≠ 15) := decide_eq_decide.2 (by omega)
      rw [if_neg valid, show 16 * (k / 16) + k % 16 = k by omega, index, Bool.and_true, Bool.and_comm]
  · rw [List.getElem?_eq_none (by simp; omega), decide_eq_false inside]
    simp

/-! #### The members of a list, the first of them written -/

theorem mapFirst_getElem? {α : Type} (f : α → Nat → α) (n i : Nat) (l : List α) (j : Nat) :
    (mapFirst f n i l)[j]? = (l[j]?).map fun a => if j < n then f a (i + j) else a := by
  induction l generalizing n i j with
  | nil => cases n <;> simp [mapFirst]
  | cons a l ih =>
    cases n with
    | zero => simp [mapFirst]
    | succ n =>
      cases j with
      | zero => simp [mapFirst]
      | succ j => simp [mapFirst, ih, Nat.add_assoc, Nat.add_comm 1]

/-- What `f` leaves of an entry, it leaves of the entries of a list. -/
theorem map_mapFirst {α β : Type} {f : α → Nat → α} {g : α → β} (same : ∀ a i, g (f a i) = g a) (n i : Nat) (l : List α) :
    (mapFirst f n i l).map g = l.map g := by
  refine List.ext_getElem? fun j => ?_
  rw [List.getElem?_map, List.getElem?_map, mapFirst_getElem?, Option.map_map]
  congr 1
  funext a
  simp only [Function.comp_apply]
  split
  · exact same ..
  · rfl

/-- Where the members of a list end is no field that a write to `progress` takes. -/
theorem last_mapFirst_setProgress (w : Word) (vl n : Nat) (l : List Member) :
    (mapFirst (setProgress w vl) n 0 l).map (·.last) = l.map (·.last) :=
  map_mapFirst (f := setProgress w vl) (fun _ _ => rfl) n 0 l

/-- Entry `j` of a list of progress members, once the fields are taken from a word. -/
theorem shows_mapFirst_setProgress {w : Word} {vl n j : Nat} {l : List Member} {m : Member} (hj : j < n)
    (entry : (mapFirst (setProgress w vl) n 0 l)[j]? = some m) : m.Shows w j := by
  rw [mapFirst_getElem?, Option.map_eq_some_iff] at entry
  obtain ⟨m', -, rfl⟩ := entry
  rw [if_pos hj, Nat.zero_add]
  exact ⟨rfl, rfl⟩

/-! #### The parked queue -/

/-- The slot of a member in a parked queue. -/
theorem get_pqOf (l : List Member) (t : Tab (BitVec 512)) (n : Nat) {i : Nat} (h : i < l.length) :
    Tab.get 0 (pqOf n l ++ t) (n + i) = l[i].toPQ := by
  induction l generalizing n i with
  | nil => cases h
  | cons m l ih =>
    cases i with
    | zero => simp [pqOf, Tab.get]
    | succ i =>
      have rest := ih (n + 1) (i := i) (by simpa using h)
      rw [List.getElem_cons_succ, ← rest]
      simp only [pqOf, List.cons_append, Tab.get]
      rw [if_neg (by omega), Nat.add_assoc, Nat.add_comm 1]

/-- The members of a parked queue that has been written from a list. -/
theorem unparkMembers_getElem? {t : Strand} {l : List Member} {q : Tab (BitVec 512)} (hq : t.pq = pqOf 0 l ++ q)
    (hn : t.pcount = l.length) (j : Nat) :
    (unparkMembers t)[j]? = (l[j]?).map fun m => Member.ofPQ m.toPQ (t.nextIid + j) t.vl := by
  rw [unparkMembers, List.getElem?_map, hq, hn]
  by_cases h : j < l.length
  · have at0 := get_pqOf l q 0 h
    rw [Nat.zero_add] at at0
    rw [List.getElem?_range h, List.getElem?_eq_getElem h, Option.map_some, Option.map_some, at0]
  · rw [List.getElem?_eq_none (by simpa using h), List.getElem?_eq_none (by simpa using h)]
    rfl

/-- A write to `progress` with a parked queue. -/
theorem progress_setProgress_parked {t : Strand} (w : Word) (parked : t.pcount ≠ 0) {k : Nat} (hk : k < 64) :
    (t.setProgress w).progress.getLsbD k =
      (w.getLsbD k && decide (k / 16 < (firstConvoy (unparkMembers t)).length) && decide (k % 16 ≠ 15)) := by
  have write : t.setProgress w = { t with pq := (t.setProgress w).pq } := by
    rw [Strand.setProgress, if_pos parked]
  generalize hn : min 4 (firstConvoy (unparkMembers t)).length = n
  generalize hl : mapFirst (Machine.setProgress w t.vl) n 0 (unparkMembers t) = l
  have pq : (t.setProgress w).pq = pqOf 0 l ++ t.pq.filter (fun e => t.pcount ≤ e.1) := by
    rw [Strand.setProgress, if_pos parked, ← hl, ← hn]
    rfl
  have lasts : l.map (·.last) = (unparkMembers t).map (·.last) := by
    rw [← hl, last_mapFirst_setProgress]
  have size : l.length = t.pcount := by
    simpa [unparkMembers] using congrArg List.length lasts
  have entry := unparkMembers_getElem? (t := t.setProgress w) pq (by rw [size, write])
  have progress : (t.setProgress w).progress = progressOf (firstConvoy (unparkMembers (t.setProgress w))) 0 := by
    rw [Strand.progress, if_pos (by rw [write]; exact parked)]
    rfl
  rw [progress]
  refine progressOf_shows ?_ (fun j m h4 hj hm => ?_) hk
  · rw [← lasts]
    refine List.ext_getElem? fun j => ?_
    rw [List.getElem?_map, List.getElem?_map, entry, Option.map_map]
    congr 1
    funext m
    exact (ofPQ_toPQ ..).2.2
  · rw [entry, Option.map_eq_some_iff] at hm
    obtain ⟨m', hm', rfl⟩ := hm
    obtain ⟨idx, pv⟩ := shows_mapFirst_setProgress (by omega) (hl ▸ hm')
    obtain ⟨idx', pv', -⟩ := ofPQ_toPQ m' ((t.setProgress w).nextIid + j) (t.setProgress w).vl
    exact ⟨idx'.trans idx, pv'.trans pv⟩

/-! #### The held members -/

theorem stopped_last (t : Strand) (m : Member) : (t.stopped m).last = m.last := by
  unfold Strand.stopped
  split
  · rfl
  · split
    · rfl
    · split <;> rfl

/-- A member that has stopped works no more. -/
theorem stopped_work (t : Strand) {m : Member} (idle : m.done = true → m.work = none) : (t.stopped m).work = none := by
  unfold Strand.stopped
  split
  · next done => exact idle done
  · split
    · rfl
    · next rest => split <;> exact Option.not_isSome_iff_eq_none.1 rest

/-- The fields of a word that ask for a replay (R284): index 0x3FFD, and valid. -/
theorem field_replay {w : Word} {j : Nat} (idx : w.extractLsb' (16 * j) 14 = 0x3ffd) (pv : w.getLsbD (16 * j + 14) = true) :
    w.extractLsb' (16 * j) 15 = 0x7ffd := by
  have parts : w.extractLsb' (16 * j) 15 = BitVec.cons (w.getLsbD (16 * j + 14)) (w.extractLsb' (16 * j) 14) := by
    refine BitVec.eq_of_getLsbD_eq fun i hi => ?_
    rw [BitVec.getLsbD_cons, BitVec.getLsbD_extractLsb', BitVec.getLsbD_extractLsb', decide_eq_true hi, Bool.true_and]
    split
    · next top => rw [top]
    · next low => rw [decide_eq_true (show i < 14 by omega), Bool.true_and]
  rw [parts, idx, pv]
  rfl

/-- A stopped member that shows a word, and is done where its index is VL, shows it still as it stops again. -/
theorem shows_stopped {t : Strand} {m : Member} {w : Word} {j : Nat} (shown : m.Shows w j) (idle : m.work = none)
    (done : m.done = (m.pv && m.idx.toNat = t.vl)) (plain : w.extractLsb' (16 * j) 15 ≠ 0x7ffd) : (t.stopped m).Shows w j := by
  obtain ⟨idx, pv⟩ := shown
  have noReplay : ¬(m.pv && decide (m.idx = 0x3ffd)) = true := by
    intro replay
    simp only [Bool.and_eq_true, decide_eq_true_eq] at replay
    exact plain (field_replay (idx.symm.trans replay.2) (pv.symm.trans replay.1))
  unfold Strand.stopped
  rw [if_neg (show ¬m.work.isSome = true by simp [idle]), if_neg noReplay]
  split
  · next h =>
    rw [done, Bool.and_eq_true, decide_eq_true_eq] at h
    obtain ⟨valid, top⟩ := h
    refine ⟨?_, valid.symm.trans pv⟩
    rw [← idx, ← top]
    exact BitVec.ofNat_toNat ..
  · exact ⟨idx, pv⟩

/-- A write to `progress` with no parked queue: the members that the innermost trap holds are written, if there are any. -/
theorem progress_setProgress_held {t : Strand} {w : Word} (unparked : t.pcount = 0)
    (idle : ∀ m ∈ t.held.headD [], m.done = true → m.work = none)
    (plain : ∀ j, j < 4 → w.extractLsb' (16 * j) 15 ≠ 0x7ffd) {k : Nat} (hk : k < 64) :
    (t.setProgress w).progress.getLsbD k =
      (w.getLsbD k && decide (k / 16 < (firstConvoy (t.held.headD [])).length) && decide (k % 16 ≠ 15)) := by
  have unparked' : ¬t.pcount ≠ 0 := fun h => h unparked
  cases held : t.held with
  | nil =>
    have same : t.setProgress w = t := by rw [Strand.setProgress, if_neg unparked', held]
    have none : t.progress = 0 := by rw [Strand.progress, if_neg unparked', held]
    rw [same, none]
    simp [firstConvoy]
  | cons h rest =>
    rw [held, List.headD_cons] at idle
    rw [List.headD_cons]
    have lasts (l : List Member) : (l.map t.stopped).map (·.last) = l.map (·.last) := by
      rw [List.map_map]
      exact List.map_congr_left fun m _ => stopped_last t m
    have size : (firstConvoy (h.map t.stopped)).length = (firstConvoy h).length := by
      rw [firstConvoy_eq_take (lasts h), List.length_take, List.length_map]
      exact Nat.min_eq_left (length_firstConvoy_le h)
    have write : t.setProgress w = { t with
        held := mapFirst (Machine.setProgress w t.vl) (min 4 (firstConvoy h).length) 0 (h.map t.stopped) :: rest } := by
      rw [Strand.setProgress, if_neg unparked', held, ← size]
    have progress : (t.setProgress w).progress = progressOf (firstConvoy ((mapFirst (Machine.setProgress w t.vl)
        (min 4 (firstConvoy h).length) 0 (h.map t.stopped)).map t.stopped)) 0 := by
      rw [write, Strand.progress, if_neg unparked']
      rfl
    rw [progress]
    refine progressOf_shows ?_ (fun j m h4 hj hm => ?_) hk
    · rw [lasts, last_mapFirst_setProgress, lasts]
    · rw [List.getElem?_map, mapFirst_getElem?, List.getElem?_map, Option.map_map, Option.map_map,
        Option.map_eq_some_iff] at hm
      obtain ⟨m', hm', rfl⟩ := hm
      simp only [Function.comp_apply]
      rw [if_pos (show j < min 4 (firstConvoy h).length by omega), Nat.zero_add]
      exact shows_stopped ⟨rfl, rfl⟩ (stopped_work t (idle m' (List.mem_of_getElem? hm'))) rfl (plain j h4)

/-! #### A write -/

/-- The members that a write to `progress` names: those of the parked queue, or else those that the innermost trap holds. -/
def Strand.stoppedMembers (t : Strand) : List Member := if t.pcount ≠ 0 then unparkMembers t else t.held.headD []

/-- `progress` after a write to it. -/
theorem progress_setProgress {t : Strand} {w : Word} (idle : ∀ m ∈ t.held.headD [], m.done = true → m.work = none)
    (plain : t.pcount ≠ 0 ∨ ∀ j, j < 4 → w.extractLsb' (16 * j) 15 ≠ 0x7ffd) {k : Nat} (hk : k < 64) :
    (t.setProgress w).progress.getLsbD k =
      (w.getLsbD k && decide (k / 16 < (firstConvoy t.stoppedMembers).length) && decide (k % 16 ≠ 15)) := by
  by_cases parked : t.pcount ≠ 0
  · rw [Strand.stoppedMembers, if_pos parked]
    exact progress_setProgress_parked w parked hk
  · rw [Strand.stoppedMembers, if_neg parked]
    exact progress_setProgress_held (Decidable.not_not.1 parked) idle (plain.resolve_left parked) hk

/-- `progress` reads as the fields of the stopped convoy that were written. -/
theorem CsrWritten.progress {s t : State} {xd : Reg} {c : Csr} {w : Word} (written : CsrWritten s t xd c w)
    (isProgress : c = .progress)
    (idle : ∀ m ∈ s.me.held.headD [], m.done = true → m.work = none)
    (plain : s.me.pcount ≠ 0 ∨ ∀ j, j < 4 → w.extractLsb' (16 * j) 15 ≠ 0x7ffd) {k : Nat} (hk : k < 64) :
    (t.csrValue s.cur c).getLsbD k =
      (w.getLsbD k && decide (k / 16 < (firstConvoy s.me.stoppedMembers).length) && decide (k % 16 ≠ 15)) := by
  subst isProgress
  rw [written.value rfl]
  simp only [State.csrValue, strand_setStrand_same]
  obtain ⟨x, l, o, rs, q, e⟩ := writeX_eq s.me xd (s.strand s.cur).progress
  rw [e]
  exact progress_setProgress (t := { s.me with x := x, late := l, owed := o, replies := rs, queue := q }) idle plain hk

/-- Settles O34: CSRW, CSRS and CSRC end in a state that `CsrWritten` describes, and what a register reads there is
`csrKept`, or for `progress` the fields of the stopped convoy. -/
theorem csrWrite : Obligations.CsrWrite := by
  unfold Obligations.CsrWrite
  intro s xd xa n c between has number writable level drained old ends all
  have ends_of {i : Instr} {w : Word} {now : State → Prop} (run : ∃ t, exec i s = .next t ∧ CsrWritten s t xd c w)
      (h : ∀ t, CsrWritten s t xd c w → now t) : ends i now := by
    obtain ⟨t, run, written⟩ := run
    refine ⟨t, run, h t written, ?_, fun r hr => ?_, ?_, written.lmem, written.pmem, written.others⟩
    · rw [written.reg, readX_writeX_same]
    · rw [written.reg, readX_writeX_other _ _ hr.symm, State.reg]
    · rw [written.me, atPc_pc]
  have all_of {f : Word → State → Prop} (h : ∀ w t, CsrWritten s t xd c w → f w t) : all f :=
    ⟨ends_of (csrw_written between number writable level drained has) (h _), fun nonzero =>
      ⟨ends_of (csrs_written between number writable level drained has nonzero) (h _),
        ends_of (csrc_written between number writable level drained has nonzero) (h _)⟩⟩
  refine ⟨fun notF notP notG => all_of fun w t written => written.kept writable notF notP notG, ?_⟩
  intro isProgress idle stopped
  exact all_of (f := fun w t => _ → ∀ k, k < 64 → _) fun w t written plain k hk =>
    written.progress isProgress idle plain hk

end Sys2Proof.Machine
end

section
/-!
SUPPORT and proof of the statement about TLBINV (R86, R246): what an invalidation leaves in the translation caches, what it
does to the loads of the strands that may still be performed (R129), and that it leaves the rest as it was.
-/

namespace Sys2Proof.Machine

/-! ### Loads that may still take their values -/

/-- Where a cluster uses no old translation, its strands have gone on from no load that is still to be performed. -/
theorem guesses_of_translationsUsed {s : State} {v : Nat} (unused : s.translationsUsed (clusterOf v) = false) :
    (s.strand v).guesses = [] := by
  have listed : ∀ e ∈ s.strands, clusterOf e.1 = clusterOf v → e.2.guesses = [] := by
    simp only [State.translationsUsed, Bool.or_eq_false_iff] at unused
    obtain ⟨⟨⟨⟨-, loads⟩, -⟩, -⟩, -⟩ := unused
    simpa using loads
  unfold State.strand
  generalize s.strands = l at listed
  induction l with
  | nil => rfl
  | cons e l ih =>
    rw [Tab.get]
    split
    · next h => exact listed e List.mem_cons_self (congrArg clusterOf h)
    · exact ih fun d hd => listed d (List.mem_cons_of_mem _ hd)

/-- The strands of the cluster keep of their loads only those that they have gone on from; the others are as before. -/
theorem strand_endLoads (s : State) (c v : Nat) : (s.endLoads c).strand v =
    if clusterOf v = c then { s.strand v with late := (s.strand v).guesses } else s.strand v := by
  unfold State.endLoads State.strand
  induction s.strands with
  | nil => simp only [List.map_nil, Tab.get]; split <;> rfl
  | cons e l ih =>
    by_cases h : e.1 = v
    · subst h
      rw [List.map_cons]
      split <;> simp [Tab.get]
    · rw [List.map_cons]
      split <;> simpa [Tab.get, h] using ih

/-! ### Invalidation in a list of clusters -/

section
variable (s : State) (f : InvKind) (va : Word) (owner : Owner)

theorem strand_invalidateIn (c v : Nat) : (s.invalidateIn f va owner c).strand v =
    if clusterOf v = c then { s.strand v with late := (s.strand v).guesses } else s.strand v :=
  strand_endLoads s c v

theorem cluster_invalidateIn (c k : Nat) : (s.invalidateIn f va owner c).cluster k =
    if k = c then { s.cluster k with tlb := (s.cluster k).tlb.filter fun e => !e.named f va owner } else s.cluster k := by
  split
  · next h => subst h; exact cluster_setCluster_same (s.endLoads k) k _
  · next h => exact Tab.get_set_other _ _ _ (Ne.symm h)

theorem strand_invalidate (l : List Nat) (v : Nat) : (s.invalidate f va owner l).strand v =
    if clusterOf v ∈ l then { s.strand v with late := (s.strand v).guesses } else s.strand v := by
  induction l generalizing s with
  | nil => simp [State.invalidate]
  | cons c l ih =>
    rw [State.invalidate, ih, strand_invalidateIn]
    by_cases here : clusterOf v = c
    · simp [here, Strand.guesses]
    · simp [here]

/-- Of the translations of a cluster those remain that are not named, and where the cluster is not reached all of them. -/
theorem mem_tlb_invalidate (l : List Nat) (k : Nat) (e : TlbEntry) : e ∈ ((s.invalidate f va owner l).cluster k).tlb ↔
    e ∈ (s.cluster k).tlb ∧ (k ∈ l → e.named f va owner = false) := by
  induction l generalizing s with
  | nil => simp [State.invalidate]
  | cons c l ih =>
    rw [State.invalidate, ih, cluster_invalidateIn, List.mem_cons, or_imp, ← and_assoc]
    refine and_congr_left fun _ => ?_
    by_cases here : k = c <;> simp [here]

theorem invalidate_frame (l : List Nat) : (s.invalidate f va owner l).cur = s.cur ∧
    (s.invalidate f va owner l).lmem = s.lmem ∧ (s.invalidate f va owner l).pmem = s.pmem := by
  induction l generalizing s with
  | nil => exact ⟨rfl, rfl, rfl⟩
  | cons c l ih => exact ih (s.invalidateIn f va owner c)

end

/-! ### TLBINV -/

theorem needKernel_run {s : State} {u : Nat} (privileged : (s.strand u).mode ≠ .user) : needKernel u s = .ok () s := by
  unfold needKernel
  rw [run_getStrand_bind]
  cases h : (s.strand u).mode with
  | user => exact absurd h privileged
  | kernel | firmware => rfl

/-- Where nothing uses an old translation, TLBINV ends after its invalidation (R246). -/
theorem exec_tlbinv {s : State} {scope : Scope} (f : InvKind) {xa xb : Reg} (between : s.between) (hasA : s.has xa)
    (hasB : s.has xb) (privileged : s.me.mode ≠ .user) (inside : scope ≠ .system) (unused : ∀ c, s.translationsUsed c = false) :
    let t := s.invalidate f (s.reg xa) ((s.reg xb).extractLsb' 0 16) (clusterOf s.cur :: s.clustersOf (clusterOf s.cur) scope)
    exec (.tlbinv scope f xa xb) s = .next (t.setStrand s.cur ((t.strand s.cur).atPc ((t.strand s.cur).pc + 8))) := by
  intro t
  have drained : (!(s.clustersOf (clusterOf s.cur) scope).any s.translationsUsed) = true := by simp [unused]
  rw [show exec (.tlbinv scope f xa xb) s = execTlbinv scope f xa xb s from rfl, execTlbinv]
  refine helmOp_ok between ?_
  rw [bind_ok (needKernel_run privileged), bind_ok (readX_run hasA), bind_ok (readX_run hasB)]
  cases scope with
  | system => exact absurd rfl inside
  | strand | cluster | die | module => exact waitUnless_run drained _

/-- Settles O40: the invalidation reaches the strand's own cluster, and since no translation is in use it no strand that
it reaches has a late load left. -/
theorem tlbinvInvalidates : Obligations.TlbinvInvalidates := by
  unfold Obligations.TlbinvInvalidates
  intro s scope f xa xb between hasA hasB privileged inside unused c owner
  have run := exec_tlbinv f between hasA hasB privileged inside unused
  generalize s.clustersOf (clusterOf s.cur) scope = l at run
  obtain ⟨cur, lmem, pmem⟩ := invalidate_frame s f (s.reg xa) owner (c :: l)
  have strand (v : Nat) : (s.invalidate f (s.reg xa) owner (c :: l)).strand v =
      if clusterOf v ∈ c :: l then { s.strand v with late := [] } else s.strand v := by
    rw [strand_invalidate, guesses_of_translationsUsed (unused _)]
  have own : (s.invalidate f (s.reg xa) owner (c :: l)).strand s.cur = { s.me with late := [] } := by
    rw [strand, if_pos List.mem_cons_self, State.me]
  have tlb := mem_tlb_invalidate s f (s.reg xa) owner (c :: l) c
  refine ⟨_, run, ?_, lmem, pmem, fun v other => ?_, fun v near => ?_, fun e he => ?_, fun e he kept => ?_⟩
  · rw [State.me, cur_setStrand, cur, strand_setStrand_same, own]
  · rw [strand_setStrand_other _ _ other.symm, strand]
    by_cases reached : clusterOf v ∈ c :: l
    · simp only [if_pos reached, if_true]
    · rw [if_neg reached]
      split
      · next empty => rw [← empty]
      · rfl
  · by_cases self : v = s.cur
    · subst self
      rw [strand_setStrand_same, own]
      rfl
    · rw [strand_setStrand_other _ _ (Ne.symm self), strand, near, if_pos List.mem_cons_self]
  · exact ((tlb e).1 he).2 List.mem_cons_self
  · exact (tlb e).2 ⟨he, fun _ => kept⟩

end Sys2Proof.Machine
end

section
/-!
SUPPORT and proof of the statement about the fabric's events (R113, R116, R122): the peer plane table, where the values that a
target answers with are kept, and what the answer to a probe does.
-/

namespace Sys2Proof.Machine

/-! ### The peer plane table (R122) -/

/-- What is written to the table is a record of the device's own: the fabric's registers stay. -/
theorem setPeerView_records (s : State) (m : ModNum) (v : PlaneView) : OnlyRecords s (s.setPeerView m v) :=
  deviceWrite_records ..

theorem OnlyRecords.pptbase {s t : State} (h : OnlyRecords s t) : t.pptbase = s.pptbase := by rw [← h]
theorem OnlyRecords.outstanding {s t : State} (h : OnlyRecords s t) : t.outstanding = s.outstanding := by rw [← h]

/-- An entry past module SRAM reads as the free bytes of its address, whatever has been written to it (R25, log 87). -/
theorem peerView_past_sram {s t : State} {m : ModNum} (base : t.pptbase = s.pptbase) (kind : kindOf (s.peerAddr m) = 0)
    (past : 2 ^ 34 ≤ s.peerAddr m % 2 ^ 50) : t.peerView m = s.peerView m := by
  have same : t.peerAddr m = s.peerAddr m := by rw [State.peerAddr, base, State.peerAddr]
  unfold State.peerView
  rw [same, deviceRead_unreached (deviceReaches_past_sram t 4 kind past),
    deviceRead_unreached (deviceReaches_past_sram s 4 kind past)]

/-! ### The answer to a probe (R116) -/

/-- The response to a probe is its answer, whatever it says besides its values. -/
theorem response_probe {s : State} {o : Outstanding} {tag : Nat} (sent : s.request tag = some o) (probe : o.op = .probe)
    (reply : RemoteReply) (v : PlaneView) : s.response o.target tag reply v = s.probeAnswered o v := by
  have source : ¬(o.target != o.target) = true := by simp
  rw [State.response, sent]
  simp only [if_neg source, if_pos probe]

/-- New values end the probing: they are adopted. -/
theorem probeAnswered_new {s : State} {o : Outstanding} {v : PlaneView} (probing : s.peer o.target = .probing)
    (new : v ≠ s.peerView o.target) : s.probeAnswered o v = (s.dropRequest o).adopt o.target v := by
  have probing' : (s.dropRequest o).peer o.target = .probing := probing
  have new' : ¬v = (s.dropRequest o).peerView o.target := new
  rw [State.probeAnswered]
  simp only [probing', if_neg new']

/-- With nothing outstanding, values are adopted without a failure of any request; the table stays where it is. -/
theorem adopt_pptbase {s : State} (idle : s.outstanding = []) (m : ModNum) (v : PlaneView) :
    (s.adopt m v).pptbase = s.pptbase := by
  have records := setPeerView_records s m v
  have idle' := records.outstanding.trans idle
  rw [← records.pptbase, State.adopt]
  generalize s.setPeerView m v = t at idle'
  split
  · have none : (t.setPeer m .running).outstanding = [] := by rw [State.setPeer, idle', List.filter_nil]
    rw [State.sweepPlanes, none]
    rfl
  · rfl

/-! ### The table past module SRAM -/

/-- A probe of module 5 on its way, under tag 7. -/
def probeOfFive : Outstanding :=
  { tag := 7, who := .fabric, target := 5, pa := 0, va := 0, owner := 0, op := .probe, acc := 0, ident := 0, state := .sent,
    plane := 0, link := 0, view := ⟨0, 0⟩, replay := false, returned := 0, failure := 0, strip := none, level := 7,
    parts := [] }

/-- A module that probes module 5, and whose PPTBASE names an address past module SRAM. -/
def lostTable : State :=
  { State.reset with live := 15, pptbase := 0x400000000, outstanding := [probeOfFive], peers := [(5, .probing)] }

/-- Refutes O58: the values that a probe's answer brings are lost where PPTBASE names no storage (R25). What the module then
reads of its target is what it read before, free bytes of the address (log 87), and not the values that it has adopted. -/
theorem not_fabricRows : ¬ Obligations.FabricRows := by
  unfold Obligations.FabricRows
  intro h
  let known := lostTable.peerView 5
  let view : PlaneView := ⟨15, known.count + 1⟩
  have new : view ≠ lostTable.peerView 5 := fun e => absurd (congrArg PlaneView.count e) (by simp [view, known])
  obtain ⟨-, -, -, -, -, -, -, -, -, -, -, -, -, -, -, probed, -⟩ := h lostTable 0 0 5 7 view probeOfFive
  obtain ⟨t, run, adopted, -⟩ :=
    (probed (.done []) ⟨rfl, rfl, rfl, rfl, Memory.wf_nil⟩ rfl rfl).2 new (by decide)
  have answered : exec (.remoteResponse 5 7 (.done []) view) lostTable =
      .next ((lostTable.dropRequest probeOfFive).adopt 5 view) :=
    congrArg Host.Outcome.next ((response_probe (o := probeOfFive) rfl rfl _ _).trans (probeAnswered_new rfl new))
  obtain rfl : (lostTable.dropRequest probeOfFive).adopt 5 view = t := Host.Outcome.next.inj (answered.symm.trans run)
  have lost := peerView_past_sram (s := lostTable) (m := 5) (adopt_pptbase (s := lostTable.dropRequest probeOfFive) rfl 5 view)
    (by decide) (by decide)
  exact new (adopted.symm.trans lost)

end Sys2Proof.Machine
end

section
/-!
SUPPORT and proof of the statement about fences that report a failed store (R111, R135, R141, R297, R299): what a fence does on
a strand that has nothing to wait for, and the report that it then makes.
-/

namespace Sys2Proof.Machine

/-! ### Only the caches of the helm differ -/

/-- `t` is `s` but for the caches of the helm that issues, once the strand that issues is replaced in both. -/
def State.UpToCaches (s t : State) : Prop :=
  t.cur = s.cur ∧ t.me = s.me ∧ ∀ k, s.BecomesUpToCache (t.become k) k

theorem upToCaches_refl (s : State) : s.UpToCaches s := ⟨rfl, rfl, fun _ => ⟨rfl, fun _ _ => rfl⟩⟩

/-- The strand that issues is replaced by itself. -/
theorem upToCaches_become_me (s : State) : s.UpToCaches (s.become s.me) :=
  ⟨rfl, me_setStrand s s.me, fun k => ⟨setStrand_setStrand s s.cur s.me k, fun _ _ => rfl⟩⟩

/-- Lines leave the helm's data cache. -/
theorem State.UpToCaches.dropData {s t : State} (h : s.UpToCaches t) (keep : CacheLine → Bool) :
    s.UpToCaches (t.dropData (helmOf s.cur) keep) := by
  obtain ⟨cur, me, becomes⟩ := h
  refine ⟨cur, me, fun k => ⟨(becomes k).1, fun n other => ?_⟩⟩
  rw [← (becomes k).2 n other]
  exact Tab.get_set_other _ _ _ (Ne.symm other)

/-! ### Nothing to wait for -/

section
variable {s : State} (quiet : s.quiet)
include quiet

theorem queueEmptyM_quiet : queueEmptyM s.cur s = .ok () s := by
  obtain ⟨-, queue, -⟩ := quiet
  have empty : (s.strand s.cur).queueEmpty = true := List.isEmpty_iff.2 queue
  rw [queueEmptyM, run_getStrand_bind, empty]
  rfl

theorem elemsClear_quiet : s.elemsClear s.cur = true := by
  obtain ⟨-, -, -, -, stores, ports, outstanding, -⟩ := quiet
  rw [State.elemsClear, State.elemsOut, stores, ports, outstanding]
  rfl

theorem updatesOut_quiet : s.updatesOut s.cur = false := by
  obtain ⟨-, -, -, -, stores, ports, outstanding, -⟩ := quiet
  simp only [State.updatesOut, stores, ports, outstanding]
  rfl

theorem drainM_quiet : drainM s.cur s = .ok () s := by
  obtain ⟨-, -, buffer, -, -, ports, outstanding, -⟩ := quiet
  have empty : (s.strand s.cur).writeBuffer = [] := buffer
  have clear : s.bufferClear s.cur = true := by
    rw [State.bufferClear, State.storesOut, empty, ports, outstanding]
    rfl
  rw [drainM, empty]
  exact if_pos clear

theorem remoteDone_quiet : remoteDone s.cur s = .ok () s := by
  rw [remoteDone, bind_ok (queueEmptyM_quiet quiet)]
  obtain ⟨-, -, buffer, -, stores, -, outstanding, -⟩ := quiet
  have empty : (s.strand s.cur).writeBuffer = [] := buffer
  have drained : s.drainRemote s.cur = s := by rw [State.drainRemote, empty]; rfl
  have none : (!s.remoteHeld s.cur && !s.remoteOut s.cur) = true := by
    rw [State.remoteHeld, State.remoteOut, empty, stores, outstanding]
    rfl
  rw [run_modS_bind, drained, run_getS_bind, none]
  rfl

theorem releaseM_quiet (scope : Scope) : releaseM s.cur scope s = .ok () s := by
  unfold releaseM
  rw [bind_ok (queueEmptyM_quiet quiet), run_getS_bind, elemsClear_quiet quiet, run_waitUnless_true_bind]
  cases scope
  case strand => rfl
  case cluster | die => exact drainM_quiet quiet
  case module | system => exact (bind_ok (drainM_quiet quiet)).trans (remoteDone_quiet quiet)

theorem acquireWaits_quiet : acquireWaits s.cur s = .ok () s := by
  rw [acquireWaits, bind_ok (queueEmptyM_quiet quiet), run_getS_bind, updatesOut_quiet quiet]
  rfl

/-- A fence of system scope forgets the held stores that its strand has read: there are none. -/
theorem systemWaits_quiet (scope : Scope) :
    systemWaits s.cur scope s = .ok () (if scope = .system then s.become s.me else s) := by
  cases scope
  case system =>
    have remote := remoteDone_quiet quiet
    obtain ⟨-, -, -, forwarded, -⟩ := quiet
    have none : (s.strand s.cur).forwarded = [] := forwarded
    have same : { s.strand s.cur with forwarded := [] } = s.strand s.cur := by rw [← none]
    rw [systemWaits, bind_ok remote, run_getS_bind, State.forwardedOut, none]
    simp only [List.any_nil, Bool.not_false, run_waitUnless_true_bind, run_modStrand, same]
    rfl
  case strand | cluster | die | module => rfl

end

/-- An acquire of a scope wider than its strand gives up the helm's data cache. -/
theorem acquireM_run (u : Nat) (scope : Scope) (s : State) :
    acquireM u scope s = .ok () (if scope = .strand then s else s.dropData (helmOf u) noLine) := by
  cases scope <;> rfl

/-- The state in which the waits of a fence end, on a strand that has nothing to wait for. -/
def State.fencePassed (s : State) (scope : Scope) (order : Order) : State :=
  let t := if scope = .system then s.become s.me else s
  if orderAcquires order = true ∧ scope ≠ .strand then t.dropData (helmOf s.cur) noLine else t

theorem fenceWaits_quiet {s : State} (quiet : s.quiet) (scope : Scope) (order : Order) :
    fenceWaits s.cur scope order s = .ok () (s.fencePassed scope order) := by
  have acquire (t : State) (h : orderAcquires order = true) : acquireM s.cur scope t =
      .ok () (if orderAcquires order = true ∧ scope ≠ .strand then t.dropData (helmOf s.cur) noLine else t) := by
    rw [acquireM_run]
    by_cases own : scope = .strand <;> simp [own, h]
  unfold fenceWaits
  rw [bind_ok (queueEmptyM_quiet quiet)]
  cases order
  case relaxed => exact bind_ok (systemWaits_quiet quiet scope)
  case acq =>
    exact (bind_ok (acquireWaits_quiet quiet)).trans ((bind_ok (systemWaits_quiet quiet scope)).trans (acquire _ rfl))
  case rel => exact (bind_ok (releaseM_quiet quiet scope)).trans (bind_ok (systemWaits_quiet quiet scope))
  case ar =>
    exact (bind_ok (releaseM_quiet quiet scope)).trans ((bind_ok (systemWaits_quiet quiet scope)).trans (acquire _ rfl))

theorem fencePassed_upToCaches (s : State) (scope : Scope) (order : Order) : s.UpToCaches (s.fencePassed scope order) := by
  have start : s.UpToCaches (if scope = .system then s.become s.me else s) := by
    split
    · exact upToCaches_become_me s
    · exact upToCaches_refl s
  unfold State.fencePassed
  dsimp only
  split
  · exact start.dropData noLine
  · exact start

/-- Lines leave the data cache of a helm, not its instruction cache. -/
theorem helm_dropData_noLine (s : State) (h : Nat) : ((s.dropData h noLine).helm h).icache = (s.helm h).icache ∧
    ((s.dropData h noLine).helm h).dcache = [] := by
  rw [State.dropData, helm_setHelm_same]
  exact ⟨rfl, List.filter_eq_nil_iff.2 fun _ _ => Bool.false_ne_true⟩

theorem fencePassed_helm (s : State) {scope : Scope} (wide : scope ≠ .strand) (order : Order) :
    ((s.fencePassed scope order).helm (helmOf s.cur)).icache = (s.helm (helmOf s.cur)).icache ∧
      ((s.fencePassed scope order).helm (helmOf s.cur)).dcache =
        if orderAcquires order then [] else (s.helm (helmOf s.cur)).dcache := by
  have start : (if scope = .system then s.become s.me else s).helm (helmOf s.cur) = s.helm (helmOf s.cur) := by
    split <;> rfl
  unfold State.fencePassed
  by_cases acquires : orderAcquires order = true
  · rw [if_pos ⟨acquires, wide⟩, if_pos acquires, ← start]
    exact helm_dropData_noLine _ _
  · rw [if_neg fun h => acquires h.1, if_neg acquires, start]
    exact ⟨rfl, rfl⟩

/-! ### The report (R111) -/

/-- The strand after its failed store has been reported. -/
def Strand.reported (t : Strand) : Strand := { t with fabpend := false, fabcode := 0, fabaddr := 0 }

/-- In user mode a failed store that awaits its report traps. -/
theorem fabricReport_pending {t : State} {u : Nat} (user : (t.strand u).mode = .user)
    (pending : (t.strand u).fabpend = true) : fabricReport u t =
      .error (.trap ⟨6, (t.strand u).fabcode.toNat, (t.strand u).fabaddr, none⟩) (t.setStrand u (t.strand u).reported) := by
  rw [fabricReport, run_getStrand_bind, user]
  dsimp only
  rw [if_pos pending]
  rfl

/-- Where no access is under way the column engine is not busy, and a trap is taken. -/
theorem trapOr_quiet {s t : State} {me : Strand} (quiet : s.quiet) (becomes : s.BecomesUpToCache t me) (empty : me.queue = [])
    (tr : Trap) : s.trapOr s.cur tr t = t.trapEntry s.cur tr := by
  obtain ⟨same, -⟩ := becomes
  obtain ⟨-, -, -, -, -, ports, outstanding, arrived⟩ := quiet
  have ports' : t.ports = [] := (congrArg State.ports same).trans ports
  have outstanding' : t.outstanding = [] := (congrArg State.outstanding same).trans outstanding
  have arrived' : t.arrived = [] := (congrArg State.arrived same).trans arrived
  have queue : (t.strand s.cur).queue = [] := by
    have strand : t.strand s.cur = me := (congrArg (State.strand · s.cur) same).trans (strand_setStrand_same s s.cur me)
    rw [strand, empty]
  have free : ¬t.columnBusy s.cur = true := by
    rw [State.columnBusy, State.columnAtomic, queue, ports', outstanding', arrived']
    exact Bool.false_ne_true
  rw [State.trapOr, if_neg free]

/-- An instruction that waits as a fence does, and then reports, on a user-mode strand that has a failed store. -/
theorem helmOp_reports {s t : State} {body : Nat → M Unit} (quiet : s.quiet) (user : s.me.mode = .user)
    (pending : s.me.fabpend = true) (passed : s.UpToCaches t) (run : body s.cur s = fabricReport s.cur t) :
    helmOp body s = .next ((t.become s.me.reported).trapEntry s.cur ⟨6, s.me.fabcode.toNat, s.me.fabaddr, none⟩) := by
  have ⟨⟨between, _⟩, queue, _⟩ := quiet
  obtain ⟨cur, me, becomes⟩ := passed
  have strand : t.strand s.cur = s.me := by rw [← me, State.me, cur]
  rw [fabricReport_pending (strand ▸ user) (strand ▸ pending), strand] at run
  have becomes' := becomes s.me.reported
  rw [State.become, cur] at becomes' ⊢
  rw [helmOp_trap between run, trapOr_quiet quiet becomes' queue]

/-! ### FENCE and PFENCE -/

theorem exec_pfence_reports {s : State} (quiet : s.quiet) (user : s.me.mode = .user) (pending : s.me.fabpend = true) :
    exec .pfence s =
      .next ((s.become s.me.reported).trapEntry s.cur ⟨6, s.me.fabcode.toNat, s.me.fabaddr, none⟩) := by
  rw [show exec .pfence s = execPfence s from rfl, execPfence]
  exact helmOp_reports quiet user pending (upToCaches_refl s) (bind_ok (remoteDone_quiet quiet))

/-- A fence of module or system scope reports after its waits. -/
theorem exec_fence_reports {s : State} {scope : Scope} (order : Order) (quiet : s.quiet) (user : s.me.mode = .user)
    (pending : s.me.fabpend = true) (wide : scope = .module ∨ scope = .system) :
    exec (.fence scope order) s = .next (((s.fencePassed scope order).become s.me.reported).trapEntry s.cur
      ⟨6, s.me.fabcode.toNat, s.me.fabaddr, none⟩) := by
  rw [show exec (.fence scope order) s = execFence scope order s from rfl, execFence]
  refine helmOp_reports quiet user pending (fencePassed_upToCaches s scope order) ?_
  obtain rfl | rfl := wide <;> exact bind_ok (fenceWaits_quiet quiet _ order)

/-- A fence of a narrower scope goes on after its waits; FENCE.str.ar gives up the helm's data cache besides (log 94). -/
theorem exec_fence_passes {s : State} {scope : Scope} (order : Order) (quiet : s.quiet) (notModule : scope ≠ .module)
    (notSystem : scope ≠ .system) : ∃ t, s.UpToCaches t ∧
      exec (.fence scope order) s = .next (t.become (s.me.atPc (s.me.pc + 8))) := by
  have ends {body : Nat → M Unit} {t : State} (passed : s.UpToCaches t) (run : body s.cur s = .ok () t) :
      helmOp body s = .next (t.become (s.me.atPc (s.me.pc + 8))) := by
    have ⟨⟨between, _⟩, _⟩ := quiet
    obtain ⟨cur, me, -⟩ := passed
    have strand : t.strand s.cur = s.me := by rw [← me, State.me, cur]
    rw [helmOp_ok between run, strand, State.become, cur]
  have passed := fencePassed_upToCaches s scope order
  have waits := fenceWaits_quiet quiet scope order
  rw [show exec (.fence scope order) s = execFence scope order s from rfl, execFence]
  cases scope
  case module => exact absurd rfl notModule
  case system => exact absurd rfl notSystem
  case cluster | die => exact ⟨_, passed, ends passed (bind_ok waits)⟩
  case strand =>
    cases order
    case ar => exact ⟨_, passed.dropData noLine, ends (passed.dropData noLine) (bind_ok waits)⟩
    case relaxed | acq | rel => exact ⟨_, passed, ends passed (bind_ok waits)⟩

/-- Settles O38: once its waits are over, the fence meets the failed store, and nothing keeps the trap from being taken. -/
theorem fencesReport : Obligations.FencesReport := by
  unfold Obligations.FencesReport
  intro s order scope quiet user pending me reports
  refine ⟨fun wide => ?_, fun notModule notSystem => ?_, exec_pfence_reports quiet user pending⟩
  · obtain ⟨-, -, becomes⟩ := fencePassed_upToCaches s scope order
    have notStrand : scope ≠ .strand := by obtain rfl | rfl := wide <;> decide
    obtain ⟨icache, dcache⟩ := fencePassed_helm s notStrand order
    exact ⟨(s.fencePassed scope order).become me, becomes me, icache, dcache,
      exec_fence_reports order quiet user pending wide⟩
  · obtain ⟨t, ⟨-, -, becomes⟩, run⟩ := exec_fence_passes order quiet notModule notSystem
    exact ⟨_, run, becomes _⟩

end Sys2Proof.Machine
end

section
/-!
SUPPORT and proof of the statement about user-level interrupts (R144, R238): what the exchange of x24 to x31 with the shadow
set makes of each register, where the interrupt is taken, and what UIRET does.
-/

namespace Sys2Proof.Machine

/-! ### The exchange of x24 to x31 with the shadow set (R238) -/

section Exchange

variable {t t' : Strand}

/-- Registers below x24 have no second copy. -/
theorem readX_low_of_exchange (x : t'.x = t.swapShadow.x) {r : Reg} (low : r.toNat < 24) : t'.readX r = t.readX r := by
  have other : ¬24 ≤ r.toNat := Nat.not_le.2 low
  simp only [Strand.readX, x, Strand.swapShadow, Vector.getElem_ofFn, if_neg other, Fin.getElem_fin]

theorem readX_high_of_exchange (x : t'.x = t.swapShadow.x) (i : Fin 8) :
    t'.readX (BitVec.ofNat 5 (24 + i.val)) = t.shadow[i] := by
  have number : (BitVec.ofNat 5 (24 + i.val)).toNat = 24 + i.val := by rw [BitVec.toNat_ofNat]; omega
  have notZero : BitVec.ofNat 5 (24 + i.val) ≠ 0 := by bv_omega
  have slot : (24 + i.val) % 8 = i.val := by omega
  simp only [Strand.readX, if_neg notZero, x, Strand.swapShadow, Vector.getElem_ofFn, number, Nat.le_add_right, if_true, slot,
    Fin.getElem_fin]

theorem shadow_of_exchange (shadow : t'.shadow = t.swapShadow.shadow) (i : Fin 8) : t'.shadow[i] = t.x[24 + i.val] := by
  simp only [shadow, Strand.swapShadow, Fin.getElem_fin, Vector.getElem_ofFn]

end Exchange

/-! ### Where a user-level interrupt is taken -/

@[simp] theorem Strand.enterUser_x (t : Strand) : t.enterUser.x = t.swapShadow.x := rfl
@[simp] theorem Strand.enterUser_shadow (t : Strand) : t.enterUser.shadow = t.swapShadow.shadow := rfl

-- The updates are unfolded first: `rfl` would compare the two strands field by field, the exchanged sets among them.
theorem Strand.enterUser_frame (t : Strand) : t.enterUser.mode = t.mode ∧ t.enterUser.owner = t.owner ∧
    t.enterUser.kept = t.kept ∧ t.enterUser.v = t.v := by
  simp only [Strand.enterUser, Strand.swapShadow, and_self]

theorem Strand.userReady_iff (t : Strand) : t.userReady = true ↔ t.kept.intq ≠ [] ∧ t.uie = true ∧ t.uia = false := by
  simp [Strand.userReady, and_assoc]

theorem exec_userInterrupt_taken {s : State} {uid : Uid} (boundary : s.atBoundary uid.toNat = true)
    (ready : (s.strand uid.toNat).userReady = true) : exec (.userInterrupt uid) s =
      .next ((s.setStrand uid.toNat (s.strand uid.toNat).enterUser).dropData (helmOf uid.toNat) noLine) := by
  rw [show exec (.userInterrupt uid) s = .next (s.takeUser uid.toNat) from rfl, State.takeUser, boundary, ready]
  rfl

theorem exec_userInterrupt_not_taken {s : State} {uid : Uid}
    (not : ¬(s.atBoundary uid.toNat = true ∧ (s.strand uid.toNat).userReady = true)) :
    exec (.userInterrupt uid) s = .next s := by
  rw [← Bool.and_eq_true] at not
  rw [show exec (.userInterrupt uid) s = .next (s.takeUser uid.toNat) from rfl, State.takeUser, if_neg not]

/-! ### UIRET -/

/-- The strand that has left its handler, before it goes on at uiepc (R238). -/
def Strand.leaveUser (t : Strand) : Strand := { t.swapShadow with uia := false }

@[simp] theorem Strand.leaveUser_x (t : Strand) (pc : Word) : (t.leaveUser.atPc pc).x = t.swapShadow.x := rfl
@[simp] theorem Strand.leaveUser_shadow (t : Strand) (pc : Word) :
    (t.leaveUser.atPc pc).shadow = t.swapShadow.shadow := rfl

theorem Strand.leaveUser_frame (t : Strand) (pc : Word) : (t.leaveUser.atPc pc).mode = t.mode ∧
    (t.leaveUser.atPc pc).owner = t.owner ∧ (t.leaveUser.atPc pc).v = t.v := by
  simp only [Strand.atPc, Strand.leaveUser, Strand.swapShadow, and_self]

theorem exec_uiret_active {s : State} (between : s.between) (active : s.me.uia = true) :
    exec .uiret s = .next (s.become (s.me.leaveUser.atPc s.me.uiepc)) := by
  rw [State.me] at active ⊢
  rw [show exec .uiret s = execUiret s from rfl, execUiret,
    helmJump_ok between (pc := (s.strand s.cur).uiepc) (t := s.setStrand s.cur (s.strand s.cur).leaveUser),
    strand_setStrand_same, setStrand_setStrand, State.become]
  simp only [run_getStrand_bind, active, if_true, run_modStrand_bind, run_pure, Strand.leaveUser]

theorem exec_uiret_inactive {s : State} (between : s.between) (inactive : s.me.uia = false) :
    exec .uiret s = s.traps 1 0 s.me.pc := by
  rw [State.me] at inactive ⊢
  rw [show exec .uiret s = execUiret s from rfl, execUiret, State.traps, helmJump_trap between]
  simp only [run_getStrand_bind, inactive, Bool.false_eq_true, if_false, illegal]

/-- Settles O32: the entry and UIRET exchange the two sets alike, and an interrupt that misses a condition of R238 is not
taken. -/
theorem userInterrupts : Obligations.UserInterrupts := by
  unfold Obligations.UserInterrupts
  intro s uid
  dsimp only
  refine ⟨fun boundary pending enabled inactive => ?_, fun missing => ?_, fun between active => ?_, exec_uiret_inactive⟩
  · have ready := (Strand.userReady_iff _).2 ⟨pending, enabled, inactive⟩
    have x := Strand.enterUser_x (s.strand uid.toNat)
    have shadow := Strand.enterUser_shadow (s.strand uid.toNat)
    exact ⟨_, exec_userInterrupt_taken boundary ready, rfl, rfl, rfl, fun _ => readX_low_of_exchange x,
      fun i => ⟨readX_high_of_exchange x i, shadow_of_exchange shadow i⟩, Strand.enterUser_frame _⟩
  · refine exec_userInterrupt_not_taken fun ⟨boundary, ready⟩ => ?_
    obtain ⟨pending, enabled, inactive⟩ := (Strand.userReady_iff _).1 ready
    obtain h | h | h | h := missing
    · exact Bool.false_ne_true (h.symm.trans boundary)
    · exact pending h
    · exact Bool.false_ne_true (h.symm.trans enabled)
    · exact Bool.false_ne_true (inactive.symm.trans h)
  · have x := Strand.leaveUser_x s.me s.me.uiepc
    have shadow := Strand.leaveUser_shadow s.me s.me.uiepc
    exact ⟨_, exec_uiret_active between active, rfl, rfl, fun _ => readX_low_of_exchange x,
      fun i => ⟨readX_high_of_exchange x i, shadow_of_exchange shadow i⟩, Strand.leaveUser_frame _ _⟩

end Sys2Proof.Machine
end
